-- ==== Sys2Proof/Word.lean ====
section
/-! DEFINITION. The byte of the control link, and the clamp of the manual's conventions. -/

namespace Sys2Proof

/-- One byte of the control link (R163). -/
abbrev Byte := BitVec 8

/-- "clamp(x, a, b)" of the conventions on arithmetic (00_scope.md): x raised to a if below a and lowered to b
if above b. -/
def clampInt (x lo hi : Int) : Int := min hi (max lo x)

/-- The same clamp on naturals. -/
def clampNat (x lo hi : Nat) : Nat := min hi (max lo x)

end Sys2Proof
end

