-- ==== Sys2Proof/Syntax.lean ====
section
/-! DEFINITION. The commands and events of the part: one constructor of `Instr` for each row of
spec/opcode_table.json, with the operands the row's rule gives it. -/

namespace Sys2Proof

/-- The RF inputs (00_scope.md, names of fixed things). -/
inductive RfInput where
  | a | b | c | d
deriving DecidableEq, Repr

/-- The class of an input (R144). -/
inductive InputClass where
  | disabled | terrestrial | satellite | cable
deriving DecidableEq, Repr

/-- The modulation kinds (R144). -/
inductive Modulation where
  | qpsk | psk8 | apsk16 | qam64 | qam256 | ofdm16 | ofdm64
deriving DecidableEq, Repr

/-- The code-rate labels (R144). -/
inductive CodeRate where
  | r1_2 | r3_5 | r2_3 | r3_4 | r4_5 | r5_6 | r7_8 | r8_9 | r9_10 | noRate
deriving DecidableEq, Repr

/-- One entry of a carrier-list section (R50). `cls` is none for a delivery class that is none of the three, `hint` is
none for a hint that is none of the seven kinds. -/
structure ListEntry where
  cls : Option InputClass
  freq : Nat
  symRate : Nat
  hint : Option Modulation
deriving DecidableEq, Repr

/-- The identity a carrier gives (R50, R52). -/
structure Identity where
  origin : Nat
  transport : Nat
  listAnnounced : Bool
deriving DecidableEq, Repr

/-- What a section holds, by its kind (R50). -/
inductive SectionBody where
  | identity (id : Identity)
  | serviceList (part last : Nat) (numbers : List Nat)
  | carrierList (part last : Nat) (entries : List ListEntry)
deriving DecidableEq, Repr

/-- A section as the section filter passes it, marked as passed or failed (R50). -/
structure Section where
  passed : Bool
  body : SectionBody
deriving DecidableEq, Repr

/-- The payload of SET_INPUT (R165). -/
structure InputEdit where
  input : Nat
  cls : Nat
  bias : Int
  discovery : Nat
  windowPresent : Nat
  winMin : Nat
  winMax : Nat
deriving DecidableEq, Repr

/-- The payload of SET_PROFILE (R165). -/
structure ProfileEdit where
  profile : Nat
  modulation : Nat
  codeRate : Nat
  reqMer : Nat
  lockTimeout : Nat
  k : Nat
deriving DecidableEq, Repr

/-- The fields ADD_CARRIER and SET_CARRIER give a planned carrier (R148, R149, R165). -/
structure CarrierFields where
  symRate : Nat
  profile : Nat
  idPresent : Nat
  origin : Nat
  transport : Nat
  excluded : Nat
deriving DecidableEq, Repr

/-- How DROP_CARRIER and SET_CARRIER name a carrier: form 0 by key, form 1 by index (R149, R165). -/
structure CarrierName where
  form : Nat
  target : Nat
  freq : Nat
deriving DecidableEq, Repr

/-- The payload of BIND_ROOM (R165). -/
structure BindEdit where
  room : Nat
  primaryPresent : Nat
  primaryOrigin : Nat
  primaryNumber : Nat
  fallbackPresent : Nat
  fallbackOrigin : Nat
  fallbackNumber : Nat
  priority : Nat
deriving DecidableEq, Repr

/-- The payload of SET_WATCH (R165). -/
structure WatchEdit where
  watch : Nat
  kind : Nat
  subject : Nat
  action : Nat
  statePresent : Nat
  state : Nat
  marginPresent : Nat
  margin : Int
  scorePresent : Nat
  score : Nat
  selectionChanged : Nat
  routePresent : Nat
  route : Nat
deriving DecidableEq, Repr

/-- The commands of the command table (R165), with their payload fields. -/
inductive HostCommand where
  | identify
  | readStatus
  | restart
  | setNotices (mask : Nat)
  | freeze
  | thaw
  | getCarrier (index : Nat)
  | listCarriers (start : Nat)
  | getService (index : Nat)
  | listServices (start : Nat)
  | getRoom (room : Nat)
  | getSlot (slot : Nat)
  | surveyNow (index : Nat)
  | setSurveyMode (mode : Nat)
  | clearSurvey
  | slotOffline (slot : Nat)
  | slotOnline (slot : Nat)
  | setInput (e : InputEdit)
  | setProfile (e : ProfileEdit)
  | addCarrier (input freq : Nat) (f : CarrierFields)
  | dropCarrier (n : CarrierName)
  | setCarrier (n : CarrierName) (f : CarrierFields)
  | bindRoom (e : BindEdit)
  | unbindRoom (room : Nat)
  | setParams (number value : Nat)
  | commitPlan
  | discardPlan
  | setWatch (e : WatchEdit)
  | clearWatch (watch : Nat)
  | ackWatch (watch : Nat)
  | setAlertMode (mode : Nat)
deriving DecidableEq, Repr

/-- The commands and events of spec/opcode_table.json, one constructor a row. The first thirty-one are the host's
commands; the others are events of the link, the reset, the clock, the slots and the router. -/
inductive Instr where
  | identify
  | readStatus
  | restart
  | setNotices (mask : Nat)
  | freeze
  | thaw
  | getCarrier (index : Nat)
  | listCarriers (start : Nat)
  | getService (index : Nat)
  | listServices (start : Nat)
  | getRoom (room : Nat)
  | getSlot (slot : Nat)
  | surveyNow (index : Nat)
  | setSurveyMode (mode : Nat)
  | clearSurvey
  | slotOffline (slot : Nat)
  | slotOnline (slot : Nat)
  | setInput (e : InputEdit)
  | setProfile (e : ProfileEdit)
  | addCarrier (input freq : Nat) (f : CarrierFields)
  | dropCarrier (n : CarrierName)
  | setCarrier (n : CarrierName) (f : CarrierFields)
  | bindRoom (e : BindEdit)
  | unbindRoom (room : Nat)
  | setParams (number value : Nat)
  | commitPlan
  | discardPlan
  | setWatch (e : WatchEdit)
  | clearWatch (watch : Nat)
  | ackWatch (watch : Nat)
  | setAlertMode (mode : Nat)
  | byteReceived (b : Byte)
  | byteGapTimeout
  | commandTaken
  | transmitStart
  | frameSent
  | restartTakesEffect (strapHigh : Bool)
  | powerOn
  | resetAssert
  | resetRelease (strapHigh : Bool)
  | secondCountAdvance
  | holdUntilReached (service : Fin 256)
  | unparkTimeEnd (slot : Fin 8)
  | releaseTimeEnd (slot : Fin 8)
  | park (slot : Fin 8)
  | lockGained (slot : Fin 8)
  | lockTimeout (slot : Fin 8)
  | retuneTimeout (slot : Fin 8)
  | lockLoss (slot : Fin 8)
  | sectionReceived (slot : Fin 8) (sec : Section)
  | idTimeout (slot : Fin 8)
  | svcTimeout (slot : Fin 8)
  | listTimeout (slot : Fin 8)
  | recheckStart (slot : Fin 8)
  | recheckIdTimeout (slot : Fin 8)
  | recheckSvcTimeout (slot : Fin 8)
  | symbolDelivered (slot : Fin 8) (q : Nat)
  | blockReport (slot : Fin 8)
  | windowComplete (slot : Fin 8) (reading : Int)
  | grantRequest (service : Fin 256)
  | switchPoint (port : Fin 4) (slot : Fin 8)
  | switchTimeout (room : Fin 48)
  | calibrationEnd
  | pulseTimerEnd
deriving DecidableEq, Repr

end Sys2Proof
end

