-- ==== Sys2Proof/Decode.lean ====
section
/-! DEFINITION. The command that a word of spec/opcode_table.json's bits spells. The table gives bits to no row (each
row's `fields` is empty and none has fixed bits), so no word spells a command. The link's own byte layout of commands
is in Machine/Frames.lean. -/

namespace Sys2Proof

/-- No row of spec/opcode_table.json has bits, so no word of the table's bits spells a command (log entry 1). -/
def decodeTableWord (_nbits _w : Nat) : Option Instr := none

end Sys2Proof
end

