-- ==== Sys2Proof/Config.lean ====
section
/-! DEFINITION. The free values: what the manual leaves open and the part nevertheless settles somehow. None has a
body, so nothing can be proved of its value; a statement about one holds whatever it is. -/

namespace Sys2Proof

/-- What a yes-or-no byte of a command means when it is neither 0 nor 1 (R165 gives no meaning to such a byte).
DESIGN CHOICE, log entry 2. -/
opaque Config.flagByte : Nat → Bool

/-- The order in which things that come together are taken, where the manual says that either order may be taken
(R42: slots that join the reference queue together) and at the expiry of several timers on one tick: the key of the
`i`-th item at draw `n`. DESIGN CHOICE, log entry 3. -/
opaque Config.orderKey : Nat → Nat → Nat

/-- A stored time that would pass the 32-bit maximum of the second count (00_scope.md: every stored time is a value of
the second count; no rule says what it is then). Arguments: now, and the duration added. DESIGN CHOICE, log entry 4. -/
opaque Config.timePastEnd : Nat → Nat → BitVec 32

end Sys2Proof
end

