-- ==== Sys2Proof/Machine/State.lean ====
section
/-! DEFINITION. The state of the part as plain data: every register, queue, table, timer and pin the manual gives it,
the queue of commands that wait, and its value after reset. INVENTORY.md lists each field with the rule that names it. -/

namespace Sys2Proof.Machine

/-! ## Tables with numbered places -/

/-- A table with numbered places (the carrier table R71, the service table R108): place and entry, places strictly
rising. -/
abbrev Table (α : Type) := List (Nat × α)

/-! ## The plan (R144) -/

structure InputCfg where
  cls : InputClass
  bias : Int
  winMin : Nat
  winMax : Nat
  discovery : Bool
deriving DecidableEq, Repr

structure Profile where
  modulation : Modulation
  codeRate : CodeRate
  reqMer : Nat
  lockTimeout : Nat
  k : Nat
deriving DecidableEq, Repr

/-- A service key: origin id and service number (00_scope.md). -/
structure ServiceKey where
  origin : Nat
  number : Nat
deriving DecidableEq, Repr

/-- An expected identity: origin id and transport id (R144). -/
structure ExpectedId where
  origin : Nat
  transport : Nat
deriving DecidableEq, Repr

/-- A planned carrier record (R144). -/
structure Planned where
  input : RfInput
  freq : Nat
  symRate : Nat
  profile : Fin 8
  expected : Option ExpectedId
  excluded : Bool
deriving DecidableEq, Repr

/-- The binding of a room channel (R144). -/
structure Binding where
  primary : Option ServiceKey
  fallback : Option ServiceKey
  priority : Nat
deriving DecidableEq, Repr

/-- The ten parameters (R151). -/
structure Params where
  hysteresis : Nat
  leadCount : Nat
  settle : Nat
  floor : Nat
  guardMargin : Nat
  maxAge : Nat
  minInterval : Nat
  holdLimit : Nat
  reserve : Nat
  windows : Nat
deriving DecidableEq, Repr

/-- A plan: the five parts of R144. -/
structure Plan where
  inputs : Vector InputCfg 4
  profiles : Vector Profile 8
  carriers : List Planned
  bindings : Vector Binding 48
  params : Params
deriving DecidableEq, Repr

/-- The record of the last applied commit (R154). -/
structure CommitRecord where
  number : Nat
  time : Nat
  added : Nat
  removed : Nat
  evicted : Nat
  removalPending : Nat
  passStarted : Bool
deriving DecidableEq, Repr

/-- The plan store (section 8 of the manual). -/
structure PlanStore where
  committed : Plan
  staged : Option Plan
  last : CommitRecord
deriving DecidableEq, Repr

/-! ## The slots -/

inductive SlotState where
  | offline | parked | idle | tuning | acquiring | locked | releasing
deriving DecidableEq, Repr

inductive Role where
  | none | survey | carry
deriving DecidableEq, Repr

inductive TunerPower where
  | off | unparking | on
deriving DecidableEq, Repr

inductive CalStatus where
  | none | waiting | active | done
deriving DecidableEq, Repr

/-- The measurement unit of a slot (section 1.1 of the manual). `k` is the latched window exponent; W, s and d are
derived from it (R1). -/
structure MeasUnit where
  k : Option Nat
  active : Bool
  symbols : Nat
  acc : Nat
  overflow : Nat
  u : Nat
deriving DecidableEq, Repr

/-- The stages of an acquisition channel (section 3.1 of the manual). -/
inductive Stage where
  | none | lockWait | idWait | idCheck | svcWait | listWait | recheckId | recheckSvc
deriving DecidableEq, Repr

/-- A part assembler (R54, R57): the last-part number and the parts stored, in order of arrival. -/
structure Assembly (α : Type) where
  last : Option Nat
  parts : List (Nat × List α)
deriving DecidableEq, Repr

/-- A formed service list (R55). -/
structure FormedList where
  keys : List ServiceKey
  truncated : Bool
deriving DecidableEq, Repr

/-- The acquisition channel of a slot (section 3.1 of the manual). `recheckDue` is the model's own: the window count has reached
256 and the step RECHECK_START has not come yet (log entry 5). -/
structure Channel where
  stage : Stage
  timer : Option Nat
  held : Option Identity
  services : Assembly Nat
  listing : Assembly ListEntry
  formed : Option FormedList
  windows : Nat
  recheckDue : Bool
deriving DecidableEq, Repr

/-- The slot record (section 2.1 of the manual), its timers (R28, R33, R34, R40), the demodulator settings kept with the latched
values (R72, R144), its measurement unit and its acquisition channel. -/
structure Slot where
  state : SlotState
  role : Role
  carrier : Option Nat
  input : Option RfInput
  power : TunerPower
  roleTime : Option Nat
  lockTimeout : Option Nat
  modulation : Option Modulation
  codeRate : Option CodeRate
  symRate : Option Nat
  retune : Nat
  adoptionPending : Bool
  heldForRouter : Bool
  offlinePending : Bool
  calStatus : CalStatus
  lastCal : Option (RfInput × Nat)
  unparkTimer : Option Nat
  releaseTimer : Option Nat
  parkTimer : Option Nat
  retuneTimer : Option Nat
  meas : MeasUnit
  chan : Channel
deriving DecidableEq, Repr

/-- The level reference and its arbiter (section 2.5 of the manual). -/
structure Reference where
  holder : Option (Fin 8)
  queue : List (Fin 8)
  timer : Option Nat
deriving DecidableEq, Repr

/-! ## The carrier table -/

inductive CarrierState where
  | unsurveyed | acquiring | verified | lost | failed | excluded
deriving DecidableEq, Repr

inductive FailCause where
  | noLock | noId | idMismatch | noServices
deriving DecidableEq, Repr

inductive ListStatus where
  | absent | valid | pending
deriving DecidableEq, Repr

inductive CarrierListStatus where
  | none | received | missed | truncated
deriving DecidableEq, Repr

/-- A window record (R20). -/
structure WindowRecord where
  time : Nat
  mer : Nat
  u : Nat
  overflow : Nat
  level : Option Nat
  saturated : Bool
  uncalibrated : Bool
  margin : Int
  score : Option Nat
deriving DecidableEq, Repr

/-- The hold on a carrier entry: the slot, whether its role is CARRY, whether its phase is ENDING (R73). -/
structure Hold where
  slot : Fin 8
  carry : Bool
  ending : Bool
deriving DecidableEq, Repr

/-- A point of the margin history (R79). -/
structure HistoryPoint where
  time : Nat
  margin : Int
deriving DecidableEq, Repr

/-- A carrier entry (section 4.1 of the manual). -/
structure Carrier where
  input : RfInput
  freq : Nat
  symRate : Nat
  profile : Fin 8
  planned : Bool
  discovered : Bool
  lister : Option Nat
  added : Nat
  expected : Option ExpectedId
  observed : Option Identity
  state : CarrierState
  stateBefore : Option CarrierState
  failCause : Option FailCause
  failCount : Nat
  meas : Option WindowRecord
  history : List HistoryPoint
  nextDue : Nat
  hold : Option Hold
  removalPending : Bool
  services : List ServiceKey
  listStatus : ListStatus
  listTruncated : Bool
  carrierList : CarrierListStatus
deriving DecidableEq, Repr

/-! ## The survey scheduler -/

inductive SurveyMode where
  | run | hold
deriving DecidableEq, Repr

inductive SurveyPhase where
  | acquiring | measuring | ending
deriving DecidableEq, Repr

/-- A survey record; its slot is its place in `Scheduler.surveys` (section 5 of the manual). -/
structure SurveyRecord where
  carrier : Nat
  start : Nat
  wanted : Nat
  taken : Nat
  phase : SurveyPhase
  fromUrgent : Bool
  askedByTable : Bool
deriving DecidableEq, Repr

inductive PassOutcome where
  | open | complete | superseded
deriving DecidableEq, Repr

/-- The pass record (section 5.7 of the manual). -/
structure PassRecord where
  number : Nat
  start : Nat
  ended : Option Nat
  outcome : PassOutcome
  verified : Nat
  failed : Nat
  lost : Nat
deriving DecidableEq, Repr

/-- The survey scheduler (section 5 of the manual). `searchDue` and `setShrunk` are the model's own and clear between steps: a
search of R96 is due in this step; an entry has left the outstanding set in this step. -/
structure Scheduler where
  mode : SurveyMode
  urgent : List Nat
  surveys : Vector (Option SurveyRecord) 8
  pass : PassRecord
  outstanding : List Nat
  searchDue : Bool
  setShrunk : Bool
deriving DecidableEq, Repr

/-! ## The service table -/

inductive ServiceState where
  | unavailable | served | pending | holding
deriving DecidableEq, Repr

inductive PendingKind where
  | voluntary | failover | first
deriving DecidableEq, Repr

/-- A candidate (section 6.1 of the manual). -/
structure Candidate where
  carrier : Nat
  score : Option Nat
  stale : Bool
  eligible : Bool
  lead : Nat
deriving DecidableEq, Repr

/-- What reached a service while its request waited at the arbiter and is to be judged after the answer (R116): a
rebuild, and a carry lost (restricted or not). -/
structure Deferred where
  rebuilt : Bool
  carryLost : Option Bool
deriving DecidableEq, Repr

/-- A service entry (section 6.1 of the manual). `constrainedBefore` (R121: constrained as it stood before the request) and
`deferred` (R116) are what these two rules need kept. -/
structure Service where
  key : ServiceKey
  bound : Bool
  seen : Bool
  state : ServiceState
  selection : Option Nat
  target : Option Nat
  pendingKind : Option PendingKind
  constrained : Bool
  cands : List Candidate
  settleUntil : Nat
  holdUntil : Option Nat
  switchCount : Nat
  lastSwitch : Option Nat
  constrainedBefore : Bool
  deferred : Deferred
deriving DecidableEq, Repr

/-! ## The output router -/

inductive Feeding where
  | primary | fallback
deriving DecidableEq, Repr

inductive RouteState where
  | unbound | slate | live | held | switching
deriving DecidableEq, Repr

/-- A room-channel record (R127). -/
structure Room where
  primary : Option ServiceKey
  fallback : Option ServiceKey
  priority : Nat
  feeding : Feeding
  route : RouteState
  feedSlot : Option (Fin 8)
  pendingFeed : Option (Fin 8 × Nat)
  requestTime : Option Nat
  timer : Option Nat
deriving DecidableEq, Repr

inductive CarryPhase where
  | waitingSlot | adopting | acquiring | live | retuning
deriving DecidableEq, Repr

/-- A carry record (section 7.3 of the manual). -/
structure CarryRecord where
  carrier : Nat
  slot : Fin 8
  phase : CarryPhase
deriving DecidableEq, Repr

/-- Why a service asks for a grant: a voluntary switch or constrained retry (R118), step 1 or step 2 of a failover
(R119), step 2 of a restricted failover (R120). -/
inductive Purpose where
  | voluntary | best | carried | restricted
deriving DecidableEq, Repr

/-- A grant request that waits at the arbiter (R116, R134). `first` says that the service holds its selection only by
an earlier grant of kind FIRST (R121). -/
structure GrantReq where
  service : Nat
  carrier : Nat
  failover : Bool
  purpose : Purpose
  first : Bool
deriving DecidableEq, Repr

/-- The output router: room channels, carry records and the grant arbiter's waiting requests (section 7 of the manual). -/
structure Router where
  rooms : Vector Room 48
  records : List CarryRecord
  requests : List GrantReq
deriving DecidableEq, Repr

/-! ## The watch unit -/

inductive SubjectKind where
  | carrier | service | room | slot
deriving DecidableEq, Repr

/-- A state value of the kind a watch looks at (R155). -/
inductive SubjectState where
  | carrier (s : CarrierState)
  | service (s : ServiceState)
  | slot (s : SlotState)
deriving DecidableEq, Repr

/-- A watch entry (section 9 of the manual). `subject` is none for ANY; `alert` says that the action is NOTICE_AND_ALERT. -/
structure Watch where
  kind : SubjectKind
  subject : Option Nat
  stateEq : Option SubjectState
  marginBelow : Option Int
  scoreBelow : Option Nat
  selectionChanged : Bool
  routeEq : Option RouteState
  alert : Bool
  latched : Bool
  lastSubject : Option Nat
  fireCount : Nat
deriving DecidableEq, Repr

inductive AlertMode where
  | level | pulse
deriving DecidableEq, Repr

/-- The watch unit (section 9 of the manual). -/
structure WatchUnit where
  entries : Vector Watch 16
  mode : AlertMode
  alert : Bool
  pulseTimer : Option Nat
deriving DecidableEq, Repr

/-! ## The link unit -/

/-- The phases of the frame receiver (R164), with the bytes stored so far: HEADER after SYNC, after KIND and after
CODE. -/
inductive RxPhase where
  | hunt
  | headerKind
  | headerCode (kind : Byte)
  | headerLength (kind code : Byte)
  | payload (kind code : Byte) (length : Nat) (got : List Byte)
  | check (kind code : Byte) (length : Nat) (got : List Byte)
deriving DecidableEq, Repr

/-- A complete command frame in the receive buffer: its code and payload (R166). -/
structure Frame where
  code : Nat
  payload : List Byte
deriving DecidableEq, Repr

/-- A reply in the reply place: its code and payload (R165, R167). -/
structure Reply where
  code : Nat
  payload : List Byte
deriving DecidableEq, Repr

/-- The kinds of notice in the order of the notice table (R165). -/
inductive NoticeKind where
  | ready | carrier | selection | room | surveyPass | watch | slot | plan
deriving DecidableEq, Repr

/-- A queued notice: kind, subject and content (R170). -/
structure Notice where
  kind : NoticeKind
  subject : Nat
  content : List Byte
deriving DecidableEq, Repr

/-- The link flags (R168). -/
structure LinkFlags where
  checkFailed : Bool
  overrun : Bool
  noticesDropped : Bool
  serviceTableFull : Bool
deriving DecidableEq, Repr

/-- The course of a RESTART (R173): its reply waits, its reply is being sent, the reset is due. -/
inductive RestartPhase where
  | none | replyWaiting | replySending | due
deriving DecidableEq, Repr

/-- The frozen view (R171). -/
structure FrozenView where
  carriers : Table Carrier
  services : Table Service
  rooms : Vector Room 48
  now : Nat
deriving DecidableEq, Repr

/-- The link unit (section 10 of the manual). `gap` counts the ticks since the last byte of a frame in progress; `sending` is the
frame the transmitter is SENDING, none when it is IDLE. -/
structure Link where
  rx : RxPhase
  gap : Option Nat
  buffer : List Frame
  reply : Option Reply
  sending : Option (List Byte)
  notices : List Notice
  mask : BitVec 8
  flags : LinkFlags
  restart : RestartPhase
  frozen : Option FrozenView
deriving DecidableEq, Repr

/-! ## The clock and the reset -/

inductive ResetCause where
  | power | pin | restart
deriving DecidableEq, Repr

/-- The second count and the ticks counted toward the next second (R172), the cause of the last reset, whether the part
is held in reset (R173), and the link speed in use: the SPEED strap as last sampled (R174). -/
structure Clock where
  now : Nat
  ticks : Nat
  cause : ResetCause
  inReset : Bool
  speedHigh : Bool
deriving DecidableEq, Repr

/-! ## The state -/

/-- The whole state of the part, and the queue of commands that wait. `draws` counts the free values drawn (the
model's own, log entry 3). -/
structure State where
  pending : List Instr
  clock : Clock
  link : Link
  watches : WatchUnit
  plan : PlanStore
  slots : Vector Slot 8
  reference : Reference
  carriers : Table Carrier
  sched : Scheduler
  services : Table Service
  router : Router
  draws : Nat
deriving DecidableEq, Repr

/-- The reasons to stop with a fault. There is none: the manual describes no event that stops the part. -/
inductive Fault where
deriving DecidableEq, Repr

/-- The reasons for which the model gives a command no meaning. -/
inductive Refusal where
  /-- Raised by a command whose meaning is not written yet (by `exec`'s arm alone). Safe. -/
  | notModelled (mnemonic : String)
  /-- Raised by every meaning whose operand does not fit the field the manual gives it (`Instr.wf` is false): such a
  term is no command that can be sent to the part. Safe. -/
  | illFormed
deriving DecidableEq, Repr

/-! ## Named updates of the blocks -/

def State.setPending (x : List Instr) (s : State) : State := { s with pending := x }
def State.setClock (x : Clock) (s : State) : State := { s with clock := x }
def State.setLink (x : Link) (s : State) : State := { s with link := x }
def State.setWatches (x : WatchUnit) (s : State) : State := { s with watches := x }
def State.setPlan (x : PlanStore) (s : State) : State := { s with plan := x }
def State.setSlots (x : Vector Slot 8) (s : State) : State := { s with slots := x }
def State.setReference (x : Reference) (s : State) : State := { s with reference := x }
def State.setCarriers (x : Table Carrier) (s : State) : State := { s with carriers := x }
def State.setSched (x : Scheduler) (s : State) : State := { s with sched := x }
def State.setServices (x : Table Service) (s : State) : State := { s with services := x }
def State.setRouter (x : Router) (s : State) : State := { s with router := x }
def State.setDraws (x : Nat) (s : State) : State := { s with draws := x }

/-! ## Reset values -/

/-- R144: the input records after reset. -/
def InputCfg.reset : InputCfg := { cls := .disabled, bias := 0, winMin := 0, winMax := 1200, discovery := false }

/-- R144: the profiles after reset, P0 to P7. -/
def Profile.resets : Vector Profile 8 := #v[
  { modulation := .qpsk, codeRate := .r3_4, reqMer := 55, lockTimeout := 800, k := 13 },
  { modulation := .psk8, codeRate := .r2_3, reqMer := 70, lockTimeout := 800, k := 13 },
  { modulation := .psk8, codeRate := .r3_4, reqMer := 85, lockTimeout := 800, k := 13 },
  { modulation := .apsk16, codeRate := .r3_4, reqMer := 105, lockTimeout := 1000, k := 14 },
  { modulation := .qam64, codeRate := .noRate, reqMer := 240, lockTimeout := 600, k := 12 },
  { modulation := .qam256, codeRate := .noRate, reqMer := 310, lockTimeout := 600, k := 12 },
  { modulation := .ofdm16, codeRate := .r2_3, reqMer := 130, lockTimeout := 1500, k := 14 },
  { modulation := .ofdm64, codeRate := .r2_3, reqMer := 190, lockTimeout := 1500, k := 14 }]

/-- R144: a binding after reset. -/
def Binding.reset : Binding := { primary := none, fallback := none, priority := 3 }

/-- R151: the defaults of the parameters. -/
def Params.reset : Params :=
  { hysteresis := 40, leadCount := 2, settle := 30, floor := 150, guardMargin := 30, maxAge := 600, minInterval := 10,
    holdLimit := 20, reserve := 1, windows := 2 }

/-- R144: the committed plan after reset. -/
def Plan.reset : Plan :=
  { inputs := .replicate 4 InputCfg.reset, profiles := Profile.resets, carriers := [],
    bindings := .replicate 48 Binding.reset, params := Params.reset }

/-- R144, R154: the plan store after reset. -/
def PlanStore.reset : PlanStore :=
  { committed := Plan.reset, staged := none,
    last := { number := 0, time := 0, added := 0, removed := 0, evicted := 0, removalPending := 0,
              passStarted := false } }

/-- R24: a measurement unit after reset. -/
def MeasUnit.reset : MeasUnit := { k := none, active := false, symbols := 0, acc := 0, overflow := 0, u := 0 }

/-- R70: an acquisition channel after reset. -/
def Channel.reset : Channel :=
  { stage := .none, timer := none, held := none, services := { last := none, parts := [] },
    listing := { last := none, parts := [] }, formed := none, windows := 0, recheckDue := false }

/-- R48: a slot after reset. -/
def Slot.reset : Slot :=
  { state := .parked, role := .none, carrier := none, input := none, power := .off, roleTime := none,
    lockTimeout := none, modulation := none, codeRate := none, symRate := none, retune := 0, adoptionPending := false,
    heldForRouter := false, offlinePending := false, calStatus := .none, lastCal := none, unparkTimer := none,
    releaseTimer := none, parkTimer := none, retuneTimer := none, meas := MeasUnit.reset, chan := Channel.reset }

/-- R48: the level reference after reset. -/
def Reference.reset : Reference := { holder := none, queue := [], timer := none }

/-- R107: the pass record after reset. -/
def PassRecord.reset : PassRecord :=
  { number := 0, start := 0, ended := none, outcome := .open, verified := 0, failed := 0, lost := 0 }

/-- R107: the survey scheduler after reset. -/
def Scheduler.reset : Scheduler :=
  { mode := .run, urgent := [], surveys := .replicate 8 none, pass := PassRecord.reset, outstanding := [],
    searchDue := false, setShrunk := false }

/-- R143: a room channel after reset. -/
def Room.reset : Room :=
  { primary := none, fallback := none, priority := 3, feeding := .primary, route := .unbound, feedSlot := none,
    pendingFeed := none, requestTime := none, timer := none }

/-- R143: the router after reset. -/
def Router.reset : Router := { rooms := .replicate 48 Room.reset, records := [], requests := [] }

/-- R162: a watch entry after reset. -/
def Watch.reset : Watch :=
  { kind := .carrier, subject := none, stateEq := none, marginBelow := none, scoreBelow := none,
    selectionChanged := false, routeEq := none, alert := false, latched := false, lastSubject := none, fireCount := 0 }

/-- R162: the watch unit after reset. -/
def WatchUnit.reset : WatchUnit :=
  { entries := .replicate 16 Watch.reset, mode := .level, alert := false, pulseTimer := none }

/-- R173: no link flag is set after reset. -/
def LinkFlags.reset : LinkFlags :=
  { checkFailed := false, overrun := false, noticesDropped := false, serviceTableFull := false }

/-- R173: the link unit at its reset values, before the READY notice is queued. -/
def Link.reset : Link :=
  { rx := .hunt, gap := none, buffer := [], reply := none, sending := none, notices := [], mask := 255#8,
    flags := LinkFlags.reset, restart := .none, frozen := none }

/-- Every block at its reset value (R24, R48, R70, R91, R107, R126, R143, R144, R162, R172, R173), with the given
cause, strap and queue of waiting commands. -/
def State.atReset (cause : ResetCause) (inReset speedHigh : Bool) (draws : Nat) (pending : List Instr) : State :=
  { pending := pending,
    clock := { now := 0, ticks := 0, cause := cause, inReset := inReset, speedHigh := speedHigh },
    link := Link.reset, watches := WatchUnit.reset, plan := PlanStore.reset, slots := .replicate 8 Slot.reset,
    reference := Reference.reset, carriers := [], sched := Scheduler.reset, services := [], router := Router.reset,
    draws := draws }

/-- R173: the content of the READY notice: the part code 0x0816, the revision 1 and the reset cause. -/
def readyContent (cause : ResetCause) : List Byte :=
  [0x16#8, 0x08#8, 1#8, match cause with | .power => 0#8 | .pin => 1#8 | .restart => 2#8]

/-- R173: the part when a reset has ended: every block at its reset value and the READY notice queued. -/
def State.afterReset (cause : ResetCause) (speedHigh : Bool) (draws : Nat) (pending : List Instr) : State :=
  (State.atReset cause false speedHigh draws pending).setLink
    { Link.reset with notices := [{ kind := .ready, subject := 0, content := readyContent cause }] }

/-- The part right after a reset (R173). The manual gives no first cause and no strap level: the model takes POWER and
a low strap (DESIGN CHOICE, log entry 6). -/
def State.reset : State := State.afterReset .power false 0 []

end Sys2Proof.Machine
end

