-- ==== Sys2Proof/Machine/Codes.lean ====
section
/-! DEFINITION. The numbers that stand for named values in commands, replies and notices: "Enumerated values are
numbered from 0 in the order in which their rule lists them" (R165), and the codings of R90. -/

namespace Sys2Proof.Machine

/-- R90: 0 A, 1 B, 2 C, 3 D. -/
def inputCode : RfInput → Fin 4
  | .a => 0
  | .b => 1
  | .c => 2
  | .d => 3

/-- The input a number names; above 3 names none (R146, R148). -/
def inputOf (n : Nat) : Option RfInput :=
  match n with
  | 0 => some .a
  | 1 => some .b
  | 2 => some .c
  | 3 => some .d
  | _ => none

/-- The class a number names, in the order of R144. -/
def classOf (n : Nat) : Option InputClass :=
  match n with
  | 0 => some .disabled
  | 1 => some .terrestrial
  | 2 => some .satellite
  | 3 => some .cable
  | _ => none

/-- The modulation kind a number names, in the order of R144. -/
def modulationOf (n : Nat) : Option Modulation :=
  match n with
  | 0 => some .qpsk
  | 1 => some .psk8
  | 2 => some .apsk16
  | 3 => some .qam64
  | 4 => some .qam256
  | 5 => some .ofdm16
  | 6 => some .ofdm64
  | _ => none

/-- The code-rate label a number names, in the order of R144. -/
def codeRateOf (n : Nat) : Option CodeRate :=
  match n with
  | 0 => some .r1_2
  | 1 => some .r3_5
  | 2 => some .r2_3
  | 3 => some .r3_4
  | 4 => some .r4_5
  | 5 => some .r5_6
  | 6 => some .r7_8
  | 7 => some .r8_9
  | 8 => some .r9_10
  | 9 => some .noRate
  | _ => none

/-- R90: the carrier states. -/
def carrierStateCode : CarrierState → Nat
  | .unsurveyed => 0
  | .acquiring => 1
  | .verified => 2
  | .lost => 3
  | .failed => 4
  | .excluded => 5

def carrierStateOf (n : Nat) : Option CarrierState :=
  match n with
  | 0 => some .unsurveyed
  | 1 => some .acquiring
  | 2 => some .verified
  | 3 => some .lost
  | 4 => some .failed
  | 5 => some .excluded
  | _ => none

/-- R90: the fail cause, 0 absent. -/
def failCauseCode : Option FailCause → Nat
  | none => 0
  | some .noLock => 1
  | some .noId => 2
  | some .idMismatch => 3
  | some .noServices => 4

/-- R90: 0 ABSENT, 1 VALID, 2 PENDING. -/
def listStatusCode : ListStatus → Nat
  | .absent => 0
  | .valid => 1
  | .pending => 2

/-- R90: 0 NONE, 1 RECEIVED, 2 MISSED, 3 TRUNCATED. -/
def carrierListCode : CarrierListStatus → Nat
  | .none => 0
  | .received => 1
  | .missed => 2
  | .truncated => 3

/-- The slot states in the order of R47. -/
def slotStateCode : SlotState → Nat
  | .offline => 0
  | .parked => 1
  | .idle => 2
  | .tuning => 3
  | .acquiring => 4
  | .locked => 5
  | .releasing => 6

def slotStateOf (n : Nat) : Option SlotState :=
  match n with
  | 0 => some .offline
  | 1 => some .parked
  | 2 => some .idle
  | 3 => some .tuning
  | 4 => some .acquiring
  | 5 => some .locked
  | 6 => some .releasing
  | _ => none

/-- The roles in the order of R47. -/
def roleCode : Role → Nat
  | .none => 0
  | .survey => 1
  | .carry => 2

/-- The tuner powers in the order of R47. -/
def powerCode : TunerPower → Nat
  | .off => 0
  | .unparking => 1
  | .on => 2

/-- The calibration statuses in the order of R47. -/
def calStatusCode : CalStatus → Nat
  | .none => 0
  | .waiting => 1
  | .active => 2
  | .done => 3

/-- The stages in the order of section 3.1 of the manual. -/
def stageCode : Stage → Nat
  | .none => 0
  | .lockWait => 1
  | .idWait => 2
  | .idCheck => 3
  | .svcWait => 4
  | .listWait => 5
  | .recheckId => 6
  | .recheckSvc => 7

/-- The service states in the order of section 6.1 of the manual. -/
def serviceStateCode : ServiceState → Nat
  | .unavailable => 0
  | .served => 1
  | .pending => 2
  | .holding => 3

def serviceStateOf (n : Nat) : Option ServiceState :=
  match n with
  | 0 => some .unavailable
  | 1 => some .served
  | 2 => some .pending
  | 3 => some .holding
  | _ => none

/-- The pending kinds in the order of section 6.1 of the manual. -/
def pendingKindCode : PendingKind → Nat
  | .voluntary => 0
  | .failover => 1
  | .first => 2

/-- R127: PRIMARY, FALLBACK. -/
def feedingCode : Feeding → Nat
  | .primary => 0
  | .fallback => 1

/-- The route states in the order of R127. -/
def routeCode : RouteState → Nat
  | .unbound => 0
  | .slate => 1
  | .live => 2
  | .held => 3
  | .switching => 4

def routeOf (n : Nat) : Option RouteState :=
  match n with
  | 0 => some .unbound
  | 1 => some .slate
  | 2 => some .live
  | 3 => some .held
  | 4 => some .switching
  | _ => none

/-- The subject kinds in the order of section 9 of the manual. -/
def subjectKindCode : SubjectKind → Nat
  | .carrier => 0
  | .service => 1
  | .room => 2
  | .slot => 3

def subjectKindOf (n : Nat) : Option SubjectKind :=
  match n with
  | 0 => some .carrier
  | 1 => some .service
  | 2 => some .room
  | 3 => some .slot
  | _ => none

/-- The state value a number names for a subject kind; ROOM has none (R155). -/
def subjectStateOf (kind : SubjectKind) (n : Nat) : Option SubjectState :=
  match kind with
  | .carrier => (carrierStateOf n).map .carrier
  | .service => (serviceStateOf n).map .service
  | .room => none
  | .slot => (slotStateOf n).map .slot

def subjectStateCode : SubjectState → Nat
  | .carrier s => carrierStateCode s
  | .service s => serviceStateCode s
  | .slot s => slotStateCode s

/-- R102: RUN, HOLD. -/
def surveyModeCode : SurveyMode → Nat
  | .run => 0
  | .hold => 1

/-- The outcomes of a pass: OPEN, COMPLETE, SUPERSEDED (the order is the model's, log entry 7). -/
def passOutcomeCode : PassOutcome → Nat
  | .open => 0
  | .complete => 1
  | .superseded => 2

/-- R172: 0 POWER, 1 PIN, 2 RESTART. -/
def causeCode : ResetCause → Nat
  | .power => 0
  | .pin => 1
  | .restart => 2

/-- The bit of the enable mask and the place in the notice table of a kind (R165). -/
def noticeIndex : NoticeKind → Nat
  | .ready => 0
  | .carrier => 1
  | .selection => 2
  | .room => 3
  | .surveyPass => 4
  | .watch => 5
  | .slot => 6
  | .plan => 7

/-- R165: the notice codes 0x80 to 0x87. -/
def noticeCode (k : NoticeKind) : Nat := 128 + noticeIndex k

/-- The reply codes (R165). -/
inductive ReplyCode where
  | ok | adjusted | noChange | unknownCommand | badLength | badIndex | badValue | outOfBand | duplicate | tableFull
  | capacity | noStaging | queueFull | excluded | notFrozen
deriving DecidableEq, Repr

def replyCodeNumber : ReplyCode → Nat
  | .ok => 0
  | .adjusted => 1
  | .noChange => 2
  | .unknownCommand => 3
  | .badLength => 4
  | .badIndex => 5
  | .badValue => 6
  | .outOfBand => 7
  | .duplicate => 8
  | .tableFull => 9
  | .capacity => 10
  | .noStaging => 11
  | .queueFull => 12
  | .excluded => 13
  | .notFrozen => 14

end Sys2Proof.Machine
end

