-- ==== Sys2Proof/Machine/Table.lean ====
section
/-! DEFINITION. Reading and writing tables with numbered places (R71, R108), and the small list operations the blocks
share. -/

namespace Sys2Proof.Machine

/-- The entry at place `i`. -/
def tabGet {α : Type} : Table α → Nat → Option α
  | [], _ => none
  | (j, a) :: t, i => if i = j then some a else tabGet t i

/-- The table with `a` at place `i`, places kept rising. -/
def tabPut {α : Type} : Table α → Nat → α → Table α
  | [], i, a => [(i, a)]
  | (j, b) :: t, i, a =>
    if i < j then (i, a) :: (j, b) :: t
    else if i = j then (i, a) :: t
    else (j, b) :: tabPut t i a

/-- The table with place `i` free. -/
def tabDel {α : Type} : Table α → Nat → Table α
  | [], _ => []
  | (j, b) :: t, i => if i = j then t else (j, b) :: tabDel t i

/-- The lowest free place at or above `n` of a table whose places are at or above `n` (R71, R108). -/
def tabFreeFrom {α : Type} (n : Nat) : Table α → Nat
  | [] => n
  | (j, _) :: t => if n < j then n else tabFreeFrom (j + 1) t

/-- The lowest place no entry occupies (R71, R108). -/
def tabFree {α : Type} (t : Table α) : Nat := tabFreeFrom 0 t

/-- The places of a table. -/
def tabKeys {α : Type} (t : Table α) : List Nat := t.map Prod.fst

/-- The law of a table with `cap` places: places strictly rising and below `cap`. -/
def tabWf {α : Type} (cap : Nat) (t : Table α) : Bool :=
  decide (List.Pairwise (· < ·) (tabKeys t)) && (tabKeys t).all fun i => decide (i < cap)

/-- `x` put before the first member of `l` that does not come before it. -/
def insertBy {α : Type} (before : α → α → Bool) (x : α) : List α → List α
  | [] => [x]
  | y :: l => if before x y then x :: y :: l else y :: insertBy before x l

/-- A list in the order `before` gives. -/
def sortBy {α : Type} (before : α → α → Bool) (l : List α) : List α := l.foldr (insertBy before) []

/-- The first occurrence of each member, in order. -/
def distinct {α : Type} [DecidableEq α] (l : List α) : List α :=
  l.foldl (fun acc x => if x ∈ acc then acc else acc ++ [x]) []

/-- The vector whose member at each place is `f` of the place and the member of `v` there. -/
def vecMap {α : Type} {n : Nat} (f : Fin n → α → α) (v : Vector α n) : Vector α n :=
  ⟨((List.finRange n).map fun i => f i v[i]).toArray, by simp⟩

/-- Things that come together, in the order the free value gives them (log entry 3): with none or one there is nothing
to order. -/
def orderFree {α : Type} (draw : Nat) (l : List α) : List α :=
  match l with
  | [] => []
  | [x] => [x]
  | x :: y :: t =>
    ((sortBy (fun p q => decide (Config.orderKey draw p.1 < Config.orderKey draw q.1))
      ((List.range (x :: y :: t).length).zip (x :: y :: t))).map Prod.snd)

end Sys2Proof.Machine
end

