-- ==== Sys2Proof/Machine/Bytes.lean ====
section
/-! DEFINITION. The byte coding of fields (R165): little-endian, two's complement where signed, an optional field
preceded by a presence byte and sent as 0 when absent. -/

namespace Sys2Proof.Machine

/-- `n` in `k` bytes, little-endian. -/
def le : Nat → Nat → List Byte
  | 0, _ => []
  | k + 1, n => BitVec.ofNat 8 n :: le k (n / 256)

/-- `z` in `k` bytes, little-endian two's complement. -/
def leInt (k : Nat) (z : Int) : List Byte := le k (z % (256 ^ k : Nat)).toNat

/-- The number that bytes spell, little-endian. -/
def fromLe : List Byte → Nat
  | [] => 0
  | b :: bs => b.toNat + 256 * fromLe bs

/-- The signed number that `k` bytes spell, little-endian two's complement. -/
def signedOf (k n : Nat) : Int := if n < 256 ^ k / 2 then n else (n : Int) - (256 ^ k : Nat)

/-- A yes-or-no field. -/
def boolByte (b : Bool) : List Byte := if b then [1#8] else [0#8]

/-- An optional field of `k` bytes: presence byte, then the value or 0 (R165). -/
def optLe (k : Nat) : Option Nat → List Byte
  | none => 0#8 :: le k 0
  | some n => 1#8 :: le k n

/-- A yes-or-no byte of a command; a byte that is neither 0 nor 1 means what the free value says (log entry 2). -/
def flagOf (n : Nat) : Bool := if n = 0 then false else if n = 1 then true else Config.flagByte n

/-- A service key: origin id, then service number, two bytes each (R165). -/
def keyBytes (k : ServiceKey) : List Byte := le 2 k.origin ++ le 2 k.number

/-- An optional service key. -/
def optKeyBytes : Option ServiceKey → List Byte
  | none => 0#8 :: le 4 0
  | some k => 1#8 :: keyBytes k

/-- The score of a record as R90 codes it: 65535 absent. -/
def scoreBytes (s : Option Nat) : List Byte := le 2 (s.getD 65535)

/-- The sum of bytes, modulo 256 (R163). -/
def byteSum (bs : List Byte) : Byte := bs.foldl (· + ·) 0#8

/-- R163: a whole frame: SYNC, KIND, CODE, LENGTH, payload and the CHECK that makes the sum of bytes 1 to 4 + n zero
modulo 256. -/
def frameBytes (kind code : Nat) (payload : List Byte) : List Byte :=
  let body := BitVec.ofNat 8 kind :: BitVec.ofNat 8 code :: BitVec.ofNat 8 payload.length :: payload
  0xC5#8 :: body ++ [-(byteSum body)]

end Sys2Proof.Machine
end

