-- ==== Sys2Proof/Machine/Limits.lean ====
section
/-! DEFINITION. The fixed sizes and times of the part. -/

namespace Sys2Proof.Machine

/-- R71: places of the carrier table. -/
def carrierPlaces : Nat := 96
/-- R108: places of the service table. -/
def servicePlaces : Nat := 256
/-- R28: the unpark time, ms. -/
def unparkMs : Nat := 50
/-- R33: the release time, ms. -/
def releaseMs : Nat := 20
/-- R34: the park delay, ms. -/
def parkMs : Nat := 5000
/-- R43: the calibration time, ms. -/
def calibrationMs : Nat := 40
/-- R42: the calibration period, s. -/
def calibrationPeriod : Nat := 900
/-- R51: the bound of ID_WAIT and RECHECK_ID, ms. -/
def idWaitMs : Nat := 2000
/-- R53, R67: the bound of SVC_WAIT and RECHECK_SVC, ms. -/
def svcWaitMs : Nat := 3000
/-- R56: the bound of LIST_WAIT, ms. -/
def listWaitMs : Nat := 6000
/-- R130: the switch timer, ms. -/
def switchMs : Nat := 1500
/-- R160: the length of a pulse, ms. -/
def pulseMs : Nat := 250
/-- R164: the longest gap between two bytes of a frame, ms. -/
def gapMs : Nat := 50
/-- R172: ticks of a second. -/
def ticksPerSecond : Nat := 1000
/-- R172: the maximum of the 32-bit second count. -/
def maxSecond : Nat := 4294967295
/-- R3: the maximum of ACC. -/
def maxAcc : Nat := 4294967295
/-- R3, R4: the maximum of the overflow count and of u. -/
def maxCount : Nat := 65535
/-- R66: counted windows from one re-check to the next. -/
def recheckWindows : Nat := 256
/-- R55: keys of a service list. -/
def maxServiceKeys : Nat := 24
/-- R57: entries of a carrier list. -/
def maxListEntries : Nat := 16
/-- R50: the highest last-part number. -/
def maxLastPart : Nat := 3
/-- R93: places of the urgent list. -/
def urgentPlaces : Nat := 8
/-- R114: places of a candidate list. -/
def candidatePlaces : Nat := 6
/-- R115: the maximum of a lead count. -/
def maxLead : Nat := 15
/-- R170: places of the notice queue. -/
def noticePlaces : Nat := 32
/-- R166: places of the receive buffer. -/
def bufferPlaces : Nat := 2
/-- R163: the longest payload. -/
def maxPayload : Nat := 240
/-- R171, R125: summaries in one reply. -/
def listPage : Nat := 8
/-- R79: the shortest time between two points of a margin history, s. -/
def historyGap : Nat := 30
/-- R79: points of a margin history. -/
def historyPlaces : Nat := 4
/-- R75: the maximum of the consecutive-fail count. -/
def maxFails : Nat := 7
/-- R40: re-tune attempts after a lock loss. -/
def retuneAttempts : Nat := 3
/-- R172: the part code. -/
def partCode : Nat := 0x0816
/-- R172: the revision. -/
def revision : Nat := 1

end Sys2Proof.Machine
end

