-- ==== Sys2Proof/Machine/Measure.lean ====
section
/-! DEFINITION. The arithmetic of a measurement (chapter 1): the window, the chain from ACC to MER, margin, fade trend,
score, re-survey interval and back-off. -/

namespace Sys2Proof.Machine

/-! ## The window (R1 to R6) -/

/-- R1: the window length W = 2^k. -/
def windowLength (k : Nat) : Nat := 2 ^ k

/-- R1: the per-symbol shift s = max(0, k − 12). -/
def windowShift (k : Nat) : Nat := k - 12

/-- R1: the fractional bits of mean error power, d = min(k, 12). -/
def windowFraction (k : Nat) : Nat := min k 12

/-- R2: the start of a window: ACC, the overflow count, u and the symbol count at 0, the window active. -/
def startWindow (m : MeasUnit) : MeasUnit := { m with active := true, symbols := 0, acc := 0, overflow := 0, u := 0 }

/-- R6, R7: the active window abandoned or discarded: its ACC, overflow count, u and symbol count are dropped. -/
def dropWindow (m : MeasUnit) : MeasUnit := { m with active := false, symbols := 0, acc := 0, overflow := 0, u := 0 }

/-- R3: ACC and the overflow count after the addition of `x`. An addition that would carry ACC past its maximum leaves
it at the maximum and is counted. -/
def addToAcc (acc overflow x : Nat) : Nat × Nat :=
  if acc + x ≤ maxAcc then (acc + x, overflow) else (maxAcc, min maxCount (overflow + 1))

/-- R3: one symbol of error power `q` in the active window. -/
def addSymbol (q : Nat) (m : MeasUnit) : MeasUnit :=
  let r := addToAcc m.acc m.overflow (q / 2 ^ windowShift (m.k.getD 0))
  { m with acc := r.1, overflow := r.2, symbols := m.symbols + 1 }

/-- R4: one uncorrectable block in the active window; u holds at its maximum. -/
def addBlock (m : MeasUnit) : MeasUnit := { m with u := min maxCount (m.u + 1) }

/-! ## From accumulator to MER (R9 to R11) -/

/-- R9: Q = floor(2^(16+d) / ACC), 65535 for ACC = 0, clamped to 65535. -/
def quotientQ (d acc : Nat) : Nat := if acc = 0 then 65535 else min 65535 (2 ^ (16 + d) / acc)

/-- R10: the fraction table T. -/
def fractionTable : List Nat := [0, 1, 3, 4, 5, 6, 7, 8, 9, 10, 11, 12, 13, 14, 15, 15]

/-- R10: L in sixteenths of an octave, for Q from 1 to 65535: p is the position of the highest set bit, f the four bits
that follow it. -/
def logL (q : Nat) : Int :=
  let p := Nat.log2 q
  let f := q * 16 / 2 ^ p - 16
  16 * ((p : Int) - 4) + ((fractionTable.getD f 0 : Nat) : Int)

/-- R11: the MER in centibels. -/
def merOfQ (q : Nat) : Nat :=
  if q = 0 then 0 else if logL q ≤ 0 then 0 else ((logL q * 1927 + 512) / 1024).toNat

/-- R9 to R11: the MER of a window with latched exponent `k`. -/
def merOf (k acc : Nat) : Nat := merOfQ (quotientQ (windowFraction k) acc)

/-- R13: the level: the corrected reading, clamped to 0 to 1200. -/
def levelOf (reading : Int) : Nat := (clampInt reading 0 1200).toNat

/-! ## Margin, fade trend and score (R12 to R19) -/

/-- R12: the margin, MER less the required MER, not clamped. -/
def marginOf (mer reqMer : Nat) : Int := (mer : Int) - reqMer

/-- R14: the level penalty. -/
def levelPenalty (level : Option Nat) (winMin winMax : Nat) : Int :=
  match level with
  | none => 0
  | some l => if l < winMin ∨ winMax < l then 60 else 0

/-- R15: the block term. -/
def blockTerm (u : Nat) : Int := 25 * (min u 12 : Nat)

/-- R16: the slope of a margin history, in cB per minute: oldest and newest points only, multiplication first, truncated
toward zero, clamped to −200 to +200; 0 for fewer than two points or equal times. -/
def slopeOf (h : List HistoryPoint) : Int :=
  match h.head?, h.getLast? with
  | some o, some n =>
    if o.time = n.time then 0
    else clampInt (((n.margin - o.margin) * 60).tdiv ((n.time : Int) - o.time)) (-200) 200
  | _, _ => 0

/-- R17: the fall. -/
def fallOf (h : List HistoryPoint) : Nat := (-(slopeOf h)).toNat

/-- R17: the fade penalty. -/
def fadePenalty (h : List HistoryPoint) : Int := (min 100 (fallOf h) : Nat)

/-- R18: the score. -/
def scoreOf (margin : Int) (u : Nat) (level : Option Nat) (h : List HistoryPoint) (cfg : InputCfg) : Nat :=
  let m := clampInt margin (-200) 200
  let raw := 500 + 2 * m + cfg.bias - blockTerm u - fadePenalty h - levelPenalty level cfg.winMin cfg.winMax
  (clampInt raw 0 1000).toNat

/-- R79: the margin history after a point is offered: admitted when the history is empty or the newest point is at least
30 s older; at most four points, the oldest removed. -/
def offerPoint (p : HistoryPoint) (h : List HistoryPoint) : List HistoryPoint :=
  match h.getLast? with
  | none => [p]
  | some n =>
    if n.time + historyGap ≤ p.time then
      (if (h ++ [p]).length > historyPlaces then (h ++ [p]).drop 1 else h ++ [p])
    else h

/-! ## Re-survey interval and back-off (R21, R23) -/

/-- R21: the re-survey interval, s. -/
def intervalOf (p : Params) (margin : Int) (fall : Nat) : Nat :=
  if margin ≤ p.guardMargin then p.minInterval
  else clampNat (((margin - p.guardMargin) * 60 / (max fall 1 : Nat)).toNat) p.minInterval p.maxAge

/-- R23: the back-off after a failure, s. -/
def backoffOf (p : Params) (n : Nat) : Nat := min p.maxAge (p.minInterval * 2 ^ n)

/-- A stored time `d` seconds after `now`. Past the maximum of the second count the manual states no value: a free value
(log entry 4). -/
def timeAfter (now d : Nat) : Nat :=
  if now + d ≤ maxSecond then now + d else (Config.timePastEnd now d).toNat

end Sys2Proof.Machine
end

