-- ==== Sys2Proof/Machine/Ops.lean ====
section
/-! DEFINITION. The named reads and writes of single records that every block uses, and what is derived from them. -/

namespace Sys2Proof.Machine

/-! ## Reads -/

/-- The second count, *now* (00_scope.md). -/
def State.now (s : State) : Nat := s.clock.now

/-- The committed plan (R144). -/
def State.committed (s : State) : Plan := s.plan.committed

/-- The parameters of the committed plan. -/
def State.params (s : State) : Params := s.plan.committed.params

/-- The record of slot `i`. -/
def State.slot (s : State) (i : Fin 8) : Slot := s.slots[i]

/-- The record of room channel `r`. -/
def State.room (s : State) (r : Fin 48) : Room := s.router.rooms[r]

/-- The carrier entry at an index. -/
def State.carrier (s : State) (i : Nat) : Option Carrier := tabGet s.carriers i

/-- The service entry at an index. -/
def State.service (s : State) (i : Nat) : Option Service := tabGet s.services i

/-- The input record of a plan. -/
def Plan.inputCfg (p : Plan) (i : RfInput) : InputCfg := p.inputs[inputCode i]

/-- The profile of a plan. -/
def Plan.profile (p : Plan) (n : Fin 8) : Profile := p.profiles[n]

/-- The slots in order. -/
def allSlots : List (Fin 8) := List.finRange 8

/-- The room channels in order. -/
def allRooms : List (Fin 48) := List.finRange 48

/-- The watches in order. -/
def allWatches : List (Fin 16) := List.finRange 16

/-! ## Writes -/

def putSlot (i : Fin 8) (r : Slot) (s : State) : State := s.setSlots (s.slots.set i r)

def modSlot (i : Fin 8) (f : Slot → Slot) (s : State) : State := putSlot i (f (s.slot i)) s

def putCarrier (i : Nat) (c : Carrier) (s : State) : State := s.setCarriers (tabPut s.carriers i c)

/-- A change of the entry at `i`; nothing when no entry is there. -/
def modCarrier (i : Nat) (f : Carrier → Carrier) (s : State) : State :=
  match s.carrier i with
  | none => s
  | some c => putCarrier i (f c) s

def putService (i : Nat) (v : Service) (s : State) : State := s.setServices (tabPut s.services i v)

/-- A change of the service entry at `i`; nothing when no entry is there. -/
def modService (i : Nat) (f : Service → Service) (s : State) : State :=
  match s.service i with
  | none => s
  | some v => putService i (f v) s

def modLink (f : Link → Link) (s : State) : State := s.setLink (f s.link)

def modWatches (f : WatchUnit → WatchUnit) (s : State) : State := s.setWatches (f s.watches)

def modSched (f : Scheduler → Scheduler) (s : State) : State := s.setSched (f s.sched)

def modRouter (f : Router → Router) (s : State) : State := s.setRouter (f s.router)

def putRoom (r : Fin 48) (x : Room) (s : State) : State := s.setRouter { s.router with rooms := s.router.rooms.set r x }

def modClock (f : Clock → Clock) (s : State) : State := s.setClock (f s.clock)

def modPlan (f : PlanStore → PlanStore) (s : State) : State := s.setPlan (f s.plan)

/-- A search of R96 is due in this step. -/
def searchDue (s : State) : State := modSched (fun c => { c with searchDue := true }) s

/-! ## Derived -/

/-- A timer of milliseconds that runs and has reached 0. -/
def timerOut (t : Option Nat) : Bool := decide (t = some 0)

/-- R164: a gap of more than 50 ms between two bytes of a frame. -/
def gapOver (l : Link) : Bool :=
  match l.gap with
  | none => false
  | some g => decide (gapMs < g)

/-- R82: stale: a measurement present and now later than its time plus the maximum age. -/
def staleAt (now maxAge : Nat) (c : Carrier) : Bool :=
  match c.meas with
  | none => false
  | some m => decide (m.time + maxAge < now)

/-- R82, in the live state. -/
def State.stale (s : State) (c : Carrier) : Bool := staleAt s.now s.params.maxAge c

/-- Section 4.1 of the manual: carried is held in role CARRY. -/
def Carrier.carried (c : Carrier) : Bool :=
  match c.hold with
  | some h => h.carry
  | none => false

/-- The carrier at an index is carried. -/
def State.carriedAt (s : State) (i : Nat) : Bool :=
  match s.carrier i with
  | some c => c.carried
  | none => false

/-- R127: a carrier has a stream when a slot in role CARRY is LOCKED on it. -/
def slotStreams (r : Slot) (x : Nat) : Bool :=
  decide (r.role = .carry) && decide (r.state = .locked) && decide (r.carrier = some x)

/-- The slot that streams carrier `x`, if any (R26: at most one). -/
def State.streamSlot (s : State) (x : Nat) : Option (Fin 8) := allSlots.find? fun i => slotStreams (s.slot i) x

/-- The slot that is assigned carrier `x`, if any (R26: at most one). -/
def State.slotOn (s : State) (x : Nat) : Option (Fin 8) := allSlots.find? fun i => decide ((s.slot i).carrier = some x)

/-- R95, R136: a slot free for a tune: IDLE or PARKED, role NONE, not held for the router. -/
def slotFree (r : Slot) : Bool :=
  (decide (r.state = .idle) || decide (r.state = .parked)) && decide (r.role = .none) && !r.heldForRouter

/-- R95, R136: the order of free slots: IDLE before PARKED, lowest number first. -/
def State.freeSlots (s : State) : List (Fin 8) :=
  (allSlots.filter fun i => slotFree (s.slot i) && decide ((s.slot i).state = .idle))
    ++ (allSlots.filter fun i => slotFree (s.slot i) && decide ((s.slot i).state = .parked))

/-- R134: online: neither OFFLINE nor with offline pending. -/
def slotOnline (r : Slot) : Bool := decide (r.state ≠ .offline) && !r.offlinePending

/-- The band of an input's class (R144); a DISABLED input has none. -/
def inBand (cls : InputClass) (freq : Nat) : Bool :=
  match cls with
  | .disabled => false
  | .terrestrial => decide (174000 ≤ freq) && decide (freq ≤ 862000)
  | .satellite => decide (950000 ≤ freq) && decide (freq ≤ 2150000)
  | .cable => decide (108000 ≤ freq) && decide (freq ≤ 862000)

/-- The index of the entry with a key (input and frequency), unique by R71. -/
def carrierIndex (t : Table Carrier) (input : RfInput) (freq : Nat) : Option Nat :=
  match t.find? fun e => decide (e.2.input = input) && decide (e.2.freq = freq) with
  | some e => some e.1
  | none => none

/-- The index of the entry with a service key, unique by R108. -/
def serviceIndex (t : Table Service) (k : ServiceKey) : Option Nat :=
  match t.find? fun e => decide (e.2.key = k) with
  | some e => some e.1
  | none => none

/-- A draw of the order in which things that come together are taken. -/
def drawOrder {α : Type} (l : List α) (s : State) : List α × State :=
  (orderFree s.draws l, if l.length < 2 then s else s.setDraws (s.draws + 1))

end Sys2Proof.Machine
end

