-- ==== Sys2Proof/Machine/Content.lean ====
section
/-! DEFINITION. The byte content of records in replies and notices (R47, R90, R106, R124, R125, R141, R142, R154, R161,
R171), coded by R165. Orders and widths the manual leaves open are log entry 7. -/

namespace Sys2Proof.Machine

/-- R90: origin, bit 0 PLANNED, bit 1 DISCOVERED. -/
def originByte (c : Carrier) : Nat := (if c.planned then 1 else 0) + (if c.discovered then 2 else 0)

/-- R90: hold slot, 255 absent. -/
def holdSlotByte (c : Carrier) : Nat :=
  match c.hold with
  | none => 255
  | some h => h.slot.val

/-- R90: hold role and phase. -/
def holdRoleByte (c : Carrier) : Nat :=
  match c.hold with
  | none => 0
  | some h => (if h.carry then 2 else 1) + (if h.ending then 128 else 0)

/-- R90: an expected identity, presence and four bytes. -/
def expectedBytes : Option ExpectedId → List Byte
  | none => 0#8 :: le 4 0
  | some e => 1#8 :: (le 2 e.origin ++ le 2 e.transport)

/-- R90: the observed identity, presence, four bytes and list announced. -/
def observedBytes : Option Identity → List Byte
  | none => 0#8 :: (le 4 0 ++ le 1 0)
  | some o => 1#8 :: (le 2 o.origin ++ le 2 o.transport ++ boolByte o.listAnnounced)

/-- R90: bytes 29 to 46, the measurement. -/
def measBytes : Option WindowRecord → List Byte
  | none => 0#8 :: (le 4 0 ++ le 2 0 ++ le 2 0 ++ le 2 0 ++ le 2 0 ++ le 2 65535 ++ le 1 0 ++ le 2 65535)
  | some m => 1#8 :: (le 4 m.time ++ le 2 m.mer ++ leInt 2 m.margin ++ le 2 m.u ++ le 2 m.overflow
      ++ le 2 (m.level.getD 65535) ++ le 1 ((if m.saturated then 1 else 0) + (if m.uncalibrated then 2 else 0))
      ++ scoreBytes m.score)

/-- R90: the history, four places of time and margin, oldest first; places beyond h are 0. -/
def historyBytes (h : List HistoryPoint) : List Byte :=
  le 1 h.length
    ++ (List.range 4).flatMap fun j =>
        match h[j]? with
        | none => le 6 0
        | some p => le 4 p.time ++ leInt 2 p.margin

/-- R90: the reply payload of GET_CARRIER after the reply code and the flags. -/
def carrierBytes (now maxAge idx : Nat) (c : Carrier) : List Byte :=
  le 1 idx ++ le 1 (inputCode c.input).val ++ le 4 c.freq ++ le 2 c.symRate ++ le 1 c.profile.val
    ++ le 1 (originByte c) ++ le 1 (c.lister.getD 255) ++ le 1 (carrierStateCode c.state)
    ++ le 1 (failCauseCode c.failCause) ++ le 1 c.failCount ++ le 4 c.added ++ expectedBytes c.expected
    ++ observedBytes c.observed ++ measBytes c.meas ++ boolByte (staleAt now maxAge c)
    ++ leInt 2 (slopeOf c.history) ++ le 4 c.nextDue ++ le 1 (holdSlotByte c) ++ le 1 (holdRoleByte c)
    ++ boolByte c.removalPending ++ historyBytes c.history
    ++ le 1 (listStatusCode c.listStatus + if c.listTruncated then 128 else 0)
    ++ le 1 (carrierListCode c.carrierList) ++ le 1 c.services.length ++ c.services.flatMap keyBytes

/-- R171: a carrier summary. -/
def carrierSummary (now maxAge idx : Nat) (c : Carrier) : List Byte :=
  le 1 idx ++ le 1 (inputCode c.input).val ++ le 4 c.freq ++ le 1 c.profile.val ++ le 1 (originByte c)
    ++ le 1 (carrierStateCode c.state) ++ le 1 (failCauseCode c.failCause) ++ le 1 (holdSlotByte c)
    ++ le 1 (holdRoleByte c) ++ boolByte c.removalPending
    ++ leInt 2 (match c.meas with | none => 0 | some m => m.margin)
    ++ scoreBytes (match c.meas with | none => none | some m => m.score)
    ++ boolByte (staleAt now maxAge c) ++ le 4 c.nextDue ++ le 1 c.services.length

/-- The four counts of discovery (R62). -/
structure DiscoveryCounts where
  added : Nat
  known : Nat
  unmatched : Nat
  notAdded : Nat
deriving DecidableEq, Repr

/-- R89: the content of a CARRIER notice: the summary, the removed mark (R171), and the four counts when the change is
a VERIFIED report with discovery. -/
def carrierNotice (now maxAge idx : Nat) (c : Carrier) (removed : Bool) (counts : Option DiscoveryCounts) :
    List Byte :=
  carrierSummary now maxAge idx c ++ boolByte removed
    ++ match counts with
      | none => 0#8 :: le 4 0
      | some d => 1#8 :: (le 1 d.added ++ le 1 d.known ++ le 1 d.unmatched ++ le 1 d.notAdded)

/-- The marks of a service: bit 0 BOUND, bit 1 SEEN. -/
def marksByte (v : Service) : Nat := (if v.bound then 1 else 0) + (if v.seen then 2 else 0)

/-- The score the candidate list holds for the selection (R124). -/
def Service.selectionScore (v : Service) : Option Nat :=
  match v.cands.find? fun c => decide (some c.carrier = v.selection) with
  | none => none
  | some c => c.score

/-- R124: a service summary. -/
def serviceSummary (idx : Nat) (v : Service) : List Byte :=
  le 1 idx ++ keyBytes v.key ++ le 1 (marksByte v) ++ le 1 (serviceStateCode v.state) ++ optLe 1 v.selection
    ++ scoreBytes v.selectionScore ++ optLe 1 v.target ++ boolByte v.constrained ++ le 2 v.switchCount
    ++ optLe 4 v.lastSwitch

def candidateBytes (c : Candidate) : List Byte :=
  le 1 c.carrier ++ scoreBytes c.score ++ boolByte c.stale ++ boolByte c.eligible ++ le 1 c.lead

/-- R125: a service entry in full: the fields of section 6.1 of the manual, then every candidate in list order. -/
def serviceBytes (v : Service) : List Byte :=
  keyBytes v.key ++ le 1 (marksByte v) ++ le 1 (serviceStateCode v.state) ++ optLe 1 v.selection ++ optLe 1 v.target
    ++ optLe 1 (v.pendingKind.map pendingKindCode) ++ boolByte v.constrained ++ le 4 v.settleUntil
    ++ optLe 4 v.holdUntil ++ le 2 v.switchCount ++ optLe 4 v.lastSwitch ++ le 1 v.cands.length
    ++ v.cands.flatMap candidateBytes

/-- Room channel c belongs to port c / 12 (00_scope.md). -/
def portOf (r : Fin 48) : Nat := r.val / 12

def pendingFeedBytes : Option (Fin 8 × Nat) → List Byte
  | none => 0#8 :: le 2 0
  | some p => 1#8 :: (le 1 p.1.val ++ le 1 p.2)

/-- R142: the record of R127 less the switch timer, and the port. -/
def roomBytes (r : Fin 48) (x : Room) : List Byte :=
  optKeyBytes x.primary ++ optKeyBytes x.fallback ++ le 1 x.priority ++ le 1 (feedingCode x.feeding)
    ++ le 1 (routeCode x.route) ++ optLe 1 (x.feedSlot.map Fin.val) ++ pendingFeedBytes x.pendingFeed
    ++ optLe 4 x.requestTime ++ le 1 (portOf r)

/-- R141: the content of a ROOM notice. -/
def roomNotice (r : Fin 48) (x : Room) : List Byte :=
  le 1 r.val ++ le 1 (portOf r) ++ optKeyBytes x.primary ++ optKeyBytes x.fallback ++ le 1 x.priority
    ++ le 1 (feedingCode x.feeding) ++ le 1 (routeCode x.route) ++ optLe 1 (x.feedSlot.map Fin.val)
    ++ pendingFeedBytes x.pendingFeed

/-- R47: the queue position, 1 to 8 while WAITING, counted from the head. -/
def queuePosition (q : List (Fin 8)) (i : Fin 8) : Option Nat :=
  if i ∈ q then some (q.idxOf i + 1) else none

def lastCalBytes : Option (RfInput × Nat) → List Byte
  | none => 0#8 :: le 5 0
  | some p => 1#8 :: (le 1 (inputCode p.1).val ++ le 4 p.2)

/-- R47: the reported acquisition stage, none outside TUNING, ACQUIRING and LOCKED. -/
def reportedStage (r : Slot) : Stage :=
  if r.state = .tuning ∨ r.state = .acquiring ∨ r.state = .locked then r.chan.stage else .none

/-- R47: the slot's live record. -/
def slotBytes (q : List (Fin 8)) (i : Fin 8) (r : Slot) : List Byte :=
  le 1 i.val ++ le 1 (slotStateCode r.state) ++ le 1 (roleCode r.role) ++ optLe 1 r.carrier
    ++ optLe 1 (r.input.map fun x => (inputCode x).val) ++ le 1 (powerCode r.power) ++ optLe 4 r.roleTime
    ++ le 1 r.retune ++ boolByte r.adoptionPending ++ boolByte r.heldForRouter ++ boolByte r.offlinePending
    ++ le 1 (stageCode (reportedStage r)) ++ le 1 (calStatusCode r.calStatus) ++ optLe 1 (queuePosition q i)
    ++ lastCalBytes r.lastCal

/-- R106: the pass record. -/
def passBytes (p : PassRecord) : List Byte :=
  le 2 p.number ++ le 4 p.start ++ optLe 4 p.ended ++ le 1 (passOutcomeCode p.outcome) ++ le 1 p.verified
    ++ le 1 p.failed ++ le 1 p.lost

/-- R152: the payload of an applied COMMIT_PLAN: the commit number and the four counts. -/
def commitBytes (r : CommitRecord) : List Byte :=
  le 2 r.number ++ le 1 r.added ++ le 1 r.removed ++ le 1 r.evicted ++ le 1 r.removalPending

/-- R154: the content of a PLAN notice: the record of the last applied commit. -/
def planNotice (r : CommitRecord) : List Byte :=
  le 2 r.number ++ le 4 r.time ++ le 1 r.added ++ le 1 r.removed ++ le 1 r.evicted ++ le 1 r.removalPending
    ++ boolByte r.passStarted

/-- R168: the link flags byte. -/
def flagsByte (f : LinkFlags) : Nat :=
  (if f.checkFailed then 1 else 0) + (if f.overrun then 2 else 0) + (if f.noticesDropped then 4 else 0)
    + (if f.serviceTableFull then 8 else 0)

/-- Section 9 of the manual: a watch is active when some condition is present. -/
def Watch.active (w : Watch) : Bool :=
  w.stateEq.isSome || w.marginBelow.isSome || w.scoreBelow.isSome || w.selectionChanged || w.routeEq.isSome

/-- R161: for each watch, whether it is active, whether it is latched, and its fire count. -/
def ackBytes (ws : Vector Watch 16) : List Byte :=
  ws.toList.flatMap fun w => boolByte w.active ++ boolByte w.latched ++ le 2 w.fireCount

end Sys2Proof.Machine
end

