-- ==== Sys2Proof/Machine/Notices.lean ====
section
/-! DEFINITION. Offering a notice to the notice queue (R170). -/

namespace Sys2Proof.Machine

/-- R170: whether SET_NOTICES enables a kind. -/
def kindEnabled (mask : BitVec 8) (k : NoticeKind) : Bool := mask.getLsbD (noticeIndex k)

/-- R170: the same kind and subject. -/
def sameNotice (k : NoticeKind) (subject : Nat) (n : Notice) : Bool := decide (n.kind = k) && decide (n.subject = subject)

/-- R170: the queue and the NOTICES_DROPPED flag after an offer: not queued when the kind is disabled; content replaced
in place when the same kind and subject waits; dropped with the flag set when 32 wait; appended otherwise. -/
def offerLink (n : Notice) (l : Link) : Link :=
  if !kindEnabled l.mask n.kind then l
  else if l.notices.any (sameNotice n.kind n.subject) then
    { l with notices := l.notices.map fun m => if sameNotice n.kind n.subject m then n else m }
  else if noticePlaces ≤ l.notices.length then { l with flags := { l.flags with noticesDropped := true } }
  else { l with notices := l.notices ++ [n] }

/-- R170: a block offers a notice. -/
def offer (k : NoticeKind) (subject : Nat) (content : List Byte) (s : State) : State :=
  s.setLink (offerLink { kind := k, subject := subject, content := content } s.link)

end Sys2Proof.Machine
end

