-- ==== Sys2Proof/Machine/Passes.lean ====
section
/-! DEFINITION. Survey passes and the urgent list (R93, R94, R105, R106). -/

namespace Sys2Proof.Machine

/-- The number of carrier entries in a state (R106). -/
def countState (t : Table Carrier) (x : CarrierState) : Nat := (t.filter fun e => decide (e.2.state = x)).length

/-- R106: the pass record at the end of the pass, its three counts taken from the carrier table. -/
def endedPass (s : State) (o : PassOutcome) : PassRecord :=
  { s.sched.pass with
    ended := some s.now, outcome := o, verified := countState s.carriers .verified,
    failed := countState s.carriers .failed, lost := countState s.carriers .lost }

/-- R106: the pass ends, and its SURVEY_PASS notice is raised. -/
def endPass (o : PassOutcome) (s : State) : State :=
  let p := endedPass s o
  offer .surveyPass p.number (passBytes p) (modSched (fun c => { c with pass := p }) s)

/-- R105: the entries a new pass waits for: not EXCLUDED, no removal pending, input not DISABLED. -/
def outstandingAtStart (s : State) : List Nat :=
  (s.carriers.filter fun e =>
    decide (e.2.state ≠ .excluded) && !e.2.removalPending
      && decide ((s.committed.inputCfg e.2.input).cls ≠ .disabled)).map Prod.fst

/-- R105: a new pass starts; an OPEN one ends SUPERSEDED first. -/
def startPass (s : State) : State :=
  let s1 := if s.sched.pass.outcome = .open then endPass .superseded s else s
  modSched (fun c => { c with
    pass := { number := (c.pass.number + 1) % 65536, start := s1.now, ended := none, outcome := .open, verified := 0,
              failed := 0, lost := 0 },
    outstanding := outstandingAtStart s1, setShrunk := false }) s1

/-- R106: an entry leaves the outstanding set of an OPEN pass. -/
def leaveSet (i : Nat) (s : State) : State :=
  if s.sched.pass.outcome = .open ∧ i ∈ s.sched.outstanding then
    modSched (fun c => { c with outstanding := c.outstanding.filter fun j => decide (j ≠ i), setShrunk := true }) s
  else s

/-- R106: an entry joins the outstanding set of an OPEN pass. -/
def joinSet (i : Nat) (s : State) : State :=
  if s.sched.pass.outcome = .open ∧ i ∉ s.sched.outstanding then
    modSched (fun c => { c with outstanding := c.outstanding ++ [i] }) s
  else s

/-- R106: an event that leaves the outstanding set empty ends the pass COMPLETE. -/
def checkPassEnd (s : State) : State :=
  let s1 :=
    if s.sched.setShrunk = true ∧ s.sched.outstanding = [] ∧ s.sched.pass.outcome = .open then endPass .complete s else s
  modSched (fun c => { c with setShrunk := false }) s1

/-- R94: a carrier leaves the urgent list; those behind it move up. -/
def dropUrgent (i : Nat) (s : State) : State :=
  modSched (fun c => { c with urgent := c.urgent.filter fun j => decide (j ≠ i) }) s

/-- R94: a preempted carrier returns to the head of the urgent list, unless it is on it or the list is full. -/
def returnUrgent (i : Nat) (s : State) : State :=
  if i ∈ s.sched.urgent ∨ urgentPlaces ≤ s.sched.urgent.length then s
  else modSched (fun c => { c with urgent := i :: c.urgent }) s

end Sys2Proof.Machine
end

