-- ==== Sys2Proof/Machine/Watches.lean ====
section
/-! DEFINITION. Evaluation and firing of watches, and the ALERT line (R155 to R161). -/

namespace Sys2Proof.Machine

/-- What a watch reads of a subject's record (R157). -/
structure View where
  state : Option SubjectState
  margin : Option Int
  score : Option Nat
  selection : Option Nat
  route : Option RouteState
deriving DecidableEq, Repr

def carrierView (c : Carrier) : View :=
  { state := some (.carrier c.state), margin := c.meas.map (·.margin), score := c.meas.bind (·.score),
    selection := none, route := none }

/-- The score of a service's view: the one the candidate list holds for its selection. -/
def serviceView (v : Service) : View :=
  { state := some (.service v.state), margin := none, score := v.selectionScore, selection := v.selection,
    route := none }

def roomView (x : Room) : View :=
  { state := none, margin := none, score := none, selection := none, route := some x.route }

def slotView (r : Slot) : View :=
  { state := some (.slot r.state), margin := none, score := none, selection := none, route := none }

/-- R157: the present conditions of a watch other than "selection changed", each judged on a record. -/
def plainConditions (w : Watch) (v : View) : List Bool :=
  (match w.stateEq with | none => [] | some x => [decide (v.state = some x)])
    ++ (match w.marginBelow with
        | none => []
        | some t => [match v.margin with | none => false | some m => decide (m < t)])
    ++ (match w.scoreBelow with
        | none => []
        | some t => [match v.score with | none => false | some m => decide (m < t)])
    ++ (match w.routeEq with | none => [] | some x => [decide (v.route = some x)])

/-- R157: every present condition holds for the record after; "selection changed" compares it with the record before. -/
def holdsAfter (w : Watch) (before : Option View) (after : View) : Bool :=
  (plainConditions w after).all id
    && (!w.selectionChanged || decide (after.selection ≠ before.bind (·.selection)))

/-- R157: at least one present condition fails for the record before; an absent record satisfies none, and "selection
changed" never holds for it. -/
def failsBefore (w : Watch) (before : Option View) : Bool :=
  match before with
  | none => true
  | some v => w.selectionChanged || (plainConditions w v).any (!·)

/-- R157: the watch fires on a pair of records of subject `idx`. -/
def fires (w : Watch) (kind : SubjectKind) (idx : Nat) (before after : Option View) : Bool :=
  w.active && decide (w.kind = kind) && (w.subject.isNone || decide (w.subject = some idx))
    && match after with
      | none => false
      | some a => holdsAfter w before a && failsBefore w before

/-- R158: the values, in the record after, of the fields the watch's conditions name. -/
def watchValues (w : Watch) (a : View) : List Byte :=
  (if w.stateEq.isSome then le 1 (match a.state with | none => 0 | some x => subjectStateCode x) else [])
    ++ (if w.marginBelow.isSome then leInt 2 (a.margin.getD 0) else [])
    ++ (if w.scoreBelow.isSome then scoreBytes a.score else [])
    ++ (if w.selectionChanged then optLe 1 a.selection else [])
    ++ (if w.routeEq.isSome then le 1 (match a.route with | none => 0 | some x => routeCode x) else [])

/-- R158: the content of a WATCH notice. -/
def watchNotice (number : Nat) (w : Watch) (idx now : Nat) (a : View) : List Byte :=
  le 1 number ++ le 1 (subjectKindCode w.kind) ++ le 1 idx ++ le 2 w.fireCount ++ le 4 now ++ watchValues w a

/-- R159, R160: the ALERT line on a firing of an alert watch: asserted; in PULSE mode the pulse timer starts anew. -/
def alertOnFire (u : WatchUnit) : WatchUnit :=
  match u.mode with
  | .level => { u with alert := true }
  | .pulse => { u with alert := true, pulseTimer := some pulseMs }

/-- R158: the watch entry after a firing on subject `idx`. -/
def firedEntry (idx : Nat) (w : Watch) : Watch :=
  { w with latched := true, lastSubject := some idx, fireCount := (w.fireCount + 1) % 65536 }

/-- R158: a firing of watch `n` on subject `idx`. -/
def fireWatch (n : Fin 16) (idx : Nat) (a : View) (s : State) : State :=
  let w := firedEntry idx s.watches.entries[n]
  let s1 := modWatches (fun u => { u with entries := u.entries.set n w }) s
  let s2 := offer .watch n.val (watchNotice n.val w idx s.now a) s1
  if w.alert then modWatches alertOnFire s2 else s2

/-- One watch judged on a pair of records. -/
def judgeWatch (kind : SubjectKind) (idx : Nat) (before after : Option View) (s : State) (n : Fin 16) : State :=
  match after with
  | none => s
  | some a => if fires s.watches.entries[n] kind idx before after then fireWatch n idx a s else s

/-- R157: a block hands the watch unit a pair of records; the watches are judged in ascending number. -/
def handPair (kind : SubjectKind) (idx : Nat) (before after : Option View) (s : State) : State :=
  allWatches.foldl (judgeWatch kind idx before after) s

/-- Section 9.3 of the manual: some alert watch is latched. -/
def alertLatched (ws : Vector Watch 16) : Bool := ws.toList.any fun w => w.alert && w.latched

/-- The latches of the watches that `named` names, set to no. -/
def clearLatches (named : Fin 16 → Bool) (ws : Vector Watch 16) : Vector Watch 16 :=
  vecMap (fun j w => if named j then { w with latched := false } else w) ws

/-- Some watch that `named` names is latched and satisfies `p`. -/
def namedLatched (named : Fin 16 → Bool) (p : Watch → Bool) (ws : Vector Watch 16) : Bool :=
  allWatches.any fun i => named i && ws[i].latched && p ws[i]

/-- R161: the latches of the named watches cleared, with the effect on ALERT: in LEVEL mode deasserted if no alert watch
is left latched; in PULSE mode the pulse ends if an alert watch's latch was cleared. -/
def acknowledge (named : Fin 16 → Bool) (u : WatchUnit) : WatchUnit :=
  let ws := clearLatches named u.entries
  match u.mode with
  | .level => { u with entries := ws, alert := alertLatched ws }
  | .pulse =>
    if namedLatched named (·.alert) u.entries then { u with entries := ws, alert := false, pulseTimer := none }
    else { u with entries := ws }

end Sys2Proof.Machine
end

