-- ==== Sys2Proof/Machine/Rooms.lean ====
section
/-! DEFINITION. Room channels: feeding, wanted carrier, route states and switches (R127 to R132, R141). -/

namespace Sys2Proof.Machine

/-- The service entry of a key. -/
def State.serviceOfKey (s : State) (k : ServiceKey) : Option Service :=
  match serviceIndex s.services k with
  | none => none
  | some i => s.service i

/-- R127: the key of the channel's feeding service. -/
def Room.feedingKey (x : Room) : Option ServiceKey :=
  match x.feeding with
  | .primary => x.primary
  | .fallback => x.fallback

/-- R127: the channel's feeding service, when it has an entry. -/
def State.feedingService (s : State) (x : Room) : Option Service :=
  match x.feedingKey with
  | none => none
  | some k => s.serviceOfKey k

/-- R127: the wanted carrier: the selection of the feeding service. -/
def State.wanted (s : State) (x : Room) : Option Nat :=
  match s.feedingService x with
  | none => none
  | some v => v.selection

/-- The state of the service of a bound key; none when it has no entry. -/
def State.stateOfKey (s : State) (k : ServiceKey) : Option ServiceState := (s.serviceOfKey k).map (·.state)

/-- R128: feeding, decided at each recompute. -/
def decideFeeding (s : State) (x : Room) : Feeding :=
  match x.primary, x.fallback with
  | none, none => x.feeding
  | some _, none => .primary
  | none, some _ => .fallback
  | some p, some f =>
    match x.feeding with
    | .primary =>
      if (s.stateOfKey p = none ∨ s.stateOfKey p = some .unavailable) ∧ s.stateOfKey f = some .served then .fallback
      else .primary
    | .fallback => if s.stateOfKey p = some .served then .primary else .fallback

/-- R129: HELD or LIVE for a channel whose feed slot carries the wanted carrier. -/
def shownAs (v : Service) : RouteState :=
  if v.state = .holding ∨ (v.state = .pending ∧ v.pendingKind = some .failover) then .held else .live

/-- R129: a channel that shows slate. -/
def slateRoom (x : Room) : Room := { x with route := .slate, feedSlot := none, pendingFeed := none, timer := none }

/-- R130: the old feed while its stream lasts. -/
def lastingFeed (s : State) (x : Room) : Option (Fin 8) :=
  match x.feedSlot with
  | none => none
  | some i => if (s.slot i).role = .carry ∧ (s.slot i).state = .locked then some i else none

/-- R130: a channel in SWITCHING towards carrier `c` on slot `i`; a pending feed that is already that one keeps its
request time and timer. -/
def switchingRoom (s : State) (x : Room) (i : Fin 8) (c : Nat) : Room :=
  if x.route = .switching ∧ x.pendingFeed = some (i, c) then { x with feedSlot := lastingFeed s x }
  else
    { x with
      route := .switching, feedSlot := lastingFeed s x, pendingFeed := some (i, c), requestTime := some s.now,
      timer := some switchMs }

/-- R129, R130: the record of a channel after a recompute, its feeding decided. -/
def routeRoom (s : State) (x : Room) : Room :=
  if x.primary = none ∧ x.fallback = none then
    { x with route := .unbound, feedSlot := none, pendingFeed := none, requestTime := none, timer := none }
  else
    match s.feedingService x with
    | none => slateRoom x
    | some v =>
      match v.selection with
      | none => slateRoom x
      | some c =>
        match s.streamSlot c with
        | none => slateRoom x
        | some i =>
          if x.feedSlot = some i then { x with route := shownAs v, pendingFeed := none, timer := none }
          else switchingRoom s x i c

/-- R127 to R130: the record of a channel after a recompute. -/
def recomputed (s : State) (x : Room) : Room := routeRoom s { x with feeding := decideFeeding s x }

/-- R141: a change that raises a ROOM notice: route state, feeding, feed slot, pending feed or bindings. -/
def roomChanged (a b : Room) : Bool :=
  decide (a.route ≠ b.route) || decide (a.feeding ≠ b.feeding) || decide (a.feedSlot ≠ b.feedSlot)
    || decide (a.pendingFeed ≠ b.pendingFeed) || decide (a.primary ≠ b.primary) || decide (a.fallback ≠ b.fallback)

/-- A channel's record replaced, with the notice and the pair of records of R141. -/
def changeRoom (r : Fin 48) (after : Room) (s : State) : State :=
  let before := s.room r
  let s1 := putRoom r after s
  if roomChanged before after then
    handPair .room r.val (some (roomView before)) (some (roomView after)) (offer .room r.val (roomNotice r after) s1)
  else s1

/-- A channel recomputed. -/
def recomputeRoom (s : State) (r : Fin 48) : State := changeRoom r (recomputed s (s.room r)) s

/-- Every channel recomputed, in ascending order (log entry 8). A channel that nothing reaches is left as it is. -/
def recomputeRooms (s : State) : State := allRooms.foldl recomputeRoom s

/-- R131: a SWITCHING channel at the completion of its switch: the feed slot becomes the pending feed's slot. -/
def completedRoom (s : State) (x : Room) : Room :=
  match x.pendingFeed with
  | none => x
  | some p =>
    { x with
      feedSlot := some p.1, pendingFeed := none, timer := none,
      route := match s.feedingService x with | none => .slate | some v => shownAs v }

/-- R131: the switch of a channel completes, and the channel is recomputed. -/
def completeSwitching (s : State) (r : Fin 48) : State :=
  if (s.room r).route = .switching then recomputeRoom (changeRoom r (completedRoom s (s.room r)) s) r else s

end Sys2Proof.Machine
end

