-- ==== Sys2Proof/Machine/Ranking.lean ====
section
/-! DEFINITION. The service ranking unit: eligibility, candidate lists, lead counts, switches, failover and holds
(R108 to R124). A service asks the router by posting a request; the grant arbiter takes it later (R116, R134). -/

namespace Sys2Proof.Machine

/-! ## Eligibility and candidate lists (R112 to R115) -/

/-- R112: a measurement present, with a score at or above the floor. -/
def scoreAtFloor (floor : Nat) (c : Carrier) : Bool :=
  match c.meas.bind (·.score) with
  | none => false
  | some v => decide (floor ≤ v)

/-- R112: the reception of service `k` on carrier `c` is eligible. -/
def eligibleFor (p : Params) (k : ServiceKey) (c : Carrier) : Bool :=
  decide (c.state = .verified) && decide (c.listStatus = .valid) && decide (k ∈ c.services) && scoreAtFloor p.floor c

/-- R112, R119: the reception is ineligible for no other cause than a PENDING list. -/
def inAbeyance (p : Params) (k : ServiceKey) (c : Carrier) : Bool :=
  decide (c.state = .verified) && decide (c.listStatus = .pending) && decide (k ∈ c.services) && scoreAtFloor p.floor c

/-- R114 steps 1 and 2: carrier `i` as a candidate of service `k`. -/
def candidateOf (s : State) (k : ServiceKey) (i : Nat) (c : Carrier) : Candidate :=
  { carrier := i, score := c.meas.bind (·.score), stale := s.stale c, eligible := eligibleFor s.params k c, lead := 0 }

/-- R114 step 3: non-stale before stale, then score descending (0 when absent), then carrier index ascending. -/
def ranksBefore (a b : Candidate) : Bool :=
  if a.stale ≠ b.stale then !a.stale
  else if a.score.getD 0 ≠ b.score.getD 0 then decide (b.score.getD 0 < a.score.getD 0)
  else decide (a.carrier < b.carrier)

/-- R114: every eligible reception of a service, in order. -/
def State.eligibleRanked (s : State) (k : ServiceKey) : List Candidate :=
  sortBy ranksBefore ((s.carriers.filter fun e => eligibleFor s.params k e.2).map fun e => candidateOf s k e.1 e.2)

/-- R114 step 4: the selection, if any, and the highest others, up to 6 in all. -/
def keepSix (sel : Option Nat) (l : List Candidate) : List Candidate :=
  match sel with
  | none => l.take candidatePlaces
  | some x =>
    if l.any fun c => decide (c.carrier = x) then
      let others := (l.filter fun c => decide (c.carrier ≠ x)).take (candidatePlaces - 1)
      l.filter fun c => decide (c.carrier = x) || others.any fun o => decide (o.carrier = c.carrier)
    else l.take candidatePlaces

/-- R114 step 2: the selection's carrier as a candidate; one without an entry has no score. -/
def selectedCandidate (s : State) (k : ServiceKey) (x : Nat) : Candidate :=
  match s.carrier x with
  | none => { carrier := x, score := none, stale := false, eligible := false, lead := 0 }
  | some c => candidateOf s k x c

/-- R114 steps 1 to 3: every eligible reception, and the selection, in order. -/
def allCandidates (s : State) (v : Service) : List Candidate :=
  let el := s.eligibleRanked v.key
  match v.selection with
  | none => el
  | some x =>
    if el.any fun c => decide (c.carrier = x) then el else insertBy ranksBefore (selectedCandidate s v.key x) el

/-- R114: the candidate list a rebuild forms, before lead counts. -/
def formedCandidates (s : State) (v : Service) : List Candidate := keepSix v.selection (allCandidates s v)

/-- R114: the top candidate, the first entry marked eligible. -/
def topOf (l : List Candidate) : Option Candidate := l.find? (·.eligible)

/-- The lead count a candidate list holds for a carrier; 0 when it is not in the list (R115). -/
def leadOf (l : List Candidate) (x : Nat) : Nat :=
  match l.find? fun c => decide (c.carrier = x) with
  | none => 0
  | some c => c.lead

/-- R115: a candidate list with every lead count at 0, as a service with no selection keeps them. -/
def zeroLeads (l : List Candidate) : List Candidate := l.map fun c => { c with lead := 0 }

/-- R115: the lead counts after a rebuild that turned the list `old` into `new`. -/
def withLeads (hysteresis : Nat) (sel : Option Nat) (old new : List Candidate) : List Candidate :=
  match sel with
  | none => zeroLeads new
  | some x =>
    let selScore := ((new.find? fun c => decide (c.carrier = x)).bind (·.score)).getD 0
    new.map fun c =>
      if c.carrier ≠ x ∧ (topOf new).map (·.carrier) = some c.carrier ∧ selScore + hysteresis ≤ c.score.getD 0 then
        { c with lead := min maxLead (leadOf old c.carrier + 1) }
      else { c with lead := 0 }

/-- R114, R115: the service with its list formed anew. -/
def rebuilt (s : State) (v : Service) : Service :=
  { v with cands := withLeads s.params.hysteresis v.selection v.cands (formedCandidates s v) }

/-- The selection is the top candidate of the list. -/
def selectionIsTop (v : Service) : Bool :=
  match topOf v.cands with
  | none => false
  | some t => decide (v.selection = some t.carrier)

/-- R120: constrained becomes no when the selection is the top candidate at a rebuild in SERVED. -/
def settleConstrained (v : Service) : Service :=
  if v.state = .served ∧ selectionIsTop v = true then { v with constrained := false } else v

/-- R114, R115: a rebuild of the candidate list of service `i`. -/
def rebuildList (i : Nat) (s : State) : State :=
  modService i (fun v => settleConstrained (rebuilt s v)) s

/-- A service whose list does not hold its selection has the list formed again, lead counts kept (the third law of
R114). -/
def listed (s : State) (v : Service) : Service :=
  match v.selection with
  | none => v
  | some x =>
    if v.cands.any fun c => decide (c.carrier = x) then v
    else { v with cands := (formedCandidates s v).map fun c => { c with lead := leadOf v.cands c.carrier } }

/-- The third law of R114, kept for service `i`. -/
def ensureListed (i : Nat) (s : State) : State := modService i (listed s) s

/-! ## Requests (R116) -/

/-- R116: a request of service `i` waits at the arbiter. -/
def inFlight (s : State) (i : Nat) : Bool := s.router.requests.any fun q => decide (q.service = i)

/-- R116: a request joins the arbiter's waiting requests; a service holds at most one request in flight. -/
def postRequest (q : GrantReq) (s : State) : State :=
  if inFlight s q.service then s else modRouter (fun r => { r with requests := r.requests ++ [q] }) s

/-- R116: the waiting request of service `i` is withdrawn. -/
def withdrawRequest (i : Nat) (s : State) : State :=
  modRouter (fun r => { r with requests := r.requests.filter fun q => decide (q.service ≠ i) }) s

/-! ## Failover (R119 to R122) -/

/-- A service without selection, target or hold (R117: UNAVAILABLE exactly when it has no selection). Its lead counts are
0 (R115); its candidates stand until the next rebuild (DEDUCED, log entry 30). -/
def unavailableService (v : Service) : Service :=
  { v with
    state := .unavailable, selection := none, target := none, pendingKind := none, holdUntil := none,
    cands := zeroLeads v.cands }

/-- R119 step 3, R122: a service that holds a selection enters a failover hold, hold-until set if absent; a hold-until
that is reached, and a selection held only by a failed grant of kind FIRST (R121), clear the selection. -/
def failoverStep3 (i : Nat) (first : Bool) (s : State) : State :=
  modService i (fun v =>
    if first = true ∨ v.selection = none then unavailableService v
    else
      let until_ := v.holdUntil.getD (timeAfter s.now s.params.holdLimit)
      if until_ ≤ s.now then unavailableService v
      else { v with state := .holding, target := none, pendingKind := none, holdUntil := some until_ }) s

/-- R119 step 2, R120: a plain grant of the best eligible reception whose carrier is carried, `except` excepted; step 3
when there is none. -/
def failoverCarried (i : Nat) (except : Option Nat) (purpose : Purpose) (first : Bool) (s : State) : State :=
  match s.service i with
  | none => s
  | some v =>
    match (s.eligibleRanked v.key).find? fun c => s.carriedAt c.carrier && decide (some c.carrier ≠ except) with
    | none => failoverStep3 i first s
    | some c => postRequest { service := i, carrier := c.carrier, failover := false, purpose := purpose, first := first } s

/-- R119: failover from step 1: a failover grant of the best eligible reception; step 2 when there is none. -/
def failover (i : Nat) (first : Bool) (s : State) : State :=
  match s.service i with
  | none => s
  | some v =>
    match s.eligibleRanked v.key with
    | [] => failoverCarried i none .carried first s
    | c :: _ => postRequest { service := i, carrier := c.carrier, failover := true, purpose := .best, first := first } s

/-! ## What a service does after a rebuild (R118, R119, R122, R123) -/

/-- The reception on the selection is eligible (R112). -/
def selectionEligible (s : State) (v : Service) : Bool :=
  match v.selection.bind s.carrier with
  | none => false
  | some c => eligibleFor s.params v.key c

/-- The reception on the selection is in abeyance (R112, R123). -/
def selectionInAbeyance (s : State) (v : Service) : Bool :=
  match v.selection.bind s.carrier with
  | none => false
  | some c => inAbeyance s.params v.key c

/-- The selection's carrier is carried. -/
def selectionCarried (s : State) (v : Service) : Bool :=
  match v.selection with
  | none => false
  | some x => s.carriedAt x

/-- R118: a SERVED service asks for a plain grant of its top candidate. -/
def wantsSwitch (s : State) (v : Service) (t : Candidate) : Bool :=
  decide (v.selection ≠ some t.carrier)
    && (v.constrained || (decide (s.params.leadCount ≤ t.lead) && decide (v.settleUntil ≤ s.now)))

/-- R118: the voluntary switch and the constrained retry. -/
def voluntarySwitch (i : Nat) (v : Service) (s : State) : State :=
  match topOf v.cands with
  | none => s
  | some t =>
    if wantsSwitch s v t then
      postRequest { service := i, carrier := t.carrier, failover := false, purpose := .voluntary, first := false } s
    else s

/-- R123: a SERVED service enters a list hold. -/
def listHeld (v : Service) : Service := { v with state := .holding, holdUntil := none }

/-- The end of a rebuild of a SERVED, BOUND service with no request in flight. -/
def actServed (i : Nat) (s : State) : State :=
  match s.service i with
  | none => s
  | some v =>
    if selectionEligible s v then voluntarySwitch i v s
    else if selectionInAbeyance s v then modService i listHeld s
    else failover i false s

/-- R117: the fields of a service whose switch to carrier `x` completes; `prev` is the selection held before the grant
was asked for. -/
def switchedService (now settle x : Nat) (prev : Option Nat) (v : Service) : Service :=
  let v1 := { v with
    selection := some x, target := none, pendingKind := none, state := .served, holdUntil := none }
  if prev = some x then v1
  else { v1 with
    switchCount := (v.switchCount + 1) % 65536, lastSwitch := some now, settleUntil := timeAfter now settle }

/-- R117: a switch of service `i` to carrier `x` completes, and the list is rebuilt. -/
def completeSwitch (i x : Nat) (prev : Option Nat) (s : State) : State :=
  actServed i (rebuildList i (modService i (switchedService s.now s.params.settle x prev) s))

/-- R111: an unbound service's selection is cleared. -/
def clearSelection (i : Nat) (s : State) : State := modService i unavailableService s

/-- A voluntary request of service `i` waits at the arbiter (R118). -/
def voluntaryWaits (s : State) (i : Nat) : Bool :=
  s.router.requests.any fun q => decide (q.service = i) && decide (q.purpose = .voluntary)

/-- R116, R123: the act of a rebuild while a request of the service waits: a list hold begins and ends at once; a switch,
a failover and the end of a hold wait for the answer. The flag says that a switch completed. -/
def actWaiting (i : Nat) (v : Service) (s : State) : State × Bool :=
  let s1 := modService i (fun v => { v with deferred := { v.deferred with rebuilt := true } }) s
  if v.state = .served ∧ selectionInAbeyance s v = true then (modService i listHeld s1, false)
  else
    match v.selection with
    | none => (s1, false)
    | some x =>
      if v.state = .holding ∧ v.holdUntil = none ∧ voluntaryWaits s i = true ∧ selectionEligible s v = true then
        (rebuildList i (modService i (switchedService s.now s.params.settle x (some x)) s1), true)
      else (s1, false)

/-- The act of a rebuild, by the state of the service (section 6.4 of the manual). The flag says that a switch completed. -/
def act (i : Nat) (s : State) : State × Bool :=
  match s.service i with
  | none => (s, false)
  | some v =>
    if !v.bound then
      (if v.selection ≠ none ∧ ¬ (selectionEligible s v = true ∧ selectionCarried s v = true) then clearSelection i s else s,
        false)
    else if inFlight s i then actWaiting i v s
    else
      match v.state with
      | .unavailable => (match topOf v.cands with | none => s | some _ => failover i false s, false)
      | .served => (actServed i s, false)
      | .pending => (s, false)
      | .holding =>
        match v.holdUntil with
        | some _ => (match topOf v.cands with | none => s | some _ => failover i false s, false)
        | none =>
          if selectionInAbeyance s v then (s, false)
          else if selectionEligible s v then
            match v.selection with
            | none => (s, false)
            | some x => (completeSwitch i x (some x) s, true)
          else (failover i false s, false)

/-! ## Reports of a service (R116, R124) and the marks (R108 to R111) -/

/-- R124: what raises a SELECTION notice. -/
def selectionChanged (a b : Service) : Bool :=
  decide (a.state ≠ b.state) || decide (a.selection ≠ b.selection) || decide (a.target ≠ b.target)
    || decide (a.constrained ≠ b.constrained)

/-- R124: what hands the watch unit a pair of records. -/
def serviceWatched (a b : Service) : Bool :=
  decide (a.state ≠ b.state) || decide (a.selection ≠ b.selection) || decide (a.constrained ≠ b.constrained)
    || decide (a.selectionScore ≠ b.selectionScore)

/-- R116: what is reported to the router. -/
def routerTold (a b : Service) : Bool :=
  decide (a.state ≠ b.state) || decide (a.selection ≠ b.selection) || decide (a.target ≠ b.target)

/-- R116, R124: the reports of one event of service `i` whose record was `before`: the notice, the watches, the router, in
that order (DESIGN CHOICE, log entry 42). -/
def reportService (i : Nat) (before : Service) (completed : Bool) (s : State) : State :=
  match s.service i with
  | none => s
  | some a =>
    let s1 := if completed || selectionChanged before a then offer .selection i (serviceSummary i a) s else s
    let s2 :=
      if serviceWatched before a then handPair .service i (some (serviceView before)) (some (serviceView a)) s1 else s1
    if routerTold before a then recomputeRooms s2 else s2

/-- An entry leaves the service table: its place is free and its waiting request is withdrawn (R108, R116). -/
def deleteService (i : Nat) (s : State) : State :=
  match s.service i with
  | none => s
  | some v =>
    handPair .service i (some (serviceView v)) none
      (withdrawRequest i (s.setServices (tabDel s.services i)))

/-- R111: an entry with neither mark is removed, but for one whose selection's carrier is carried. -/
def pruneService (i : Nat) (s : State) : State :=
  match s.service i with
  | none => s
  | some v =>
    if v.bound || v.seen then s
    else
      match v.selection with
      | none => deleteService i s
      | some x => if s.carriedAt x then s else deleteService i (reportService i v false (clearSelection i s))

/-- One event of service `i`: what it does, its reports, and its removal when it holds no mark. -/
def serviceEvent (i : Nat) (f : State → State × Bool) (s : State) : State :=
  match s.service i with
  | none => s
  | some before =>
    let r := f s
    pruneService i (reportService i before r.2 r.1)

/-- R113: a rebuild of service `i`, and what it does after it. -/
def rebuildEvent (i : Nat) (s : State) : State := serviceEvent i (fun s => act i (rebuildList i s)) s

/-- R110: a new entry. -/
def newService (k : ServiceKey) (bound seen : Bool) : Service :=
  { key := k, bound := bound, seen := seen, state := .unavailable, selection := none, target := none,
    pendingKind := none, constrained := false, cands := [], settleUntil := 0, holdUntil := none, switchCount := 0,
    lastSwitch := none, constrainedBefore := false, deferred := { rebuilt := false, carryLost := none } }

/-- R108, R110: an entry added at the lowest free place, its candidate list built at once. -/
def addService (v : Service) (s : State) : State :=
  let i := tabFree s.services
  if i < servicePlaces then rebuildEvent i (handPair .service i none (some (serviceView v)) (putService i v s)) else s

/-- R109: some carrier entry's list with status VALID or PENDING holds the key. -/
def State.seenKey (s : State) (k : ServiceKey) : Bool :=
  s.carriers.any fun e => decide (e.2.listStatus ≠ .absent) && decide (k ∈ e.2.services)

/-- R109, R110: the SEEN mark of one key evaluated afresh, its entry added or removed as its marks require. -/
def evaluateSeen (s : State) (k : ServiceKey) : State :=
  match serviceIndex s.services k with
  | some i => pruneService i (modService i (fun v => { v with seen := s.seenKey k }) s)
  | none =>
    if s.seenKey k then
      if s.services.length < servicePlaces then addService (newService k false true) s
      else modLink (fun l => { l with flags := { l.flags with serviceTableFull := true } }) s
    else s

/-- The rebuilds of the services of some keys, in ascending service index (log entry 8). -/
def rebuildKeys (keys : List ServiceKey) (s : State) : State :=
  ((s.services.filter fun e => decide (e.2.key ∈ keys)).map Prod.fst).foldl (fun s i => rebuildEvent i s) s

/-- R88, R109, R113: a change of a carrier reported to the ranking unit, with its keys after (in the order of its list)
and before. The keys of the new list are offered before those it no longer lists lose SEEN (DESIGN CHOICE, log entry 40). -/
def rankCarrier (after before : List ServiceKey) (s : State) : State :=
  let keys := distinct (after ++ before)
  rebuildKeys keys (keys.foldl evaluateSeen s)

/-- R85: within a removal, a service whose selection is the removed carrier. -/
def dropRemoved (x : Nat) (s : State) (i : Nat) : State :=
  serviceEvent i (fun s =>
    match s.service i with
    | none => (s, false)
    | some v => if v.selection = some x then act i (rebuildList i (clearSelection i s)) else (s, false)) s

/-- The services whose selection is carrier `x`, in ascending index. -/
def State.selecting (s : State) (x : Nat) : List Nat :=
  (s.services.filter fun e => decide (e.2.selection = some x)).map Prod.fst

/-- The services whose target is carrier `x`, in ascending index. -/
def State.targeting (s : State) (x : Nat) : List Nat :=
  (s.services.filter fun e => decide (e.2.target = some x)).map Prod.fst

/-- R85: a removed carrier is dropped from a candidate list that no rebuild has formed since; a selection stays listed
(R114). -/
def dropCandidate (x : Nat) (v : Service) : Service :=
  if v.selection = some x then v else { v with cands := v.cands.filter fun c => decide (c.carrier ≠ x) }

/-- R85: carrier `x` is dropped from every candidate list. -/
def dropCandidates (x : Nat) (s : State) : State := (tabKeys s.services).foldl (fun s i => modService i (dropCandidate x) s) s

/-- R85, R113: the removal of carrier `x`, whose list held `keys`, reported to the ranking unit: each service of its
list or with it as selection has one rebuild, and no candidate list holds it after. -/
def rankRemoval (x : Nat) (keys : List ServiceKey) (s : State) : State :=
  let held := s.selecting x
  let s1 := held.foldl (dropRemoved x) s
  let s2 := (distinct keys).foldl evaluateSeen s1
  let rest := (s2.services.filter fun e => decide (e.2.key ∈ keys) && !held.contains e.1).map Prod.fst
  dropCandidates x (rest.foldl (fun s i => rebuildEvent i s) s2)

/-! ## Reports from the router (R116, R120, R121) -/

/-- R116: what reached the service while its request waited, judged on its state and list as they then stand. -/
def judgeDeferred (i : Nat) (s : State) : State × Bool :=
  match s.service i with
  | none => (s, false)
  | some v =>
    if inFlight s i then (s, false)
    else
      let s1 := modService i (fun v => { v with deferred := { rebuilt := false, carryLost := none } }) s
      let standing := v.bound && (decide (v.state = .served) || (decide (v.state = .holding) && v.holdUntil.isNone))
        && !selectionCarried s v
      match v.deferred.carryLost, standing with
      | some true, true => (failoverCarried i v.selection .restricted false s1, false)
      | some false, true => (failover i false s1, false)
      | _, _ => if v.deferred.rebuilt then act i s1 else (s1, false)

/-- R119, R120, R123: carry lost reported to service `i` for its selection. -/
def carryLostService (restricted : Bool) (x : Nat) (s : State) (i : Nat) : State :=
  serviceEvent i (fun s =>
    match s.service i with
    | none => (s, false)
    | some v =>
      if v.selection ≠ some x then (s, false)
      else if !v.bound then (clearSelection i s, false)
      else if inFlight s i then
        (modService i (fun v => { v with deferred := { v.deferred with carryLost := some restricted } }) s, false)
      else if v.state = .served ∨ (v.state = .holding ∧ v.holdUntil = none) then
        (if restricted then failoverCarried i (some x) .restricted false s else failover i false s, false)
      else (s, false)) s

/-- R116: carry lost of carrier `x`, reported to every service whose selection it is. -/
def carryLost (restricted : Bool) (x : Nat) (s : State) : State :=
  (s.selecting x).foldl (carryLostService restricted x) s

/-- R111, R116: the end of carry of carrier `x`: an unbound entry that still selects it has its selection cleared. -/
def endOfCarry (x : Nat) (s : State) : State :=
  (s.selecting x).foldl (fun s i =>
    serviceEvent i (fun s =>
      match s.service i with
      | none => (s, false)
      | some v => if v.bound then (s, false) else (clearSelection i s, false)) s) s

/-- R121: the target `x` of service `i` is in effect. -/
def targetInEffect (x : Nat) (s : State) (i : Nat) : State :=
  serviceEvent i (fun s =>
    match s.service i with
    | none => (s, false)
    | some v =>
      if v.state = .pending ∧ v.target = some x then
        (completeSwitch i x (if v.pendingKind = some .first then none else v.selection) s, true)
      else (s, false)) s

/-- R121: the fields of a service that leaves PENDING for a failover, its selection kept. -/
def failedPending (v : Service) : Service :=
  { v with state := .holding, target := none, pendingKind := none, constrained := v.constrainedBefore }

/-- R121: the grant of target `x` of service `i` has failed. -/
def grantFailedService (x : Nat) (s : State) (i : Nat) : State :=
  serviceEvent i (fun s =>
    match s.service i with
    | none => (s, false)
    | some v =>
      if v.state = .pending ∧ v.target = some x then
        if v.pendingKind = some .voluntary ∧ selectionEligible s v = true ∧ selectionCarried s v = true then
          (modService i (fun v =>
            { v with state := .served, target := none, pendingKind := none, constrained := v.constrainedBefore }) s,
            false)
        else (failover i (decide (v.pendingKind = some .first)) (modService i failedPending s), false)
      else (s, false)) s

/-- R139: grant failed, reported to every service whose target is `x`. -/
def grantFailed (x : Nat) (s : State) : State := (s.targeting x).foldl (grantFailedService x) s

/-- R139: target in effect, reported to every service whose target is `x`. -/
def targetsInEffect (x : Nat) (s : State) : State := (s.targeting x).foldl (targetInEffect x) s

/-! ## Answers to grant requests (R116 to R120) -/

/-- R116: the answers. -/
inductive GrantAnswer where
  | granted | pending | refused
deriving DecidableEq, Repr

/-- R118, R119: the kind of the PENDING state a request answered PENDING enters. -/
def pendingKindOf (q : GrantReq) (v : Service) : PendingKind :=
  if q.first = true ∨ v.selection = none then .first
  else match q.purpose with
    | .voluntary => .voluntary
    | _ => .failover

/-- R118, R119: the fields of a service whose request is answered PENDING. A service of kind FIRST takes the target as
its selection at once. -/
def pendingService (q : GrantReq) (v : Service) : Service :=
  let kind := pendingKindOf q v
  { v with
    state := .pending, target := some q.carrier, pendingKind := some kind, constrainedBefore := v.constrained,
    selection := if kind = .first then some q.carrier else v.selection,
    constrained := if q.purpose = .carried ∨ q.purpose = .restricted then true else v.constrained }

/-- R119, R120: constrained after step 2 answered GRANTED: yes unless the carrier is the top candidate. -/
def constrainAfterStep2 (q : GrantReq) (v : Service) : Service :=
  if q.purpose = .carried ∨ q.purpose = .restricted then { v with constrained := !selectionIsTop v } else v

/-- What service `q.service` does with the answer to its request `q`. -/
def actOnAnswer (q : GrantReq) (ans : GrantAnswer) (s : State) : State × Bool :=
  match s.service q.service with
  | none => (s, false)
  | some v =>
    match ans with
    | .granted =>
      (modService q.service (constrainAfterStep2 q)
        (completeSwitch q.service q.carrier (if q.first then none else v.selection) s), true)
    | .pending => (ensureListed q.service (modService q.service (pendingService q) s), false)
    | .refused =>
      match q.purpose with
      | .voluntary => (s, false)
      | .best => (failoverCarried q.service (some q.carrier) .carried q.first s, false)
      | .carried => (failoverStep3 q.service q.first s, false)
      | .restricted => (failoverStep3 q.service q.first s, false)

/-- The answer to request `q` handed to its service, and what it deferred judged after it. -/
def answerService (q : GrantReq) (ans : GrantAnswer) (s : State) : State :=
  serviceEvent q.service (fun s =>
    let r := actOnAnswer q ans s
    let d := judgeDeferred q.service r.1
    (d.1, r.2 || d.2)) s

/-! ## BOUND marks (R109 to R111) -/

/-- R111, R121: the fields of a service that loses BOUND: a target is dropped; a selection whose carrier is not carried is
cleared. A PENDING service that keeps its selection, of kind FIRST too, is SERVED with constrained as it stood and its
hold-until kept (DESIGN CHOICE, log entry 41). -/
def unboundService (s : State) (v : Service) : Service :=
  let v1 := { v with bound := false }
  if v.selection = none ∨ selectionCarried s v = false then unavailableService v1
  else if v.state = .pending then
    { v1 with state := .served, target := none, pendingKind := none, constrained := v.constrainedBefore }
  else v1

/-- R109, R111, R116: service `i` loses BOUND. -/
def loseBound (s : State) (i : Nat) : State :=
  serviceEvent i (fun s =>
    (modService i (fun v => { v with deferred := { rebuilt := false, carryLost := none } })
      (modService i (unboundService s) (withdrawRequest i s)), false)) s

/-- R110: the entry a BOUND key evicts from a full table. -/
def evictable (t : Table Service) : Option Nat :=
  match t.find? fun e => !e.2.bound && decide (e.2.selection = none) && e.2.cands.isEmpty with
  | some e => some e.1
  | none =>
    match t.find? fun e => !e.2.bound && decide (e.2.selection = none) with
    | some e => some e.1
    | none =>
      match t.find? fun e => !e.2.bound with
      | some e => some e.1
      | none => none

/-- R110: an evicted entry that holds a selection has it cleared and reported before it leaves. -/
def evictService (i : Nat) (s : State) : State :=
  match s.service i with
  | none => s
  | some v => deleteService i (reportService i v false (clearSelection i s))

/-- R110: room for one more entry. -/
def makeServiceRoom (s : State) : State :=
  if s.services.length < servicePlaces then s
  else match evictable s.services with
    | none => s
    | some i => evictService i s

/-- R109, R110, R113: a key given BOUND by a commit. -/
def gainBound (s : State) (k : ServiceKey) : State :=
  match serviceIndex s.services k with
  | some i =>
    match s.service i with
    | none => s
    | some v => if v.bound then s else rebuildEvent i (modService i (fun v => { v with bound := true }) s)
  | none => addService (newService k true (s.seenKey k)) (makeServiceRoom s)

/-- The keys bindings name, in ascending room channel, the primary before the fallback (R110). -/
def boundKeys (p : Plan) : List ServiceKey :=
  distinct (p.bindings.toList.flatMap fun b => b.primary.toList ++ b.fallback.toList)

/-- R109: the BOUND marks after a commit of `p`: cleared on the keys no longer named, then set on the keys named. -/
def applyBindings (p : Plan) (s : State) : State :=
  let keys := boundKeys p
  let losing := (s.services.filter fun e => e.2.bound && !keys.contains e.2.key).map Prod.fst
  keys.foldl gainBound (losing.foldl loseBound s)

end Sys2Proof.Machine
end

