-- ==== Sys2Proof/Machine/CarrierTable.lean ====
section
/-! DEFINITION. The carrier table: reports to the other blocks, holds, outcomes, discovery, records and removal
(R71 to R90, and R62 to R65). -/

namespace Sys2Proof.Machine

/-! ## What the table reports (R85, R88, R89) -/

/-- The score of an entry's measurement. -/
def Carrier.score (c : Carrier) : Option Nat := c.meas.bind (·.score)

/-- R88: a change the ranking unit receives. -/
def rankWorthy (b a : Carrier) (staleB staleA : Bool) : Bool :=
  decide (b.state ≠ a.state) || decide (b.score ≠ a.score) || decide (staleB ≠ staleA)
    || decide (b.services ≠ a.services) || decide (b.listStatus ≠ a.listStatus)

/-- R89: a change that raises a CARRIER notice. -/
def noticeWorthy (b a : Carrier) (staleB staleA : Bool) : Bool :=
  rankWorthy b a staleB staleA || decide (b.failCause ≠ a.failCause) || decide (b.planned ≠ a.planned)
    || decide (b.discovered ≠ a.discovered) || decide (b.lister ≠ a.lister) || decide (b.hold ≠ a.hold)
    || decide (b.removalPending ≠ a.removalPending) || decide (b.observed ≠ a.observed)
    || decide (b.listTruncated ≠ a.listTruncated) || decide (b.carrierList ≠ a.carrierList)
    || decide (b.meas.map (·.mer) ≠ a.meas.map (·.mer)) || decide (b.history ≠ a.history)

/-- R88, R89: the change of entry `i`, which was `b`, reported: the notice, the watches, the ranking unit (in that
order, log entry 8). `forced` says that all three are told whatever changed (a rescoring, R81); `counts` are those of a
discovery, whose report raises its notice whatever changed. -/
def reportCarrier (forced : Bool) (counts : Option DiscoveryCounts) (staleB : Bool) (i : Nat) (b : Carrier) (s : State) :
    State :=
  match s.carrier i with
  | none => s
  | some a =>
    if b = a ∧ staleB = s.stale a ∧ forced = false ∧ counts = none then s
    else
      let s1 :=
        if forced || counts.isSome || noticeWorthy b a staleB (s.stale a) then
          offer .carrier i (carrierNotice s.now s.params.maxAge i a false counts) s
        else s
      let s2 := if b = a ∧ forced = false then s1 else handPair .carrier i (some (carrierView b)) (some (carrierView a)) s1
      if forced || rankWorthy b a staleB (s.stale a) then rankCarrier a.services b.services s2 else s2

/-- R85: the removal of entry `i`, which was `b` and has left the table, reported: the scheduler, the notice, the
watches, the ranking unit. -/
def reportRemoval (s : State) (e : Nat × Carrier) : State :=
  let s1 := leaveSet e.1 (dropUrgent e.1 s)
  let s2 := offer .carrier e.1 (carrierNotice s.now s.params.maxAge e.1 e.2 true none) s1
  rankRemoval e.1 e.2.services (handPair .carrier e.1 (some (carrierView e.2)) none s2)

/-- R89, R96: the addition of entry `i` reported. -/
def reportAddition (s : State) (i : Nat) : State :=
  match s.carrier i with
  | none => s
  | some a =>
    searchDue (handPair .carrier i none (some (carrierView a))
      (offer .carrier i (carrierNotice s.now s.params.maxAge i a false none) s))

/-- The reports of one change of the table, which held `old` before it: removals, changes, additions, each in ascending
index (log entry 8). -/
def reportChanges (old : Table Carrier) (removed added : List Nat) (forced : Nat → Bool)
    (counts : Nat → Option DiscoveryCounts) (wasStale : Carrier → Bool) (s : State) : State :=
  let s1 := (old.filter fun e => removed.contains e.1).foldl reportRemoval s
  let s2 := (old.filter fun e => !removed.contains e.1).foldl
    (fun s e => reportCarrier (forced e.1) (counts e.1) (wasStale e.2) e.1 e.2 s) s1
  added.foldl reportAddition s2

/-- A change of one entry, and its reports. -/
def changeCarrier (i : Nat) (f : Carrier → Carrier) (s : State) : State :=
  match s.carrier i with
  | none => s
  | some b => reportCarrier false none (s.stale b) i b (putCarrier i (f b) s)

/-- R65: every entry whose lister was `x` has its lister made absent. -/
def clearLister (x : Nat) (t : Table Carrier) : Table Carrier :=
  t.map fun e => if e.2.lister = some x then (e.1, { e.2 with lister := none }) else e

/-- R85 steps 1 and 2: the table without entry `x`. -/
def removeEntry (x : Nat) (t : Table Carrier) : Table Carrier := clearLister x (tabDel t x)

/-- R85: the removal of an unheld entry, at once. -/
def removeCarrier (i : Nat) (s : State) : State :=
  reportChanges s.carriers [i] [] (fun _ => false) (fun _ => none) s.stale (s.setCarriers (removeEntry i s.carriers))

/-! ## Holds and outcomes (R73 to R77, R80) -/

/-- R73: the hold of slot `j` on entry `i` is in phase ACTIVE. -/
def activeHold (s : State) (i : Nat) (j : Fin 8) : Bool :=
  match (s.carrier i).bind (·.hold) with
  | none => false
  | some h => decide (h.slot = j) && !h.ending

/-- R21, R22: the re-survey interval of an entry; the minimum interval when it has no record. -/
def entryInterval (p : Params) (c : Carrier) : Nat :=
  match c.meas with
  | none => p.minInterval
  | some m => intervalOf p m.margin (fallOf c.history)

/-- R21: the next-due time formed from the re-survey interval. -/
def dueAfterInterval (s : State) (c : Carrier) : Nat := timeAfter s.now (entryInterval s.params c)

/-- R73: the entry when slot `j` takes a TUNE for it. An entry that is ACQUIRING already keeps its state before acquisition
(DESIGN CHOICE, log entry 44). -/
def tunedEntry (j : Fin 8) (carry : Bool) (c : Carrier) : Carrier :=
  let c1 := { c with hold := some { slot := j, carry := carry, ending := false } }
  if c.state = .excluded then c1 else { c1 with stateBefore := if c.state = .acquiring then c.stateBefore else some c.state, state := .acquiring }

/-- R73, R94: slot `j` reports a TUNE taken for entry `i`. -/
def tableTuned (i : Nat) (j : Fin 8) (carry : Bool) (s : State) : State :=
  let s1 := changeCarrier i (tunedEntry j carry) s
  if carry then dropUrgent i s1 else s1

/-- R73: an UNSURVEYED entry under an ACTIVE hold is ACQUIRING when its slot is in TUNING or ACQUIRING on the
acquisition begun at its TUNE request. -/
def resumeAcquiring (s : State) (c : Carrier) : Carrier :=
  match c.hold with
  | none => c
  | some h =>
    if c.state = .unsurveyed ∧ h.ending = false ∧ (s.slot h.slot).retune = 0
        ∧ ((s.slot h.slot).state = .tuning ∨ (s.slot h.slot).state = .acquiring) then
      { c with state := .acquiring, stateBefore := some .unsurveyed }
    else c

/-- R38, R73: the hold of an adopted slot: role CARRY, ACTIVE again unless a removal is pending. -/
def adoptedEntry (c : Carrier) : Carrier :=
  match c.hold with
  | none => c
  | some h => { c with hold := some { h with carry := true, ending := h.ending && c.removalPending } }

/-- R73, R94: the table is told that entry `i` is now carried. -/
def tableAdopted (i : Nat) (s : State) : State :=
  dropUrgent i (changeCarrier i (fun c => resumeAcquiring s (adoptedEntry c)) s)

/-- R73: the hold of slot `j` on entry `i` ends. In phase ACTIVE the entry also changes as `g` says; in phase ENDING
nothing else changes, and a pending removal is completed. -/
def endHold (i : Nat) (j : Fin 8) (g : Carrier → Carrier) (s : State) : State :=
  match s.carrier i with
  | none => s
  | some c =>
    match c.hold with
    | none => s
    | some h =>
      if h.slot ≠ j then s
      else if h.ending then
        (if c.removalPending then searchDue (removeCarrier i (putCarrier i { c with hold := none } s))
         else searchDue (changeCarrier i (fun c => { c with hold := none }) s))
      else searchDue (changeCarrier i (fun c => { g c with hold := none }) s)

/-- R80: the release in LOCKED of the slot that held entry `i`. -/
def tableReleased (i : Nat) (j : Fin 8) (s : State) : State :=
  endHold i j (fun c => { c with nextDue := dueAfterInterval s c }) s

/-- R76: the entry after an ABORTED report. -/
def abortedEntry (s : State) (c : Carrier) : Carrier :=
  let c1 := if c.state = .acquiring then { c with state := c.stateBefore.getD .unsurveyed, stateBefore := none } else c
  if c.carried then { c1 with nextDue := dueAfterInterval s c } else c1

/-- R76: an ABORTED report of slot `j` for entry `i`. -/
def tableAborted (i : Nat) (j : Fin 8) (s : State) : State := endHold i j (abortedEntry s) s

/-- R75: the entry after a failure report. -/
def failedEntry (s : State) (cause : FailCause) (c : Carrier) : Carrier :=
  match c.state with
  | .excluded => c
  | .failed => c
  | .unsurveyed | .acquiring | .verified | .lost =>
    let n := min maxFails (c.failCount + 1)
    { c with
      state := .failed, failCause := some cause, failCount := n, stateBefore := none,
      nextDue := timeAfter s.now (backoffOf s.params n) }

/-- R75, R106: a failure report of slot `j` for entry `i`; in phase ACTIVE the entry leaves the outstanding set. -/
def tableFailed (i : Nat) (j : Fin 8) (cause : FailCause) (s : State) : State :=
  endHold i j (failedEntry s cause) (if activeHold s i j then leaveSet i s else s)

/-- A report other than one that ends the hold, taken only in phase ACTIVE (R73), in whatever state the entry is (DESIGN
CHOICE, log entry 25). -/
def tableReport (i : Nat) (j : Fin 8) (f : Carrier → Carrier) (s : State) : State :=
  if activeHold s i j then changeCarrier i f s else s

/-- R77: LOST. -/
def tableLost (i : Nat) (j : Fin 8) (s : State) : State :=
  tableReport i j (fun c => if c.state = .verified then { c with state := .lost } else c) s

/-- R77: re-acquired. -/
def tableReacquired (i : Nat) (j : Fin 8) (s : State) : State :=
  tableReport i j (fun c => if c.state = .lost then { c with state := .verified } else c) s

/-- R66: the same identity in different fields is stored. -/
def tableIdentity (i : Nat) (j : Fin 8) (id : Identity) (s : State) : State :=
  tableReport i j (fun c => { c with observed := some id }) s

/-- R67: ID_CHANGED: the identity is stored and the list marked PENDING, its keys kept. A list
that is ABSENT, as a cancelled removal leaves it, stays so until the next verification (R85; in
other states than VERIFIED log entry 25). -/
def tableIdChanged (i : Nat) (j : Fin 8) (id : Identity) (s : State) : State :=
  tableReport i j (fun c => 
    { c with observed := some id, listStatus := if c.listStatus = .absent then .absent else .pending }) s

/-- R68: the end of the re-read: the new list is VALID, but for one that is ABSENT until the next verification (R85). -/
def tableReread (i : Nat) (j : Fin 8) (l : FormedList) (s : State) : State :=
  tableReport i j (fun c =>
    if c.listStatus = .absent then c
    else { c with services := l.keys, listStatus := .valid, listTruncated := l.truncated }) s

/-! ## Discovery (R62 to R65) -/

/-- R64: an entry listed by `x` that a RECEIVED list of frequencies `freqs` omits and that leaves the table. -/
def prunes (x : Nat) (freqs : List Nat) (c : Carrier) : Bool :=
  decide (c.lister = some x) && !freqs.contains c.freq && c.discovered && !c.planned && c.hold.isNone

/-- R64: an entry of origin both listed by `x` and omitted loses DISCOVERED and its lister. -/
def unlist (x : Nat) (freqs : List Nat) (c : Carrier) : Carrier :=
  if c.lister = some x ∧ freqs.contains c.freq = false ∧ c.discovered = true ∧ c.planned = true then
    { c with discovered := false, lister := none }
  else c

/-- R64: the places a pruning frees. -/
def prunedPlaces (x : Nat) (freqs : List Nat) (t : Table Carrier) : List Nat :=
  (t.filter fun e => prunes x freqs e.2).map Prod.fst

/-- R64: the table after the pruning by lister `x`. -/
def pruneTable (x : Nat) (freqs : List Nat) (t : Table Carrier) : Table Carrier :=
  ((prunedPlaces x freqs t).foldl (fun t i => removeEntry i t) t).map fun e => (e.1, unlist x freqs e.2)

/-- R63 step 4: the lowest-numbered profile whose modulation kind is the hint. -/
def profileFor (p : Plan) (hint : Option Modulation) : Option (Fin 8) :=
  match hint with
  | none => none
  | some m => (List.finRange 8).find? fun n => decide ((p.profile n).modulation = m)

/-- R63, R72: a new discovered entry. -/
def discoveredEntry (now : Nat) (input : RfInput) (e : ListEntry) (prof : Fin 8) (x : Nat) : Carrier :=
  { input := input, freq := e.freq, symRate := clampNat e.symRate 1000 45000, profile := prof, planned := false,
    discovered := true, lister := some x, added := now, expected := none, observed := none, state := .unsurveyed,
    stateBefore := none, failCause := none, failCount := 0, meas := none, history := [], nextDue := now, hold := none,
    removalPending := false, services := [], listStatus := .absent, listTruncated := false, carrierList := .none }

/-- What discovery has done so far: the table, the four counts (R62) and the places added. -/
structure Discovery where
  table : Table Carrier
  counts : DiscoveryCounts
  added : List Nat
deriving DecidableEq, Repr

/-- R63 step 3: an entry whose key is known gains DISCOVERED, and the listing carrier as lister if it had none. An
entry whose removal is pending is not changed (R85). -/
def knownEntry (x : Nat) (c : Carrier) : Carrier :=
  if c.removalPending then c
  else { c with discovered := true, lister := match c.lister with | none => some x | some y => some y }

/-- R63: one entry of the formed list of lister `x` on input `input`. -/
def discoverOne (p : Plan) (now x : Nat) (input : RfInput) (d : Discovery) (e : ListEntry) : Discovery :=
  let cls := (p.inputCfg input).cls
  if cls = .disabled ∨ e.cls ≠ some cls ∨ inBand cls e.freq = false then
    { d with counts := { d.counts with unmatched := d.counts.unmatched + 1 } }
  else
    match carrierIndex d.table input e.freq with
    | some i =>
      { d with
        counts := { d.counts with known := d.counts.known + 1 },
        table := match tabGet d.table i with
          | none => d.table
          | some c => tabPut d.table i (knownEntry x c) }
    | none =>
      match profileFor p e.hint with
      | none => { d with counts := { d.counts with unmatched := d.counts.unmatched + 1 } }
      | some prof =>
        if tabFree d.table < carrierPlaces then
          { table := tabPut d.table (tabFree d.table) (discoveredEntry now input e prof x),
            counts := { d.counts with added := d.counts.added + 1 }, added := d.added ++ [tabFree d.table] }
        else { d with counts := { d.counts with notAdded := d.counts.notAdded + 1 } }

/-- R62 step 2: the entries of the formed list, one by one in their order. -/
def discover (p : Plan) (now x : Nat) (input : RfInput) (es : List ListEntry) (t : Table Carrier) : Discovery :=
  es.foldl (discoverOne p now x input)
    { table := t, counts := { added := 0, known := 0, unmatched := 0, notAdded := 0 }, added := [] }

/-- A VERIFIED report (R59). -/
structure VerifiedReport where
  identity : Identity
  list : FormedList
  status : CarrierListStatus
  entries : List ListEntry
deriving DecidableEq, Repr

/-- R74 steps 1 to 3: identity and lists stored. -/
def storedEntry (r : VerifiedReport) (c : Carrier) : Carrier :=
  { c with
    observed := some r.identity, services := r.list.keys, listStatus := .valid, listTruncated := r.list.truncated,
    carrierList := r.status }

/-- R74 step 5: the change of state. -/
def verifiedEntry (c : Carrier) : Carrier :=
  if c.state = .acquiring then
    { c with state := .verified, failCount := 0, failCause := none, stateBefore := none }
  else c

/-- R62: discovery runs when the carrier-list status is RECEIVED or TRUNCATED; R64 prunes when it is RECEIVED. -/
def runDiscovery (s : State) (i : Nat) (r : VerifiedReport) (t : Table Carrier) : List Nat × Discovery :=
  let removed := if r.status = .received then prunedPlaces i (r.entries.map (·.freq)) t else []
  let t1 := if r.status = .received then pruneTable i (r.entries.map (·.freq)) t else t
  match tabGet t i with
  | none => (removed, discover s.committed s.now i .a [] t1)
  | some c =>
    (removed, discover s.committed s.now i c.input
      (if r.status = .received ∨ r.status = .truncated then r.entries else []) t1)

/-- An entry of a table changed. -/
def tabMod {α : Type} (t : Table α) (i : Nat) (f : α → α) : Table α :=
  match tabGet t i with
  | none => t
  | some a => tabPut t i (f a)

/-- R74, R62, R106: a VERIFIED report of slot `j` for entry `i`, taken in phase ACTIVE, with its discovery, as one
change of the table. -/
def tableVerified (i : Nat) (j : Fin 8) (r : VerifiedReport) (s : State) : State :=
  if activeHold s i j then
    let t1 := tabMod s.carriers i (storedEntry r)
    let (removed, d) := runDiscovery s i r t1
    let t2 := tabMod d.table i verifiedEntry
    let counts := if r.status = .received ∨ r.status = .truncated then some d.counts else none
    let s1 := reportChanges s.carriers removed d.added (fun _ => false) (fun n => if n = i then counts else none)
      s.stale (leaveSet i (s.setCarriers t2))
    d.added.foldl (fun s n => joinSet n s) s1
  else s

/-! ## Records (R78, R79) -/

/-- R78: the entry after a window record is taken. -/
def recordedEntry (s : State) (rec : WindowRecord) (c : Carrier) : Carrier :=
  let margin := marginOf rec.mer (s.committed.profile c.profile).reqMer
  let h := offerPoint { time := rec.time, margin := margin } c.history
  let score :=
    if c.state = .verified then some (scoreOf margin rec.u rec.level h (s.committed.inputCfg c.input)) else none
  let c1 := { c with history := h, meas := some { rec with margin := margin, score := score } }
  if c.carried then c1 else { c1 with nextDue := dueAfterInterval s c1 }

/-- R78, R106: a window record of slot `j` for entry `i`; a record of a carried entry takes it from the outstanding set. -/
def tableRecord (i : Nat) (j : Fin 8) (rec : WindowRecord) (s : State) : State :=
  if activeHold s i j then
    let s1 := if s.carriedAt i then leaveSet i s else s
    changeCarrier i (recordedEntry s rec) s1
  else s

end Sys2Proof.Machine
end

