-- ==== Sys2Proof/Machine/Slots.lean ====
section
/-! DEFINITION. The receive slots, the level reference and what slots report to the scheduler and the router
(R25 to R48, R100, R132, R139, R140). -/

namespace Sys2Proof.Machine

/-- R46: what raises a SLOT notice: a change of state, role or calibration status. -/
def slotChanged (b a : Slot) : Bool :=
  decide (b.state ≠ a.state) || decide (b.role ≠ a.role) || decide (b.calStatus ≠ a.calStatus)

/-- A change of slot `i`, with the notice and the pair of records of R46. -/
def changeSlot (i : Fin 8) (f : Slot → Slot) (s : State) : State :=
  let b := s.slot i
  let s1 := putSlot i (f b) s
  if slotChanged b (f b) then
    handPair .slot i.val (some (slotView b)) (some (slotView (f b)))
      (offer .slot i.val (slotBytes s1.reference.queue i (f b)) s1)
  else s1

/-! ## The level reference (R42 to R45) -/

/-- R42: a LOCKED slot needs calibration: no last calibration on its present input, or the period has passed. -/
def needsCalibration (now : Nat) (r : Slot) : Bool :=
  decide (r.state = .locked)
    && match r.lastCal with
      | none => true
      | some p => decide (r.input ≠ some p.1) || decide (p.2 + calibrationPeriod ≤ now)

/-- R45: the status of a slot that neither waits nor holds the reference. -/
def restingStatus (r : Slot) : CalStatus := if r.lastCal.isSome then .done else .none

/-- R43: the free reference is granted to the head of the queue; that slot's window is abandoned (R6). -/
def grantReference (s : State) : State :=
  match s.reference.holder, s.reference.queue with
  | none, h :: t =>
    changeSlot h (fun r => { r with calStatus := .active, meas := dropWindow r.meas })
      (s.setReference { holder := some h, queue := t, timer := some calibrationMs })
  | _, _ => s

/-- R42: slot `i` needs calibration and may join the queue. -/
def mayJoin (s : State) (i : Fin 8) : Bool :=
  needsCalibration s.now (s.slot i) && decide ((s.slot i).calStatus ≠ .waiting)
    && decide ((s.slot i).calStatus ≠ .active) && !s.reference.queue.contains i && decide (s.reference.holder ≠ some i)

/-- R42, R43: slot `i` joins the queue at its tail if it needs to, and is granted at once when the reference is free. -/
def joinReference (s : State) (i : Fin 8) : State :=
  if mayJoin s i then
    grantReference (changeSlot i (fun r => { r with calStatus := .waiting })
      (s.setReference { s.reference with queue := s.reference.queue ++ [i] }))
  else s

/-- R42: the need evaluated for every slot; slots that join together join in an order the manual leaves open
(log entry 3). -/
def evaluateNeeds (s : State) : State :=
  let d := drawOrder (allSlots.filter (mayJoin s)) s
  d.1.foldl joinReference d.2

/-- R43: the reference, free, is granted on, and needs are evaluated (R42). -/
def passReference (s : State) : State := evaluateNeeds (grantReference s)

/-- R44: slot `i` leaves the queue or gives up the reference. -/
def quitReference (i : Fin 8) (r : Reference) : Reference :=
  if r.holder = some i then { r with holder := none, timer := none }
  else { r with queue := r.queue.filter fun j => decide (j ≠ i) }

/-- R44: slot `i` leaves LOCKED and becomes as `f` says; it leaves the queue, or gives up the reference, which is granted
on. -/
def leaveLocked (i : Fin 8) (f : Slot → Slot) (s : State) : State :=
  let s1 := changeSlot i f (s.setReference (quitReference i s.reference))
  if s.reference.holder = some i then passReference s1 else s1

/-! ## Reports to the scheduler (R98, R100, R104) -/

/-- The reason of an end of role (R30, R31, R37 to R40). -/
inductive EndReason where
  | released | aborted | adopted | offline
  | failed (c : FailCause)
deriving DecidableEq, Repr

def putSurvey (i : Fin 8) (x : Option SurveyRecord) (s : State) : State :=
  modSched (fun c => { c with surveys := c.surveys.set i x }) s

/-- R100, R104: an end of role that files the survey as PREEMPTED. -/
def preempted (reason : EndReason) (r : SurveyRecord) : Bool :=
  (decide (reason = .released) || decide (reason = .aborted))
    && (decide (r.phase = .acquiring) || decide (r.phase = .measuring))

/-- R100: the end of slot `i`'s survey role closes the survey record; a preempted carrier taken from the urgent list
returns to its head (R94). -/
def endSurvey (i : Fin 8) (reason : EndReason) (s : State) : State :=
  match s.sched.surveys[i] with
  | none => s
  | some r =>
    let s1 := putSurvey i none s
    if preempted reason r && r.fromUrgent then returnUrgent r.carrier s1 else s1

/-- R98: the slot reports that the survey is running. -/
def surveyRunning (i : Fin 8) (s : State) : State :=
  match s.sched.surveys[i] with
  | none => s
  | some r => putSurvey i (some { r with phase := .measuring }) s

/-! ## Carry records and reports to the router (R132, R133, R139, R140) -/

/-- The carry record of a carrier. -/
def recordOf (s : State) (x : Nat) : Option CarryRecord := s.router.records.find? fun r => decide (r.carrier = x)

/-- R133: a record is opened (one a carrier). -/
def openRecord (x : Nat) (i : Fin 8) (ph : CarryPhase) (s : State) : State :=
  modRouter (fun r => { r with
    records := (r.records.filter fun c => decide (c.carrier ≠ x)) ++ [{ carrier := x, slot := i, phase := ph }] }) s

/-- R133: the record of carrier `x` is closed. -/
def closeRecord (x : Nat) (s : State) : State :=
  modRouter (fun r => { r with records := r.records.filter fun c => decide (c.carrier ≠ x) }) s

/-- R133: the phase of the record of carrier `x` follows its slot `i`. -/
def setPhase (x : Nat) (i : Fin 8) (ph : CarryPhase) (s : State) : State :=
  modRouter (fun r => { r with
    records := r.records.map fun c => if c.carrier = x then { c with slot := i, phase := ph } else c }) s

/-- R132, R139: slot `i` has entered LOCKED in role CARRY on carrier `x`: its record is LIVE, the target is in effect, the
channels are recomputed, in that order (DESIGN CHOICE, log entry 52). -/
def streamPresent (i : Fin 8) (x : Nat) (s : State) : State :=
  recomputeRooms (targetsInEffect x (setPhase x i .live s))

/-- R132: the stream of carrier `x` on slot `i` is lost by lock loss. -/
def streamLost (i : Fin 8) (x : Nat) (s : State) : State := recomputeRooms (setPhase x i .retuning s)

/-- R133, R138, R139, R140: the end of slot's role on carrier `x` reported to the router. `asked` says that the router asked
for the release. -/
def endCarry (x : Nat) (asked : Bool) (s : State) : State :=
  if asked then
    (if (recordOf s x).isSome then endOfCarry x (recomputeRooms (closeRecord x s)) else recomputeRooms s)
  else grantFailed x (carryLost false x (recomputeRooms (closeRecord x s)))

/-- R35, R139: the hold of slot `i` is lost: its WAITING_SLOT record is closed and its grant fails. -/
def holdLost (i : Fin 8) (s : State) : State :=
  match s.router.records.find? fun r => decide (r.slot = i) && decide (r.phase = .waitingSlot) with
  | none => s
  | some r => grantFailed r.carrier (closeRecord r.carrier s)

/-! ## Entering RELEASING (R26, R30, R31, R33, R35, R37)

An event makes the slot's own change, with its SLOT notice, then reports to the carrier table, then to the owner of the role
(DESIGN CHOICE, log entry 46: section 2.6 asks for no order). -/

/-- A channel without acquisition or re-check (R59, R60, R61, R69). The window count is set at the next entry into
LOCKED. -/
def stoppedChannel (c : Channel) : Channel := { Channel.reset with windows := c.windows }

/-- The slot as it enters RELEASING: role, carrier, role time, latched values, adoption pending and re-tune attempt
cleared, window and acquisition ended, an abandoned unpark leaves the tuner powered (R28). -/
def freedSlot (hold offline : Bool) (r : Slot) : Slot :=
  { r with
    state := .releasing, role := .none, carrier := none, power := .on, roleTime := none, lockTimeout := none,
    modulation := none, codeRate := none, symRate := none, retune := 0, adoptionPending := false, heldForRouter := hold,
    offlinePending := offline, calStatus := restingStatus r, unparkTimer := none, releaseTimer := some releaseMs,
    parkTimer := none, retuneTimer := none, meas := MeasUnit.reset, chan := stoppedChannel r.chan }

/-- Slot `i` enters RELEASING, giving up the level reference or its place in the queue (R44). -/
def enterReleasing (i : Fin 8) (hold offline : Bool) (s : State) : State :=
  leaveLocked i (freedSlot hold offline) s

/-- R30, R31, R37, R38: the end of the role reported to its owner, and to the router too when an adoption was pending.
`before` is the slot record before the release. -/
def reportEnd (before : Slot) (i : Fin 8) (x : Nat) (reason : EndReason) (asked : Bool) (s : State) : State :=
  match before.role with
  | .none => s
  | .survey =>
    let s1 := endSurvey i reason s
    if before.adoptionPending then endCarry x false s1 else s1
  | .carry => endCarry x asked s

/-- R30, R31, R35: a slot in TUNING, ACQUIRING or LOCKED is released: aborted, or released in LOCKED; the slot
change, the table and the role's owner in that order (DESIGN CHOICE, log entry 46). -/
def releaseWork (i : Fin 8) (hold offline : Bool) (reason : EndReason) (asked : Bool) (s : State) : State :=
  let r := s.slot i
  let s1 := enterReleasing i hold offline s
  match r.carrier with
  | none => s1
  | some x => reportEnd r i x reason asked (if r.state = .locked then tableReleased x i s1 else tableAborted x i s1)

/-- R37, R39, R40: a slot releases itself after a failure, in the order of `releaseWork` (DESIGN CHOICE, log entry 46). -/
def failSlot (i : Fin 8) (cause : FailCause) (s : State) : State :=
  let r := s.slot i
  let s1 := enterReleasing i false false s
  match r.carrier with
  | none => s1
  | some x => reportEnd r i x (.failed cause) false (tableFailed x i cause s1)

/-! ## Requests (R27 to R36, R38) -/

/-- R27, R29: the answers to a TUNE. -/
inductive TuneAnswer where
  | accepted | busy | offline | held | takenElsewhere | noCarrier
deriving DecidableEq, Repr

/-- R29: the refusal of a TUNE, the first case of its table that applies. -/
def tuneRefusal (carry : Bool) (x : Nat) (i : Fin 8) (s : State) : Option TuneAnswer :=
  let r := s.slot i
  if r.state = .tuning ∨ r.state = .acquiring ∨ r.state = .locked ∨ (r.state = .releasing ∧ r.offlinePending = false) then
    some .busy
  else if r.state = .offline ∨ r.state = .releasing then some .offline
  else if r.heldForRouter = true ∧ carry = false then some .held
  else if (s.slotOn x).isSome then some .takenElsewhere
  else if s.carrier x = none then some .noCarrier
  else none

/-- LOCK_WAIT with the given bound, assemblies and held identity emptied (R49, R51). -/
def lockWaitChannel (bound : Nat) (c : Channel) : Channel :=
  { stoppedChannel c with stage := .lockWait, timer := some bound }

/-- R26, R27, R28, R72, R144: the slot after it takes a TUNE for carrier `x`, whose entry is `c` and whose profile is `p`. -/
def tunedSlot (now x : Nat) (carry : Bool) (c : Carrier) (p : Profile) (r : Slot) : Slot :=
  let parked := decide (r.state = .parked)
  { r with
    state := .tuning, role := if carry then .carry else .survey, carrier := some x, input := some c.input,
    power := if parked then .unparking else .on, roleTime := some now, lockTimeout := some p.lockTimeout,
    modulation := some p.modulation, codeRate := some p.codeRate, symRate := some c.symRate, retune := 0, adoptionPending := false,
    heldForRouter := false, parkTimer := none, unparkTimer := if parked then some unparkMs else none,
    meas := { MeasUnit.reset with k := some p.k },
    chan := if parked then stoppedChannel r.chan else lockWaitChannel p.lockTimeout r.chan }

/-- R27 to R29: a TUNE of slot `i` to carrier `x`, from the router when `carry`, else from the scheduler. -/
def tuneSlot (carry : Bool) (x : Nat) (i : Fin 8) (s : State) : State × TuneAnswer :=
  match tuneRefusal carry x i s, s.carrier x with
  | some a, _ => (s, a)
  | none, none => (s, .noCarrier)
  | none, some c =>
    (tableTuned x i carry (changeSlot i (tunedSlot s.now x carry c (s.committed.profile c.profile)) s), .accepted)

/-- R30 to R32: the sender of a RELEASE. -/
inductive Sender where
  | scheduler | router
deriving DecidableEq, Repr

/-- R30 to R32: a RELEASE of slot `i`. The answer is true when it is taken, false for NOT_HELD. -/
def releaseSlot (sender : Sender) (hold : Bool) (i : Fin 8) (s : State) : State × Bool :=
  let r := s.slot i
  if sender = .scheduler ∧ r.role = .carry then (s, false)
  else
    match r.state with
    | .tuning => (releaseWork i hold false .aborted (decide (sender = .router)) s, true)
    | .acquiring => (releaseWork i hold false .aborted (decide (sender = .router)) s, true)
    | .locked => (releaseWork i hold false .released (decide (sender = .router)) s, true)
    | .idle =>
      (if sender = .router ∧ hold = true then modSlot i (fun r => { r with heldForRouter := true, parkTimer := none }) s
       else s, false)
    | .releasing =>
      (if sender = .router ∧ hold = true ∧ r.offlinePending = false then modSlot i (fun r => { r with heldForRouter := true }) s
       else s, false)
    | .offline => (s, false)
    | .parked => (s, false)

/-- R33, R34: the router withdraws the hold of slot `i`; a slot in IDLE starts its park delay and is free (R96). -/
def withdrawHold (i : Fin 8) (s : State) : State :=
  let r := s.slot i
  if r.heldForRouter = false then s
  else if r.state = .idle then searchDue (modSlot i (fun r => { r with heldForRouter := false, parkTimer := some parkMs }) s)
  else modSlot i (fun r => { r with heldForRouter := false }) s

/-- R38: the answers to an adoption request. -/
inductive AdoptAnswer where
  | adopted | pending | notHeld
deriving DecidableEq, Repr

/-- R38, R103: adoption of slot `i` on carrier `x`. -/
def adoptSlot (x : Nat) (i : Fin 8) (s : State) : State × AdoptAnswer :=
  let r := s.slot i
  if r.role ≠ .survey ∨ r.carrier ≠ some x then (s, .notHeld)
  else
    match r.state with
    | .locked =>
      (endSurvey i .adopted
        (tableAdopted x (changeSlot i (fun r => { r with role := .carry, roleTime := some s.now }) s)), .adopted)
    | .tuning => (modSlot i (fun r => { r with adoptionPending := true }) s, .pending)
    | .acquiring => (modSlot i (fun r => { r with adoptionPending := true }) s, .pending)
    | .offline | .parked | .idle | .releasing => (s, .notHeld)

/-- R35: a slot in PARKED or IDLE goes OFFLINE. -/
def offlineSlot (r : Slot) : Slot :=
  { r with
    state := .offline, role := .none, carrier := none, roleTime := none, input := none, power := .off,
    parkTimer := none, heldForRouter := false, lastCal := none, calStatus := .none }

/-- R35: an OFFLINE request of the host; the answer is true for OK, false for NO_CHANGE. -/
def slotGoOffline (i : Fin 8) (s : State) : State × Bool :=
  let r := s.slot i
  match r.state with
  | .offline => (s, false)
  | .parked | .idle =>
    let s1 := changeSlot i offlineSlot s
    (if r.heldForRouter then holdLost i s1 else s1, true)
  | .tuning | .acquiring | .locked => (releaseWork i false true .offline false s, true)
  | .releasing =>
    let s1 := modSlot i (fun r => { r with offlinePending := true, heldForRouter := false }) s
    (if r.heldForRouter then holdLost i s1 else s1, true)

/-- R36: an ONLINE request of the host; the answer is true for OK, false for NO_CHANGE. -/
def slotGoOnline (i : Fin 8) (s : State) : State × Bool :=
  if (s.slot i).state = .offline then
    (searchDue (changeSlot i (fun r =>
      { r with state := .parked, power := .off, role := .none, calStatus := .none, lastCal := none }) s), true)
  else (s, false)

/-! ## Verification, lock loss and re-tune (R37 to R40, R59) -/

/-- R37, R59: a slot whose carrier is verified enters LOCKED; its first window starts, its window count is 0; with
adoption pending it takes role CARRY (R38). -/
def verifiedSlot (now : Nat) (r : Slot) : Slot :=
  let r1 := { r with state := .locked, meas := startWindow r.meas, chan := { Channel.reset with windows := 0 } }
  if r.adoptionPending then { r1 with adoptionPending := false, role := .carry, roleTime := some now } else r1

/-- R37, R38, R59: slot `i`'s carrier is verified with report `rep`. The carrier table's report reaches the ranking unit
before the router's target in effect (R121 allows both orders; DESIGN CHOICE, log entry 47). -/
def verifySlot (i : Fin 8) (rep : VerifiedReport) (s : State) : State :=
  let r := s.slot i
  match r.carrier with
  | none => s
  | some x =>
    let s1 := tableVerified x i rep (changeSlot i (verifiedSlot s.now) s)
    let s2 :=
      match r.role with
      | .none => s1
      | .carry => streamPresent i x s1
      | .survey =>
        if r.adoptionPending then streamPresent i x (endSurvey i .adopted (tableAdopted x s1)) else surveyRunning i s1
    joinReference s2 i

/-- R40: a carrying slot that loses lock in LOCKED: TUNING on re-tune attempt 1, bounded by the latched lock timeout;
the channel reports LOCK_WAIT (R49). -/
def retuningSlot (r : Slot) : Slot :=
  { r with
    state := .tuning, retune := 1, calStatus := restingStatus r, retuneTimer := some (r.lockTimeout.getD 0),
    meas := dropWindow r.meas, chan := { stoppedChannel r.chan with stage := .lockWait } }

/-- R40: slot `i`, carrying, loses lock in LOCKED. -/
def loseCarriedLock (i : Fin 8) (s : State) : State :=
  let r := s.slot i
  let s1 := leaveLocked i retuningSlot s
  match r.carrier with
  | none => s1
  | some x => streamLost i x (tableLost x i s1)

/-- The service list of entry `x` is PENDING (R69). -/
def listPending (s : State) (x : Nat) : Bool :=
  match s.carrier x with
  | none => false
  | some c => decide (c.listStatus = .pending)

/-- R40, R69: a slot whose re-tune succeeds enters LOCKED; with its carrier's list PENDING it re-checks at once. -/
def relockedSlot (recheck : Bool) (r : Slot) : Slot :=
  { r with
    state := .locked, retune := 0, retuneTimer := none, meas := startWindow r.meas,
    chan := if recheck then { Channel.reset with stage := .recheckId, timer := some idWaitMs } else Channel.reset }

/-- R40: lock gained within a re-tune attempt of slot `i`, in the order of `verifySlot` (DESIGN CHOICE, log entry 47). -/
def relockSlot (i : Fin 8) (s : State) : State :=
  match (s.slot i).carrier with
  | none => s
  | some x =>
    joinReference
      (streamPresent i x (tableReacquired x i (changeSlot i (relockedSlot (listPending s x)) s))) i

end Sys2Proof.Machine
end

