-- ==== Sys2Proof/Machine/Scheduler.lean ====
section
/-! DEFINITION. The survey scheduler: candidates, the search, the course of a survey (R92 to R101). -/

namespace Sys2Proof.Machine

/-- R92, all conditions but the last: the entry may be surveyed. -/
def surveyable (s : State) (c : Carrier) : Bool :=
  decide (c.state ≠ .excluded) && decide (c.state ≠ .acquiring) && c.hold.isNone
    && decide ((s.committed.inputCfg c.input).cls ≠ .disabled)

/-- R94: the listed carriers that may be started, in list order. -/
def urgentCandidates (s : State) : List Nat :=
  s.sched.urgent.filter fun i =>
    match s.carrier i with
    | none => false
    | some c => surveyable s c

/-- R92: ascending next-due time, then ascending carrier index. -/
def duesBefore (a b : Nat × Carrier) : Bool :=
  decide (a.2.nextDue < b.2.nextDue) || (decide (a.2.nextDue = b.2.nextDue) && decide (a.1 < b.1))

/-- R92: the due order. -/
def dueOrder (s : State) : List Nat :=
  (sortBy duesBefore (s.carriers.filter fun e => surveyable s e.2 && decide (e.2.nextDue ≤ s.now))).map Prod.fst

/-- R96: the candidates of a search: the urgent list, then the due order. -/
def searchCandidates (s : State) : List Nat := urgentCandidates s ++ dueOrder s

/-- R98: the survey record opened when slot `i` takes the scheduler's TUNE for carrier `x`; the carrier leaves the urgent
list (R94). -/
def openSurvey (x : Nat) (i : Fin 8) (s : State) : State :=
  dropUrgent x
    (putSurvey i (some
      { carrier := x, start := s.now, wanted := s.params.windows, taken := 0, phase := .acquiring,
        fromUrgent := s.sched.urgent.contains x, askedByTable := false }) s)

/-- R96, R97: one search; `struckC` and `struckS` are the carriers and slots struck from it. Each turn strikes one of
them or takes a free slot, so 128 turns are more than a search can have. -/
def searchLoop : Nat → List Nat → List (Fin 8) → State → State
  | 0, _, _, s => s
  | n + 1, struckC, struckS, s =>
    match (searchCandidates s).find? (fun x => !struckC.contains x),
          s.freeSlots.find? (fun i => !struckS.contains i) with
    | some x, some i =>
      match tuneSlot false x i s with
      | (s1, .accepted) => searchLoop n struckC struckS (openSurvey x i s1)
      | (s1, .busy) => searchLoop n struckC (i :: struckS) s1
      | (s1, .held) => searchLoop n struckC (i :: struckS) s1
      | (s1, .offline) => searchLoop n struckC (i :: struckS) s1
      | (s1, .takenElsewhere) => searchLoop n (x :: struckC) struckS s1
      | (s1, .noCarrier) => searchLoop n (x :: struckC) struckS (dropUrgent x s1)
    | _, _ => s

/-- R96: a search for work. -/
def search (s : State) : State := searchLoop 128 [] [] s

/-- R99: a lock loss of slot `i` arrives together with the event taken now: it is the next command that waits (log
entry 39). -/
def lossTogether (i : Fin 8) (s : State) : Bool := decide (s.pending.head? = some (.lockLoss i))

/-- R98, R99: the survey of slot `i`, record `r`, has its last window: phase ENDING, and the RELEASE. A lock loss that
arrives together with the window ends the survey before the RELEASE reaches the slot, which then answers NOT_HELD. -/
def finishSurvey (i : Fin 8) (r : SurveyRecord) (s : State) : State :=
  let s1 := putSurvey i (some { r with taken := r.taken + 1, phase := .ending }) s
  if lossTogether i s then s1 else (releaseSlot .scheduler false i s1).1

/-- R98: a window completion of slot `i` counted for its survey; the RELEASE when the windows wanted are taken. -/
def countSurveyWindow (i : Fin 8) (s : State) : State :=
  match s.sched.surveys[i] with
  | none => s
  | some r =>
    if r.phase = .measuring ∧ (s.slot i).role = .survey then
      (if r.taken + 1 = r.wanted then finishSurvey i r s
       else putSurvey i (some { r with taken := r.taken + 1 }) s)
    else s

/-- R101: the carrier table asks for the end of the survey on slot `i`. -/
def endSurveyByTable (i : Fin 8) (s : State) : State :=
  match s.sched.surveys[i] with
  | none => s
  | some r =>
    match r.phase with
    | .ending => putSurvey i (some { r with askedByTable := true }) s
    | .acquiring | .measuring =>
      (releaseSlot .scheduler false i (putSurvey i (some { r with phase := .ending, askedByTable := true }) s)).1

end Sys2Proof.Machine
end

