-- ==== Sys2Proof/Machine/Router.lean ====
section
/-! DEFINITION. The output router's claims, demand, grant procedure and waiting records (R133 to R139), and how a
command that has reached the blocks settles. -/

namespace Sys2Proof.Machine

/-! ## Claims (R133) -/

/-- R133: a room channel's feed slot or pending feed is on carrier `x`. -/
def roomClaims (s : State) (x : Nat) (r : Room) : Bool :=
  (match r.feedSlot with
   | none => false
   | some i => decide ((s.slot i).carrier = some x))
  || (match r.pendingFeed with
      | none => false
      | some p => decide (p.2 = x))

/-- R133: carrier `x` is claimed. -/
def claimed (s : State) (x : Nat) : Bool :=
  s.router.rooms.toList.any (roomClaims s x)
    || s.services.any fun e => e.2.bound && (decide (e.2.selection = some x) || decide (e.2.target = some x))

/-- R133: a record of a carrier no longer claimed, on which the router acts; of several the one opened first (DESIGN
CHOICE, log entry 43). -/
def unclaimedRecord (s : State) : Option CarryRecord :=
  s.router.records.find? fun r => decide (r.phase ≠ .adopting) && !claimed s r.carrier

/-- R133: what the router does with a record whose carrier is no longer claimed. -/
def giveUp (r : CarryRecord) (s : State) : State :=
  match r.phase with
  | .waitingSlot => closeRecord r.carrier (withdrawHold r.slot s)
  | .adopting => s
  | .acquiring | .live | .retuning => (releaseSlot .router false r.slot s).1

/-- R133: every record examined; each turn closes one. -/
def examineClaims : Nat → State → State
  | 0, s => s
  | n + 1, s =>
    match unclaimedRecord s with
    | none => s
    | some r => examineClaims n (giveUp r s)

def checkClaims (s : State) : State := examineClaims s.router.records.length s

/-! ## Settling -/

/-- The search of R96, when one is due and the survey mode is RUN (R102). -/
def runSearch (s : State) : State :=
  let s1 := modSched (fun c => { c with searchDue := false }) s
  if s.sched.searchDue = true ∧ s.sched.mode = .run then search s1 else s1

/-- What follows a command's own effect within its step: the end of the pass (R106), the examination of claims (R133)
and the search (R96), in that order (log entry 9). -/
def settle (s : State) : State :=
  checkPassEnd (runSearch (checkClaims (runSearch (checkClaims (checkPassEnd s)))))

/-! ## Demand (R134) -/

/-- R127: the priority share. -/
def share (priority : Nat) : Nat :=
  match priority with
  | 0 => 8
  | 1 => 4
  | 2 => 2
  | _ => 1

/-- The channel's feeding service has `x` as selection or target. -/
def feedsOn (s : State) (x : Nat) (r : Room) : Bool :=
  match s.feedingService r with
  | none => false
  | some v => decide (v.selection = some x) || decide (v.target = some x)

/-- The sum of the shares of the channels that `p` names. -/
def shares (p : Room → Bool) (s : State) : Nat :=
  (s.router.rooms.toList.map fun r => if p r then share r.priority else 0).sum

/-- R134: the demand of a carried carrier. -/
def carriedDemand (s : State) (x : Nat) : Nat := shares (feedsOn s x) s

/-- R134: a channel a grant for service key `k` would feed: its feeding service is that one, or it binds it as fallback
while its primary is absent or UNAVAILABLE. -/
def wouldFeed (s : State) (k : ServiceKey) (r : Room) : Bool :=
  decide (r.feedingKey = some k)
    || (decide (r.fallback = some k)
        && match r.primary with
           | none => true
           | some p => decide (s.stateOfKey p = some .unavailable))

/-- R134: the demand of carrier `x` for a request by the service of key `k`. -/
def requestedDemand (s : State) (k : ServiceKey) (x : Nat) : Nat := shares (fun r => feedsOn s x r || wouldFeed s k r) s

/-- R134: the online slots. -/
def onlineSlots (s : State) : Nat := (allSlots.filter fun i => slotOnline (s.slot i)).length

/-- R134: the committed slots. -/
def committedSlots (s : State) : Nat :=
  (allSlots.filter fun i =>
    decide ((s.slot i).role = .carry) || (s.slot i).heldForRouter
      || (decide ((s.slot i).role = .survey) && (s.slot i).adoptionPending)).length

/-! ## The grant steps (R135 to R138) -/

/-- What a grant step gives: an answer, or none to go on to the next step. -/
abbrev StepResult := State × Option GrantAnswer

/-- R135 step 1: sharing. -/
def grantSharing (x : Nat) (s : State) : StepResult :=
  match recordOf s x with
  | none => (s, none)
  | some r => (s, some (if r.phase = .live then .granted else .pending))

/-- R135 step 2 on slot `i`: adoption; the channels are recomputed before the answer (DESIGN CHOICE, log entry 52). -/
def grantAdoptionOf (x : Nat) (i : Fin 8) (s : State) : StepResult :=
  match adoptSlot x i s with
  | (s1, .adopted) => (recomputeRooms (openRecord x i .live s1), some .granted)
  | (s1, .pending) => (openRecord x i .adopting s1, some .pending)
  | (s1, .notHeld) => (s1, none)

/-- R135 step 2: adoption of the SURVEY slot assigned `x`. -/
def grantAdoption (x : Nat) (s : State) : StepResult :=
  match allSlots.find? fun i => decide ((s.slot i).role = .survey) && decide ((s.slot i).carrier = some x) with
  | none => (s, none)
  | some i => grantAdoptionOf x i s

/-- R136: the TUNE of the first slot of `free` that takes it. -/
def grantTune (x : Nat) : List (Fin 8) → State → StepResult
  | [], s => (s, none)
  | i :: rest, s =>
    match tuneSlot true x i s with
    | (s1, .accepted) => (openRecord x i .acquiring s1, some .pending)
    | (s1, .busy) => grantTune x rest s1
    | (s1, .offline) => grantTune x rest s1
    | (s1, .held) => grantTune x rest s1
    | (s1, .takenElsewhere) => grantAdoption x s1
    | (s1, .noCarrier) => (s1, some .refused)

/-- R136 step 3: a free slot within the reserve. -/
def grantFree (x : Nat) (s : State) : StepResult :=
  if committedSlots s + s.params.reserve < onlineSlots s then grantTune x s.freeSlots s else (s, none)

/-- R137: the latest role time first, the highest number first among equals. -/
def laterSurvey (s : State) (i j : Fin 8) : Bool :=
  let a := (s.slot i).roleTime.getD 0
  let b := (s.slot j).roleTime.getD 0
  decide (b < a) || (decide (a = b) && decide (j < i))

/-- R137: the SURVEY slots without adoption pending, in the order in which they are preempted. -/
def preemptable (s : State) : List (Fin 8) :=
  sortBy (laterSurvey s) (allSlots.filter fun i => decide ((s.slot i).role = .survey) && !(s.slot i).adoptionPending)

/-- R137: preemption of the first slot of `l` whose hold is recorded. -/
def grantPreempt (x : Nat) : List (Fin 8) → State → StepResult
  | [], s => (s, none)
  | i :: rest, s =>
    let s1 := (releaseSlot .router true i s).1
    if (s1.slot i).heldForRouter then (openRecord x i .waitingSlot s1, some .pending) else grantPreempt x rest s1

/-- R137 step 4: the reserve, or preemption. -/
def grantReserve (x : Nat) (s : State) : StepResult :=
  match grantTune x s.freeSlots s with
  | (s1, some a) => (s1, some a)
  | (s1, none) => grantPreempt x (preemptable s1) s1

/-- R138: the lowest demand first, the highest slot number first among equals. -/
def lesserVictim (s : State) (a b : Fin 8 × Nat) : Bool :=
  let da := carriedDemand s a.2
  let db := carriedDemand s b.2
  decide (da < db) || (decide (da = db) && decide (b.1 < a.1))

/-- R138: the slots in role CARRY in LOCKED with their carriers. -/
def victims (s : State) : List (Fin 8 × Nat) :=
  allSlots.filterMap fun i =>
    if (s.slot i).role = .carry ∧ (s.slot i).state = .locked then (s.slot i).carrier.map fun c => (i, c) else none

/-- R138: a displacement of carrier `v` on slot `i` in favour of `x`. -/
def displace (x : Nat) (i : Fin 8) (v : Nat) (s : State) : State :=
  openRecord x i .waitingSlot (releaseSlot .router true i (closeRecord v (carryLost true v s))).1

/-- R138 step 5: displacement. -/
def grantDisplace (k : ServiceKey) (x : Nat) (s : State) : StepResult :=
  match (sortBy (lesserVictim s) (victims s)).head? with
  | none => (s, none)
  | some v => if carriedDemand s v.2 < requestedDemand s k x then (displace x v.1 v.2 s, some .pending) else (s, none)

/-- The first step that gives an answer decides it (R134). -/
def orElseStep (r : StepResult) (f : State → StepResult) : StepResult :=
  match r.2 with
  | some _ => r
  | none => f r.1

/-- R134: the steps of a grant of carrier `x` for the service of key `k`: 1 to 3 for a plain grant, 1 to 5 for a failover
grant; REFUSED when no step gives a slot. -/
def grantSteps (failover : Bool) (k : ServiceKey) (x : Nat) (s : State) : State × GrantAnswer :=
  let r3 := orElseStep (orElseStep (grantSharing x s) (grantAdoption x)) (grantFree x)
  let r5 := if failover then orElseStep (orElseStep r3 (grantReserve x)) (grantDisplace k x) else r3
  (r5.1, r5.2.getD .refused)

/-- R134: the arbiter takes request `q`: the steps, then the answer handed to the service. -/
def takeRequest (q : GrantReq) (s : State) : State :=
  match s.service q.service with
  | none => withdrawRequest q.service s
  | some v =>
    let r := grantSteps q.failover v.key q.carrier s
    answerService q r.2 (withdrawRequest q.service r.1)

/-! ## Waiting records (R139) -/

/-- The WAITING_SLOT record of slot `i`. -/
def waitingRecord (i : Fin 8) (s : State) : Option CarryRecord :=
  s.router.records.find? fun r => decide (r.slot = i) && decide (r.phase = .waitingSlot)

/-- R139: the grant of carrier `x` fails with its slot's hold withdrawn. -/
def failWaiting (x : Nat) (i : Fin 8) (s : State) : State := grantFailed x (closeRecord x (withdrawHold i s))

/-- R139: the held slot `i` reports itself free: it is tuned to its record's carrier. With the carrier on another slot
that slot is asked for adoption. -/
def heldSlotFree (i : Fin 8) (s : State) : State :=
  match waitingRecord i s with
  | none => s
  | some r =>
    match tuneSlot true r.carrier i s with
    | (s1, .accepted) => setPhase r.carrier i .acquiring s1
    | (s1, .takenElsewhere) =>
      match s1.slotOn r.carrier with
      | none => failWaiting r.carrier i s1
      | some j =>
        match adoptSlot r.carrier j s1 with
        | (s2, .adopted) => streamPresent j r.carrier (setPhase r.carrier j .live (withdrawHold i s2))
        | (s2, .pending) => setPhase r.carrier j .adopting (withdrawHold i s2)
        | (s2, .notHeld) => failWaiting r.carrier i s2
    | (s1, _) => failWaiting r.carrier i s1

end Sys2Proof.Machine
end

