-- ==== Sys2Proof/Machine/Acquisition.lean ====
section
/-! DEFINITION. The acquisition channels: stages, sections, assemblies and the identity re-check (R49 to R69). -/

namespace Sys2Proof.Machine

def modChan (i : Fin 8) (f : Channel → Channel) (s : State) : State :=
  modSlot i (fun r => { r with chan := f r.chan }) s

/-- R49: a channel enters a stage that has a bound. -/
def enterStage (st : Stage) (bound : Nat) (c : Channel) : Channel := { c with stage := st, timer := some bound }

/-! ## Assemblies (R50, R54, R57) -/

/-- R50: a list section whose part numbers are malformed. -/
def malformed (part last : Nat) : Bool := decide (maxLastPart < last) || decide (last < part)

/-- R54: a well-formed part taken into an assembly. -/
def takePart {α : Type} (part last : Nat) (xs : List α) (a : Assembly α) : Assembly α :=
  if a.last = some last then
    (if a.parts.any fun p => decide (p.1 = part) then a else { a with parts := a.parts ++ [(part, xs)] })
  else { last := some last, parts := [(part, xs)] }

/-- R54: every part from 0 to the last-part number is stored. -/
def assemblyComplete {α : Type} (a : Assembly α) : Bool :=
  match a.last with
  | none => false
  | some l => (List.range (l + 1)).all fun n => a.parts.any fun p => decide (p.1 = n)

/-- The contents of the stored parts in ascending part number (R55, R57). -/
def assembled {α : Type} (a : Assembly α) : List α :=
  (List.range (maxLastPart + 1)).flatMap fun n =>
    match a.parts.find? fun p => decide (p.1 = n) with
    | none => []
    | some p => p.2

/-- R55: the service list formed from a complete assembly, for origin id `origin`. -/
def formServices (origin : Nat) (a : Assembly Nat) : FormedList :=
  let keys := distinct ((assembled a).map fun n => { origin := origin, number := n : ServiceKey })
  { keys := keys.take maxServiceKeys, truncated := decide (maxServiceKeys < keys.length) }

/-- R57 step 2: the entries with distinct frequencies, first occurrences kept. -/
def distinctEntries (l : List ListEntry) : List ListEntry :=
  l.foldl (fun acc e => if acc.any fun x => decide (x.freq = e.freq) then acc else acc ++ [e]) []

/-- R57 steps 3 and 4: the carrier list formed from a complete assembly and its status. -/
def formEntries (a : Assembly ListEntry) : List ListEntry × CarrierListStatus :=
  let es := distinctEntries (assembled a)
  (es.take maxListEntries, if maxListEntries < es.length then .truncated else .received)

/-! ## Stages of an acquisition (R51 to R59) -/

/-- R51, R37: lock gained in LOCK_WAIT. -/
def acquiringSlot (r : Slot) : Slot := { r with state := .acquiring, chan := enterStage .idWait idWaitMs r.chan }

/-- R53: the held identity passes the check against the expected identity of the carrier's entry. -/
def identityFits (expected : Option ExpectedId) (id : Identity) : Bool :=
  match expected with
  | none => true
  | some e => decide (e.origin = id.origin) && decide (e.transport = id.transport)

/-- The expected identity of the entry of the slot's carrier. -/
def expectedOf (s : State) (i : Fin 8) : Option ExpectedId :=
  match (s.slot i).carrier.bind s.carrier with
  | none => none
  | some c => c.expected

/-- The observed identity of the entry of the slot's carrier. -/
def observedOf (s : State) (i : Fin 8) : Option Identity :=
  match (s.slot i).carrier.bind s.carrier with
  | none => none
  | some c => c.observed

/-- R52, R53: an identity section in ID_WAIT. -/
def takeIdentity (i : Fin 8) (id : Identity) (s : State) : State :=
  if identityFits (expectedOf s i) id then
    modChan i (fun c => { enterStage .svcWait svcWaitMs c with held := some id }) s
  else failSlot i .idMismatch s

/-- R59: the carrier of slot `i` is verified with the given carrier list. -/
def verifyWith (i : Fin 8) (status : CarrierListStatus) (es : List ListEntry) (s : State) : State :=
  match (s.slot i).chan.held, (s.slot i).chan.formed with
  | some id, some l => verifySlot i { identity := id, list := l, status := status, entries := es } s
  | _, _ => s

/-- R56: discovery is enabled on the input of slot `i` in the committed plan. -/
def discoveryEnabled (s : State) (i : Fin 8) : Bool :=
  match (s.slot i).input with
  | none => false
  | some x => (s.committed.inputCfg x).discovery

/-- R56: SVC_WAIT is left with a complete list. -/
def leaveSvcWait (i : Fin 8) (id : Identity) (l : FormedList) (s : State) : State :=
  let s1 := modChan i (fun c => { c with formed := some l, timer := none }) s
  if id.listAnnounced && discoveryEnabled s i then modChan i (enterStage .listWait listWaitMs) s1
  else verifyWith i .none [] s1

/-- R54 to R56: a service-list section in SVC_WAIT. -/
def takeServices (i : Fin 8) (part last : Nat) (ns : List Nat) (s : State) : State :=
  if malformed part last then s
  else
    let a := takePart part last ns (s.slot i).chan.services
    let s1 := modChan i (fun c => { c with services := a }) s
    match (s.slot i).chan.held with
    | none => s1
    | some id => if assemblyComplete a then leaveSvcWait i id (formServices id.origin a) s1 else s1

/-- R57: a carrier-list section in LIST_WAIT. -/
def takeEntries (i : Fin 8) (part last : Nat) (es : List ListEntry) (s : State) : State :=
  if malformed part last then s
  else
    let a := takePart part last es (s.slot i).chan.listing
    let s1 := modChan i (fun c => { c with listing := a }) s
    if assemblyComplete a then verifyWith i (formEntries a).2 (formEntries a).1 s1 else s1

/-! ## The identity re-check (R66 to R68) -/

/-- R66, R68: a re-check ends: stage NONE, assemblies and held identity emptied, the count from 0. -/
def endRecheck (i : Fin 8) (s : State) : State := modChan i (fun _ => Channel.reset) s

/-- R67, R68: the services are read again under identity `id`. -/
def rereadServices (i : Fin 8) (id : Identity) (s : State) : State :=
  modChan i (fun c => { enterStage .recheckSvc svcWaitMs c with held := some id }) s

/-- R66: the outcome same identity: differing fields are handed to the carrier table. With the list still PENDING from a
re-check cut short the services are read again (R69, log entry 38). -/
def sameIdentity (i : Fin 8) (x : Nat) (id : Identity) (s : State) : State :=
  let s1 := if listPending s x then rereadServices i id s else endRecheck i s
  if observedOf s i = some id then s1 else tableIdentity x i id s1

/-- R67: the outcome ID_CHANGED. -/
def identityChanged (i : Fin 8) (x : Nat) (id : Identity) (s : State) : State :=
  tableIdChanged x i id (rereadServices i id s)

/-- The observed identity of R66's comparison has the ids of `id`; an absent one differs (DESIGN CHOICE, log entry 50). -/
def observedFits (observed : Option Identity) (id : Identity) : Bool :=
  match observed with
  | none => false
  | some o => decide (o.origin = id.origin) && decide (o.transport = id.transport)

/-- R66: an identity section in RECHECK_ID. -/
def recheckIdentity (i : Fin 8) (id : Identity) (s : State) : State :=
  match (s.slot i).carrier with
  | none => s
  | some x =>
    match expectedOf s i with
    | some e => if identityFits (some e) id then sameIdentity i x id s else failSlot i .idMismatch s
    | none => if observedFits (observedOf s i) id then sameIdentity i x id s else identityChanged i x id s

/-- R68: a service-list section in RECHECK_SVC. -/
def recheckServices (i : Fin 8) (part last : Nat) (ns : List Nat) (s : State) : State :=
  if malformed part last then s
  else
    let a := takePart part last ns (s.slot i).chan.services
    let s1 := modChan i (fun c => { c with services := a }) s
    match (s.slot i).chan.held, (s.slot i).carrier with
    | some id, some x => if assemblyComplete a then tableReread x i (formServices id.origin a) (endRecheck i s1) else s1
    | _, _ => s1

/-! ## Sections (R50) -/

/-- R50: what the present stage does with a section's content; other kinds are discarded. -/
def takeBody (i : Fin 8) (b : SectionBody) (s : State) : State :=
  match (s.slot i).chan.stage, b with
  | .idWait, .identity id => takeIdentity i id s
  | .svcWait, .serviceList part last ns => takeServices i part last ns s
  | .listWait, .carrierList part last es => takeEntries i part last es s
  | .recheckId, .identity id => recheckIdentity i id s
  | .recheckSvc, .serviceList part last ns => recheckServices i part last ns s
  | _, _ => s

/-- R50: sections are passed to the channel in ACQUIRING or LOCKED; one marked failed is discarded. -/
def takeSection (i : Fin 8) (sec : Section) (s : State) : State :=
  if sec.passed = true ∧ ((s.slot i).state = .acquiring ∨ (s.slot i).state = .locked) then takeBody i sec.body s else s

/-! ## Expiries (R51, R52, R56, R58, R66, R68) -/

/-- The channel of slot `i` is in stage `st`. -/
def inStage (s : State) (i : Fin 8) (st : Stage) : Bool := decide ((s.slot i).chan.stage = st)

/-- R49: the channel of slot `i` is in stage `st` and the stage's bound has run out. -/
def stageOver (s : State) (i : Fin 8) (st : Stage) : Bool := inStage s i st && timerOut (s.slot i).chan.timer

/-- R51: the lock timeout runs out in LOCK_WAIT; the bound of a re-tune attempt is the slot's own (R40). -/
def lockTimeoutEnds (i : Fin 8) (s : State) : State :=
  if inStage s i .lockWait ∧ (s.slot i).retune = 0 then failSlot i .noLock s else s

/-- R40: the bound of a re-tune attempt runs out. -/
def retuneTimeoutEnds (i : Fin 8) (s : State) : State :=
  let r := s.slot i
  if r.state = .tuning ∧ 0 < r.retune then
    (if r.retune < retuneAttempts then
       modSlot i (fun r => { r with retune := r.retune + 1, retuneTimer := some (r.lockTimeout.getD 0) }) s
     else failSlot i .noLock s)
  else s

/-! ## Lock (R37, R39, R40, R51) -/

/-- R40, R51: the demodulator of slot `i` gains lock. -/
def gainLock (i : Fin 8) (s : State) : State :=
  let r := s.slot i
  if r.state = .tuning then
    (if 0 < r.retune then relockSlot i s
     else if r.chan.stage = .lockWait then changeSlot i acquiringSlot s
     else s)
  else s

/-- R37, R39, R40: the demodulator of slot `i` loses lock; in a state other than ACQUIRING and LOCKED that has no
effect. -/
def loseLock (i : Fin 8) (s : State) : State :=
  let r := s.slot i
  match r.state with
  | .acquiring => failSlot i .noLock s
  | .locked => if r.role = .carry then loseCarriedLock i s else failSlot i .noLock s
  | .offline | .parked | .idle | .tuning | .releasing => s

/-! ## Windows (R2 to R6, R66) -/

/-- R66: a window completion counted toward the next re-check. -/
def countRecheckWindow (i : Fin 8) (s : State) : State :=
  let c := (s.slot i).chan
  if c.stage = .none ∧ c.recheckDue = false then
    (if c.windows + 1 = recheckWindows then modChan i (fun c => { c with windows := 0, recheckDue := true }) s
     else modChan i (fun c => { c with windows := c.windows + 1 }) s)
  else s

/-- R13: the level at a completion: the corrected reading, when the slot has a completed calibration on its present
input. -/
def levelAt (r : Slot) (reading : Int) : Option Nat :=
  match r.lastCal with
  | none => none
  | some p => if r.input = some p.1 then some (levelOf reading) else none

/-- R5, R20: the record of a completed window; margin and score are formed as it is taken (R78). -/
def windowRecord (now : Nat) (r : Slot) (reading : Int) : WindowRecord :=
  let level := levelAt r reading
  { time := now, mer := merOf (r.meas.k.getD 0) r.meas.acc, u := r.meas.u, overflow := r.meas.overflow, level := level,
    saturated := decide (0 < r.meas.overflow), uncalibrated := level.isNone, margin := 0, score := none }

/-- R5: the symbol count of the active window has reached W. -/
def windowFull (m : MeasUnit) : Bool :=
  m.active && match m.k with
    | none => false
    | some k => decide (m.symbols = windowLength k)

/-- R2, R5: the window of slot `i` completes: the record is formed, the next window starts, and the completion is handed
to the carrier table, the acquisition logic and the scheduler, in that order (DESIGN CHOICE, log entry 46). -/
def completeWindow (i : Fin 8) (reading : Int) (s : State) : State :=
  let r := s.slot i
  if windowFull r.meas then
    match r.carrier with
    | none => s
    | some x =>
      countSurveyWindow i (countRecheckWindow i
        (tableRecord x i (windowRecord s.now r reading) (modSlot i (fun r => { r with meas := startWindow r.meas }) s)))
  else s

/-- R3: a symbol delivered while a window is active. A window that has its W symbols takes no more: its completion comes
before the next symbol (log entry 10). -/
def deliverSymbol (i : Fin 8) (q : Nat) (s : State) : State :=
  if (s.slot i).meas.active && !windowFull (s.slot i).meas then
    modSlot i (fun r => { r with meas := addSymbol q r.meas }) s
  else s

/-- R4: a block reported while a window is active. -/
def reportBlock (i : Fin 8) (s : State) : State :=
  if (s.slot i).meas.active then modSlot i (fun r => { r with meas := addBlock r.meas }) s else s

/-! ## Calibration (R43) -/

/-- R43: the calibrated slot: last calibration set, status DONE. -/
def calibratedSlot (now : Nat) (r : Slot) : Slot :=
  { r with lastCal := r.input.map fun x => (x, now), calStatus := .done }

/-- R2, R43: a new window starts on the slot whose calibration has ended. -/
def startWindowAfter (i : Fin 8) (s : State) : State :=
  if (s.slot i).state = .locked ∧ s.reference.holder ≠ some i then
    modSlot i (fun r => { r with meas := startWindow r.meas }) s
  else s

/-- R43: the reference given up at the end of a calibration. -/
def idleReference (r : Reference) : Reference := { r with holder := none, timer := none }

/-- R43: the 40 ms of the calibration have run. -/
def endCalibration (s : State) : State :=
  match s.reference.holder with
  | none => s
  | some i =>
    let s1 := s.setReference (idleReference s.reference)
    if (s.slot i).state = .locked then startWindowAfter i (passReference (changeSlot i (calibratedSlot s.now) s1))
    else passReference s1

end Sys2Proof.Machine
end

