-- ==== Sys2Proof/WellFormed.lean ====
section
/-! DEFINITION. Which terms of the syntax stand for something that can be sent to the part: every operand fits the
field the manual gives it. A term that does not fit is no command of the part. -/

namespace Sys2Proof

/-- A one-byte payload field (R165). -/
def fitsByte (n : Nat) : Bool := decide (n < 256)

/-- A two-byte payload field (R165). -/
def fitsWord (n : Nat) : Bool := decide (n < 65536)

/-- A four-byte payload field (R165). -/
def fitsLong (n : Nat) : Bool := decide (n < 4294967296)

/-- A signed one-byte payload field (R165). -/
def fitsSignedByte (z : Int) : Bool := decide (-128 ≤ z) && decide (z ≤ 127)

/-- A signed two-byte payload field (R165). -/
def fitsSignedWord (z : Int) : Bool := decide (-32768 ≤ z) && decide (z ≤ 32767)

def InputEdit.wf (e : InputEdit) : Bool :=
  fitsByte e.input && fitsByte e.cls && fitsSignedByte e.bias && fitsByte e.discovery && fitsByte e.windowPresent
    && fitsWord e.winMin && fitsWord e.winMax

def ProfileEdit.wf (e : ProfileEdit) : Bool :=
  fitsByte e.profile && fitsByte e.modulation && fitsByte e.codeRate && fitsWord e.reqMer && fitsWord e.lockTimeout
    && fitsByte e.k

def CarrierFields.wf (f : CarrierFields) : Bool :=
  fitsWord f.symRate && fitsByte f.profile && fitsByte f.idPresent && fitsWord f.origin && fitsWord f.transport
    && fitsByte f.excluded

def CarrierName.wf (n : CarrierName) : Bool := fitsByte n.form && fitsByte n.target && fitsLong n.freq

def BindEdit.wf (e : BindEdit) : Bool :=
  fitsByte e.room && fitsByte e.primaryPresent && fitsWord e.primaryOrigin && fitsWord e.primaryNumber
    && fitsByte e.fallbackPresent && fitsWord e.fallbackOrigin && fitsWord e.fallbackNumber && fitsByte e.priority

def WatchEdit.wf (e : WatchEdit) : Bool :=
  fitsByte e.watch && fitsByte e.kind && fitsWord e.subject && fitsByte e.action && fitsByte e.statePresent
    && fitsByte e.state && fitsByte e.marginPresent && fitsSignedWord e.margin && fitsByte e.scorePresent
    && fitsWord e.score && fitsByte e.selectionChanged && fitsByte e.routePresent && fitsByte e.route

/-- Every field of the command fits the payload layout of R165. -/
def HostCommand.wf : HostCommand → Bool
  | .identify => true
  | .readStatus => true
  | .restart => true
  | .setNotices m => fitsByte m
  | .freeze => true
  | .thaw => true
  | .getCarrier i => fitsByte i
  | .listCarriers i => fitsByte i
  | .getService i => fitsByte i
  | .listServices i => fitsByte i
  | .getRoom i => fitsByte i
  | .getSlot i => fitsByte i
  | .surveyNow i => fitsByte i
  | .setSurveyMode m => fitsByte m
  | .clearSurvey => true
  | .slotOffline i => fitsByte i
  | .slotOnline i => fitsByte i
  | .setInput e => e.wf
  | .setProfile e => e.wf
  | .addCarrier i f c => fitsByte i && fitsLong f && c.wf
  | .dropCarrier n => n.wf
  | .setCarrier n f => n.wf && f.wf
  | .bindRoom e => e.wf
  | .unbindRoom r => fitsByte r
  | .setParams n v => fitsByte n && fitsWord v
  | .commitPlan => true
  | .discardPlan => true
  | .setWatch e => e.wf
  | .clearWatch w => fitsByte w
  | .ackWatch w => fitsByte w
  | .setAlertMode m => fitsByte m

/-- The ranges R50 gives the numbers of a section; DISABLED is no delivery class. -/
def SectionBody.wf : SectionBody → Bool
  | .identity id => fitsWord id.origin && fitsWord id.transport
  | .serviceList _ _ ns => ns.all fitsWord
  | .carrierList _ _ es => es.all fun e => decide (e.cls ≠ some .disabled)

/-- The largest error power the front end delivers, the largest 20-bit value (R3). -/
def maxErrorPower : Nat := 1048575

/-- Every operand of the command or event fits the field the manual gives it. -/
def Instr.wf : Instr → Bool
  | .identify => true
  | .readStatus => true
  | .restart => true
  | .setNotices m => (HostCommand.setNotices m).wf
  | .freeze => true
  | .thaw => true
  | .getCarrier i => (HostCommand.getCarrier i).wf
  | .listCarriers i => (HostCommand.listCarriers i).wf
  | .getService i => (HostCommand.getService i).wf
  | .listServices i => (HostCommand.listServices i).wf
  | .getRoom i => (HostCommand.getRoom i).wf
  | .getSlot i => (HostCommand.getSlot i).wf
  | .surveyNow i => (HostCommand.surveyNow i).wf
  | .setSurveyMode m => (HostCommand.setSurveyMode m).wf
  | .clearSurvey => true
  | .slotOffline i => (HostCommand.slotOffline i).wf
  | .slotOnline i => (HostCommand.slotOnline i).wf
  | .setInput e => e.wf
  | .setProfile e => e.wf
  | .addCarrier i f c => (HostCommand.addCarrier i f c).wf
  | .dropCarrier n => n.wf
  | .setCarrier n f => (HostCommand.setCarrier n f).wf
  | .bindRoom e => e.wf
  | .unbindRoom r => (HostCommand.unbindRoom r).wf
  | .setParams n v => (HostCommand.setParams n v).wf
  | .commitPlan => true
  | .discardPlan => true
  | .setWatch e => e.wf
  | .clearWatch w => (HostCommand.clearWatch w).wf
  | .ackWatch w => (HostCommand.ackWatch w).wf
  | .setAlertMode m => (HostCommand.setAlertMode m).wf
  | .byteReceived _ => true
  | .byteGapTimeout => true
  | .commandTaken => true
  | .transmitStart => true
  | .frameSent => true
  | .restartTakesEffect _ => true
  | .powerOn => true
  | .resetAssert => true
  | .resetRelease _ => true
  | .secondCountAdvance => true
  | .holdUntilReached _ => true
  | .unparkTimeEnd _ => true
  | .releaseTimeEnd _ => true
  | .park _ => true
  | .lockGained _ => true
  | .lockTimeout _ => true
  | .retuneTimeout _ => true
  | .lockLoss _ => true
  | .sectionReceived _ sec => sec.body.wf
  | .idTimeout _ => true
  | .svcTimeout _ => true
  | .listTimeout _ => true
  | .recheckStart _ => true
  | .recheckIdTimeout _ => true
  | .recheckSvcTimeout _ => true
  | .symbolDelivered _ q => decide (q ≤ maxErrorPower)
  | .blockReport _ => true
  | .windowComplete _ _ => true
  | .grantRequest _ => true
  | .switchPoint _ _ => true
  | .switchTimeout _ => true
  | .calibrationEnd => true
  | .pulseTimerEnd => true

end Sys2Proof
end

