-- ==== Sys2Proof/Machine/SlotEvents.lean ====
section
/-! DEFINITION. The meanings of the slots' events: timers, lock, sections, windows and calibration (R2 to R5, R28, R33,
R34, R37 to R43, R49 to R69). An event that does not fit the slot's state has no effect, and the end of a
timer has none unless that timer has run out (log entry 11). -/

namespace Sys2Proof.Machine

/-- The outcome of a command or event. -/
abbrev Outcome := Host.Outcome State Fault Refusal

/-- R173: nothing happens in the blocks while the part is held in reset. -/
def whileRunning (f : State → State) (s : State) : Outcome := .next (if s.clock.inReset then s else f s)

/-- An event of the blocks: its effect when its condition `p` holds, and what follows from it (log entry 9). -/
def blockEvent (p : State → Bool) (f : State → State) (s : State) : Outcome :=
  whileRunning (fun s => if p s then settle (f s) else s) s

/-! ## Slot timers (R28, R33, R34) -/

/-- R28: the unpark time has run. -/
def unparkOver (i : Fin 8) (s : State) : Bool :=
  decide ((s.slot i).state = .tuning) && decide ((s.slot i).power = .unparking) && timerOut (s.slot i).unparkTimer

/-- R28: the slot whose tuner is powered: LOCK_WAIT starts with the latched lock timeout. -/
def unparkedSlot (r : Slot) : Slot :=
  { r with power := .on, unparkTimer := none, chan := lockWaitChannel (r.lockTimeout.getD 0) r.chan }

/-- UNPARK_TIME_END (R28). -/
def execUnparkTimeEnd (i : Fin 8) (s : State) : Outcome := blockEvent (unparkOver i) (modSlot i unparkedSlot) s

/-- R33: the slot that leaves RELEASING for OFFLINE. -/
def releasedOffline (r : Slot) : Slot :=
  { r with
    state := .offline, offlinePending := false, power := .off, input := none, lastCal := none, calStatus := .none,
    releaseTimer := none }

/-- R33, R34: the slot that leaves RELEASING for IDLE; the park delay starts unless it is held. -/
def releasedIdle (r : Slot) : Slot :=
  { r with
    state := .idle, power := .on, input := none, releaseTimer := none,
    parkTimer := if r.heldForRouter then none else some parkMs }

/-- R33, R139: the release time of slot `i` has run. -/
def endRelease (i : Fin 8) (s : State) : State :=
  let r := s.slot i
  if r.offlinePending then changeSlot i releasedOffline s
  else
    let s1 := changeSlot i releasedIdle s
    if r.heldForRouter then heldSlotFree i s1 else searchDue s1

/-- RELEASE_TIME_END (R33). -/
def execReleaseTimeEnd (i : Fin 8) (s : State) : Outcome :=
  blockEvent (fun s => decide ((s.slot i).state = .releasing) && timerOut (s.slot i).releaseTimer) (endRelease i) s

/-- R34: the slot that parks. -/
def parkedSlot (r : Slot) : Slot := { r with state := .parked, power := .off, parkTimer := none }

/-- PARK (R34): raised in IDLE alone, by the end of the park delay. -/
def execPark (i : Fin 8) (s : State) : Outcome :=
  blockEvent (fun s => decide ((s.slot i).state = .idle) && timerOut (s.slot i).parkTimer)
    (fun s => searchDue (changeSlot i parkedSlot s)) s

/-! ## Lock (R37, R39, R40, R51) -/

/-- The demodulator of slot `i` is searching for lock. -/
def seekingLock (i : Fin 8) (s : State) : Bool :=
  decide ((s.slot i).state = .tuning) && (decide (0 < (s.slot i).retune) || inStage s i .lockWait)

/-- LOCK_GAINED (R40, R51). -/
def execLockGained (i : Fin 8) (s : State) : Outcome := blockEvent (seekingLock i) (gainLock i) s

/-- LOCK_TIMEOUT (R51). -/
def execLockTimeout (i : Fin 8) (s : State) : Outcome :=
  blockEvent (fun s => stageOver s i .lockWait && decide ((s.slot i).retune = 0)) (lockTimeoutEnds i) s

/-- RETUNE_TIMEOUT (R40). -/
def execRetuneTimeout (i : Fin 8) (s : State) : Outcome :=
  blockEvent (fun s => decide ((s.slot i).state = .tuning) && decide (0 < (s.slot i).retune) && timerOut (s.slot i).retuneTimer)
    (retuneTimeoutEnds i) s

/-- The demodulator of slot `i` holds a lock that the slot uses. -/
def usingLock (i : Fin 8) (s : State) : Bool :=
  decide ((s.slot i).state = .acquiring) || decide ((s.slot i).state = .locked)

/-- LOCK_LOSS (R37, R39, R40). -/
def execLockLoss (i : Fin 8) (s : State) : Outcome := blockEvent (usingLock i) (loseLock i) s

/-! ## Sections and stage timers (R50 to R69) -/

/-- SECTION_RECEIVED (R50). A section whose numbers are outside R50's ranges is no section. -/
def execSectionReceived (i : Fin 8) (sec : Section) (s : State) : Outcome :=
  if sec.body.wf then blockEvent (fun s => sec.passed && usingLock i s) (takeSection i sec) s else .refused .illFormed

/-- ID_TIMEOUT (R52). -/
def execIdTimeout (i : Fin 8) (s : State) : Outcome := blockEvent (fun s => stageOver s i .idWait) (failSlot i .noId) s

/-- SVC_TIMEOUT (R56). -/
def execSvcTimeout (i : Fin 8) (s : State) : Outcome :=
  blockEvent (fun s => stageOver s i .svcWait) (failSlot i .noServices) s

/-- LIST_TIMEOUT (R58): verified, with the list MISSED. -/
def execListTimeout (i : Fin 8) (s : State) : Outcome :=
  blockEvent (fun s => stageOver s i .listWait) (verifyWith i .missed []) s

/-- R66: the re-check is due on a LOCKED slot. -/
def recheckWaits (i : Fin 8) (s : State) : Bool := decide ((s.slot i).state = .locked) && (s.slot i).chan.recheckDue

/-- R66: the channel enters RECHECK_ID. -/
def recheckChannel (c : Channel) : Channel := { enterStage .recheckId idWaitMs c with recheckDue := false }

/-- RECHECK_START (R66). -/
def execRecheckStart (i : Fin 8) (s : State) : Outcome :=
  whileRunning (fun s => if recheckWaits i s then modChan i recheckChannel s else s) s

/-- RECHECK_ID_TIMEOUT (R66). -/
def execRecheckIdTimeout (i : Fin 8) (s : State) : Outcome :=
  blockEvent (fun s => stageOver s i .recheckId) (failSlot i .noId) s

/-- RECHECK_SVC_TIMEOUT (R68). -/
def execRecheckSvcTimeout (i : Fin 8) (s : State) : Outcome :=
  blockEvent (fun s => stageOver s i .recheckSvc) (failSlot i .noServices) s

/-! ## Windows (R3 to R5) and calibration (R43) -/

/-- SYMBOL_DELIVERED (R3). An error power above the front end's limit is none. -/
def execSymbolDelivered (i : Fin 8) (q : Nat) (s : State) : Outcome :=
  if q ≤ maxErrorPower then whileRunning (deliverSymbol i q) s else .refused .illFormed

/-- BLOCK_REPORT (R4). -/
def execBlockReport (i : Fin 8) (s : State) : Outcome := whileRunning (reportBlock i) s

/-- WINDOW_COMPLETE (R5). -/
def execWindowComplete (i : Fin 8) (reading : Int) (s : State) : Outcome :=
  blockEvent (fun s => windowFull (s.slot i).meas) (completeWindow i reading) s

/-- CALIBRATION_END (R43). -/
def execCalibrationEnd (s : State) : Outcome :=
  blockEvent (fun s => s.reference.holder.isSome && timerOut s.reference.timer) endCalibration s

end Sys2Proof.Machine
end

