-- ==== Sys2Proof/Machine/RouterEvents.lean ====
section
/-! DEFINITION. The meanings of the router's and the watch unit's events (R131, R134, R160). -/

namespace Sys2Proof.Machine

/-- The waiting request of service `i`, if any (R116: at most one). -/
def requestOf (i : Nat) (s : State) : Option GrantReq := s.router.requests.find? fun q => decide (q.service = i)

/-- R134: the arbiter takes the request of service `i`. -/
def takeRequestOf (i : Nat) (s : State) : State :=
  match requestOf i s with
  | none => s
  | some q => takeRequest q s

/-- GRANT_REQUEST (R134): of the requests that wait, the arbiter takes the one of the service named. -/
def execGrantRequest (i : Fin 256) (s : State) : Outcome :=
  blockEvent (fun s => (requestOf i.val s).isSome) (takeRequestOf i.val) s

/-- R131: a SWITCHING channel of port `p` whose pending feed is slot `i`. -/
def awaitsPoint (p : Fin 4) (i : Fin 8) (s : State) (r : Fin 48) : Bool :=
  decide (portOf r = p.val) && decide ((s.room r).route = .switching)
    && match (s.room r).pendingFeed with
       | none => false
       | some f => decide (f.1 = i)

/-- SWITCH_POINT (R131): every SWITCHING channel of the port whose pending feed is that slot completes. -/
def execSwitchPoint (p : Fin 4) (i : Fin 8) (s : State) : Outcome :=
  blockEvent (fun s => allRooms.any (awaitsPoint p i s))
    (fun s => (allRooms.filter (awaitsPoint p i s)).foldl completeSwitching s) s

/-- SWITCH_TIMEOUT (R131): the forced switch of a channel. -/
def execSwitchTimeout (r : Fin 48) (s : State) : Outcome :=
  blockEvent (fun s => decide ((s.room r).route = .switching) && timerOut (s.room r).timer)
    (fun s => completeSwitching s r) s

/-- R160: the pulse has run its time; ALERT is deasserted. -/
def endPulse (u : WatchUnit) : WatchUnit :=
  if timerOut u.pulseTimer then { u with alert := false, pulseTimer := none } else u

/-- PULSE_TIMER_END (R160). -/
def execPulseTimerEnd (s : State) : Outcome := whileRunning (modWatches endPulse) s

end Sys2Proof.Machine
end

