-- ==== Sys2Proof/Machine/Clock.lean ====
section
/-! DEFINITION. The second count, the holds it ends, the resets, and the 1 ms tick (R122, R172, R173). -/

namespace Sys2Proof.Machine

/-! ## The second count (R42, R82, R96, R172) -/

/-- R172, R82, R42, R96: the second count advances: staleness reported, calibration needs evaluated, a search due. -/
def advanceSecond (s : State) : State :=
  let old := s.now
  let maxAge := s.params.maxAge
  let s1 := modClock (fun c => { c with now := c.now + 1 }) s
  searchDue (evaluateNeeds
    (reportChanges s1.carriers [] [] (fun _ => false) (fun _ => none) (staleAt old maxAge) s1))

/-- SECOND_COUNT_ADVANCE (R172); the count holds at its maximum. -/
def execSecondCountAdvance (s : State) : Outcome :=
  blockEvent (fun s => decide (s.now < maxSecond)) advanceSecond s

/-- R122: service `i` is in a failover hold whose hold-until is reached, and no request of it waits. -/
def holdEnds (i : Nat) (s : State) : Bool :=
  match s.service i with
  | none => false
  | some v =>
    decide (v.state = .holding) && !inFlight s i
      && match v.holdUntil with
         | none => false
         | some h => decide (h ≤ s.now)

/-- R122: the last failover of a hold; an unbound service, which makes no request, has its selection cleared. -/
def endHoldOf (i : Nat) (s : State) : State :=
  serviceEvent i (fun s =>
    match s.service i with
    | none => (s, false)
    | some v => (if v.bound then failover i false s else clearSelection i s, false)) s

/-- HOLD_UNTIL_REACHED (R122). -/
def execHoldUntilReached (i : Fin 256) (s : State) : Outcome := blockEvent (holdEnds i.val) (endHoldOf i.val) s

/-! ## Resets (R173, R174) -/

/-- POWER_ON (R173): the part is held in reset, cause POWER. -/
def execPowerOn (s : State) : Outcome := .next (State.atReset .power true s.clock.speedHigh s.draws s.pending)

/-- RESET_ASSERT (R173): the part is held in reset, cause PIN. -/
def execResetAssert (s : State) : Outcome := .next (State.atReset .pin true s.clock.speedHigh s.draws s.pending)

/-- RESET_RELEASE (R173, R174): the reset ends with the SPEED strap at the level given. -/
def execResetRelease (strapHigh : Bool) (s : State) : Outcome :=
  .next (if s.clock.inReset then State.afterReset s.clock.cause strapHigh s.draws s.pending else s)

/-- RESTART_TAKES_EFFECT (R173, R174): the reset of a RESTART whose reply has been sent. -/
def execRestartTakesEffect (strapHigh : Bool) (s : State) : Outcome :=
  whileRunning (fun s =>
    if s.link.restart = .due then State.afterReset .restart strapHigh s.draws s.pending else s) s

/-! ## The tick (R172) -/

/-- A timer of milliseconds one tick later. -/
def tickTimer (t : Option Nat) : Option Nat := t.map (· - 1)

/-- R28, R33, R34, R40, R49: the timers of a slot one tick later. -/
def tickSlot (r : Slot) : Slot :=
  { r with
    unparkTimer := tickTimer r.unparkTimer, releaseTimer := tickTimer r.releaseTimer,
    parkTimer := tickTimer r.parkTimer, retuneTimer := tickTimer r.retuneTimer,
    chan := { r.chan with timer := tickTimer r.chan.timer } }

/-- Every timer one tick later, and the tick counted toward the next second. -/
def tickTimers (s : State) : State :=
  modClock (fun c => { c with ticks := if c.ticks + 1 < ticksPerSecond then c.ticks + 1 else 0 })
    (modLink (fun l => { l with gap := l.gap.map (· + 1) })
      (modWatches (fun u => { u with pulseTimer := tickTimer u.pulseTimer })
        (modRouter (fun r => { r with rooms := vecMap (fun _ x => { x with timer := tickTimer x.timer }) r.rooms })
          ((s.setReference { s.reference with timer := tickTimer s.reference.timer }).setSlots (vecMap (fun _ r => tickSlot r) s.slots)))))

/-- The event that ends a channel's stage at its bound (R49). -/
def stageEvent (i : Fin 8) (st : Stage) : List Instr :=
  match st with
  | .none => []
  | .lockWait => [.lockTimeout i]
  | .idWait => [.idTimeout i]
  | .idCheck => []
  | .svcWait => [.svcTimeout i]
  | .listWait => [.listTimeout i]
  | .recheckId => [.recheckIdTimeout i]
  | .recheckSvc => [.recheckSvcTimeout i]

/-- The events of slot `i` that are due. -/
def slotEventsDue (s : State) (i : Fin 8) : List Instr :=
  let r := s.slot i
  (if timerOut r.unparkTimer then [.unparkTimeEnd i] else [])
    ++ (if timerOut r.releaseTimer then [.releaseTimeEnd i] else [])
    ++ (if timerOut r.parkTimer then [.park i] else [])
    ++ (if timerOut r.retuneTimer then [.retuneTimeout i] else [])
    ++ (if timerOut r.chan.timer then stageEvent i r.chan.stage else [])
    ++ (if recheckWaits i s then [.recheckStart i] else [])

/-- A service index as an operand. -/
def serviceOperand (i : Nat) : List (Fin 256) := if h : i < 256 then [⟨i, h⟩] else []

/-- R163, R164, R167, R169: the link's events that are due. -/
def linkEventsDue (s : State) : List Instr :=
  (if gapOver s.link then [.byteGapTimeout] else [])
    ++ (if s.link.reply.isNone && !s.link.buffer.isEmpty && decide (s.link.restart = .none) then [.commandTaken] else [])
    ++ (if s.link.sending.isNone && (s.link.reply.isSome || !s.link.notices.isEmpty)
          && decide (s.link.restart ≠ .due) then [.transmitStart] else [])

/-- The events of the blocks that are due: timers that have run out, requests that wait, holds reached. -/
def eventsDue (s : State) : List Instr :=
  allSlots.flatMap (slotEventsDue s)
    ++ (allRooms.filter fun r => timerOut (s.room r).timer).map .switchTimeout
    ++ (if timerOut s.reference.timer then [.calibrationEnd] else [])
    ++ (if timerOut s.watches.pulseTimer then [.pulseTimerEnd] else [])
    ++ (if s.clock.ticks = 0 then [.secondCountAdvance] else [])
    ++ ((s.services.filter fun e => holdEnds e.1 s).flatMap fun e => (serviceOperand e.1).map .holdUntilReached)
    ++ (s.router.requests.flatMap fun q => (serviceOperand q.service).map .grantRequest)
    ++ linkEventsDue s

/-- The 1 ms tick (R172): the timers run, and the events that are due join the queue, in an order the manual leaves
open (log entries 3 and 12). Held in reset the part does nothing. -/
def tick (s : State) : State :=
  if s.clock.inReset then s
  else
    let s1 := tickTimers s
    let d := drawOrder (eventsDue s1) s1
    d.2.setPending (d.2.pending ++ d.1)

end Sys2Proof.Machine
end

