-- ==== Sys2Proof/Machine/PlanEdit.lean ====
section
/-! DEFINITION. The eight edit commands of the plan (R145 to R151). -/

namespace Sys2Proof.Machine

/-- What an edit gives against a plan: a reply code that leaves the plan store as it is, or the edited plan with a mark
that a value was clamped (R145). -/
inductive EditResult where
  | stays (code : ReplyCode)
  | edited (p : Plan) (clamped : Bool)
deriving DecidableEq, Repr

/-- R145: the plan an edit is checked against. -/
def editBase (s : PlanStore) : Plan := s.staged.getD s.committed

/-- R145: the plan store and the reply code after an edit. -/
def applyEdit (f : Plan → EditResult) (s : PlanStore) : PlanStore × ReplyCode :=
  match f (editBase s) with
  | .stays c => (s, c)
  | .edited p clamped => ({ s with staged := some p }, if clamped then .adjusted else .ok)

/-- A value was moved by a clamp. -/
def moved (a b : Nat) : Bool := decide (a ≠ b)

/-! ## SET_INPUT and SET_PROFILE (R146, R147) -/

/-- R144: the default level window of a class; 0 to 1200 for DISABLED (R146). -/
def defaultWindow (c : InputClass) : Nat × Nat :=
  match c with
  | .disabled => (0, 1200)
  | .terrestrial => (450, 800)
  | .satellite => (500, 850)
  | .cable => (500, 800)

/-- R146: the plan holds a planned carrier on `x` outside the band of the class; a DISABLED class has no band. -/
def strandsCarrier (p : Plan) (x : RfInput) (c : InputClass) : Bool :=
  p.carriers.any fun q => decide (q.input = x) && !inBand c q.freq

/-- R146. -/
def editInput (e : InputEdit) (p : Plan) : EditResult :=
  match inputOf e.input with
  | none => .stays .badIndex
  | some x =>
    match classOf e.cls with
    | none => .stays .badValue
    | some c =>
      if strandsCarrier p x c then .stays .outOfBand
      else
        let bias := clampInt e.bias (-50) 50
        let given := flagOf e.windowPresent
        let lo := if given then min e.winMin 1200 else (defaultWindow c).1
        let hi := if given then min e.winMax 1200 else (defaultWindow c).2
        let r : InputCfg := { cls := c, bias := bias, winMin := lo, winMax := hi, discovery := flagOf e.discovery }
        .edited { p with inputs := p.inputs.set (inputCode x) r }
          (decide (bias ≠ e.bias) || (given && (moved lo e.winMin || moved hi e.winMax)))

/-- R147. -/
def editProfile (e : ProfileEdit) (p : Plan) : EditResult :=
  if h : e.profile < 8 then
    match modulationOf e.modulation, codeRateOf e.codeRate with
    | some m, some r =>
      let q := clampNat e.reqMer 0 350
      let t := clampNat e.lockTimeout 100 5000
      let k := clampNat e.k 10 16
      let x : Profile := { modulation := m, codeRate := r, reqMer := q, lockTimeout := t, k := k }
      .edited { p with profiles := p.profiles.set e.profile x h }
        (moved q e.reqMer || moved t e.lockTimeout || moved k e.k)
    | _, _ => .stays .badValue
  else .stays .badIndex

/-! ## Planned carriers (R148, R149) -/

/-- R148: a symbol rate clamped to 1,000 to 45,000 kSym/s. -/
def clampRate (y : Nat) : Nat := clampNat y 1000 45000

/-- R148: a profile number clamped to 7. -/
def clampProfile (n : Nat) : Fin 8 := ⟨min n 7, Nat.lt_of_le_of_lt (Nat.min_le_right n 7) (by decide)⟩

/-- R148: a clamp of R148 moved a value. -/
def fieldsClamped (f : CarrierFields) : Bool := moved (clampRate f.symRate) f.symRate || decide (7 < f.profile)

/-- The optional expected identity of a command. -/
def givenIdentity (f : CarrierFields) : Option ExpectedId :=
  if flagOf f.idPresent then some { origin := f.origin, transport := f.transport } else none

/-- The planned carrier record of a key and the fields of a command. -/
def plannedOf (x : RfInput) (freq : Nat) (f : CarrierFields) : Planned :=
  { input := x, freq := freq, symRate := clampRate f.symRate, profile := clampProfile f.profile,
    expected := givenIdentity f, excluded := flagOf f.excluded }

/-- The record has the key. -/
def hasKey (x : RfInput) (freq : Nat) (q : Planned) : Bool := decide (q.input = x) && decide (q.freq = freq)

/-- The plan holds a planned carrier with the key. -/
def Plan.names (p : Plan) (x : RfInput) (freq : Nat) : Bool := p.carriers.any (hasKey x freq)

/-- R144: the most planned carriers. -/
def maxPlanned : Nat := 96

/-- R148. -/
def editAdd (input freq : Nat) (f : CarrierFields) (p : Plan) : EditResult :=
  match inputOf input with
  | none => .stays .badIndex
  | some x =>
    if inBand (p.inputCfg x).cls freq = false then .stays .outOfBand
    else if p.names x freq then .stays .duplicate
    else if maxPlanned ≤ p.carriers.length then .stays .tableFull
    else .edited { p with carriers := p.carriers ++ [plannedOf x freq f] } (fieldsClamped f)

/-- R149: the key a command names, by key or by the index of a live entry; none for BAD_INDEX. -/
def namedKey (t : Table Carrier) (n : CarrierName) : Option (RfInput × Nat) :=
  if flagOf n.form then
    (if n.target < carrierPlaces then (tabGet t n.target).map fun c => (c.input, c.freq) else none)
  else (inputOf n.target).map fun x => (x, n.freq)

/-- R149, DROP_CARRIER. -/
def editDrop (t : Table Carrier) (n : CarrierName) (p : Plan) : EditResult :=
  match namedKey t n with
  | none => .stays .badIndex
  | some k =>
    if p.names k.1 k.2 then .edited { p with carriers := p.carriers.filter fun q => !hasKey k.1 k.2 q } false
    else .stays .noChange

/-- R149, SET_CARRIER. -/
def editSet (t : Table Carrier) (n : CarrierName) (f : CarrierFields) (p : Plan) : EditResult :=
  match namedKey t n with
  | none => .stays .badIndex
  | some k =>
    if p.names k.1 k.2 then
      .edited { p with carriers := p.carriers.map fun q => if hasKey k.1 k.2 q then plannedOf k.1 k.2 f else q }
        (fieldsClamped f)
    else .stays .badIndex

/-! ## Bindings (R150) -/

/-- The optional key of a command. -/
def givenKey (present origin number : Nat) : Option ServiceKey :=
  if flagOf present then some { origin := origin, number := number } else none

/-- R150, BIND_ROOM. -/
def editBind (e : BindEdit) (p : Plan) : EditResult :=
  if h : e.room < 48 then
    let a := givenKey e.primaryPresent e.primaryOrigin e.primaryNumber
    let b := givenKey e.fallbackPresent e.fallbackOrigin e.fallbackNumber
    if a = b then .stays .badValue
    else
      let x : Binding := { primary := a, fallback := b, priority := min e.priority 3 }
      .edited { p with bindings := p.bindings.set e.room x h }
        (moved (min e.priority 3) e.priority)
  else .stays .badIndex

/-- R150, UNBIND_ROOM. -/
def editUnbind (room : Nat) (p : Plan) : EditResult :=
  if h : room < 48 then
    let b := p.bindings[room]
    if b.primary = none ∧ b.fallback = none then .stays .noChange
    else .edited { p with bindings := p.bindings.set room Binding.reset h } false
  else .stays .badIndex

/-! ## Parameters (R151) -/

/-- R151: the range of a parameter. -/
def paramRange (n : Nat) : Option (Nat × Nat) :=
  match n with
  | 0 => some (0, 200)
  | 1 => some (1, 4)
  | 2 => some (0, 600)
  | 3 => some (0, 1000)
  | 4 => some (0, 200)
  | 5 => some (60, 3600)
  | 6 => some (5, 300)
  | 7 => some (0, 120)
  | 8 => some (0, 2)
  | 9 => some (1, 4)
  | _ => none

/-- R151: the parameters with number `n` set to `v`, within its range; the minimum interval is kept at or below the
maximum age. -/
def setParam (n v : Nat) (q : Params) : Params :=
  match n with
  | 0 => { q with hysteresis := v }
  | 1 => { q with leadCount := v }
  | 2 => { q with settle := v }
  | 3 => { q with floor := v }
  | 4 => { q with guardMargin := v }
  | 5 => { q with maxAge := v, minInterval := min q.minInterval v }
  | 6 => { q with minInterval := min v q.maxAge }
  | 7 => { q with holdLimit := v }
  | 8 => { q with reserve := v }
  | 9 => { q with windows := v }
  | _ => q

/-- R151: setting the maximum age lowers the minimum interval, or the minimum interval is lowered to the maximum age. -/
def crossClamped (n v : Nat) (q : Params) : Bool :=
  match n with
  | 5 => decide (v < q.minInterval)
  | 6 => decide (q.maxAge < v)
  | _ => false

/-- R151, SET_PARAMS. -/
def editParams (n v : Nat) (p : Plan) : EditResult :=
  match paramRange n with
  | none => .stays .badIndex
  | some r =>
    let w := clampNat v r.1 r.2
    .edited { p with params := setParam n w p.params } (moved w v || crossClamped n w p.params)

end Sys2Proof.Machine
end

