-- ==== Sys2Proof/Machine/Commit.lean ====
section
/-! DEFINITION. The commit of a plan and CLEAR_SURVEY: the changes they make to the carrier table and what the other
blocks do with them (R72, R81 to R87, R101, R105, R109, R127, R128, R152 to R154). -/

namespace Sys2Proof.Machine

/-! ## What a plan makes of an entry (R72, R84, R85) -/

/-- The planned carrier record of an entry's key. -/
def planRecord (p : Plan) (c : Carrier) : Option Planned := p.carriers.find? (hasKey c.input c.freq)

/-- R73, R85: the hold in phase ENDING. -/
def endingHold (h : Option Hold) : Option Hold := h.map fun h => { h with ending := true }

/-- R85: the hold back in phase ACTIVE. -/
def activeAgain (h : Option Hold) : Option Hold := h.map fun h => { h with ending := false }

/-- The measurement with its score made absent (R84). -/
def unscored (m : Option WindowRecord) : Option WindowRecord := m.map fun m => { m with score := none }

/-- R84: exclusion of an entry that is not EXCLUDED. -/
def excludedEntry (c : Carrier) : Carrier :=
  { c with
    state := .excluded, stateBefore := none, meas := unscored c.meas,
    hold := if c.carried then c.hold else endingHold c.hold }

/-- R84, R73: the exclusion of an EXCLUDED entry cleared. -/
def unexcludedEntry (s : State) (c : Carrier) : Carrier :=
  resumeAcquiring s { c with state := .unsurveyed, nextDue := s.now }

/-- R72, R85: an entry whose key the plan names by record `q`. A cancelled removal leaves the state as it is, ACQUIRING too
(DESIGN CHOICE, log entry 44). -/
def namedEntry (q : Planned) (c : Carrier) : Carrier :=
  { c with
    planned := true, symRate := q.symRate, profile := q.profile, expected := q.expected, removalPending := false,
    hold := if c.removalPending then activeAgain c.hold else c.hold }

/-- R84: the exclusion the plan marks, applied. -/
def applyExclusion (s : State) (excluded : Bool) (c : Carrier) : Carrier :=
  if excluded then (if c.state = .excluded then c else excludedEntry c)
  else if c.state = .excluded then unexcludedEntry s c
  else c

/-- R85: a held entry marked removal pending. -/
def pendingEntry (c : Carrier) : Carrier :=
  { c with
    planned := false, removalPending := true, hold := endingHold c.hold, services := [], listStatus := .absent,
    listTruncated := false }

/-- R85, R86: the entry leaves the table at the commit of `p`, or is already to leave it. -/
def losesLast (p : Plan) (c : Carrier) : Bool :=
  (planRecord p c).isNone && !c.removalPending && !c.discovered

/-- R86: the entry's removal is pending when the commit of `p` has been applied. -/
def pendingAfter (p : Plan) (c : Carrier) : Bool :=
  (planRecord p c).isNone && (c.removalPending || (!c.discovered && c.hold.isSome))

/-- R86: the entry is discovered-only after the commit of `p`. -/
def discoveredAfter (p : Plan) (c : Carrier) : Bool :=
  (planRecord p c).isNone && !c.removalPending && c.discovered

/-- R72, R84, R85: a kept entry after the commit of `p`. -/
def committedEntry (s : State) (p : Plan) (c : Carrier) : Carrier :=
  match planRecord p c with
  | some q => applyExclusion s q.excluded (namedEntry q c)
  | none =>
    if c.removalPending then c
    else if c.discovered then
      (if c.planned then applyExclusion s false { c with planned := false, expected := none } else c)
    else pendingEntry c

/-! ## Capacity (R86) -/

/-- R86: the count of entries a commit of `p` would leave, before evictions. -/
def capacityCount (p : Plan) (t : Table Carrier) : Nat :=
  p.carriers.length + (t.filter fun e => discoveredAfter p e.2 || pendingAfter p e.2).length

/-- R86: oldest addition time first, then lowest index. -/
def evictedBefore (a b : Nat × Carrier) : Bool :=
  decide (a.2.added < b.2.added) || (decide (a.2.added = b.2.added) && decide (a.1 < b.1))

/-- R86: the evictable entries in the order of eviction. -/
def evictionOrder (p : Plan) (t : Table Carrier) : List Nat :=
  (sortBy evictedBefore (t.filter fun e => discoveredAfter p e.2 && e.2.hold.isNone)).map Prod.fst

/-- R86: the entries a commit of `p` evicts; none when it is refused with CAPACITY. -/
def evictions (p : Plan) (t : Table Carrier) : Option (List Nat) :=
  let excess := capacityCount p t - carrierPlaces
  if excess ≤ (evictionOrder p t).length then some ((evictionOrder p t).take excess) else none

/-! ## The table's change (R71, R72, R81, R83) -/

/-- R72: a new entry of a commit. -/
def plannedEntry (now : Nat) (q : Planned) : Carrier :=
  { input := q.input, freq := q.freq, symRate := q.symRate, profile := q.profile, planned := true, discovered := false,
    lister := none, added := now, expected := q.expected, observed := none,
    state := if q.excluded then .excluded else .unsurveyed, stateBefore := none, failCause := none, failCount := 0,
    meas := none, history := [], nextDue := now, hold := none, removalPending := false, services := [],
    listStatus := .absent, listTruncated := false, carrierList := .none }

/-- R71, R153: one planned carrier taken into the table: added at the lowest free place unless its key has an entry. -/
def addPlanned (now : Nat) (r : Table Carrier × List Nat) (q : Planned) : Table Carrier × List Nat :=
  match carrierIndex r.1 q.input q.freq with
  | some _ => r
  | none => (tabPut r.1 (tabFree r.1) (plannedEntry now q), r.2 ++ [tabFree r.1])

/-- R81: the plan's inputs differ in what a score reads: bias or level window. -/
def inputRescores (a b : InputCfg) : Bool :=
  decide (a.bias ≠ b.bias) || decide (a.winMin ≠ b.winMin) || decide (a.winMax ≠ b.winMax)

/-- R81: the entry, `b` before the commit and `a` after it, is affected by the change of plan from `old` to `new`. -/
def rescores (old new : Plan) (b a : Carrier) : Bool :=
  a.meas.isSome
    && (decide ((old.profile a.profile).reqMer ≠ (new.profile a.profile).reqMer)
        || inputRescores (old.inputCfg a.input) (new.inputCfg a.input) || decide (b.profile ≠ a.profile))

/-- R81: the margins moved by `shift`, and the score formed afresh. -/
def rescoredEntry (cfg : InputCfg) (shift : Int) (c : Carrier) : Carrier :=
  let h := c.history.map fun p => { p with margin := p.margin + shift }
  { c with
    history := h,
    meas := c.meas.map fun m =>
      { m with
        margin := m.margin + shift,
        score := if c.state = .verified then some (scoreOf (m.margin + shift) m.u m.level h cfg) else none } }

/-- R81: one entry rescored if it is affected. -/
def rescoreOne (old new : Plan) (before : Table Carrier) (e : Nat × Carrier) : Nat × Carrier :=
  match tabGet before e.1 with
  | none => e
  | some b =>
    if rescores old new b e.2 then
      (e.1, rescoredEntry (new.inputCfg e.2.input)
        (((old.profile b.profile).reqMer : Int) - (new.profile e.2.profile).reqMer) e.2)
    else e

/-- R83: the re-clamp of a next-due time; one at or before the bound stays. -/
def reclamp (bound : Nat) (c : Carrier) : Carrier := { c with nextDue := min c.nextDue bound }

/-- What a commit does to the carrier table: the table after it, the places freed, added and rescored. -/
structure TableCommit where
  table : Table Carrier
  removed : List Nat
  added : List Nat
  rescored : List Nat
deriving DecidableEq, Repr

/-- R153: the carrier table's part of a commit of `p` with evictions `ev`. -/
def commitTable (s : State) (p : Plan) (ev : List Nat) : TableCommit :=
  let old := s.committed
  let gone := (s.carriers.filter fun e =>
    ev.contains e.1 || (losesLast p e.2 && e.2.hold.isNone)).map Prod.fst
  let t1 := gone.foldl (fun t i => removeEntry i t) s.carriers
  let t2 := t1.map fun e => (e.1, committedEntry s p e.2)
  let rescored := (t2.filter fun e =>
    match tabGet s.carriers e.1 with
    | none => false
    | some b => rescores old p b e.2).map Prod.fst
  let t3 := t2.map (rescoreOne old p s.carriers)
  let t4 := if p.params.maxAge < old.params.maxAge then
    t3.map fun e => (e.1, reclamp (s.now + p.params.maxAge) e.2) else t3
  let r := p.carriers.foldl (addPlanned s.now) (t4, [])
  { table := r.1, removed := gone, added := r.2, rescored := rescored }

/-! ## The scheduler's part (R94, R101, R105, R106) -/

/-- The entry at `i` before a change of the table and after it satisfy `p`. -/
def changedBy (old new : Table Carrier) (p : Carrier → Carrier → Bool) : List Nat :=
  (old.filter fun e =>
    match tabGet new e.1 with
    | none => false
    | some a => p e.2 a).map Prod.fst

/-- R101: the slots whose SURVEY holds the table has turned to phase ENDING. -/
def endingSurveys (t : Table Carrier) : List (Fin 8) :=
  t.filterMap fun e =>
    match e.2.hold with
    | none => none
    | some h => if h.ending && !h.carry then some h.slot else none

/-- R101: the scheduler ends every survey the table asks it to end, in ascending slot (log entry 8). -/
def endSurveys (t : Table Carrier) (s : State) : State :=
  (allSlots.filter fun i => (endingSurveys t).contains i).foldl (fun s i => endSurveyByTable i s) s

/-- The input of an entry is made DISABLED by the change of plan. -/
def disabledNow (old new : Plan) (c : Carrier) : Bool :=
  decide ((old.inputCfg c.input).cls ≠ .disabled) && decide ((new.inputCfg c.input).cls = .disabled)

/-- R94, R101, R105, R106: what the scheduler does with a commit that turned table `old` into `r.table`. An
un-excluded entry joins the set last, though its input be made DISABLED (DESIGN CHOICE, log entry 45). The surveys the table
ends are released before the counts of a superseded pass are taken (DESIGN CHOICE, log entry 51). -/
def scheduleCommit (was new : Plan) (old : Table Carrier) (r : TableCommit) (s : State) : State :=
  let excluded := changedBy old r.table fun b a => decide (b.state ≠ .excluded) && decide (a.state = .excluded)
  let freed := changedBy old r.table fun b a => decide (b.state = .excluded) && decide (a.state ≠ .excluded)
  let pending := changedBy old r.table fun b a => !b.removalPending && a.removalPending
  let disabled := changedBy old r.table fun _ a => disabledNow was new a
  let s1 := excluded.foldl (fun s i => dropUrgent i s) s
  let s2 := (excluded ++ pending ++ disabled).foldl (fun s i => leaveSet i s) s1
  let s3 := endSurveys r.table s2
  if r.added.isEmpty then freed.foldl (fun s i => joinSet i s) s3 else startPass s3

/-! ## The other blocks' parts -/

/-- R109, R113: the ranking unit's part: BOUND marks, and every entry rebuilt when the floor changed. -/
def rankCommit (was new : Plan) (s : State) : State :=
  let s1 := applyBindings new s
  if was.params.floor = new.params.floor then s1
  else (tabKeys s1.services).foldl (fun s i => rebuildEvent i s) s1

/-- R127, R128: the record of a channel with binding `b`; with changed keys its feeding starts from PRIMARY if the
primary is bound and from FALLBACK otherwise. -/
def reboundRoom (b : Binding) (x : Room) : Room :=
  if x.primary = b.primary ∧ x.fallback = b.fallback then { x with priority := b.priority }
  else
    { x with
      primary := b.primary, fallback := b.fallback, priority := b.priority,
      feeding := if b.primary.isSome then .primary else .fallback }

/-- R127, R153: a channel whose binding or priority the plan changes takes it and is recomputed. -/
def rebindRoom (p : Plan) (s : State) (r : Fin 48) : State :=
  let x := s.room r
  let y := reboundRoom p.bindings[r] x
  if y = x then s else changeRoom r (recomputed s y) s

/-- R154: the record of an applied commit. -/
def commitRecord (s : State) (r : TableCommit) (ev : List Nat) : CommitRecord :=
  { number := (s.plan.last.number + 1) % 65536, time := s.now, added := r.added.length, removed := r.removed.length,
    evicted := ev.length,
    removalPending := (changedBy s.carriers r.table fun b a => !b.removalPending && a.removalPending).length,
    passStarted := !r.added.isEmpty }

/-- R152, R153: the commit of plan `p` with evictions `ev`, as one change reaching every block. -/
def applyCommit (p : Plan) (ev : List Nat) (s : State) : State :=
  let was := s.committed
  let r := commitTable s p ev
  let rec_ := commitRecord s r ev
  let s1 := (s.setPlan { committed := p, staged := none, last := rec_ }).setCarriers r.table
  let s2 := reportChanges s.carriers r.removed r.added r.rescored.contains (fun _ => none)
    (staleAt s.now was.params.maxAge) s1
  let s3 := scheduleCommit was p s.carriers r s2
  let s4 := rankCommit was p s3
  let s5 := allRooms.foldl (rebindRoom p) s4
  searchDue (offer .plan 0 (planNotice rec_) s5)

/-! ## CLEAR_SURVEY (R87) -/

/-- R87 step 3: an entry not carried, cleared. -/
def clearedEntry (now : Nat) (c : Carrier) : Carrier :=
  { c with
    meas := none, history := [], failCount := 0, failCause := none, services := [], listStatus := .absent,
    listTruncated := false, carrierList := .none, nextDue := now,
    state := if c.state = .excluded then .excluded else .unsurveyed, stateBefore := none, hold := endingHold c.hold }

/-- R87: an entry kept at CLEAR_SURVEY. A carried entry, and one whose removal is already pending, are left as they
were. -/
def clearEntry (now : Nat) (c : Carrier) : Carrier :=
  if c.carried || c.removalPending then c
  else if c.planned then clearedEntry now c
  else pendingEntry c

/-- R87: the places whose entries CLEAR_SURVEY changes and keeps. -/
def clearedPlaces (now : Nat) (t : Table Carrier) : List Nat :=
  (t.filter fun e => decide (clearEntry now e.2 ≠ e.2)).map Prod.fst

/-- R87: CLEAR_SURVEY. Each changed entry raises a CARRIER notice, whatever changed in it. A
carried entry loses a lister that is removed (R65 over R87; DESIGN CHOICE, log entry 49). The surveys the table ends are
released before the counts of a superseded pass are taken (DESIGN CHOICE, log entry 51). -/
def clearSurvey (s : State) : State :=
  let gone := (s.carriers.filter fun e => !e.2.planned && !e.2.removalPending && e.2.hold.isNone).map Prod.fst
  let t1 := gone.foldl (fun t i => removeEntry i t) s.carriers
  let t2 := t1.map fun e => (e.1, clearEntry s.now e.2)
  let s1 := reportChanges s.carriers gone [] (clearedPlaces s.now s.carriers).contains (fun _ => none) s.stale (s.setCarriers t2)
  let pending := changedBy s.carriers t2 fun b a => !b.removalPending && a.removalPending
  let s2 := endSurveys t2 (pending.foldl (fun s i => leaveSet i s) s1)
  searchDue (startPass s2)

end Sys2Proof.Machine
end

