-- ==== Sys2Proof/Machine/Commands.lean ====
section
/-! DEFINITION. What each command of the host does and answers (R47, R90, R93, R102, R125, R142, R145 to R152, R155,
R156, R160, R161, R168 to R173). Every command gives the state after its effect, a reply code and the content of its
reply. -/

namespace Sys2Proof.Machine

/-- The state after a command's effect, its reply code and the content that follows code and flags. -/
structure Answer where
  state : State
  code : ReplyCode
  content : List Byte
deriving DecidableEq, Repr

/-- A reply without content. -/
def answered (c : ReplyCode) (s : State) : Answer := { state := s, code := c, content := [] }

/-! ## Identity, status, notices and the frozen view (R168, R170 to R173) -/

/-- The link speed in use, in baud (R174). -/
def baudOf (speedHigh : Bool) : Nat := if speedHigh then 921600 else 115200

/-- IDENTIFY (R172). -/
def doIdentify (s : State) : Answer :=
  { state := s, code := .ok,
    content := le 2 partCode ++ le 1 revision ++ le 1 (causeCode s.clock.cause) ++ le 4 s.now
      ++ le 3 (baudOf s.clock.speedHigh) }

/-- R168: the live values of READ_STATUS. -/
def statusBytes (s : State) : List Byte :=
  le 4 s.now ++ le 1 (surveyModeCode s.sched.mode) ++ le 2 s.sched.pass.number ++ le 4 s.sched.pass.start
    ++ boolByte s.plan.staged.isSome ++ le 2 s.plan.last.number ++ optLe 4 (s.link.frozen.map (·.now))
    ++ le 1 s.link.notices.length ++ le 1 s.link.mask.toNat ++ le 1 (onlineSlots s) ++ le 1 s.carriers.length
    ++ le 2 s.services.length

/-- READ_STATUS (R168). The flags are cleared after the reply is formed, in `answerCommand`. -/
def doReadStatus (s : State) : Answer := { state := s, code := .ok, content := statusBytes s }

/-- RESTART (R173): from now on no further command is taken. -/
def doRestart (s : State) : Answer := answered .ok (modLink (fun l => { l with restart := .replyWaiting }) s)

/-- SET_NOTICES (R170). -/
def doSetNotices (mask : Nat) (s : State) : Answer :=
  answered .ok (modLink (fun l => { l with mask := BitVec.ofNat 8 mask }) s)

/-- R171: the copy FREEZE takes. -/
def viewOf (s : State) : FrozenView :=
  { carriers := s.carriers, services := s.services, rooms := s.router.rooms, now := s.now }

/-- FREEZE (R171). -/
def doFreeze (s : State) : Answer :=
  { state := modLink (fun l => { l with frozen := some (viewOf s) }) s, code := .ok, content := le 4 s.now }

/-- THAW (R171). -/
def doThaw (s : State) : Answer :=
  match s.link.frozen with
  | none => answered .notFrozen s
  | some _ => answered .ok (modLink (fun l => { l with frozen := none }) s)

/-! ## Queries (R47, R90, R125, R142, R171) -/

/-- R171: what the queries read: the frozen view while one is held, the live records otherwise. -/
def readView (s : State) : FrozenView := s.link.frozen.getD (viewOf s)

/-- GET_CARRIER (R90). -/
def doGetCarrier (i : Nat) (s : State) : Answer :=
  if i < carrierPlaces then
    match tabGet (readView s).carriers i with
    | none => answered .badIndex s
    | some c => { state := s, code := .ok, content := carrierBytes (readView s).now s.params.maxAge i c }
  else answered .badIndex s

/-- R171: the entries at `start` or above. -/
def pageFrom {α : Type} (start : Nat) (t : Table α) : Table α := t.filter fun e => decide (start ≤ e.1)

/-- R171: the next index to ask for: after the last entry returned, when more lie above it. -/
def nextIndex {α : Type} (page : Table α) : Option Nat :=
  if listPage < page.length then (page.take listPage).getLast?.map fun e => e.1 + 1 else none

/-- LIST_CARRIERS (R171). -/
def doListCarriers (start : Nat) (s : State) : Answer :=
  if start < carrierPlaces then
    let page := pageFrom start (readView s).carriers
    { state := s, code := .ok,
      content := ((page.take listPage).flatMap fun e =>
        carrierSummary (readView s).now s.params.maxAge e.1 e.2) ++ optLe 1 (nextIndex page) }
  else answered .badIndex s

/-- GET_SERVICE (R125). -/
def doGetService (i : Nat) (s : State) : Answer :=
  match tabGet (readView s).services i with
  | none => answered .badIndex s
  | some v => { state := s, code := .ok, content := serviceBytes v }

/-- LIST_SERVICES (R125, R171). -/
def doListServices (start : Nat) (s : State) : Answer :=
  let page := pageFrom start (readView s).services
  { state := s, code := .ok,
    content := ((page.take listPage).flatMap fun e => serviceSummary e.1 e.2) ++ optLe 1 (nextIndex page) }

/-- GET_ROOM (R142). -/
def doGetRoom (r : Nat) (s : State) : Answer :=
  if h : r < 48 then { state := s, code := .ok, content := roomBytes ⟨r, h⟩ (readView s).rooms[r] }
  else answered .badIndex s

/-- GET_SLOT (R47): live in every case. -/
def doGetSlot (i : Nat) (s : State) : Answer :=
  if h : i < 8 then { state := s, code := .ok, content := slotBytes s.reference.queue ⟨i, h⟩ (s.slot ⟨i, h⟩) }
  else answered .badIndex s

/-! ## Surveys and slots (R35, R36, R87, R93, R102) -/

/-- SURVEY_NOW (R93). -/
def doSurveyNow (i : Nat) (s : State) : Answer :=
  if i < carrierPlaces then
    match s.carrier i with
    | none => answered .badIndex s
    | some c =>
      if c.state = .excluded then answered .excluded s
      else if c.carried then answered .ok s
      else if i ∈ s.sched.urgent then answered .ok s
      else if urgentPlaces ≤ s.sched.urgent.length then answered .queueFull s
      else answered .ok (settle (searchDue (modSched (fun c => { c with urgent := c.urgent ++ [i] }) s)))
  else answered .badIndex s

/-- SET_SURVEY_MODE (R102). -/
def doSetSurveyMode (m : Nat) (s : State) : Answer :=
  match m, s.sched.mode with
  | 0, .run => answered .noChange s
  | 0, .hold => answered .ok (settle (searchDue (modSched (fun c => { c with mode := .run }) s)))
  | 1, .run => answered .ok (modSched (fun c => { c with mode := .hold }) s)
  | 1, .hold => answered .noChange s
  | _, _ => answered .badValue s

/-- CLEAR_SURVEY (R87). -/
def doClearSurvey (s : State) : Answer := answered .ok (settle (clearSurvey s))

/-- SLOT_OFFLINE (R35). -/
def doSlotOffline (i : Nat) (s : State) : Answer :=
  if h : i < 8 then
    match slotGoOffline ⟨i, h⟩ s with
    | (s1, true) => answered .ok (settle s1)
    | (s1, false) => answered .noChange s1
  else answered .badIndex s

/-- SLOT_ONLINE (R36). A number above 7 is BAD_INDEX, as for SLOT_OFFLINE (DESIGN CHOICE, log entry 48). -/
def doSlotOnline (i : Nat) (s : State) : Answer :=
  if h : i < 8 then
    match slotGoOnline ⟨i, h⟩ s with
    | (s1, true) => answered .ok (settle s1)
    | (s1, false) => answered .noChange s1
  else answered .badIndex s

/-! ## The plan (R145 to R152) -/

/-- R145: an edit command: only the plan store changes. -/
def doEdit (f : Plan → EditResult) (s : State) : Answer :=
  let r := applyEdit f s.plan
  answered r.2 (s.setPlan r.1)

/-- SET_INPUT (R146). -/
def doSetInput (e : InputEdit) (s : State) : Answer := doEdit (editInput e) s

/-- SET_PROFILE (R147). -/
def doSetProfile (e : ProfileEdit) (s : State) : Answer := doEdit (editProfile e) s

/-- ADD_CARRIER (R148). -/
def doAddCarrier (input freq : Nat) (f : CarrierFields) (s : State) : Answer := doEdit (editAdd input freq f) s

/-- DROP_CARRIER (R149). -/
def doDropCarrier (n : CarrierName) (s : State) : Answer := doEdit (editDrop s.carriers n) s

/-- SET_CARRIER (R149). -/
def doSetCarrier (n : CarrierName) (f : CarrierFields) (s : State) : Answer := doEdit (editSet s.carriers n f) s

/-- BIND_ROOM (R150). -/
def doBindRoom (e : BindEdit) (s : State) : Answer := doEdit (editBind e) s

/-- UNBIND_ROOM (R150). -/
def doUnbindRoom (room : Nat) (s : State) : Answer := doEdit (editUnbind room) s

/-- SET_PARAMS (R151). -/
def doSetParams (n v : Nat) (s : State) : Answer := doEdit (editParams n v) s

/-- COMMIT_PLAN (R152). -/
def doCommitPlan (s : State) : Answer :=
  match s.plan.staged with
  | none => answered .noStaging s
  | some p =>
    if p = s.committed then answered .noChange (modPlan (fun c => { c with staged := none }) s)
    else
      match evictions p s.carriers with
      | none => answered .capacity s
      | some ev =>
        let s1 := settle (applyCommit p ev s)
        { state := s1, code := .ok, content := commitBytes s1.plan.last }

/-- DISCARD_PLAN (R152). -/
def doDiscardPlan (s : State) : Answer :=
  match s.plan.staged with
  | none => answered .noChange s
  | some _ => answered .ok (modPlan (fun c => { c with staged := none }) s)

/-! ## Watches (R155, R156, R160, R161) -/

/-- R155: the subjects a kind has. -/
def subjectCount (k : SubjectKind) : Nat :=
  match k with
  | .carrier => 96
  | .service => 256
  | .room => 48
  | .slot => 8

/-- R165: the subject number that means ANY. -/
def anySubject : Nat := 0xFFFF

/-- R155: the subject is in range for its kind; a number that is no kind has no range. -/
def subjectInRange (kind subject : Nat) : Bool :=
  decide (subject = anySubject)
    || match subjectKindOf kind with
       | none => true
       | some k => decide (subject < subjectCount k)

/-- R155: a condition is present only for the kinds that allow it. -/
def conditionsAllowed (k : SubjectKind) (e : WatchEdit) : Bool :=
  (!flagOf e.statePresent || decide (k ≠ .room))
    && (!flagOf e.marginPresent || decide (k = .carrier))
    && (!flagOf e.scorePresent || decide (k = .carrier) || decide (k = .service))
    && (!flagOf e.selectionChanged || decide (k = .service))
    && (!flagOf e.routePresent || decide (k = .room))

/-- R155: the state and route-state values given are values of that kind. -/
def valuesKnown (k : SubjectKind) (e : WatchEdit) : Bool :=
  (!flagOf e.statePresent || (subjectStateOf k e.state).isSome)
    && (!flagOf e.routePresent || (routeOf e.route).isSome)

/-- R155: the entry SET_WATCH gives, thresholds clamped. -/
def watchOf (k : SubjectKind) (e : WatchEdit) : Watch :=
  { kind := k, subject := if e.subject = anySubject then none else some e.subject,
    stateEq := if flagOf e.statePresent then subjectStateOf k e.state else none,
    marginBelow := if flagOf e.marginPresent then some (clampInt e.margin (-350) 359) else none,
    scoreBelow := if flagOf e.scorePresent then some (min e.score 1000) else none,
    selectionChanged := flagOf e.selectionChanged,
    routeEq := if flagOf e.routePresent then routeOf e.route else none,
    alert := decide (e.action = 1), latched := false, lastSubject := none, fireCount := 0 }

/-- R155: a threshold was clamped. -/
def thresholdClamped (e : WatchEdit) : Bool :=
  (flagOf e.marginPresent && decide (clampInt e.margin (-350) 359 ≠ e.margin))
    || (flagOf e.scorePresent && decide (1000 < e.score))

/-- R155: the watch unit after SET_WATCH: the latch cleared as by an acknowledgement, then the entry replaced. -/
def setEntry (n : Fin 16) (w : Watch) (u : WatchUnit) : WatchUnit :=
  let u1 := acknowledge (fun j => decide (j = n)) u
  { u1 with entries := u1.entries.set n w }

/-- SET_WATCH (R155). -/
def doSetWatch (e : WatchEdit) (s : State) : Answer :=
  if h : e.watch < 16 then
    if subjectInRange e.kind e.subject then
      match subjectKindOf e.kind with
      | none => answered .badValue s
      | some k =>
        if e.action ≤ 1 ∧ conditionsAllowed k e = true ∧ valuesKnown k e = true then
          answered (if thresholdClamped e then .adjusted else .ok) (modWatches (setEntry ⟨e.watch, h⟩ (watchOf k e)) s)
        else answered .badValue s
    else answered .badIndex s
  else answered .badIndex s

/-- R165: the watch number that means ALL. -/
def allWatchesNumber : Nat := 255

/-- R156, R161: a watch number names a watch or ALL. -/
def namesWatch (n : Nat) : Bool := decide (n < 16) || decide (n = allWatchesNumber)

/-- R156, R161: the watches a number names. -/
def watchNamed (n : Nat) (j : Fin 16) : Bool := decide (n = allWatchesNumber) || decide (j.val = n)

/-- R156: an entry that is cleared. -/
def clearedWatch (w : Watch) : Watch :=
  { w with
    stateEq := none, marginBelow := none, scoreBelow := none, selectionChanged := false, routeEq := none, alert := false,
    latched := false, lastSubject := none, fireCount := 0 }

/-- R156: the watch unit after CLEAR_WATCH. -/
def clearEntries (named : Fin 16 → Bool) (u : WatchUnit) : WatchUnit :=
  let u1 := acknowledge named u
  { u1 with entries := vecMap (fun j w => if named j then clearedWatch w else w) u1.entries }

/-- CLEAR_WATCH (R156). -/
def doClearWatch (n : Nat) (s : State) : Answer :=
  if namesWatch n then
    answered (if allWatches.any fun j => watchNamed n j && s.watches.entries[j].active then .ok else .noChange)
      (modWatches (clearEntries (watchNamed n)) s)
  else answered .badIndex s

/-- ACK_WATCH (R161). -/
def doAckWatch (n : Nat) (s : State) : Answer :=
  if namesWatch n then
    let s1 := modWatches (acknowledge (watchNamed n)) s
    { state := s1, code := if namedLatched (watchNamed n) (fun _ => true) s.watches.entries then .ok else .noChange,
      content := ackBytes s1.watches.entries }
  else answered .badIndex s

/-- R160: the watch unit after a change of mode. -/
def changeMode (m : AlertMode) (u : WatchUnit) : WatchUnit :=
  match m with
  | .pulse => { u with mode := .pulse, alert := false, pulseTimer := none }
  | .level => { u with mode := .level, alert := alertLatched u.entries, pulseTimer := none }

/-- SET_ALERT_MODE (R160). -/
def doSetAlertMode (m : Nat) (s : State) : Answer :=
  match m, s.watches.mode with
  | 0, .level => answered .noChange s
  | 0, .pulse => answered .ok (modWatches (changeMode .level) s)
  | 1, .level => answered .ok (modWatches (changeMode .pulse) s)
  | 1, .pulse => answered .noChange s
  | _, _ => answered .badValue s

end Sys2Proof.Machine
end

