-- ==== Sys2Proof/Machine/Frames.lean ====
section
/-! DEFINITION. The command table of R165: the code of each command, the widths of its payload fields, and the reading
and writing of a command frame. -/

namespace Sys2Proof.Machine

/-- R165: the command table: the widths in bytes of a command's payload fields; none for a CODE not in the table. -/
def layoutOf (code : Nat) : Option (List Nat) :=
  match code with
  | 0x10 => some []
  | 0x11 => some []
  | 0x12 => some []
  | 0x13 => some [1]
  | 0x14 => some []
  | 0x15 => some []
  | 0x20 => some [1]
  | 0x21 => some [1]
  | 0x22 => some [1]
  | 0x23 => some [1]
  | 0x24 => some [1]
  | 0x25 => some [1]
  | 0x30 => some [1]
  | 0x31 => some [1]
  | 0x32 => some []
  | 0x33 => some [1]
  | 0x34 => some [1]
  | 0x40 => some [1, 1, 1, 1, 1, 2, 2]
  | 0x41 => some [1, 1, 1, 2, 2, 1]
  | 0x42 => some [1, 4, 2, 1, 1, 2, 2, 1]
  | 0x43 => some [1, 1, 4]
  | 0x44 => some [1, 1, 4, 2, 1, 1, 2, 2, 1]
  | 0x45 => some [1, 1, 2, 2, 1, 2, 2, 1]
  | 0x46 => some [1]
  | 0x47 => some [1, 2]
  | 0x48 => some []
  | 0x49 => some []
  | 0x50 => some [1, 1, 2, 1, 1, 1, 1, 2, 1, 2, 1, 1, 1]
  | 0x51 => some [1]
  | 0x52 => some [1]
  | 0x53 => some [1]
  | _ => none

/-- A signed value as the unsigned number of its `k` bytes. -/
def unsignedOf (k : Nat) (z : Int) : Nat := (z % (256 ^ k : Nat)).toNat

/-- R165: the code of a command and its payload fields in order. -/
def fieldsOf : HostCommand → Nat × List Nat
  | .identify => (0x10, [])
  | .readStatus => (0x11, [])
  | .restart => (0x12, [])
  | .setNotices m => (0x13, [m])
  | .freeze => (0x14, [])
  | .thaw => (0x15, [])
  | .getCarrier i => (0x20, [i])
  | .listCarriers i => (0x21, [i])
  | .getService i => (0x22, [i])
  | .listServices i => (0x23, [i])
  | .getRoom i => (0x24, [i])
  | .getSlot i => (0x25, [i])
  | .surveyNow i => (0x30, [i])
  | .setSurveyMode m => (0x31, [m])
  | .clearSurvey => (0x32, [])
  | .slotOffline i => (0x33, [i])
  | .slotOnline i => (0x34, [i])
  | .setInput e => (0x40, [e.input, e.cls, unsignedOf 1 e.bias, e.discovery, e.windowPresent, e.winMin, e.winMax])
  | .setProfile e => (0x41, [e.profile, e.modulation, e.codeRate, e.reqMer, e.lockTimeout, e.k])
  | .addCarrier i f c => (0x42, [i, f, c.symRate, c.profile, c.idPresent, c.origin, c.transport, c.excluded])
  | .dropCarrier n => (0x43, [n.form, n.target, n.freq])
  | .setCarrier n c =>
    (0x44, [n.form, n.target, n.freq, c.symRate, c.profile, c.idPresent, c.origin, c.transport, c.excluded])
  | .bindRoom e =>
    (0x45, [e.room, e.primaryPresent, e.primaryOrigin, e.primaryNumber, e.fallbackPresent, e.fallbackOrigin,
      e.fallbackNumber, e.priority])
  | .unbindRoom r => (0x46, [r])
  | .setParams n v => (0x47, [n, v])
  | .commitPlan => (0x48, [])
  | .discardPlan => (0x49, [])
  | .setWatch e =>
    (0x50, [e.watch, e.kind, e.subject, e.action, e.statePresent, e.state, e.marginPresent, unsignedOf 2 e.margin,
      e.scorePresent, e.score, e.selectionChanged, e.routePresent, e.route])
  | .clearWatch w => (0x51, [w])
  | .ackWatch w => (0x52, [w])
  | .setAlertMode m => (0x53, [m])

/-- R165: the command of a code and its payload fields. -/
def commandOf : Nat → List Nat → Option HostCommand
  | 0x10, [] => some .identify
  | 0x11, [] => some .readStatus
  | 0x12, [] => some .restart
  | 0x13, [m] => some (.setNotices m)
  | 0x14, [] => some .freeze
  | 0x15, [] => some .thaw
  | 0x20, [i] => some (.getCarrier i)
  | 0x21, [i] => some (.listCarriers i)
  | 0x22, [i] => some (.getService i)
  | 0x23, [i] => some (.listServices i)
  | 0x24, [i] => some (.getRoom i)
  | 0x25, [i] => some (.getSlot i)
  | 0x30, [i] => some (.surveyNow i)
  | 0x31, [m] => some (.setSurveyMode m)
  | 0x32, [] => some .clearSurvey
  | 0x33, [i] => some (.slotOffline i)
  | 0x34, [i] => some (.slotOnline i)
  | 0x40, [i, c, b, d, w, lo, hi] =>
    some (.setInput { input := i, cls := c, bias := signedOf 1 b, discovery := d, windowPresent := w, winMin := lo,
                      winMax := hi })
  | 0x41, [p, m, r, q, t, k] =>
    some (.setProfile { profile := p, modulation := m, codeRate := r, reqMer := q, lockTimeout := t, k := k })
  | 0x42, [i, f, y, p, d, o, t, x] =>
    some (.addCarrier i f { symRate := y, profile := p, idPresent := d, origin := o, transport := t, excluded := x })
  | 0x43, [m, t, f] => some (.dropCarrier { form := m, target := t, freq := f })
  | 0x44, [m, g, f, y, p, d, o, t, x] =>
    some (.setCarrier { form := m, target := g, freq := f }
      { symRate := y, profile := p, idPresent := d, origin := o, transport := t, excluded := x })
  | 0x45, [r, pp, po, pn, fp, fo, fn, y] =>
    some (.bindRoom { room := r, primaryPresent := pp, primaryOrigin := po, primaryNumber := pn, fallbackPresent := fp,
                      fallbackOrigin := fo, fallbackNumber := fn, priority := y })
  | 0x46, [r] => some (.unbindRoom r)
  | 0x47, [n, v] => some (.setParams n v)
  | 0x48, [] => some .commitPlan
  | 0x49, [] => some .discardPlan
  | 0x50, [w, k, j, a, sp, st, mp, mg, cp, sc, sel, rp, rt] =>
    some (.setWatch { watch := w, kind := k, subject := j, action := a, statePresent := sp, state := st,
                      marginPresent := mp, margin := signedOf 2 mg, scorePresent := cp, score := sc,
                      selectionChanged := sel, routePresent := rp, route := rt })
  | 0x51, [w] => some (.clearWatch w)
  | 0x52, [w] => some (.ackWatch w)
  | 0x53, [m] => some (.setAlertMode m)
  | _, _ => none

/-- The bytes of fields of the given widths. -/
def writeFields : List Nat → List Nat → List Byte
  | w :: ws, v :: vs => le w v ++ writeFields ws vs
  | _, _ => []

/-- The fields of the given widths that bytes hold. -/
def readFields : List Nat → List Byte → List Nat
  | [], _ => []
  | w :: ws, bs => fromLe (bs.take w) :: readFields ws (bs.drop w)

/-- R165: the frame of a command. -/
def encodeCommand (c : HostCommand) : Frame :=
  let f := fieldsOf c
  { code := f.1, payload := writeFields ((layoutOf f.1).getD []) f.2 }

/-- R167: the checks common to every command: UNKNOWN_COMMAND, then BAD_LENGTH; else the command. -/
def parseCommand (f : Frame) : Except ReplyCode HostCommand :=
  match layoutOf f.code with
  | none => .error .unknownCommand
  | some ws =>
    if f.payload.length = ws.sum then
      match commandOf f.code (readFields ws f.payload) with
      | none => .error .unknownCommand
      | some c => .ok c
    else .error .badLength

end Sys2Proof.Machine
end

