-- ==== Sys2Proof/Machine/Link.lean ====
section
/-! DEFINITION. The link unit: the frame receiver, the receive buffer, the command unit and the transmitter
(R163 to R169), and the meanings of their events. -/

namespace Sys2Proof.Machine

/-! ## The receiver (R164, R166) -/

def setCheckFailed (l : Link) : Link := { l with flags := { l.flags with checkFailed := true } }

/-- R166: a complete command frame is offered to the receive buffer. -/
def acceptFrame (f : Frame) (l : Link) : Link :=
  if l.buffer.length < bufferPlaces then { l with buffer := l.buffer ++ [f] }
  else { l with flags := { l.flags with overrun := true } }

/-- R164: the receiver back in HUNT, no gap timed. -/
def toHunt (l : Link) : Link := { l with rx := .hunt, gap := none }

/-- R164: the receiver in a phase within a frame, the gap timed from now. -/
def inFrame (p : RxPhase) (l : Link) : Link := { l with rx := p, gap := some 0 }

/-- R164: the CHECK byte `b` of a frame. -/
def endFrame (kind code b : Byte) (length : Nat) (got : List Byte) (l : Link) : Link :=
  if byteSum (kind :: code :: BitVec.ofNat 8 length :: got) + b = 0#8 ∧ kind = 1#8 then
    acceptFrame { code := code.toNat, payload := got } (toHunt l)
  else setCheckFailed (toHunt l)

/-- R164: a byte taken by the receiver. -/
def receive (b : Byte) (l : Link) : Link :=
  match l.rx with
  | .hunt => if b = 0xC5#8 then inFrame .headerKind l else l
  | .headerKind => inFrame (.headerCode b) l
  | .headerCode kind => inFrame (.headerLength kind b) l
  | .headerLength kind code =>
    if maxPayload < b.toNat then setCheckFailed (toHunt l)
    else if b = 0#8 then inFrame (.check kind code 0 []) l
    else inFrame (.payload kind code b.toNat []) l
  | .payload kind code length got =>
    if (got ++ [b]).length < length then inFrame (.payload kind code length (got ++ [b])) l
    else inFrame (.check kind code length (got ++ [b])) l
  | .check kind code length got => endFrame kind code b length got l

/-- R164: a gap of more than 50 ms discards the partial frame; no flag is set. -/
def dropPartial (l : Link) : Link := if gapOver l then toHunt l else l

/-- BYTE_RECEIVED (R164): the byte that ends too long a gap is taken in HUNT. -/
def execByteReceived (b : Byte) (s : State) : Outcome :=
  whileRunning (modLink fun l => receive b (dropPartial l)) s

/-- BYTE_GAP_TIMEOUT (R164). -/
def execByteGapTimeout (s : State) : Outcome := whileRunning (modLink dropPartial) s

/-! ## The command unit (R165, R167, R168, R173) -/

/-- What each command does, by its own rule. -/
def carryOut : HostCommand → State → Answer
  | .identify => doIdentify
  | .readStatus => doReadStatus
  | .restart => doRestart
  | .setNotices m => doSetNotices m
  | .freeze => doFreeze
  | .thaw => doThaw
  | .getCarrier i => doGetCarrier i
  | .listCarriers i => doListCarriers i
  | .getService i => doGetService i
  | .listServices i => doListServices i
  | .getRoom r => doGetRoom r
  | .getSlot i => doGetSlot i
  | .surveyNow i => doSurveyNow i
  | .setSurveyMode m => doSetSurveyMode m
  | .clearSurvey => doClearSurvey
  | .slotOffline i => doSlotOffline i
  | .slotOnline i => doSlotOnline i
  | .setInput e => doSetInput e
  | .setProfile e => doSetProfile e
  | .addCarrier i f c => doAddCarrier i f c
  | .dropCarrier n => doDropCarrier n
  | .setCarrier n f => doSetCarrier n f
  | .bindRoom e => doBindRoom e
  | .unbindRoom r => doUnbindRoom r
  | .setParams n v => doSetParams n v
  | .commitPlan => doCommitPlan
  | .discardPlan => doDiscardPlan
  | .setWatch e => doSetWatch e
  | .clearWatch w => doClearWatch w
  | .ackWatch w => doAckWatch w
  | .setAlertMode m => doSetAlertMode m

/-- R165: a reply code that is a refusal; such a reply carries code and flags alone. -/
def isRefusal (c : ReplyCode) : Bool := !(decide (c = .ok) || decide (c = .adjusted) || decide (c = .noChange))

/-- R165, R167: the payload of a reply, its flags byte as the flags stand when it is formed. -/
def replyPayload (c : ReplyCode) (f : LinkFlags) (content : List Byte) : List Byte :=
  le 1 (replyCodeNumber c) ++ le 1 (flagsByte f) ++ if isRefusal c then [] else content

/-- R167: a reply formed into the reply place. -/
def formReply (code : Nat) (c : ReplyCode) (content : List Byte) (s : State) : State :=
  modLink (fun l => { l with reply := some { code := code, payload := replyPayload c l.flags content } }) s

/-- R168: READ_STATUS clears the four flags after its reply is formed. -/
def clearAfter (c : HostCommand) (s : State) : State :=
  if c = .readStatus then modLink (fun l => { l with flags := LinkFlags.reset }) s else s

/-- R167: a command taken whole: carried out, and its reply formed. -/
def answerCommand (c : HostCommand) (s : State) : State :=
  let a := carryOut c s
  clearAfter c (formReply (fieldsOf c).1 a.code a.content a.state)

/-- R167: the frame is answered: UNKNOWN_COMMAND and BAD_LENGTH reach no block. -/
def answerFrame (f : Frame) (s : State) : State :=
  match parseCommand f with
  | .error e => formReply f.code e [] s
  | .ok c => answerCommand c s

/-- R167, R173: the command unit may take a frame. -/
def unitFree (s : State) : Bool := s.link.reply.isNone && decide (s.link.restart = .none)

/-- R167: the command unit takes the oldest frame of the buffer. -/
def takeFrame (s : State) : State :=
  match s.link.buffer with
  | [] => s
  | f :: rest => answerFrame f (modLink (fun l => { l with buffer := rest }) s)

/-- COMMAND_TAKEN (R167). -/
def execCommandTaken (s : State) : Outcome := whileRunning (fun s => if unitFree s then takeFrame s else s) s

/-! ## The transmitter (R163, R169) -/

/-- R169: the reply in the reply place starts. -/
def startReply (r : Reply) (l : Link) : Link :=
  { l with
    sending := some (frameBytes 2 r.code r.payload), reply := none,
    restart := if l.restart = .replyWaiting then .replySending else l.restart }

/-- R169: the oldest notice starts; its payload begins with its subject (R165). -/
def startNotice (n : Notice) (rest : List Notice) (l : Link) : Link :=
  { l with sending := some (frameBytes 3 (noticeCode n.kind) (le 2 n.subject ++ n.content)), notices := rest }

/-- R169: the arbiter's choice: the reply first, else the oldest notice. A waiting READY goes before a reply, since it is
the first frame after a reset (R173, log entry 37). Nothing starts once a RESTART's reply has gone (R173). -/
def startFrame (l : Link) : Link :=
  if l.sending.isSome ∨ l.restart = .due then l
  else
    match l.reply, l.notices with
    | some r, [] => startReply r l
    | some r, n :: rest => if n.kind = .ready then startNotice n rest l else startReply r l
    | none, n :: rest => startNotice n rest l
    | none, [] => l

/-- TRANSMIT_START (R169). -/
def execTransmitStart (s : State) : Outcome := whileRunning (modLink startFrame) s

/-- R169, R173: the CHECK byte of the frame has gone; after the reply of a RESTART the reset is due. -/
def endSending (l : Link) : Link :=
  match l.sending with
  | none => l
  | some _ => { l with sending := none, restart := if l.restart = .replySending then .due else l.restart }

/-- FRAME_SENT (R169). -/
def execFrameSent (s : State) : Outcome := whileRunning (modLink endSending) s

/-! ## The rows of the host's commands -/

/-- A command of the host: carried out at once when the command unit is free and no frame waits before it; otherwise its
frame completes at the receive buffer (log entry 13). -/
def hostCommand (c : HostCommand) (s : State) : State :=
  if unitFree s && s.link.buffer.isEmpty then answerCommand c s else modLink (acceptFrame (encodeCommand c)) s

/-- A row of the host's commands. A term whose fields do not fit the payload is no command. -/
def hostRow (c : HostCommand) (s : State) : Outcome :=
  if c.wf then whileRunning (hostCommand c) s else .refused .illFormed

end Sys2Proof.Machine
end

