-- ==== Sys2Proof/Machine/HostRows.lean ====
section
/-! DEFINITION. The meanings of the host's commands, one for each row; Machine/Commands.lean says what each does. -/

namespace Sys2Proof.Machine

/-- IDENTIFY (R172). -/
def execIdentify (s : State) : Outcome := hostRow .identify s

/-- READ_STATUS (R168). -/
def execReadStatus (s : State) : Outcome := hostRow .readStatus s

/-- RESTART (R173). -/
def execRestart (s : State) : Outcome := hostRow .restart s

/-- SET_NOTICES (R170). -/
def execSetNotices (mask : Nat) (s : State) : Outcome := hostRow (.setNotices mask) s

/-- FREEZE (R171). -/
def execFreeze (s : State) : Outcome := hostRow .freeze s

/-- THAW (R171). -/
def execThaw (s : State) : Outcome := hostRow .thaw s

/-- GET_CARRIER (R90). -/
def execGetCarrier (index : Nat) (s : State) : Outcome := hostRow (.getCarrier index) s

/-- LIST_CARRIERS (R171). -/
def execListCarriers (start : Nat) (s : State) : Outcome := hostRow (.listCarriers start) s

/-- GET_SERVICE (R125). -/
def execGetService (index : Nat) (s : State) : Outcome := hostRow (.getService index) s

/-- LIST_SERVICES (R125). -/
def execListServices (start : Nat) (s : State) : Outcome := hostRow (.listServices start) s

/-- GET_ROOM (R142). -/
def execGetRoom (room : Nat) (s : State) : Outcome := hostRow (.getRoom room) s

/-- GET_SLOT (R47). -/
def execGetSlot (slot : Nat) (s : State) : Outcome := hostRow (.getSlot slot) s

/-- SURVEY_NOW (R93). -/
def execSurveyNow (index : Nat) (s : State) : Outcome := hostRow (.surveyNow index) s

/-- SET_SURVEY_MODE (R102). -/
def execSetSurveyMode (mode : Nat) (s : State) : Outcome := hostRow (.setSurveyMode mode) s

/-- CLEAR_SURVEY (R87). -/
def execClearSurvey (s : State) : Outcome := hostRow .clearSurvey s

/-- SLOT_OFFLINE (R35). -/
def execSlotOffline (slot : Nat) (s : State) : Outcome := hostRow (.slotOffline slot) s

/-- SLOT_ONLINE (R36). -/
def execSlotOnline (slot : Nat) (s : State) : Outcome := hostRow (.slotOnline slot) s

/-- SET_INPUT (R146). -/
def execSetInput (e : InputEdit) (s : State) : Outcome := hostRow (.setInput e) s

/-- SET_PROFILE (R147). -/
def execSetProfile (e : ProfileEdit) (s : State) : Outcome := hostRow (.setProfile e) s

/-- ADD_CARRIER (R148). -/
def execAddCarrier (input : Nat) (freq : Nat) (f : CarrierFields) (s : State) : Outcome :=
  hostRow (.addCarrier input freq f) s

/-- DROP_CARRIER (R149). -/
def execDropCarrier (n : CarrierName) (s : State) : Outcome := hostRow (.dropCarrier n) s

/-- SET_CARRIER (R149). -/
def execSetCarrier (n : CarrierName) (f : CarrierFields) (s : State) : Outcome := hostRow (.setCarrier n f) s

/-- BIND_ROOM (R150). -/
def execBindRoom (e : BindEdit) (s : State) : Outcome := hostRow (.bindRoom e) s

/-- UNBIND_ROOM (R150). -/
def execUnbindRoom (room : Nat) (s : State) : Outcome := hostRow (.unbindRoom room) s

/-- SET_PARAMS (R151). -/
def execSetParams (number : Nat) (value : Nat) (s : State) : Outcome := hostRow (.setParams number value) s

/-- COMMIT_PLAN (R152). -/
def execCommitPlan (s : State) : Outcome := hostRow .commitPlan s

/-- DISCARD_PLAN (R152). -/
def execDiscardPlan (s : State) : Outcome := hostRow .discardPlan s

/-- SET_WATCH (R155). -/
def execSetWatch (e : WatchEdit) (s : State) : Outcome := hostRow (.setWatch e) s

/-- CLEAR_WATCH (R156). -/
def execClearWatch (watch : Nat) (s : State) : Outcome := hostRow (.clearWatch watch) s

/-- ACK_WATCH (R161). -/
def execAckWatch (watch : Nat) (s : State) : Outcome := hostRow (.ackWatch watch) s

/-- SET_ALERT_MODE (R160). -/
def execSetAlertMode (mode : Nat) (s : State) : Outcome := hostRow (.setAlertMode mode) s

end Sys2Proof.Machine
end

