-- ==== Sys2Proof/Machine/Dispatch.lean ====
section
/-! DEFINITION. Which meaning each command and event has. -/

namespace Sys2Proof.Machine

def exec (i : Instr) (s : State) : Host.Outcome State Fault Refusal :=
  match i with
  | .identify => Sys2Proof.Machine.execIdentify s
  | .readStatus => Sys2Proof.Machine.execReadStatus s
  | .restart => Sys2Proof.Machine.execRestart s
  | .setNotices mask => Sys2Proof.Machine.execSetNotices mask s
  | .freeze => Sys2Proof.Machine.execFreeze s
  | .thaw => Sys2Proof.Machine.execThaw s
  | .getCarrier index => Sys2Proof.Machine.execGetCarrier index s
  | .listCarriers start => Sys2Proof.Machine.execListCarriers start s
  | .getService index => Sys2Proof.Machine.execGetService index s
  | .listServices start => Sys2Proof.Machine.execListServices start s
  | .getRoom room => Sys2Proof.Machine.execGetRoom room s
  | .getSlot slot => Sys2Proof.Machine.execGetSlot slot s
  | .surveyNow index => Sys2Proof.Machine.execSurveyNow index s
  | .setSurveyMode mode => Sys2Proof.Machine.execSetSurveyMode mode s
  | .clearSurvey => Sys2Proof.Machine.execClearSurvey s
  | .slotOffline slot => Sys2Proof.Machine.execSlotOffline slot s
  | .slotOnline slot => Sys2Proof.Machine.execSlotOnline slot s
  | .setInput e => Sys2Proof.Machine.execSetInput e s
  | .setProfile e => Sys2Proof.Machine.execSetProfile e s
  | .addCarrier input freq f => Sys2Proof.Machine.execAddCarrier input freq f s
  | .dropCarrier n => Sys2Proof.Machine.execDropCarrier n s
  | .setCarrier n f => Sys2Proof.Machine.execSetCarrier n f s
  | .bindRoom e => Sys2Proof.Machine.execBindRoom e s
  | .unbindRoom room => Sys2Proof.Machine.execUnbindRoom room s
  | .setParams number value => Sys2Proof.Machine.execSetParams number value s
  | .commitPlan => Sys2Proof.Machine.execCommitPlan s
  | .discardPlan => Sys2Proof.Machine.execDiscardPlan s
  | .setWatch e => Sys2Proof.Machine.execSetWatch e s
  | .clearWatch watch => Sys2Proof.Machine.execClearWatch watch s
  | .ackWatch watch => Sys2Proof.Machine.execAckWatch watch s
  | .setAlertMode mode => Sys2Proof.Machine.execSetAlertMode mode s
  | .byteReceived b => Sys2Proof.Machine.execByteReceived b s
  | .byteGapTimeout => Sys2Proof.Machine.execByteGapTimeout s
  | .commandTaken => Sys2Proof.Machine.execCommandTaken s
  | .transmitStart => Sys2Proof.Machine.execTransmitStart s
  | .frameSent => Sys2Proof.Machine.execFrameSent s
  | .restartTakesEffect strapHigh => Sys2Proof.Machine.execRestartTakesEffect strapHigh s
  | .powerOn => Sys2Proof.Machine.execPowerOn s
  | .resetAssert => Sys2Proof.Machine.execResetAssert s
  | .resetRelease strapHigh => Sys2Proof.Machine.execResetRelease strapHigh s
  | .secondCountAdvance => Sys2Proof.Machine.execSecondCountAdvance s
  | .holdUntilReached service => Sys2Proof.Machine.execHoldUntilReached service s
  | .unparkTimeEnd slot => Sys2Proof.Machine.execUnparkTimeEnd slot s
  | .releaseTimeEnd slot => Sys2Proof.Machine.execReleaseTimeEnd slot s
  | .park slot => Sys2Proof.Machine.execPark slot s
  | .lockGained slot => Sys2Proof.Machine.execLockGained slot s
  | .lockTimeout slot => Sys2Proof.Machine.execLockTimeout slot s
  | .retuneTimeout slot => Sys2Proof.Machine.execRetuneTimeout slot s
  | .lockLoss slot => Sys2Proof.Machine.execLockLoss slot s
  | .sectionReceived slot sec => Sys2Proof.Machine.execSectionReceived slot sec s
  | .idTimeout slot => Sys2Proof.Machine.execIdTimeout slot s
  | .svcTimeout slot => Sys2Proof.Machine.execSvcTimeout slot s
  | .listTimeout slot => Sys2Proof.Machine.execListTimeout slot s
  | .recheckStart slot => Sys2Proof.Machine.execRecheckStart slot s
  | .recheckIdTimeout slot => Sys2Proof.Machine.execRecheckIdTimeout slot s
  | .recheckSvcTimeout slot => Sys2Proof.Machine.execRecheckSvcTimeout slot s
  | .symbolDelivered slot q => Sys2Proof.Machine.execSymbolDelivered slot q s
  | .blockReport slot => Sys2Proof.Machine.execBlockReport slot s
  | .windowComplete slot reading => Sys2Proof.Machine.execWindowComplete slot reading s
  | .grantRequest service => Sys2Proof.Machine.execGrantRequest service s
  | .switchPoint port slot => Sys2Proof.Machine.execSwitchPoint port slot s
  | .switchTimeout room => Sys2Proof.Machine.execSwitchTimeout room s
  | .calibrationEnd => Sys2Proof.Machine.execCalibrationEnd s
  | .pulseTimerEnd => Sys2Proof.Machine.execPulseTimerEnd s

end Sys2Proof.Machine
end

