-- ==== Sys2Proof/Safety.lean ====
section
/-! DEFINITION. What counts as a safe run: the ten laws of the device (R26, R42, R71, R83, R108, R114, R117, R129, R167,
R170) and what the manual states of other records (R93, R116, R151, R166, section 7.3); and the terms in which statements
are made: the state in which a command of the host is carried out at once, the row of a host command, the end of a reset,
what an event of the blocks leaves alone, the hold of a slot on an entry, and the ways a slot's carrier fails. -/

namespace Sys2Proof.Machine

/-! ## Laws -/

/-- R170, the eighth law: at most 32 notices, at most one per kind and subject. -/
def NoticeLaw (l : Link) : Prop :=
  l.notices.length ≤ noticePlaces ∧ l.notices.Pairwise fun a b => a.kind ≠ b.kind ∨ a.subject ≠ b.subject

/-- R166: the receive buffer holds 0 to 2 frames. -/
def BufferLaw (l : Link) : Prop := l.buffer.length ≤ bufferPlaces

/-- R71, the fifth law: at most 96 entries at places 0 to 95, no two with the same input and frequency. -/
def CarrierLaw (t : Table Carrier) : Prop :=
  tabWf carrierPlaces t = true ∧ t.Pairwise fun a b => a.2.input ≠ b.2.input ∨ a.2.freq ≠ b.2.freq

/-- R108, the sixth law: at most 256 entries at places 0 to 255, no two with the same key. -/
def ServiceLaw (t : Table Service) : Prop :=
  tabWf servicePlaces t = true ∧ t.Pairwise fun a b => a.2.key ≠ b.2.key

/-- R117, the fourth law: a service has no selection exactly when its state is UNAVAILABLE. -/
def SelectionLaw (t : Table Service) : Prop := ∀ e ∈ t, e.2.selection = none ↔ e.2.state = .unavailable

/-- R114, the third law, of one service: at most 6 candidates, no carrier twice, in the order of step 3, the selection
among them; and R115: with no selection every lead count is 0. -/
def CandidatesOk (v : Service) : Prop :=
  v.cands.length ≤ candidatePlaces ∧ (v.cands.map (·.carrier)).Nodup
    ∧ v.cands.Pairwise (fun a b => ranksBefore a b = true) ∧ (∀ x, v.selection = some x → ∃ c ∈ v.cands, c.carrier = x)
    ∧ (v.selection = none → ∀ c ∈ v.cands, c.lead = 0)

/-- R114, the third law, with the lead counts of R115. -/
def CandidateLaw (t : Table Service) : Prop := ∀ e ∈ t, CandidatesOk e.2

/-- R151: the minimum interval of a plan, committed or staged, is at or below its maximum age. -/
def IntervalLaw (p : PlanStore) : Prop :=
  p.committed.params.minInterval ≤ p.committed.params.maxAge
    ∧ ∀ q, p.staged = some q → q.params.minInterval ≤ q.params.maxAge

/-- R83, the tenth law: no next-due time lies more than the maximum age after now, while such a time fits the 32-bit second
count (log entry 4). -/
def DueLaw (s : State) : Prop :=
  s.now + s.params.maxAge ≤ maxSecond → ∀ e ∈ s.carriers, e.2.nextDue ≤ s.now + s.params.maxAge

/-- R129: a room channel with record `x` is fed from a slot in role CARRY on the carrier that is the selection of its
feeding service. -/
def Fed (s : State) (x : Room) : Prop :=
  ∃ v c i, s.feedingService x = some v ∧ v.selection = some c ∧ x.feedSlot = some i ∧ (s.slot i).role = .carry
    ∧ (s.slot i).carrier = some c

/-- R129, the seventh law: a room channel in LIVE or HELD is fed. -/
def RouteLaw (s : State) : Prop := ∀ r, (s.room r).route = .live ∨ (s.room r).route = .held → Fed s (s.room r)

/-- R93: the urgent list holds no index twice and at most 8. -/
def UrgentLaw (c : Scheduler) : Prop := c.urgent.Nodup ∧ c.urgent.length ≤ urgentPlaces

/-- R116: a service has at most one request in flight. -/
def RequestLaw (r : Router) : Prop := (r.requests.map GrantReq.service).Nodup

/-- Section 7.3 of the manual: the carriers of the carry records are unique. -/
def RecordLaw (r : Router) : Prop := (r.records.map CarryRecord.carrier).Nodup

/-- R2, R3, R26 of one slot: a role, an assigned carrier and the states TUNING, ACQUIRING and LOCKED come together; a
window is active in LOCKED alone. -/
def SlotOk (r : Slot) : Prop :=
  (r.carrier = none ↔ r.role = .none) ∧
    (r.carrier ≠ none ↔ (r.state = .tuning ∨ r.state = .acquiring ∨ r.state = .locked)) ∧
      (r.meas.active = true → r.state = .locked)

/-- R26, the first law: every slot is as `SlotOk` says, and no two slots are assigned the same carrier. -/
def SlotLaw (v : Vector Slot 8) : Prop :=
  (∀ i : Fin 8, SlotOk v[i]) ∧ ∀ i j : Fin 8, v[i].carrier = v[j].carrier → v[i].carrier ≠ none → i = j

/-- R42, the second law: the waiting queue holds no slot twice and not the slot that calibrates, and the slots that
wait or calibrate are LOCKED. -/
def ReferenceLaw (v : Vector Slot 8) (r : Reference) : Prop :=
  r.queue.Nodup ∧ (∀ i, r.holder = some i → i ∉ r.queue) ∧
    ∀ i : Fin 8, i ∈ r.queue ∨ r.holder = some i → v[i].state = .locked

/-- R167, the ninth law, as a step from `s` to `t` keeps it: a frame is accepted behind those that wait, and the reply
stays; or the oldest frame leaves and its reply is formed in the empty reply place; or a command finds nothing waiting
and its reply is formed at once; or the reply goes to the transmitter; or a reset begins or ends. -/
def AnswersInOrder (s t : State) : Prop :=
  (t.link.reply = s.link.reply ∧ (t.link.buffer = s.link.buffer ∨ ∃ f, t.link.buffer = s.link.buffer ++ [f]))
    ∨ (s.link.reply = none ∧ ∃ f r, s.link.buffer = f :: t.link.buffer ∧ t.link.reply = some r ∧ r.code = f.code)
    ∨ (s.link.reply = none ∧ s.link.buffer = [] ∧ t.link.buffer = [] ∧ ∃ r, t.link.reply = some r)
    ∨ (∃ r, s.link.reply = some r ∧ t.link.reply = none ∧ t.link.buffer = s.link.buffer
        ∧ t.link.sending = some (frameBytes 2 r.code r.payload))
    ∨ ∃ cause strap draws pending,
        t = State.atReset cause true strap draws pending ∨ t = State.afterReset cause strap draws pending

/-! ## Carrying out a command at once -/

/-- The command unit is free and no frame waits: the part is not in reset, the reply place and the receive buffer are
empty, and no RESTART has been taken (R167, R173). -/
def Ready (s : State) : Prop :=
  s.clock.inReset = false ∧ s.link.reply = none ∧ s.link.buffer = [] ∧ s.link.restart = .none

/-- The row of a host command. -/
def rowOf : HostCommand → Instr
  | .identify => .identify
  | .readStatus => .readStatus
  | .restart => .restart
  | .setNotices m => .setNotices m
  | .freeze => .freeze
  | .thaw => .thaw
  | .getCarrier i => .getCarrier i
  | .listCarriers i => .listCarriers i
  | .getService i => .getService i
  | .listServices i => .listServices i
  | .getRoom r => .getRoom r
  | .getSlot i => .getSlot i
  | .surveyNow i => .surveyNow i
  | .setSurveyMode m => .setSurveyMode m
  | .clearSurvey => .clearSurvey
  | .slotOffline i => .slotOffline i
  | .slotOnline i => .slotOnline i
  | .setInput e => .setInput e
  | .setProfile e => .setProfile e
  | .addCarrier i f c => .addCarrier i f c
  | .dropCarrier n => .dropCarrier n
  | .setCarrier n f => .setCarrier n f
  | .bindRoom e => .bindRoom e
  | .unbindRoom r => .unbindRoom r
  | .setParams n v => .setParams n v
  | .commitPlan => .commitPlan
  | .discardPlan => .discardPlan
  | .setWatch e => .setWatch e
  | .clearWatch w => .clearWatch w
  | .ackWatch w => .ackWatch w
  | .setAlertMode m => .setAlertMode m

/-! ## The end of a reset -/

/-- A reset of part `s` has ended in state `t`: the reset input is released, or a RESTART takes effect (R173). -/
def ResetEnds (s t : State) : Prop :=
  ∃ strapHigh : Bool,
    (s.clock.inReset = true ∧ exec (.resetRelease strapHigh) s = .next t)
      ∨ (s.clock.inReset = false ∧ s.link.restart = .due ∧ exec (.restartTakesEffect strapHigh) s = .next t)

/-- No notice but READY waits (R173). -/
def OnlyReadyWaits (t : State) : Prop := ∀ n ∈ t.link.notices, n.kind = .ready

/-! ## What events leave alone -/

/-- What the blocks leave alone: the waiting commands, the clock, the plan, the survey mode, the alert mode, and the link
but for its notices and the flags NOTICES_DROPPED and SERVICE_TABLE_FULL. -/
structure BlocksOnly (s t : State) : Prop where
  pending : t.pending = s.pending
  clock : t.clock = s.clock
  plan : t.plan = s.plan
  mode : t.sched.mode = s.sched.mode
  alertMode : t.watches.mode = s.watches.mode
  rx : t.link.rx = s.link.rx
  gap : t.link.gap = s.link.gap
  buffer : t.link.buffer = s.link.buffer
  reply : t.link.reply = s.link.reply
  sending : t.link.sending = s.link.sending
  mask : t.link.mask = s.link.mask
  restart : t.link.restart = s.link.restart
  frozen : t.link.frozen = s.link.frozen
  checkFailed : t.link.flags.checkFailed = s.link.flags.checkFailed
  overrun : t.link.flags.overrun = s.link.flags.overrun

/-- The events of the slots, the router and the watch unit's timer. -/
def ofBlocks : Instr → Bool
  | .holdUntilReached _ | .unparkTimeEnd _ | .releaseTimeEnd _ | .park _ | .lockGained _ | .lockTimeout _
  | .retuneTimeout _ | .lockLoss _ | .sectionReceived _ _ | .idTimeout _ | .svcTimeout _ | .listTimeout _
  | .recheckStart _ | .recheckIdTimeout _ | .recheckSvcTimeout _ | .symbolDelivered _ _ | .blockReport _
  | .windowComplete _ _ | .grantRequest _ | .switchPoint _ _ | .switchTimeout _ | .calibrationEnd | .pulseTimerEnd =>
    true
  | _ => false

/-! ## Holds and failures -/

/-- Slot `i` is assigned carrier `x`, whose entry is `c`, and holds it in phase ACTIVE (R73). -/
def ActivelyHolds (s : State) (i : Fin 8) (x : Nat) (c : Carrier) : Prop :=
  (s.slot i).carrier = some x ∧ s.carrier x = some c ∧ ∃ carry, c.hold = some { slot := i, carry := carry, ending := false }

/-- The event `e` fails slot `i`'s acquisition or re-check with a cause (R40, R51 to R53, R56, R66, R68): the stage bounds
that have run out, a lock loss in ACQUIRING or in a survey, the third re-tune attempt, and an identity that differs from
the expected one. -/
def FailsWith (s : State) (i : Fin 8) : Instr → FailCause → Prop
  | .lockTimeout j, cause =>
    j = i ∧ cause = .noLock ∧ stageOver s i .lockWait = true ∧ (s.slot i).retune = 0
  | .retuneTimeout j, cause =>
    j = i ∧ cause = .noLock ∧ (s.slot i).state = .tuning ∧ (s.slot i).retune = 3
      ∧ (s.slot i).retuneTimer = some 0
  | .lockLoss j, cause =>
    j = i ∧ cause = .noLock
      ∧ ((s.slot i).state = .acquiring ∨ ((s.slot i).state = .locked ∧ (s.slot i).role = .survey))
  | .idTimeout j, cause => j = i ∧ cause = .noId ∧ stageOver s i .idWait = true
  | .svcTimeout j, cause => j = i ∧ cause = .noServices ∧ stageOver s i .svcWait = true
  | .recheckIdTimeout j, cause => j = i ∧ cause = .noId ∧ stageOver s i .recheckId = true
  | .recheckSvcTimeout j, cause => j = i ∧ cause = .noServices ∧ stageOver s i .recheckSvc = true
  | .sectionReceived j sec, cause =>
    j = i ∧ cause = .idMismatch ∧ sec.passed = true ∧ sec.body.wf = true
      ∧ (((s.slot i).state = .acquiring ∧ (s.slot i).chan.stage = .idWait)
          ∨ ((s.slot i).state = .locked ∧ (s.slot i).chan.stage = .recheckId))
      ∧ ∃ x c want id, sec.body = .identity id ∧ (s.slot i).carrier = some x ∧ s.carrier x = some c
          ∧ c.expected = some want ∧ ¬ (want.origin = id.origin ∧ want.transport = id.transport)
  | _, _ => False

end Sys2Proof.Machine
end

