-- ==== Sys2Proof/Laws/Tables.lean ====
section
/-! SUPPORT. What the table operations do: reading after a change, membership after a change, and the law of places. -/

namespace Sys2Proof.Machine

variable {α : Type}

/-! ## Reading after a write -/

theorem tabGet_tabPut (t : Table α) (i : Nat) (a : α) : tabGet (tabPut t i a) i = some a := by
  induction t with
  | nil => simp [tabPut, tabGet]
  | cons e t ih =>
    simp only [tabPut]
    split
    · simp [tabGet]
    · split
      · simp [tabGet]
      · next h => simp [tabGet, h, ih]

theorem tabGet_tabPut_ne (t : Table α) (i j : Nat) (a : α) (h : j ≠ i) : tabGet (tabPut t i a) j = tabGet t j := by
  induction t with
  | nil => simp [tabPut, tabGet, h]
  | cons e t ih =>
    simp only [tabPut]
    split
    · simp [tabGet, h]
    · split
      · next h1 => subst h1; simp [tabGet, h]
      · simp [tabGet, ih]

theorem tabPut_tabPut (t : Table α) (i : Nat) (a b : α) : tabPut (tabPut t i a) i b = tabPut t i b := by
  induction t with
  | nil => simp [tabPut]
  | cons e t ih =>
    simp only [tabPut]
    split
    · simp [tabPut]
    · split
      · simp [tabPut]
      · next h1 h2 => simp only [tabPut]; rw [if_neg h1, if_neg h2, ih]

theorem tabGet_tabDel_ne (t : Table α) (i j : Nat) (h : j ≠ i) : tabGet (tabDel t i) j = tabGet t j := by
  induction t with
  | nil => rfl
  | cons e t ih =>
    simp only [tabDel]
    split
    · next h1 => subst h1; simp [tabGet, h]
    · simp [tabGet, ih]

/-! ## Membership -/

theorem mem_of_tabGet {t : Table α} {i : Nat} {a : α} (h : tabGet t i = some a) : (i, a) ∈ t := by
  induction t with
  | nil => simp [tabGet] at h
  | cons e t ih =>
    simp only [tabGet] at h
    split at h
    · next h1 => cases h; subst h1; simp
    · exact List.mem_cons_of_mem _ (ih h)

theorem mem_tabPut {t : Table α} {i : Nat} {a : α} {e : Nat × α} (h : e ∈ tabPut t i a) : e = (i, a) ∨ e ∈ t := by
  induction t with
  | nil => exact .inl (List.mem_singleton.mp h)
  | cons x t ih =>
    simp only [tabPut] at h
    split at h
    · exact (List.mem_cons.mp h).imp id id
    · split at h
      · exact (List.mem_cons.mp h).imp id (List.mem_cons_of_mem _)
      · rcases List.mem_cons.mp h with h | h
        · exact .inr (h ▸ List.mem_cons_self)
        · exact (ih h).imp id (List.mem_cons_of_mem _)

theorem tabDel_sublist (t : Table α) (i : Nat) : (tabDel t i).Sublist t := by
  induction t with
  | nil => exact .slnil
  | cons e t ih =>
    simp only [tabDel]
    split
    · exact List.sublist_cons_self e t
    · exact ih.cons_cons e

/-! ## The places -/

theorem tabKeys_tabPut_of_mem {t : Table α} {i : Nat} {a : α} (hs : (tabKeys t).Pairwise (· < ·))
    (h : i ∈ tabKeys t) : tabKeys (tabPut t i a) = tabKeys t := by
  induction t with
  | nil => simp [tabKeys] at h
  | cons e t ih =>
    simp only [tabKeys, List.map_cons, List.pairwise_cons, List.mem_cons] at hs h
    simp only [tabPut]
    split
    · next h1 =>
      rcases h with h | h
      · omega
      · exact absurd (hs.1 i h) (by omega)
    · split
      · next h1 => simp [tabKeys, h1]
      · next h1 h2 =>
        simp only [tabKeys, List.map_cons]
        have := ih hs.2 (h.resolve_left h2)
        simp only [tabKeys] at this
        rw [this]

theorem tabKeys_tabPut_rising {t : Table α} (i : Nat) (a : α) (hs : (tabKeys t).Pairwise (· < ·)) :
    (tabKeys (tabPut t i a)).Pairwise (· < ·) := by
  induction t with
  | nil => simp [tabPut, tabKeys]
  | cons e t ih =>
    simp only [tabKeys, List.map_cons, List.pairwise_cons] at hs
    simp only [tabPut]
    split
    · next h =>
      simp only [tabKeys, List.map_cons, List.pairwise_cons, List.mem_cons, List.mem_map]
      refine ⟨?_, fun j hj => hs.1 j (List.mem_map.mpr hj), hs.2⟩
      rintro j (rfl | ⟨x, hx, rfl⟩)
      · exact h
      · exact h.trans (hs.1 x.1 (List.mem_map_of_mem hx))
    · split
      · next h =>
        subst h
        simpa only [tabKeys, List.map_cons, List.pairwise_cons] using hs
      · next h1 h2 =>
        simp only [tabKeys, List.map_cons, List.pairwise_cons, List.mem_map]
        refine ⟨?_, ih hs.2⟩
        rintro j ⟨x, hx, rfl⟩
        rcases mem_tabPut hx with rfl | hx
        · exact Nat.lt_of_le_of_ne (by omega) (Ne.symm h2)
        · exact hs.1 x.1 (List.mem_map_of_mem hx)

theorem tabKeys_lt_tabPut {cap : Nat} {t : Table α} {i : Nat} {a : α} (hi : i < cap)
    (h : ∀ j ∈ tabKeys t, j < cap) : ∀ j ∈ tabKeys (tabPut t i a), j < cap := by
  intro j hj
  obtain ⟨x, hx, rfl⟩ := List.mem_map.mp hj
  rcases mem_tabPut hx with rfl | hx
  · exact hi
  · exact h _ (List.mem_map_of_mem hx)

theorem tabWf_iff {cap : Nat} {t : Table α} :
    tabWf cap t = true ↔ (tabKeys t).Pairwise (· < ·) ∧ ∀ j ∈ tabKeys t, j < cap := by
  simp [tabWf]

theorem tabWf_tabPut {cap : Nat} {t : Table α} {i : Nat} {a : α} (hi : i < cap) (h : tabWf cap t = true) :
    tabWf cap (tabPut t i a) = true :=
  tabWf_iff.mpr ⟨tabKeys_tabPut_rising i a (tabWf_iff.mp h).1, tabKeys_lt_tabPut hi (tabWf_iff.mp h).2⟩

theorem tabWf_sublist {cap : Nat} {t u : Table α} (h : t.Sublist u) (hu : tabWf cap u = true) : tabWf cap t = true :=
  tabWf_iff.mpr ⟨(tabWf_iff.mp hu).1.sublist (h.map _),
    fun j hj => (tabWf_iff.mp hu).2 j ((h.map Prod.fst).subset hj)⟩

theorem tabWf_of_keys {β : Type} {cap : Nat} {t : Table α} {u : Table β} (h : tabKeys u = tabKeys t)
    (ht : tabWf cap t = true) : tabWf cap u = true := by
  rw [tabWf_iff, h]
  exact tabWf_iff.mp ht

/-- A place that a reading finds is in the range of a lawful table. -/
theorem lt_of_tabGet {cap : Nat} {t : Table α} {i : Nat} {a : α} (h : tabWf cap t = true) (hg : tabGet t i = some a) :
    i < cap :=
  (tabWf_iff.mp h).2 i (List.mem_map_of_mem (mem_of_tabGet hg))

/-- A lawful table reads what it lists. -/
theorem tabGet_of_mem {t : Table α} {e : Nat × α} (hs : (tabKeys t).Pairwise (· < ·)) (h : e ∈ t) :
    tabGet t e.1 = some e.2 := by
  induction t with
  | nil => simp at h
  | cons x t ih =>
    simp only [tabKeys, List.map_cons, List.pairwise_cons] at hs
    rcases List.mem_cons.mp h with rfl | h
    · simp [tabGet]
    · have := hs.1 e.1 (List.mem_map_of_mem h)
      simp only [tabGet]
      rw [if_neg (by omega)]
      exact ih hs.2 h

/-! ## The lowest free place (R71, R108) -/

/-- The place found is at least `n`, is free, is no more than the entries past `n`, and every place between is taken. -/
theorem tabFreeFrom_spec (t : Table α) (n : Nat) (hs : (tabKeys t).Pairwise (· < ·)) (hn : ∀ j ∈ tabKeys t, n ≤ j) :
    n ≤ tabFreeFrom n t ∧ tabFreeFrom n t ≤ n + t.length ∧ tabFreeFrom n t ∉ tabKeys t ∧
      ∀ m, n ≤ m → m < tabFreeFrom n t → m ∈ tabKeys t := by
  induction t generalizing n with
  | nil => simp [tabFreeFrom, tabKeys]
  | cons e t ih =>
    simp only [tabKeys, List.map_cons, List.pairwise_cons, List.mem_cons] at hs hn
    simp only [tabFreeFrom]
    split
    · next h =>
      refine ⟨le_rfl, by simp, ?_, by omega⟩
      simp only [tabKeys, List.map_cons, List.mem_cons]
      rintro (h1 | h1)
      · omega
      · exact absurd (hs.1 n h1) (by omega)
    · next h =>
      have he : e.1 = n := Nat.le_antisymm (by omega) (hn e.1 (.inl rfl))
      obtain ⟨h1, h2, h3, h4⟩ := ih (e.1 + 1) hs.2 fun j hj => hs.1 j hj
      refine ⟨by omega, by simp only [List.length_cons]; omega, ?_, ?_⟩
      · simp only [tabKeys, List.map_cons, List.mem_cons]
        rintro (h5 | h5)
        · omega
        · exact h3 h5
      · intro m hm hm2
        simp only [tabKeys, List.map_cons, List.mem_cons]
        by_cases hme : m = e.1
        · exact .inl hme
        · exact .inr (h4 m (by omega) hm2)

/-- R71, R108: the lowest free place: it is free, every lower place is taken, and it is at most the number of entries. -/
theorem tabFree_spec {t : Table α} (hs : (tabKeys t).Pairwise (· < ·)) :
    tabFree t ≤ t.length ∧ tabFree t ∉ tabKeys t ∧ ∀ m < tabFree t, m ∈ tabKeys t := by
  obtain ⟨-, h2, h3, h4⟩ := tabFreeFrom_spec t 0 hs (by simp)
  exact ⟨by simpa [tabFree] using h2, h3, fun m hm => h4 m (Nat.zero_le m) hm⟩

/-! ## Distinct keys -/

/-- Pairwise distinctness of a symmetric key after a write: the new entry differs from every other entry. -/
theorem pairwise_tabPut {P : Nat × α → Nat × α → Prop} (hsymm : ∀ a b, P a b → P b a) {t : Table α} {i : Nat} {a : α}
    (ht : t.Pairwise P) (ha : ∀ e ∈ t, e.1 ≠ i → P (i, a) e) (hs : (tabKeys t).Pairwise (· < ·)) :
    (tabPut t i a).Pairwise P := by
  induction t with
  | nil => simp [tabPut]
  | cons e t ih =>
    simp only [List.pairwise_cons] at ht
    simp only [tabKeys, List.map_cons, List.pairwise_cons] at hs
    simp only [tabPut]
    split
    · next h =>
      refine List.pairwise_cons.mpr ⟨fun x hx => ?_, List.pairwise_cons.mpr ht⟩
      rcases List.mem_cons.mp hx with rfl | hx
      · exact ha _ List.mem_cons_self (by omega)
      · have := hs.1 x.1 (List.mem_map_of_mem hx)
        exact ha x (List.mem_cons_of_mem _ hx) (by omega)
    · split
      · next h =>
        subst h
        refine List.pairwise_cons.mpr ⟨fun y hy => ?_, ht.2⟩
        have := hs.1 y.1 (List.mem_map_of_mem hy)
        exact ha y (List.mem_cons_of_mem _ hy) (by omega)
      · next h1 h2 =>
        refine List.pairwise_cons.mpr ⟨fun x hx => ?_, ih ht.2 (fun x hx => ha x (List.mem_cons_of_mem _ hx)) hs.2⟩
        rcases mem_tabPut hx with rfl | hx
        · exact hsymm _ _ (ha e List.mem_cons_self (Ne.symm h2))
        · exact ht.1 x hx

/-! ## Lists in an order -/

theorem insertBy_perm (b : α → α → Bool) (x : α) (l : List α) : (insertBy b x l).Perm (x :: l) := by
  induction l with
  | nil => exact .refl _
  | cons y l ih =>
    unfold insertBy
    split
    · exact .refl _
    · exact (ih.cons y).trans (.swap x y l)

theorem sortBy_perm (b : α → α → Bool) (l : List α) : (sortBy b l).Perm l := by
  induction l with
  | nil => exact .refl _
  | cons x l ih => exact (insertBy_perm b x _).trans (ih.cons x)

/-- What an insertion puts in order: with `x` comparable to each member. -/
theorem insertBy_pairwise {b : α → α → Bool} {x : α} {l : List α}
    (htr : ∀ p q r, b p q = true → b q r = true → b p r = true) (hx : ∀ y ∈ l, b x y = true ∨ b y x = true)
    (h : l.Pairwise fun p q => b p q = true) : (insertBy b x l).Pairwise fun p q => b p q = true := by
  induction l with
  | nil => exact List.pairwise_singleton _ _
  | cons y l ih =>
    obtain ⟨h1, h2⟩ := List.pairwise_cons.mp h
    unfold insertBy
    split
    · next hb =>
      refine List.pairwise_cons.mpr ⟨fun z hz => ?_, h⟩
      rcases List.mem_cons.mp hz with rfl | hz
      · exact hb
      · exact htr _ _ _ hb (h1 z hz)
    · next hb =>
      have hyx : b y x = true := (hx y List.mem_cons_self).resolve_left hb
      refine List.pairwise_cons.mpr ⟨fun z hz => ?_, ih (fun z hz => hx z (List.mem_cons_of_mem _ hz)) h2⟩
      rcases List.mem_cons.mp ((insertBy_perm b x l).mem_iff.mp hz) with rfl | hz
      · exact hyx
      · exact h1 z hz

/-- A list of things each two of which the order compares is put in order. -/
theorem sortBy_pairwise {b : α → α → Bool} {l : List α}
    (htr : ∀ p q r, b p q = true → b q r = true → b p r = true)
    (h : l.Pairwise fun p q => b p q = true ∨ b q p = true) : (sortBy b l).Pairwise fun p q => b p q = true := by
  induction l with
  | nil => exact .nil
  | cons x l ih =>
    obtain ⟨h1, h2⟩ := List.pairwise_cons.mp h
    exact insertBy_pairwise htr (fun y hy => h1 y ((sortBy_perm b l).mem_iff.mp hy)) (ih h2)

/-! ## Vectors -/

@[simp] theorem vecMap_get {n : Nat} (f : Fin n → α → α) (v : Vector α n) (i : Fin n) : (vecMap f v)[i] = f i v[i] := by
  simp [vecMap]

end Sys2Proof.Machine
end

