-- ==== Sys2Proof/Laws/Candidates.lean ====
section
/-! SUPPORT. The third law (R114): the candidate list a rebuild forms holds at most 6 candidates, no carrier twice, in the
order of step 3, the selection among them. -/

namespace Sys2Proof.Machine

/-! ## The order of step 3 -/

theorem ranksBefore_iff {a b : Candidate} : ranksBefore a b = true ↔
    (a.stale = false ∧ b.stale = true)
      ∨ (a.stale = b.stale ∧ (b.score.getD 0 < a.score.getD 0
          ∨ (a.score.getD 0 = b.score.getD 0 ∧ a.carrier < b.carrier))) := by
  unfold ranksBefore
  cases a.stale <;> cases b.stale <;> simp <;> split <;> simp_all

theorem ranksBefore_trans (a b c : Candidate) (h1 : ranksBefore a b = true) (h2 : ranksBefore b c = true) :
    ranksBefore a c = true := by
  rw [ranksBefore_iff] at *
  cases ha : a.stale <;> cases hb : b.stale <;> cases hc : c.stale <;> simp_all <;> omega

theorem ranksBefore_total {a b : Candidate} (h : a.carrier ≠ b.carrier) :
    ranksBefore a b = true ∨ ranksBefore b a = true := by
  simp only [ranksBefore_iff]
  cases ha : a.stale <;> cases hb : b.stale <;> simp_all <;> omega

/-- The order reads the stale mark, the score and the carrier alone. -/
theorem ranksBefore_congr {a b c d : Candidate} (h1 : a.stale = c.stale) (h2 : a.score = c.score)
    (h3 : a.carrier = c.carrier) (k1 : b.stale = d.stale) (k2 : b.score = d.score) (k3 : b.carrier = d.carrier) :
    ranksBefore a b = ranksBefore c d := by
  simp only [ranksBefore, h1, h2, h3, k1, k2, k3]

/-! ## The list formed (R114) -/

/-- The candidates of a list, in order, no carrier twice. -/
def Ordered (l : List Candidate) : Prop :=
  (l.map (·.carrier)).Nodup ∧ l.Pairwise fun a b => ranksBefore a b = true

theorem Ordered.sublist {l m : List Candidate} (h : l.Sublist m) (k : Ordered m) : Ordered l :=
  ⟨k.1.sublist (h.map _), k.2.sublist h⟩

theorem ordered_eligible {s : State} (h : CarrierLaw s.carriers) (k : ServiceKey) : Ordered (s.eligibleRanked k) := by
  have hk : (((s.carriers.filter fun e => eligibleFor s.params k e.2).map fun e => candidateOf s k e.1 e.2).map
      (·.carrier)).Nodup := by
    rw [List.map_map]
    exact ((tabWf_iff.mp h.1).1.imp fun h => Nat.ne_of_lt h).sublist (List.filter_sublist.map _)
  unfold State.eligibleRanked
  refine ⟨((sortBy_perm _ _).map _).nodup_iff.mpr hk, sortBy_pairwise ranksBefore_trans ?_⟩
  exact (List.pairwise_map.mp hk).imp fun h => ranksBefore_total h

theorem selectedCandidate_carrier (s : State) (k : ServiceKey) (x : Nat) : (selectedCandidate s k x).carrier = x := by
  unfold selectedCandidate; split <;> rfl

theorem ordered_all {s : State} (h : CarrierLaw s.carriers) (v : Service) : Ordered (allCandidates s v) := by
  have he := ordered_eligible h v.key
  unfold allCandidates
  dsimp only
  split
  · exact he
  · next x _ =>
    split
    · exact he
    · next hn =>
      have hne : ∀ c ∈ s.eligibleRanked v.key, (selectedCandidate s v.key x).carrier ≠ c.carrier := by
        intro c hc hx
        refine hn (List.any_eq_true.mpr ⟨c, hc, ?_⟩)
        rw [selectedCandidate_carrier] at hx
        simpa using hx.symm
      refine ⟨((insertBy_perm _ _ _).map _).nodup_iff.mpr ?_,
        insertBy_pairwise ranksBefore_trans (fun c hc => ranksBefore_total (hne c hc)) he.2⟩
      refine List.nodup_cons.mpr ⟨fun hm => ?_, he.1⟩
      obtain ⟨c, hc, hx⟩ := List.mem_map.mp hm
      exact hne c hc hx.symm

/-- R114: a selection is among all the candidates. -/
theorem selection_mem_all {s : State} {v : Service} {x : Nat} (hx : v.selection = some x) :
    ∃ c ∈ allCandidates s v, c.carrier = x := by
  unfold allCandidates
  dsimp only
  rw [hx]
  dsimp only
  split
  · next h =>
    obtain ⟨c, hc, hcx⟩ := List.any_eq_true.mp h
    exact ⟨c, hc, by simpa using hcx⟩
  · exact ⟨_, (insertBy_perm ..).mem_iff.mpr List.mem_cons_self, selectedCandidate_carrier ..⟩

theorem keepSix_sublist (sel : Option Nat) (l : List Candidate) : (keepSix sel l).Sublist l := by
  unfold keepSix
  split
  · exact List.take_sublist _ _
  · split
    · exact List.filter_sublist
    · exact List.take_sublist _ _

/-- R114 step 4: the six kept of a list without a carrier twice. -/
theorem keepSix_length {sel : Option Nat} {l : List Candidate} (h : (l.map (·.carrier)).Nodup) :
    (keepSix sel l).length ≤ candidatePlaces := by
  unfold keepSix
  split
  · exact List.length_take_le _ _
  · next x =>
    split
    · dsimp only
      generalize ho : (l.filter fun c => decide (c.carrier ≠ x)).take (candidatePlaces - 1) = others
      have hl : others.length ≤ candidatePlaces - 1 := by rw [← ho]; exact List.length_take_le _ _
      have hn : ((l.filter fun c => decide (c.carrier = x) || others.any fun o => decide (o.carrier = c.carrier)).map
          (·.carrier)).Nodup := h.sublist (List.filter_sublist.map _)
      have hs : ((l.filter fun c => decide (c.carrier = x) || others.any fun o => decide (o.carrier = c.carrier)).map
          (·.carrier)) ⊆ x :: others.map (·.carrier) := by
        intro y hy
        obtain ⟨c, hc, rfl⟩ := List.mem_map.mp hy
        have := (List.mem_filter.mp hc).2
        simp only [Bool.or_eq_true, decide_eq_true_eq, List.any_eq_true] at this
        rcases this with rfl | ⟨o, ho, hoc⟩
        · exact List.mem_cons_self
        · exact List.mem_cons_of_mem _ (List.mem_map.mpr ⟨o, ho, hoc⟩)
      have := hn.length_le_of_subset hs
      simp only [List.length_map, List.length_cons, candidatePlaces] at this hl ⊢
      omega
    · exact List.length_take_le _ _

theorem selection_mem_keepSix {x : Nat} {l : List Candidate} (h : ∃ c ∈ l, c.carrier = x) :
    ∃ c ∈ keepSix (some x) l, c.carrier = x := by
  obtain ⟨c, hc, hx⟩ := h
  unfold keepSix
  dsimp only
  rw [if_pos (List.any_eq_true.mpr ⟨c, hc, by simpa using hx⟩)]
  exact ⟨c, List.mem_filter.mpr ⟨hc, by simp [hx]⟩, hx⟩

/-- The candidates of a list formed have lead counts 0. -/
theorem formed_lead {s : State} {v : Service} {c : Candidate} (hc : c ∈ formedCandidates s v) : c.lead = 0 := by
  have he : ∀ c ∈ s.eligibleRanked v.key, c.lead = 0 := by
    intro c hc
    obtain ⟨e, -, rfl⟩ := List.mem_map.mp ((sortBy_perm _ _).mem_iff.mp hc)
    rfl
  have hm := (keepSix_sublist v.selection _).subset hc
  unfold allCandidates at hm
  dsimp only at hm
  split at hm
  · exact he c hm
  · split at hm
    · exact he c hm
    · rcases List.mem_cons.mp ((insertBy_perm _ _ _).mem_iff.mp hm) with rfl | hm
      · unfold selectedCandidate; split <;> rfl
      · exact he c hm

/-- The formed list meets the third law. -/
theorem formed_ok {s : State} (h : CarrierLaw s.carriers) (v : Service) :
    CandidatesOk { v with cands := formedCandidates s v } := by
  have ho := (ordered_all h v).sublist (keepSix_sublist v.selection _)
  refine ⟨keepSix_length (ordered_all h v).1, ho.1, ho.2, fun x hx => ?_, fun _ c hc => formed_lead hc⟩
  have := selection_mem_keepSix (selection_mem_all (s := s) hx)
  simp only [formedCandidates]
  rw [← hx] at this
  exact this

/-- Other lead counts, 0 with no selection, and a selection that stays or is cleared. -/
theorem candidatesOk_leads {v w : Service} {f : Candidate → Candidate}
    (hf : ∀ c, (f c).carrier = c.carrier ∧ (f c).stale = c.stale ∧ (f c).score = c.score) (hw : w.cands = v.cands.map f)
    (hs : w.selection = v.selection ∨ w.selection = none) (hl : w.selection = none → ∀ c, (f c).lead = 0)
    (h : CandidatesOk v) : CandidatesOk w := by
  obtain ⟨h1, h2, h3, h4, -⟩ := h
  refine ⟨by rw [hw]; simpa using h1, ?_, ?_, fun x hx => ?_, fun hn c hc => ?_⟩
  · rw [hw, List.map_map]
    have : ((fun c : Candidate => c.carrier) ∘ f) = fun c => c.carrier := funext fun c => (hf c).1
    rw [this]
    exact h2
  · rw [hw, List.pairwise_map]
    refine h3.imp fun {a b} hab => ?_
    rw [ranksBefore_congr (hf a).2.1 (hf a).2.2 (hf a).1 (hf b).2.1 (hf b).2.2 (hf b).1]
    exact hab
  · rcases hs with hs | hs
    · obtain ⟨c, hc, hcx⟩ := h4 x (hs ▸ hx)
      exact ⟨f c, by rw [hw]; exact List.mem_map_of_mem hc, (hf c).1.trans hcx⟩
    · rw [hs] at hx; cases hx
  · obtain ⟨d, -, rfl⟩ := List.mem_map.mp (hw ▸ hc)
    exact hl hn d

theorem withLeads_map (hy : Nat) (sel : Option Nat) (old new : List Candidate) :
    ∃ f : Candidate → Candidate, withLeads hy sel old new = new.map f ∧
      (∀ c, (f c).carrier = c.carrier ∧ (f c).stale = c.stale ∧ (f c).score = c.score) ∧
        (sel = none → ∀ c, (f c).lead = 0) := by
  unfold withLeads
  split
  · exact ⟨_, rfl, fun c => ⟨rfl, rfl, rfl⟩, fun _ _ => rfl⟩
  · exact ⟨_, rfl, fun c => by split <;> exact ⟨rfl, rfl, rfl⟩, fun h => nomatch h⟩

/-- R114: a rebuilt service meets the third law. -/
theorem candidatesOk_rebuilt {s : State} (h : CarrierLaw s.carriers) (v : Service) : CandidatesOk (rebuilt s v) := by
  obtain ⟨f, hw, hf, hl⟩ := withLeads_map s.params.hysteresis v.selection v.cands (formedCandidates s v)
  exact candidatesOk_leads (v := { v with cands := formedCandidates s v }) hf hw (.inl rfl) hl (formed_ok h v)

/-- A list that stays serves a selection that stays. -/
theorem candidatesOk_keep {v w : Service} (hc : w.cands = v.cands) (hs : w.selection = v.selection) (h : CandidatesOk v) :
    CandidatesOk w := by
  unfold CandidatesOk
  rw [hc, hs]
  exact h

/-- A service whose list is formed again when it lacks the selection meets the third law, whatever its selection was when
the list was formed, unless it lost one since. -/
theorem candidatesOk_listed {s : State} (h : CarrierLaw s.carriers) {v w : Service} (hv : CandidatesOk v)
    (hw : w.cands = v.cands) (hs : w.selection = none → v.selection = none) : CandidatesOk (listed s w) := by
  unfold listed
  split
  · next hn => exact candidatesOk_keep hw (hn.trans (hs hn).symm) hv
  · next x hx =>
    split
    · next ha =>
      refine ⟨by rw [hw]; exact hv.1, by rw [hw]; exact hv.2.1, by rw [hw]; exact hv.2.2.1, fun y hy => ?_,
        fun hn => by simp [hx] at hn⟩
      obtain ⟨c, hc, hcx⟩ := List.any_eq_true.mp ha
      rw [hx] at hy
      cases hy
      exact ⟨c, hc, by simpa using hcx⟩
    · exact candidatesOk_leads (v := { w with cands := formedCandidates s w })
        (f := fun c => { c with lead := leadOf w.cands c.carrier }) (fun c => ⟨rfl, rfl, rfl⟩) rfl (.inl rfl)
        (fun hn => by simp [hx] at hn) (formed_ok h w)

end Sys2Proof.Machine
end

