-- ==== Sys2Proof/Laws/State.lean ====
section
/-! SUPPORT. What each named update of the state leaves of each field. -/

namespace Sys2Proof.Machine

/-! ## State.setPending -/

@[simp] theorem State.setPending_pending (x : List Instr) (s : State) : (s.setPending x).pending = x := rfl
@[simp] theorem State.setPending_clock (x : List Instr) (s : State) : (s.setPending x).clock = s.clock := rfl
@[simp] theorem State.setPending_link (x : List Instr) (s : State) : (s.setPending x).link = s.link := rfl
@[simp] theorem State.setPending_watches (x : List Instr) (s : State) : (s.setPending x).watches = s.watches := rfl
@[simp] theorem State.setPending_plan (x : List Instr) (s : State) : (s.setPending x).plan = s.plan := rfl
@[simp] theorem State.setPending_slots (x : List Instr) (s : State) : (s.setPending x).slots = s.slots := rfl
@[simp] theorem State.setPending_reference (x : List Instr) (s : State) : (s.setPending x).reference = s.reference := rfl
@[simp] theorem State.setPending_carriers (x : List Instr) (s : State) : (s.setPending x).carriers = s.carriers := rfl
@[simp] theorem State.setPending_sched (x : List Instr) (s : State) : (s.setPending x).sched = s.sched := rfl
@[simp] theorem State.setPending_services (x : List Instr) (s : State) : (s.setPending x).services = s.services := rfl
@[simp] theorem State.setPending_router (x : List Instr) (s : State) : (s.setPending x).router = s.router := rfl
@[simp] theorem State.setPending_draws (x : List Instr) (s : State) : (s.setPending x).draws = s.draws := rfl

/-! ## State.setClock -/

@[simp] theorem State.setClock_pending (x : Clock) (s : State) : (s.setClock x).pending = s.pending := rfl
@[simp] theorem State.setClock_clock (x : Clock) (s : State) : (s.setClock x).clock = x := rfl
@[simp] theorem State.setClock_link (x : Clock) (s : State) : (s.setClock x).link = s.link := rfl
@[simp] theorem State.setClock_watches (x : Clock) (s : State) : (s.setClock x).watches = s.watches := rfl
@[simp] theorem State.setClock_plan (x : Clock) (s : State) : (s.setClock x).plan = s.plan := rfl
@[simp] theorem State.setClock_slots (x : Clock) (s : State) : (s.setClock x).slots = s.slots := rfl
@[simp] theorem State.setClock_reference (x : Clock) (s : State) : (s.setClock x).reference = s.reference := rfl
@[simp] theorem State.setClock_carriers (x : Clock) (s : State) : (s.setClock x).carriers = s.carriers := rfl
@[simp] theorem State.setClock_sched (x : Clock) (s : State) : (s.setClock x).sched = s.sched := rfl
@[simp] theorem State.setClock_services (x : Clock) (s : State) : (s.setClock x).services = s.services := rfl
@[simp] theorem State.setClock_router (x : Clock) (s : State) : (s.setClock x).router = s.router := rfl
@[simp] theorem State.setClock_draws (x : Clock) (s : State) : (s.setClock x).draws = s.draws := rfl

/-! ## State.setLink -/

@[simp] theorem State.setLink_pending (x : Link) (s : State) : (s.setLink x).pending = s.pending := rfl
@[simp] theorem State.setLink_clock (x : Link) (s : State) : (s.setLink x).clock = s.clock := rfl
@[simp] theorem State.setLink_link (x : Link) (s : State) : (s.setLink x).link = x := rfl
@[simp] theorem State.setLink_watches (x : Link) (s : State) : (s.setLink x).watches = s.watches := rfl
@[simp] theorem State.setLink_plan (x : Link) (s : State) : (s.setLink x).plan = s.plan := rfl
@[simp] theorem State.setLink_slots (x : Link) (s : State) : (s.setLink x).slots = s.slots := rfl
@[simp] theorem State.setLink_reference (x : Link) (s : State) : (s.setLink x).reference = s.reference := rfl
@[simp] theorem State.setLink_carriers (x : Link) (s : State) : (s.setLink x).carriers = s.carriers := rfl
@[simp] theorem State.setLink_sched (x : Link) (s : State) : (s.setLink x).sched = s.sched := rfl
@[simp] theorem State.setLink_services (x : Link) (s : State) : (s.setLink x).services = s.services := rfl
@[simp] theorem State.setLink_router (x : Link) (s : State) : (s.setLink x).router = s.router := rfl
@[simp] theorem State.setLink_draws (x : Link) (s : State) : (s.setLink x).draws = s.draws := rfl

/-! ## State.setWatches -/

@[simp] theorem State.setWatches_pending (x : WatchUnit) (s : State) : (s.setWatches x).pending = s.pending := rfl
@[simp] theorem State.setWatches_clock (x : WatchUnit) (s : State) : (s.setWatches x).clock = s.clock := rfl
@[simp] theorem State.setWatches_link (x : WatchUnit) (s : State) : (s.setWatches x).link = s.link := rfl
@[simp] theorem State.setWatches_watches (x : WatchUnit) (s : State) : (s.setWatches x).watches = x := rfl
@[simp] theorem State.setWatches_plan (x : WatchUnit) (s : State) : (s.setWatches x).plan = s.plan := rfl
@[simp] theorem State.setWatches_slots (x : WatchUnit) (s : State) : (s.setWatches x).slots = s.slots := rfl
@[simp] theorem State.setWatches_reference (x : WatchUnit) (s : State) : (s.setWatches x).reference = s.reference := rfl
@[simp] theorem State.setWatches_carriers (x : WatchUnit) (s : State) : (s.setWatches x).carriers = s.carriers := rfl
@[simp] theorem State.setWatches_sched (x : WatchUnit) (s : State) : (s.setWatches x).sched = s.sched := rfl
@[simp] theorem State.setWatches_services (x : WatchUnit) (s : State) : (s.setWatches x).services = s.services := rfl
@[simp] theorem State.setWatches_router (x : WatchUnit) (s : State) : (s.setWatches x).router = s.router := rfl
@[simp] theorem State.setWatches_draws (x : WatchUnit) (s : State) : (s.setWatches x).draws = s.draws := rfl

/-! ## State.setPlan -/

@[simp] theorem State.setPlan_pending (x : PlanStore) (s : State) : (s.setPlan x).pending = s.pending := rfl
@[simp] theorem State.setPlan_clock (x : PlanStore) (s : State) : (s.setPlan x).clock = s.clock := rfl
@[simp] theorem State.setPlan_link (x : PlanStore) (s : State) : (s.setPlan x).link = s.link := rfl
@[simp] theorem State.setPlan_watches (x : PlanStore) (s : State) : (s.setPlan x).watches = s.watches := rfl
@[simp] theorem State.setPlan_plan (x : PlanStore) (s : State) : (s.setPlan x).plan = x := rfl
@[simp] theorem State.setPlan_slots (x : PlanStore) (s : State) : (s.setPlan x).slots = s.slots := rfl
@[simp] theorem State.setPlan_reference (x : PlanStore) (s : State) : (s.setPlan x).reference = s.reference := rfl
@[simp] theorem State.setPlan_carriers (x : PlanStore) (s : State) : (s.setPlan x).carriers = s.carriers := rfl
@[simp] theorem State.setPlan_sched (x : PlanStore) (s : State) : (s.setPlan x).sched = s.sched := rfl
@[simp] theorem State.setPlan_services (x : PlanStore) (s : State) : (s.setPlan x).services = s.services := rfl
@[simp] theorem State.setPlan_router (x : PlanStore) (s : State) : (s.setPlan x).router = s.router := rfl
@[simp] theorem State.setPlan_draws (x : PlanStore) (s : State) : (s.setPlan x).draws = s.draws := rfl

/-! ## State.setSlots -/

@[simp] theorem State.setSlots_pending (x : Vector Slot 8) (s : State) : (s.setSlots x).pending = s.pending := rfl
@[simp] theorem State.setSlots_clock (x : Vector Slot 8) (s : State) : (s.setSlots x).clock = s.clock := rfl
@[simp] theorem State.setSlots_link (x : Vector Slot 8) (s : State) : (s.setSlots x).link = s.link := rfl
@[simp] theorem State.setSlots_watches (x : Vector Slot 8) (s : State) : (s.setSlots x).watches = s.watches := rfl
@[simp] theorem State.setSlots_plan (x : Vector Slot 8) (s : State) : (s.setSlots x).plan = s.plan := rfl
@[simp] theorem State.setSlots_slots (x : Vector Slot 8) (s : State) : (s.setSlots x).slots = x := rfl
@[simp] theorem State.setSlots_reference (x : Vector Slot 8) (s : State) : (s.setSlots x).reference = s.reference := rfl
@[simp] theorem State.setSlots_carriers (x : Vector Slot 8) (s : State) : (s.setSlots x).carriers = s.carriers := rfl
@[simp] theorem State.setSlots_sched (x : Vector Slot 8) (s : State) : (s.setSlots x).sched = s.sched := rfl
@[simp] theorem State.setSlots_services (x : Vector Slot 8) (s : State) : (s.setSlots x).services = s.services := rfl
@[simp] theorem State.setSlots_router (x : Vector Slot 8) (s : State) : (s.setSlots x).router = s.router := rfl
@[simp] theorem State.setSlots_draws (x : Vector Slot 8) (s : State) : (s.setSlots x).draws = s.draws := rfl

/-! ## State.setReference -/

@[simp] theorem State.setReference_pending (x : Reference) (s : State) : (s.setReference x).pending = s.pending := rfl
@[simp] theorem State.setReference_clock (x : Reference) (s : State) : (s.setReference x).clock = s.clock := rfl
@[simp] theorem State.setReference_link (x : Reference) (s : State) : (s.setReference x).link = s.link := rfl
@[simp] theorem State.setReference_watches (x : Reference) (s : State) : (s.setReference x).watches = s.watches := rfl
@[simp] theorem State.setReference_plan (x : Reference) (s : State) : (s.setReference x).plan = s.plan := rfl
@[simp] theorem State.setReference_slots (x : Reference) (s : State) : (s.setReference x).slots = s.slots := rfl
@[simp] theorem State.setReference_reference (x : Reference) (s : State) : (s.setReference x).reference = x := rfl
@[simp] theorem State.setReference_carriers (x : Reference) (s : State) : (s.setReference x).carriers = s.carriers := rfl
@[simp] theorem State.setReference_sched (x : Reference) (s : State) : (s.setReference x).sched = s.sched := rfl
@[simp] theorem State.setReference_services (x : Reference) (s : State) : (s.setReference x).services = s.services := rfl
@[simp] theorem State.setReference_router (x : Reference) (s : State) : (s.setReference x).router = s.router := rfl
@[simp] theorem State.setReference_draws (x : Reference) (s : State) : (s.setReference x).draws = s.draws := rfl

/-! ## State.setCarriers -/

@[simp] theorem State.setCarriers_pending (x : Table Carrier) (s : State) : (s.setCarriers x).pending = s.pending := rfl
@[simp] theorem State.setCarriers_clock (x : Table Carrier) (s : State) : (s.setCarriers x).clock = s.clock := rfl
@[simp] theorem State.setCarriers_link (x : Table Carrier) (s : State) : (s.setCarriers x).link = s.link := rfl
@[simp] theorem State.setCarriers_watches (x : Table Carrier) (s : State) : (s.setCarriers x).watches = s.watches := rfl
@[simp] theorem State.setCarriers_plan (x : Table Carrier) (s : State) : (s.setCarriers x).plan = s.plan := rfl
@[simp] theorem State.setCarriers_slots (x : Table Carrier) (s : State) : (s.setCarriers x).slots = s.slots := rfl
@[simp] theorem State.setCarriers_reference (x : Table Carrier) (s : State) : (s.setCarriers x).reference = s.reference := rfl
@[simp] theorem State.setCarriers_carriers (x : Table Carrier) (s : State) : (s.setCarriers x).carriers = x := rfl
@[simp] theorem State.setCarriers_sched (x : Table Carrier) (s : State) : (s.setCarriers x).sched = s.sched := rfl
@[simp] theorem State.setCarriers_services (x : Table Carrier) (s : State) : (s.setCarriers x).services = s.services := rfl
@[simp] theorem State.setCarriers_router (x : Table Carrier) (s : State) : (s.setCarriers x).router = s.router := rfl
@[simp] theorem State.setCarriers_draws (x : Table Carrier) (s : State) : (s.setCarriers x).draws = s.draws := rfl

/-! ## State.setSched -/

@[simp] theorem State.setSched_pending (x : Scheduler) (s : State) : (s.setSched x).pending = s.pending := rfl
@[simp] theorem State.setSched_clock (x : Scheduler) (s : State) : (s.setSched x).clock = s.clock := rfl
@[simp] theorem State.setSched_link (x : Scheduler) (s : State) : (s.setSched x).link = s.link := rfl
@[simp] theorem State.setSched_watches (x : Scheduler) (s : State) : (s.setSched x).watches = s.watches := rfl
@[simp] theorem State.setSched_plan (x : Scheduler) (s : State) : (s.setSched x).plan = s.plan := rfl
@[simp] theorem State.setSched_slots (x : Scheduler) (s : State) : (s.setSched x).slots = s.slots := rfl
@[simp] theorem State.setSched_reference (x : Scheduler) (s : State) : (s.setSched x).reference = s.reference := rfl
@[simp] theorem State.setSched_carriers (x : Scheduler) (s : State) : (s.setSched x).carriers = s.carriers := rfl
@[simp] theorem State.setSched_sched (x : Scheduler) (s : State) : (s.setSched x).sched = x := rfl
@[simp] theorem State.setSched_services (x : Scheduler) (s : State) : (s.setSched x).services = s.services := rfl
@[simp] theorem State.setSched_router (x : Scheduler) (s : State) : (s.setSched x).router = s.router := rfl
@[simp] theorem State.setSched_draws (x : Scheduler) (s : State) : (s.setSched x).draws = s.draws := rfl

/-! ## State.setServices -/

@[simp] theorem State.setServices_pending (x : Table Service) (s : State) : (s.setServices x).pending = s.pending := rfl
@[simp] theorem State.setServices_clock (x : Table Service) (s : State) : (s.setServices x).clock = s.clock := rfl
@[simp] theorem State.setServices_link (x : Table Service) (s : State) : (s.setServices x).link = s.link := rfl
@[simp] theorem State.setServices_watches (x : Table Service) (s : State) : (s.setServices x).watches = s.watches := rfl
@[simp] theorem State.setServices_plan (x : Table Service) (s : State) : (s.setServices x).plan = s.plan := rfl
@[simp] theorem State.setServices_slots (x : Table Service) (s : State) : (s.setServices x).slots = s.slots := rfl
@[simp] theorem State.setServices_reference (x : Table Service) (s : State) : (s.setServices x).reference = s.reference := rfl
@[simp] theorem State.setServices_carriers (x : Table Service) (s : State) : (s.setServices x).carriers = s.carriers := rfl
@[simp] theorem State.setServices_sched (x : Table Service) (s : State) : (s.setServices x).sched = s.sched := rfl
@[simp] theorem State.setServices_services (x : Table Service) (s : State) : (s.setServices x).services = x := rfl
@[simp] theorem State.setServices_router (x : Table Service) (s : State) : (s.setServices x).router = s.router := rfl
@[simp] theorem State.setServices_draws (x : Table Service) (s : State) : (s.setServices x).draws = s.draws := rfl

/-! ## State.setRouter -/

@[simp] theorem State.setRouter_pending (x : Router) (s : State) : (s.setRouter x).pending = s.pending := rfl
@[simp] theorem State.setRouter_clock (x : Router) (s : State) : (s.setRouter x).clock = s.clock := rfl
@[simp] theorem State.setRouter_link (x : Router) (s : State) : (s.setRouter x).link = s.link := rfl
@[simp] theorem State.setRouter_watches (x : Router) (s : State) : (s.setRouter x).watches = s.watches := rfl
@[simp] theorem State.setRouter_plan (x : Router) (s : State) : (s.setRouter x).plan = s.plan := rfl
@[simp] theorem State.setRouter_slots (x : Router) (s : State) : (s.setRouter x).slots = s.slots := rfl
@[simp] theorem State.setRouter_reference (x : Router) (s : State) : (s.setRouter x).reference = s.reference := rfl
@[simp] theorem State.setRouter_carriers (x : Router) (s : State) : (s.setRouter x).carriers = s.carriers := rfl
@[simp] theorem State.setRouter_sched (x : Router) (s : State) : (s.setRouter x).sched = s.sched := rfl
@[simp] theorem State.setRouter_services (x : Router) (s : State) : (s.setRouter x).services = s.services := rfl
@[simp] theorem State.setRouter_router (x : Router) (s : State) : (s.setRouter x).router = x := rfl
@[simp] theorem State.setRouter_draws (x : Router) (s : State) : (s.setRouter x).draws = s.draws := rfl

/-! ## State.setDraws -/

@[simp] theorem State.setDraws_pending (x : Nat) (s : State) : (s.setDraws x).pending = s.pending := rfl
@[simp] theorem State.setDraws_clock (x : Nat) (s : State) : (s.setDraws x).clock = s.clock := rfl
@[simp] theorem State.setDraws_link (x : Nat) (s : State) : (s.setDraws x).link = s.link := rfl
@[simp] theorem State.setDraws_watches (x : Nat) (s : State) : (s.setDraws x).watches = s.watches := rfl
@[simp] theorem State.setDraws_plan (x : Nat) (s : State) : (s.setDraws x).plan = s.plan := rfl
@[simp] theorem State.setDraws_slots (x : Nat) (s : State) : (s.setDraws x).slots = s.slots := rfl
@[simp] theorem State.setDraws_reference (x : Nat) (s : State) : (s.setDraws x).reference = s.reference := rfl
@[simp] theorem State.setDraws_carriers (x : Nat) (s : State) : (s.setDraws x).carriers = s.carriers := rfl
@[simp] theorem State.setDraws_sched (x : Nat) (s : State) : (s.setDraws x).sched = s.sched := rfl
@[simp] theorem State.setDraws_services (x : Nat) (s : State) : (s.setDraws x).services = s.services := rfl
@[simp] theorem State.setDraws_router (x : Nat) (s : State) : (s.setDraws x).router = s.router := rfl
@[simp] theorem State.setDraws_draws (x : Nat) (s : State) : (s.setDraws x).draws = x := rfl

/-! ## The updates of one record or block -/

@[simp] theorem modLink_pending (f : Link → Link) (s : State) : (modLink f s).pending = s.pending := rfl
@[simp] theorem modLink_clock (f : Link → Link) (s : State) : (modLink f s).clock = s.clock := rfl
@[simp] theorem modLink_link (f : Link → Link) (s : State) : (modLink f s).link = f s.link := rfl
@[simp] theorem modLink_watches (f : Link → Link) (s : State) : (modLink f s).watches = s.watches := rfl
@[simp] theorem modLink_plan (f : Link → Link) (s : State) : (modLink f s).plan = s.plan := rfl
@[simp] theorem modLink_slots (f : Link → Link) (s : State) : (modLink f s).slots = s.slots := rfl
@[simp] theorem modLink_reference (f : Link → Link) (s : State) : (modLink f s).reference = s.reference := rfl
@[simp] theorem modLink_carriers (f : Link → Link) (s : State) : (modLink f s).carriers = s.carriers := rfl
@[simp] theorem modLink_sched (f : Link → Link) (s : State) : (modLink f s).sched = s.sched := rfl
@[simp] theorem modLink_services (f : Link → Link) (s : State) : (modLink f s).services = s.services := rfl
@[simp] theorem modLink_router (f : Link → Link) (s : State) : (modLink f s).router = s.router := rfl
@[simp] theorem modLink_draws (f : Link → Link) (s : State) : (modLink f s).draws = s.draws := rfl

@[simp] theorem modWatches_pending (f : WatchUnit → WatchUnit) (s : State) : (modWatches f s).pending = s.pending := rfl
@[simp] theorem modWatches_clock (f : WatchUnit → WatchUnit) (s : State) : (modWatches f s).clock = s.clock := rfl
@[simp] theorem modWatches_link (f : WatchUnit → WatchUnit) (s : State) : (modWatches f s).link = s.link := rfl
@[simp] theorem modWatches_watches (f : WatchUnit → WatchUnit) (s : State) : (modWatches f s).watches = f s.watches := rfl
@[simp] theorem modWatches_plan (f : WatchUnit → WatchUnit) (s : State) : (modWatches f s).plan = s.plan := rfl
@[simp] theorem modWatches_slots (f : WatchUnit → WatchUnit) (s : State) : (modWatches f s).slots = s.slots := rfl
@[simp] theorem modWatches_reference (f : WatchUnit → WatchUnit) (s : State) : (modWatches f s).reference = s.reference := rfl
@[simp] theorem modWatches_carriers (f : WatchUnit → WatchUnit) (s : State) : (modWatches f s).carriers = s.carriers := rfl
@[simp] theorem modWatches_sched (f : WatchUnit → WatchUnit) (s : State) : (modWatches f s).sched = s.sched := rfl
@[simp] theorem modWatches_services (f : WatchUnit → WatchUnit) (s : State) : (modWatches f s).services = s.services := rfl
@[simp] theorem modWatches_router (f : WatchUnit → WatchUnit) (s : State) : (modWatches f s).router = s.router := rfl
@[simp] theorem modWatches_draws (f : WatchUnit → WatchUnit) (s : State) : (modWatches f s).draws = s.draws := rfl

@[simp] theorem modSched_pending (f : Scheduler → Scheduler) (s : State) : (modSched f s).pending = s.pending := rfl
@[simp] theorem modSched_clock (f : Scheduler → Scheduler) (s : State) : (modSched f s).clock = s.clock := rfl
@[simp] theorem modSched_link (f : Scheduler → Scheduler) (s : State) : (modSched f s).link = s.link := rfl
@[simp] theorem modSched_watches (f : Scheduler → Scheduler) (s : State) : (modSched f s).watches = s.watches := rfl
@[simp] theorem modSched_plan (f : Scheduler → Scheduler) (s : State) : (modSched f s).plan = s.plan := rfl
@[simp] theorem modSched_slots (f : Scheduler → Scheduler) (s : State) : (modSched f s).slots = s.slots := rfl
@[simp] theorem modSched_reference (f : Scheduler → Scheduler) (s : State) : (modSched f s).reference = s.reference := rfl
@[simp] theorem modSched_carriers (f : Scheduler → Scheduler) (s : State) : (modSched f s).carriers = s.carriers := rfl
@[simp] theorem modSched_sched (f : Scheduler → Scheduler) (s : State) : (modSched f s).sched = f s.sched := rfl
@[simp] theorem modSched_services (f : Scheduler → Scheduler) (s : State) : (modSched f s).services = s.services := rfl
@[simp] theorem modSched_router (f : Scheduler → Scheduler) (s : State) : (modSched f s).router = s.router := rfl
@[simp] theorem modSched_draws (f : Scheduler → Scheduler) (s : State) : (modSched f s).draws = s.draws := rfl

@[simp] theorem modRouter_pending (f : Router → Router) (s : State) : (modRouter f s).pending = s.pending := rfl
@[simp] theorem modRouter_clock (f : Router → Router) (s : State) : (modRouter f s).clock = s.clock := rfl
@[simp] theorem modRouter_link (f : Router → Router) (s : State) : (modRouter f s).link = s.link := rfl
@[simp] theorem modRouter_watches (f : Router → Router) (s : State) : (modRouter f s).watches = s.watches := rfl
@[simp] theorem modRouter_plan (f : Router → Router) (s : State) : (modRouter f s).plan = s.plan := rfl
@[simp] theorem modRouter_slots (f : Router → Router) (s : State) : (modRouter f s).slots = s.slots := rfl
@[simp] theorem modRouter_reference (f : Router → Router) (s : State) : (modRouter f s).reference = s.reference := rfl
@[simp] theorem modRouter_carriers (f : Router → Router) (s : State) : (modRouter f s).carriers = s.carriers := rfl
@[simp] theorem modRouter_sched (f : Router → Router) (s : State) : (modRouter f s).sched = s.sched := rfl
@[simp] theorem modRouter_services (f : Router → Router) (s : State) : (modRouter f s).services = s.services := rfl
@[simp] theorem modRouter_router (f : Router → Router) (s : State) : (modRouter f s).router = f s.router := rfl
@[simp] theorem modRouter_draws (f : Router → Router) (s : State) : (modRouter f s).draws = s.draws := rfl

@[simp] theorem modClock_pending (f : Clock → Clock) (s : State) : (modClock f s).pending = s.pending := rfl
@[simp] theorem modClock_clock (f : Clock → Clock) (s : State) : (modClock f s).clock = f s.clock := rfl
@[simp] theorem modClock_link (f : Clock → Clock) (s : State) : (modClock f s).link = s.link := rfl
@[simp] theorem modClock_watches (f : Clock → Clock) (s : State) : (modClock f s).watches = s.watches := rfl
@[simp] theorem modClock_plan (f : Clock → Clock) (s : State) : (modClock f s).plan = s.plan := rfl
@[simp] theorem modClock_slots (f : Clock → Clock) (s : State) : (modClock f s).slots = s.slots := rfl
@[simp] theorem modClock_reference (f : Clock → Clock) (s : State) : (modClock f s).reference = s.reference := rfl
@[simp] theorem modClock_carriers (f : Clock → Clock) (s : State) : (modClock f s).carriers = s.carriers := rfl
@[simp] theorem modClock_sched (f : Clock → Clock) (s : State) : (modClock f s).sched = s.sched := rfl
@[simp] theorem modClock_services (f : Clock → Clock) (s : State) : (modClock f s).services = s.services := rfl
@[simp] theorem modClock_router (f : Clock → Clock) (s : State) : (modClock f s).router = s.router := rfl
@[simp] theorem modClock_draws (f : Clock → Clock) (s : State) : (modClock f s).draws = s.draws := rfl

@[simp] theorem modPlan_pending (f : PlanStore → PlanStore) (s : State) : (modPlan f s).pending = s.pending := rfl
@[simp] theorem modPlan_clock (f : PlanStore → PlanStore) (s : State) : (modPlan f s).clock = s.clock := rfl
@[simp] theorem modPlan_link (f : PlanStore → PlanStore) (s : State) : (modPlan f s).link = s.link := rfl
@[simp] theorem modPlan_watches (f : PlanStore → PlanStore) (s : State) : (modPlan f s).watches = s.watches := rfl
@[simp] theorem modPlan_plan (f : PlanStore → PlanStore) (s : State) : (modPlan f s).plan = f s.plan := rfl
@[simp] theorem modPlan_slots (f : PlanStore → PlanStore) (s : State) : (modPlan f s).slots = s.slots := rfl
@[simp] theorem modPlan_reference (f : PlanStore → PlanStore) (s : State) : (modPlan f s).reference = s.reference := rfl
@[simp] theorem modPlan_carriers (f : PlanStore → PlanStore) (s : State) : (modPlan f s).carriers = s.carriers := rfl
@[simp] theorem modPlan_sched (f : PlanStore → PlanStore) (s : State) : (modPlan f s).sched = s.sched := rfl
@[simp] theorem modPlan_services (f : PlanStore → PlanStore) (s : State) : (modPlan f s).services = s.services := rfl
@[simp] theorem modPlan_router (f : PlanStore → PlanStore) (s : State) : (modPlan f s).router = s.router := rfl
@[simp] theorem modPlan_draws (f : PlanStore → PlanStore) (s : State) : (modPlan f s).draws = s.draws := rfl

@[simp] theorem putSlot_pending (i : Fin 8) (r : Slot) (s : State) : (putSlot i r s).pending = s.pending := rfl
@[simp] theorem putSlot_clock (i : Fin 8) (r : Slot) (s : State) : (putSlot i r s).clock = s.clock := rfl
@[simp] theorem putSlot_link (i : Fin 8) (r : Slot) (s : State) : (putSlot i r s).link = s.link := rfl
@[simp] theorem putSlot_watches (i : Fin 8) (r : Slot) (s : State) : (putSlot i r s).watches = s.watches := rfl
@[simp] theorem putSlot_plan (i : Fin 8) (r : Slot) (s : State) : (putSlot i r s).plan = s.plan := rfl
@[simp] theorem putSlot_slots (i : Fin 8) (r : Slot) (s : State) : (putSlot i r s).slots = s.slots.set i r := rfl
@[simp] theorem putSlot_reference (i : Fin 8) (r : Slot) (s : State) : (putSlot i r s).reference = s.reference := rfl
@[simp] theorem putSlot_carriers (i : Fin 8) (r : Slot) (s : State) : (putSlot i r s).carriers = s.carriers := rfl
@[simp] theorem putSlot_sched (i : Fin 8) (r : Slot) (s : State) : (putSlot i r s).sched = s.sched := rfl
@[simp] theorem putSlot_services (i : Fin 8) (r : Slot) (s : State) : (putSlot i r s).services = s.services := rfl
@[simp] theorem putSlot_router (i : Fin 8) (r : Slot) (s : State) : (putSlot i r s).router = s.router := rfl
@[simp] theorem putSlot_draws (i : Fin 8) (r : Slot) (s : State) : (putSlot i r s).draws = s.draws := rfl

@[simp] theorem modSlot_pending (i : Fin 8) (f : Slot → Slot) (s : State) : (modSlot i f s).pending = s.pending := rfl
@[simp] theorem modSlot_clock (i : Fin 8) (f : Slot → Slot) (s : State) : (modSlot i f s).clock = s.clock := rfl
@[simp] theorem modSlot_link (i : Fin 8) (f : Slot → Slot) (s : State) : (modSlot i f s).link = s.link := rfl
@[simp] theorem modSlot_watches (i : Fin 8) (f : Slot → Slot) (s : State) : (modSlot i f s).watches = s.watches := rfl
@[simp] theorem modSlot_plan (i : Fin 8) (f : Slot → Slot) (s : State) : (modSlot i f s).plan = s.plan := rfl
@[simp] theorem modSlot_slots (i : Fin 8) (f : Slot → Slot) (s : State) : (modSlot i f s).slots = s.slots.set i (f (s.slot i)) := rfl
@[simp] theorem modSlot_reference (i : Fin 8) (f : Slot → Slot) (s : State) : (modSlot i f s).reference = s.reference := rfl
@[simp] theorem modSlot_carriers (i : Fin 8) (f : Slot → Slot) (s : State) : (modSlot i f s).carriers = s.carriers := rfl
@[simp] theorem modSlot_sched (i : Fin 8) (f : Slot → Slot) (s : State) : (modSlot i f s).sched = s.sched := rfl
@[simp] theorem modSlot_services (i : Fin 8) (f : Slot → Slot) (s : State) : (modSlot i f s).services = s.services := rfl
@[simp] theorem modSlot_router (i : Fin 8) (f : Slot → Slot) (s : State) : (modSlot i f s).router = s.router := rfl
@[simp] theorem modSlot_draws (i : Fin 8) (f : Slot → Slot) (s : State) : (modSlot i f s).draws = s.draws := rfl

@[simp] theorem putCarrier_pending (i : Nat) (c : Carrier) (s : State) : (putCarrier i c s).pending = s.pending := rfl
@[simp] theorem putCarrier_clock (i : Nat) (c : Carrier) (s : State) : (putCarrier i c s).clock = s.clock := rfl
@[simp] theorem putCarrier_link (i : Nat) (c : Carrier) (s : State) : (putCarrier i c s).link = s.link := rfl
@[simp] theorem putCarrier_watches (i : Nat) (c : Carrier) (s : State) : (putCarrier i c s).watches = s.watches := rfl
@[simp] theorem putCarrier_plan (i : Nat) (c : Carrier) (s : State) : (putCarrier i c s).plan = s.plan := rfl
@[simp] theorem putCarrier_slots (i : Nat) (c : Carrier) (s : State) : (putCarrier i c s).slots = s.slots := rfl
@[simp] theorem putCarrier_reference (i : Nat) (c : Carrier) (s : State) : (putCarrier i c s).reference = s.reference := rfl
@[simp] theorem putCarrier_carriers (i : Nat) (c : Carrier) (s : State) : (putCarrier i c s).carriers = tabPut s.carriers i c := rfl
@[simp] theorem putCarrier_sched (i : Nat) (c : Carrier) (s : State) : (putCarrier i c s).sched = s.sched := rfl
@[simp] theorem putCarrier_services (i : Nat) (c : Carrier) (s : State) : (putCarrier i c s).services = s.services := rfl
@[simp] theorem putCarrier_router (i : Nat) (c : Carrier) (s : State) : (putCarrier i c s).router = s.router := rfl
@[simp] theorem putCarrier_draws (i : Nat) (c : Carrier) (s : State) : (putCarrier i c s).draws = s.draws := rfl

@[simp] theorem putService_pending (i : Nat) (v : Service) (s : State) : (putService i v s).pending = s.pending := rfl
@[simp] theorem putService_clock (i : Nat) (v : Service) (s : State) : (putService i v s).clock = s.clock := rfl
@[simp] theorem putService_link (i : Nat) (v : Service) (s : State) : (putService i v s).link = s.link := rfl
@[simp] theorem putService_watches (i : Nat) (v : Service) (s : State) : (putService i v s).watches = s.watches := rfl
@[simp] theorem putService_plan (i : Nat) (v : Service) (s : State) : (putService i v s).plan = s.plan := rfl
@[simp] theorem putService_slots (i : Nat) (v : Service) (s : State) : (putService i v s).slots = s.slots := rfl
@[simp] theorem putService_reference (i : Nat) (v : Service) (s : State) : (putService i v s).reference = s.reference := rfl
@[simp] theorem putService_carriers (i : Nat) (v : Service) (s : State) : (putService i v s).carriers = s.carriers := rfl
@[simp] theorem putService_sched (i : Nat) (v : Service) (s : State) : (putService i v s).sched = s.sched := rfl
@[simp] theorem putService_services (i : Nat) (v : Service) (s : State) : (putService i v s).services = tabPut s.services i v := rfl
@[simp] theorem putService_router (i : Nat) (v : Service) (s : State) : (putService i v s).router = s.router := rfl
@[simp] theorem putService_draws (i : Nat) (v : Service) (s : State) : (putService i v s).draws = s.draws := rfl

@[simp] theorem putRoom_pending (r : Fin 48) (x : Room) (s : State) : (putRoom r x s).pending = s.pending := rfl
@[simp] theorem putRoom_clock (r : Fin 48) (x : Room) (s : State) : (putRoom r x s).clock = s.clock := rfl
@[simp] theorem putRoom_link (r : Fin 48) (x : Room) (s : State) : (putRoom r x s).link = s.link := rfl
@[simp] theorem putRoom_watches (r : Fin 48) (x : Room) (s : State) : (putRoom r x s).watches = s.watches := rfl
@[simp] theorem putRoom_plan (r : Fin 48) (x : Room) (s : State) : (putRoom r x s).plan = s.plan := rfl
@[simp] theorem putRoom_slots (r : Fin 48) (x : Room) (s : State) : (putRoom r x s).slots = s.slots := rfl
@[simp] theorem putRoom_reference (r : Fin 48) (x : Room) (s : State) : (putRoom r x s).reference = s.reference := rfl
@[simp] theorem putRoom_carriers (r : Fin 48) (x : Room) (s : State) : (putRoom r x s).carriers = s.carriers := rfl
@[simp] theorem putRoom_sched (r : Fin 48) (x : Room) (s : State) : (putRoom r x s).sched = s.sched := rfl
@[simp] theorem putRoom_services (r : Fin 48) (x : Room) (s : State) : (putRoom r x s).services = s.services := rfl
@[simp] theorem putRoom_router (r : Fin 48) (x : Room) (s : State) : (putRoom r x s).router = { s.router with rooms := s.router.rooms.set r x } := rfl
@[simp] theorem putRoom_draws (r : Fin 48) (x : Room) (s : State) : (putRoom r x s).draws = s.draws := rfl

end Sys2Proof.Machine
end

