-- ==== Sys2Proof/Laws/Evolve.lean ====
section
/-! SUPPORT. What the blocks may do to the state within a step: the commands that wait, the clock, the plan, the survey
mode and the link but for its notices and its flags are left alone, and each law of the device is kept. -/

namespace Sys2Proof.Machine

/-- What a block may do to the link: offer notices and set SERVICE_TABLE_FULL. -/
structure LinkMoved (l m : Link) : Prop where
  rx : m.rx = l.rx
  gap : m.gap = l.gap
  buffer : m.buffer = l.buffer
  reply : m.reply = l.reply
  sending : m.sending = l.sending
  mask : m.mask = l.mask
  restart : m.restart = l.restart
  frozen : m.frozen = l.frozen
  checkFailed : m.flags.checkFailed = l.flags.checkFailed
  overrun : m.flags.overrun = l.flags.overrun
  notices : NoticeLaw l → NoticeLaw m

/-- What the blocks may do to the state within a step, but for the seventh law. -/
structure Moves (s t : State) : Prop where
  pending : t.pending = s.pending
  clock : t.clock = s.clock
  plan : t.plan = s.plan
  mode : t.sched.mode = s.sched.mode
  alertMode : t.watches.mode = s.watches.mode
  link : LinkMoved s.link t.link
  carriers : CarrierLaw s.carriers → CarrierLaw t.carriers
  services : ServiceLaw s.services → ServiceLaw t.services
  selections : SelectionLaw s.services → SelectionLaw t.services
  urgent : UrgentLaw s.sched → UrgentLaw t.sched
  requests : RequestLaw s.router → RequestLaw t.router
  records : RecordLaw s.router → RecordLaw t.router
  slots : SlotLaw s.slots → SlotLaw t.slots
  reference : ReferenceLaw s.slots s.reference → ReferenceLaw t.slots t.reference
  candidates : CarrierLaw s.carriers → CandidateLaw s.services → CandidateLaw t.services
  due : IntervalLaw s.plan → DueLaw s → DueLaw t

/-- What the blocks may do to the state within a step. -/
structure Evolves (s t : State) : Prop extends Moves s t where
  routes : SlotLaw s.slots → ServiceLaw s.services → RouteLaw s → RouteLaw t

theorem LinkMoved.refl (l : Link) : LinkMoved l l := ⟨rfl, rfl, rfl, rfl, rfl, rfl, rfl, rfl, rfl, rfl, id⟩

theorem LinkMoved.trans {l m n : Link} (h : LinkMoved l m) (k : LinkMoved m n) : LinkMoved l n :=
  ⟨k.rx.trans h.rx, k.gap.trans h.gap, k.buffer.trans h.buffer, k.reply.trans h.reply, k.sending.trans h.sending,
    k.mask.trans h.mask, k.restart.trans h.restart, k.frozen.trans h.frozen, k.checkFailed.trans h.checkFailed,
    k.overrun.trans h.overrun, fun x => k.notices (h.notices x)⟩

theorem Moves.refl (s : State) : Moves s s :=
  ⟨rfl, rfl, rfl, rfl, rfl, .refl _, id, id, id, id, id, id, id, id, fun _ => id, fun _ => id⟩

theorem Moves.trans {s t u : State} (h : Moves s t) (k : Moves t u) : Moves s u :=
  ⟨k.pending.trans h.pending, k.clock.trans h.clock, k.plan.trans h.plan, k.mode.trans h.mode,
    k.alertMode.trans h.alertMode, h.link.trans k.link, fun x => k.carriers (h.carriers x),
    fun x => k.services (h.services x), fun x => k.selections (h.selections x), fun x => k.urgent (h.urgent x),
    fun x => k.requests (h.requests x), fun x => k.records (h.records x), fun x => k.slots (h.slots x),
    fun x => k.reference (h.reference x), fun c x => k.candidates (h.carriers c) (h.candidates c x),
    fun p x => k.due (by rw [h.plan]; exact p) (h.due p x)⟩

theorem Evolves.refl (s : State) : Evolves s s := ⟨.refl s, fun _ _ => id⟩

theorem Evolves.trans {s t u : State} (h : Evolves s t) (k : Evolves t u) : Evolves s u :=
  ⟨h.toMoves.trans k.toMoves, fun a b x => k.routes (h.slots a) (h.services b) (h.routes a b x)⟩

/-! ## The seventh law (R129) -/

/-- Two members of a list whose members are pairwise in a symmetric relation are in it. -/
theorem pairwise_mem {β : Type} {P : β → β → Prop} (hs : ∀ a b, P a b → P b a) {l : List β} (h : l.Pairwise P) {a b : β}
    (ha : a ∈ l) (hb : b ∈ l) (hne : a ≠ b) : P a b := by
  induction l with
  | nil => simp at ha
  | cons x l ih =>
    obtain ⟨h1, h2⟩ := List.pairwise_cons.mp h
    rcases List.mem_cons.mp ha with ha1 | ha1 <;> rcases List.mem_cons.mp hb with hb1 | hb1
    · exact absurd (ha1.trans hb1.symm) hne
    · exact ha1 ▸ h1 b hb1
    · exact hb1 ▸ hs _ _ (h1 a ha1)
    · exact ih h2 ha1 hb1

/-- Under the sixth law a key finds the entry that has it. -/
theorem serviceOfKey_iff {s : State} (h : ServiceLaw s.services) {k : ServiceKey} {v : Service} :
    s.serviceOfKey k = some v ↔ ∃ i, s.service i = some v ∧ v.key = k := by
  have hs := (tabWf_iff.mp h.1).1
  constructor
  · intro hv
    unfold State.serviceOfKey at hv
    split at hv
    · cases hv
    · next i hi =>
      refine ⟨i, hv, ?_⟩
      unfold serviceIndex at hi
      split at hi
      · next e he =>
        cases hi
        have hm := tabGet_of_mem hs (List.mem_of_find?_eq_some he)
        have := List.find?_some he
        unfold State.service at hv
        rw [hm] at hv
        cases hv
        simpa using this
      · cases hi
  · rintro ⟨i, hv, hk⟩
    have hm : (i, v) ∈ s.services := mem_of_tabGet hv
    unfold State.serviceOfKey serviceIndex
    split
    · next hn =>
      split at hn
      · cases hn
      · next hf => exact absurd hk (by simpa using List.find?_eq_none.mp hf _ hm)
    · next j hj =>
      split at hj
      · next e he =>
        cases hj
        have h1 := List.mem_of_find?_eq_some he
        have h2 : e.2.key = k := by simpa using List.find?_some he
        by_cases hne : e = (i, v)
        · rw [hne]; exact hv
        · exact absurd (h2.trans hk.symm) (pairwise_mem (fun _ _ h => Ne.symm h) h.2 h1 hm hne)
      · cases hj

/-- What a room channel that is fed reads is kept: the selection of each service that has one, and the carrier of each slot
in role CARRY. -/
structure Feeds (s t : State) : Prop where
  selection : ∀ k v, s.serviceOfKey k = some v → v.selection ≠ none →
    ∃ w, t.serviceOfKey k = some w ∧ w.selection = v.selection
  carry : ∀ i, (s.slot i).role = .carry → (s.slot i).carrier ≠ none →
    (t.slot i).role = .carry ∧ (t.slot i).carrier = (s.slot i).carrier

theorem Feeds.fed {s t : State} (h : Feeds s t) {x : Room} (hx : Fed s x) : Fed t x := by
  obtain ⟨v, c, i, h1, h2, h3, h4, h5⟩ := hx
  have hk : ∃ k, x.feedingKey = some k ∧ s.serviceOfKey k = some v := by
    unfold State.feedingService at h1
    split at h1
    · cases h1
    · next k hk => exact ⟨k, hk, h1⟩
  obtain ⟨k, hk, hv⟩ := hk
  obtain ⟨w, hw, hs⟩ := h.selection k v hv (by rw [h2]; simp)
  obtain ⟨g1, g2⟩ := h.carry i h4 (by rw [h5]; simp)
  exact ⟨w, c, i, by simp [State.feedingService, hk, hw], hs.trans h2, h3, g1, g2.trans h5⟩

/-- The seventh law where no room channel's record changes. -/
theorem Feeds.routes {s t : State} (h : Feeds s t) (hr : t.router.rooms = s.router.rooms) (hs : RouteLaw s) :
    RouteLaw t := by
  intro r hl
  have he : t.room r = s.room r := by simp only [State.room, hr]
  rw [he] at hl ⊢
  exact h.fed (hs r hl)

theorem feeds_of_eq {s t : State} (h1 : t.services = s.services) (h2 : t.slots = s.slots) : Feeds s t :=
  ⟨fun k v hv _ => ⟨v, by simpa [State.serviceOfKey, State.service, h1] using hv, rfl⟩,
    fun i hr _ => by simpa [State.slot, h2] using hr⟩

/-- A change of blocks that a room channel's feed does not read. -/
theorem Moves.evolves {s t : State} (h : Moves s t) (h1 : t.services = s.services) (h2 : t.slots = s.slots)
    (h3 : t.router.rooms = s.router.rooms) : Evolves s t :=
  ⟨h, fun _ _ => (feeds_of_eq h1 h2).routes h3⟩

/-! ## Blocks that the slots, the carrier table, the scheduler and the carry records do not belong to -/

/-- What the notice queue, the watch unit, the room channels and the ranking unit may do to the state: they leave the
slots, the level reference, the carrier table, the scheduler and the carry records alone as well. -/
structure Ranks (s t : State) : Prop extends Evolves s t where
  sameSlots : t.slots = s.slots
  sameReference : t.reference = s.reference
  sameCarriers : t.carriers = s.carriers
  sameSched : t.sched = s.sched
  sameRecords : t.router.records = s.router.records

theorem Ranks.refl (s : State) : Ranks s s := ⟨.refl s, rfl, rfl, rfl, rfl, rfl⟩

theorem Ranks.trans {s t u : State} (h : Ranks s t) (k : Ranks t u) : Ranks s u :=
  ⟨h.toEvolves.trans k.toEvolves, k.sameSlots.trans h.sameSlots, k.sameReference.trans h.sameReference,
    k.sameCarriers.trans h.sameCarriers, k.sameSched.trans h.sameSched, k.sameRecords.trans h.sameRecords⟩

theorem ranks_foldl {β : Type} {f : State → β → State} (h : ∀ s b, Ranks s (f s b)) (l : List β) (s : State) :
    Ranks s (l.foldl f s) := by
  induction l generalizing s with
  | nil => exact .refl s
  | cons b l ih => exact (h s b).trans (ih (f s b))

/-- What one service's own doing may do to the state before it is reported: its entry keeps its key, the other entries and
the room channels are left alone. -/
structure Serves (i : Nat) (s t : State) : Prop extends Moves s t where
  sameSlots : t.slots = s.slots
  sameReference : t.reference = s.reference
  sameCarriers : t.carriers = s.carriers
  sameSched : t.sched = s.sched
  sameRecords : t.router.records = s.router.records
  sameRooms : t.router.rooms = s.router.rooms
  others : ∀ j, j ≠ i → t.service j = s.service j
  sameKey : (t.service i).map (·.key) = (s.service i).map (·.key)

theorem Serves.refl (i : Nat) (s : State) : Serves i s s :=
  ⟨.refl s, rfl, rfl, rfl, rfl, rfl, rfl, fun _ _ => rfl, rfl⟩

theorem Serves.trans {i : Nat} {s t u : State} (h : Serves i s t) (k : Serves i t u) : Serves i s u :=
  ⟨h.toMoves.trans k.toMoves, k.sameSlots.trans h.sameSlots, k.sameReference.trans h.sameReference,
    k.sameCarriers.trans h.sameCarriers, k.sameSched.trans h.sameSched, k.sameRecords.trans h.sameRecords,
    k.sameRooms.trans h.sameRooms, fun j hj => (k.others j hj).trans (h.others j hj), k.sameKey.trans h.sameKey⟩

/-- A service's own doing that leaves its selection as it was feeds every room channel as before. -/
theorem Serves.feeds {i : Nat} {s t : State} (h : Serves i s t) (hs : ServiceLaw s.services)
    (he : (t.service i).map (·.selection) = (s.service i).map (·.selection)) : Feeds s t := by
  refine ⟨fun k v hv _ => ?_, fun j hr _ => by simpa [State.slot, h.sameSlots] using hr⟩
  obtain ⟨j, hj, hk⟩ := (serviceOfKey_iff hs).mp hv
  by_cases hji : j = i
  · subst hji
    have h1 := h.sameKey
    rw [hj] at h1 he
    cases hw : t.service j with
    | none => rw [hw] at h1; cases h1
    | some w =>
      rw [hw] at h1 he
      simp only [Option.map_some, Option.some.injEq] at h1 he
      exact ⟨w, (serviceOfKey_iff (h.services hs)).mpr ⟨j, hw, h1.trans hk⟩, he⟩
  · exact ⟨v, (serviceOfKey_iff (h.services hs)).mpr ⟨j, (h.others j hji).trans hj, hk⟩, rfl⟩

theorem Serves.evolves {i : Nat} {s t : State} (h : Serves i s t)
    (he : (t.service i).map (·.selection) = (s.service i).map (·.selection)) : Evolves s t :=
  ⟨h.toMoves, fun _ hs => (h.feeds hs he).routes h.sameRooms⟩

theorem Serves.ranks {i : Nat} {s t : State} (h : Serves i s t)
    (he : (t.service i).map (·.selection) = (s.service i).map (·.selection)) : Ranks s t :=
  ⟨h.evolves he, h.sameSlots, h.sameReference, h.sameCarriers, h.sameSched, h.sameRecords⟩

/-! ## Changes of one block -/

theorem moves_setLink {s : State} {l : Link} (h : LinkMoved s.link l) : Moves s (s.setLink l) :=
  ⟨rfl, rfl, rfl, rfl, rfl, h, id, id, id, id, id, id, id, id, fun _ => id, fun _ => id⟩

theorem moves_setRouter {s : State} {r : Router} (h : RequestLaw s.router → RequestLaw r)
    (h2 : RecordLaw s.router → RecordLaw r) : Moves s (s.setRouter r) :=
  ⟨rfl, rfl, rfl, rfl, rfl, .refl _, id, id, id, id, h, h2, id, id, fun _ => id, fun _ => id⟩

theorem moves_setServices {s : State} {t : Table Service} (h : ServiceLaw s.services → ServiceLaw t)
    (h2 : SelectionLaw s.services → SelectionLaw t)
    (h3 : CarrierLaw s.carriers → CandidateLaw s.services → CandidateLaw t) : Moves s (s.setServices t) :=
  ⟨rfl, rfl, rfl, rfl, rfl, .refl _, id, h, h2, id, id, id, id, id, h3, fun _ => id⟩

theorem moves_setSlots {s : State} {v : Vector Slot 8} (h : SlotLaw s.slots → SlotLaw v)
    (h2 : ReferenceLaw s.slots s.reference → ReferenceLaw v s.reference) : Moves s (s.setSlots v) :=
  ⟨rfl, rfl, rfl, rfl, rfl, .refl _, id, id, id, id, id, id, h, h2, fun _ => id, fun _ => id⟩

theorem evolves_setLink {s : State} {l : Link} (h : LinkMoved s.link l) : Evolves s (s.setLink l) :=
  (moves_setLink h).evolves rfl rfl rfl

theorem evolves_setWatches {s : State} {u : WatchUnit} (h : u.mode = s.watches.mode) : Evolves s (s.setWatches u) :=
  Moves.evolves ⟨rfl, rfl, rfl, rfl, h, .refl _, id, id, id, id, id, id, id, id, fun _ => id, fun _ => id⟩ rfl rfl rfl

/-- A change of the carrier table that keeps the fifth law and the tenth. -/
theorem evolves_setCarriers {s : State} {t : Table Carrier} (h : CarrierLaw s.carriers → CarrierLaw t)
    (h2 : IntervalLaw s.plan → DueLaw s → DueLaw (s.setCarriers t)) : Evolves s (s.setCarriers t) :=
  Moves.evolves ⟨rfl, rfl, rfl, rfl, rfl, .refl _, h, id, id, id, id, id, id, id, fun _ => id, h2⟩ rfl rfl rfl

theorem evolves_setSched {s : State} {c : Scheduler} (hm : c.mode = s.sched.mode)
    (h : UrgentLaw s.sched → UrgentLaw c) : Evolves s (s.setSched c) :=
  Moves.evolves ⟨rfl, rfl, rfl, hm, rfl, .refl _, id, id, id, h, id, id, id, id, fun _ => id, fun _ => id⟩ rfl rfl rfl

theorem evolves_setRouter {s : State} {r : Router} (h : RequestLaw s.router → RequestLaw r)
    (h2 : RecordLaw s.router → RecordLaw r) (h3 : r.rooms = s.router.rooms) : Evolves s (s.setRouter r) :=
  (moves_setRouter h h2).evolves rfl rfl h3

theorem ranks_setLink {s : State} {l : Link} (h : LinkMoved s.link l) : Ranks s (s.setLink l) :=
  ⟨evolves_setLink h, rfl, rfl, rfl, rfl, rfl⟩

theorem ranks_setWatches {s : State} {u : WatchUnit} (h : u.mode = s.watches.mode) : Ranks s (s.setWatches u) :=
  ⟨evolves_setWatches h, rfl, rfl, rfl, rfl, rfl⟩

theorem recordLaw_of_eq {r t : Router} (h : t.records = r.records) (k : RecordLaw r) : RecordLaw t := by
  unfold RecordLaw at k ⊢; rw [h]; exact k

theorem ranks_setRouter {s : State} {r : Router} (h : RequestLaw s.router → RequestLaw r)
    (h2 : r.records = s.router.records) (h3 : r.rooms = s.router.rooms) : Ranks s (s.setRouter r) :=
  ⟨evolves_setRouter h (recordLaw_of_eq h2) h3, rfl, rfl, rfl, rfl, h2⟩

theorem serves_setRouter (i : Nat) {s : State} {r : Router} (h : RequestLaw s.router → RequestLaw r)
    (h2 : r.records = s.router.records) (h3 : r.rooms = s.router.rooms) : Serves i s (s.setRouter r) :=
  ⟨moves_setRouter h (recordLaw_of_eq h2), rfl, rfl, rfl, rfl, h2, h3, fun _ _ => rfl, rfl⟩

theorem evolves_setDraws {s : State} (n : Nat) : Evolves s (s.setDraws n) :=
  Moves.evolves ⟨rfl, rfl, rfl, rfl, rfl, .refl _, id, id, id, id, id, id, id, id, fun _ => id, fun _ => id⟩ rfl rfl rfl

theorem evolves_setReference {s : State} {r : Reference} (h : ReferenceLaw s.slots s.reference → ReferenceLaw s.slots r) :
    Evolves s (s.setReference r) :=
  Moves.evolves ⟨rfl, rfl, rfl, rfl, rfl, .refl _, id, id, id, id, id, id, id, h, fun _ => id, fun _ => id⟩ rfl rfl rfl

/-! ## Runs over lists -/

theorem evolves_foldl {β : Type} {f : State → β → State} (h : ∀ s b, Evolves s (f s b)) (l : List β) (s : State) :
    Evolves s (l.foldl f s) := by
  induction l generalizing s with
  | nil => exact .refl s
  | cons b l ih => exact (h s b).trans (ih (f s b))

/-! ## Slots -/

/-- A change of one slot keeps the first law when it keeps what `SlotOk` says of it and gives it no new carrier. -/
theorem slotLaw_set {v : Vector Slot 8} {i : Fin 8} {r : Slot}
    (hr : SlotOk v[i] → SlotOk r) (hc : r.carrier = v[i].carrier ∨ r.carrier = none) (h : SlotLaw v) :
    SlotLaw (v.set i r) := by
  have hget : ∀ j : Fin 8, (v.set i r)[j] = if i = j then r else v[j] := by
    intro j
    simp only [Fin.getElem_fin, Vector.getElem_set]
    by_cases e : i = j
    · simp [e]
    · rw [if_neg (fun h => e (Fin.ext h)), if_neg e]
  refine ⟨fun j => ?_, fun j k hjk hj => ?_⟩
  · rw [hget]
    split
    · exact hr (h.1 i)
    · exact h.1 j
  · rw [hget, hget] at hjk
    rw [hget] at hj
    by_cases e1 : i = j <;> by_cases e2 : i = k
    · exact e1.symm.trans e2
    · rw [if_pos e1, if_neg e2] at hjk
      rw [if_pos e1] at hj
      rcases hc with hc | hc
      · exact e1.symm.trans (h.2 i k (hc.symm.trans hjk) (fun e => hj (hc.trans e)))
      · exact absurd hc hj
    · rw [if_neg e1, if_pos e2] at hjk
      rw [if_neg e1] at hj
      rcases hc with hc | hc
      · exact (h.2 j i (hjk.trans hc) hj).trans e2
      · exact absurd (hjk.trans hc) hj
    · rw [if_neg e1, if_neg e2] at hjk
      rw [if_neg e1] at hj
      exact h.2 j k hjk hj

/-- A change of one slot that does not take it out of LOCKED keeps the second law. -/
theorem referenceLaw_set {v : Vector Slot 8} {ref : Reference} {i : Fin 8} {r : Slot}
    (hs : v[i].state = .locked → r.state = .locked) (h : ReferenceLaw v ref) : ReferenceLaw (v.set i r) ref := by
  refine ⟨h.1, h.2.1, fun j hj => ?_⟩
  have := h.2.2 j hj
  by_cases e : i = j
  · subst e
    simpa using hs this
  · simpa [Vector.getElem_set, Fin.val_inj, e] using this

/-- A slot in role CARRY on a carrier stays on it. -/
def StaysCarried (b a : Slot) : Prop := b.role = .carry → b.carrier ≠ none → a.role = .carry ∧ a.carrier = b.carrier

theorem slot_putSlot (i j : Fin 8) (r : Slot) (s : State) : (putSlot i r s).slot j = if i = j then r else s.slot j := by
  simp only [State.slot, putSlot, State.setSlots, Fin.getElem_fin, Vector.getElem_set]
  by_cases e : i = j
  · simp [e]
  · rw [if_neg (fun h => e (Fin.ext h)), if_neg e]

theorem moves_putSlot {s : State} {i : Fin 8} {r : Slot} (hr : SlotOk (s.slot i) → SlotOk r)
    (hc : r.carrier = (s.slot i).carrier ∨ r.carrier = none) (hs : (s.slot i).state = .locked → r.state = .locked) :
    Moves s (putSlot i r s) :=
  moves_setSlots (slotLaw_set hr hc) (referenceLaw_set hs)

/-- A slot that stays carried feeds every room channel as before. -/
theorem routes_putSlot {s : State} {i : Fin 8} {r : Slot} (h : StaysCarried (s.slot i) r) (hs : RouteLaw s) :
    RouteLaw (putSlot i r s) := by
  refine Feeds.routes (s := s) ⟨fun k v hv _ => ⟨v, hv, rfl⟩, fun j hj hc => ?_⟩ rfl hs
  rw [slot_putSlot]
  split
  · next e => subst e; exact h hj hc
  · exact ⟨hj, rfl⟩

/-- A change of slot `i`. -/
theorem evolves_putSlot {s : State} {i : Fin 8} {r : Slot} (hr : SlotOk (s.slot i) → SlotOk r)
    (hc : r.carrier = (s.slot i).carrier ∨ r.carrier = none) (hs : (s.slot i).state = .locked → r.state = .locked)
    (hk : SlotOk (s.slot i) → StaysCarried (s.slot i) r) : Evolves s (putSlot i r s) :=
  ⟨moves_putSlot hr hc hs, fun h _ => routes_putSlot (hk (h.1 i))⟩

theorem evolves_modSlot {s : State} {i : Fin 8} {f : Slot → Slot} (hr : SlotOk (s.slot i) → SlotOk (f (s.slot i)))
    (hc : (f (s.slot i)).carrier = (s.slot i).carrier ∨ (f (s.slot i)).carrier = none)
    (hs : (s.slot i).state = .locked → (f (s.slot i)).state = .locked)
    (hk : SlotOk (s.slot i) → StaysCarried (s.slot i) (f (s.slot i))) : Evolves s (modSlot i f s) :=
  evolves_putSlot hr hc hs hk

/-- A change of slot `i` that leaves its state, role, carrier and window activity as they were. -/
theorem evolves_modSlot_plain {s : State} {i : Fin 8} {f : Slot → Slot}
    (h : ∀ r, (f r).state = r.state ∧ (f r).role = r.role ∧ (f r).carrier = r.carrier ∧ (f r).meas.active = r.meas.active) :
    Evolves s (modSlot i f s) := by
  obtain ⟨h1, h2, h3, h4⟩ := h (s.slot i)
  exact evolves_modSlot (by simp only [SlotOk, h1, h2, h3, h4]; exact id) (.inl h3) (by rw [h1]; exact id)
    fun _ hr _ => ⟨h2.trans hr, h3⟩

/-! ## Services -/

/-- The fourth law of one service. -/
def ServiceOk (v : Service) : Prop := v.selection = none ↔ v.state = .unavailable

theorem serviceLaw_put {t : Table Service} {i : Nat} {v w : Service} (hv : tabGet t i = some v) (hk : w.key = v.key)
    (h : ServiceLaw t) : ServiceLaw (tabPut t i w) := by
  refine ⟨tabWf_tabPut (lt_of_tabGet h.1 hv) h.1, pairwise_tabPut (fun _ _ h => Ne.symm h) h.2 ?_ (tabWf_iff.mp h.1).1⟩
  intro e he hi hk2
  have hm := mem_of_tabGet hv
  exact pairwise_mem (fun _ _ h => Ne.symm h) h.2 hm he (fun h => hi (congrArg Prod.fst h).symm) (hk.symm.trans hk2)

theorem selectionLaw_put {t : Table Service} {i : Nat} {w : Service} (hw : ServiceOk w) (h : SelectionLaw t) :
    SelectionLaw (tabPut t i w) := by
  intro e he
  rcases mem_tabPut he with rfl | he
  · exact hw
  · exact h e he

theorem candidateLaw_put {t : Table Service} {i : Nat} {w : Service} (hw : CandidatesOk w) (h : CandidateLaw t) :
    CandidateLaw (tabPut t i w) := by
  intro e he
  rcases mem_tabPut he with rfl | he
  · exact hw
  · exact h e he

theorem service_putService (i j : Nat) (v : Service) (s : State) :
    (putService i v s).service j = if j = i then some v else s.service j := by
  simp only [State.service, putService, State.setServices]
  split
  · next h => rw [h]; exact tabGet_tabPut _ _ _
  · next h => exact tabGet_tabPut_ne _ _ _ _ h

theorem service_modService (i j : Nat) (f : Service → Service) (s : State) :
    (modService i f s).service j = if j = i then (s.service i).map f else s.service j := by
  unfold modService
  split
  · next h =>
    split
    · next e => rw [e, h]; rfl
    · rfl
  · next v h => rw [service_putService]; simp [h]

/-- A change of service `i` that keeps its key, the fourth law and the third. -/
theorem serves_modService {s : State} {i : Nat} {f : Service → Service}
    (h : ∀ v, s.service i = some v → (f v).key = v.key ∧ (ServiceOk v → ServiceOk (f v)) ∧
      (CarrierLaw s.carriers → CandidatesOk v → CandidatesOk (f v))) : Serves i s (modService i f s) := by
  have hk : ((modService i f s).service i).map (·.key) = (s.service i).map (·.key) := by
    rw [service_modService, if_pos rfl]
    cases hv : s.service i with
    | none => rfl
    | some v => simpa using (h v hv).1
  have ho : ∀ j, j ≠ i → (modService i f s).service j = s.service j := fun j hj => by
    rw [service_modService, if_neg hj]
  cases hv : s.service i with
  | none => rw [modService, hv]; exact .refl i s
  | some v =>
    have he : modService i f s = putService i (f v) s := by rw [modService, hv]
    rw [he] at hk ho ⊢
    exact ⟨moves_setServices (serviceLaw_put hv (h v hv).1)
      (fun hs => selectionLaw_put ((h v hv).2.1 (hs _ (mem_of_tabGet hv))) hs)
      (fun hc hs => candidateLaw_put ((h v hv).2.2 hc (hs _ (mem_of_tabGet hv))) hs), rfl, rfl, rfl, rfl, rfl, rfl, ho, hk⟩

/-- A change of service `i` that leaves its key, state, selection and candidate list as they were. -/
theorem ranks_modService_plain {s : State} {i : Nat} {f : Service → Service}
    (h : ∀ v, (f v).key = v.key ∧ (f v).state = v.state ∧ (f v).selection = v.selection ∧ (f v).cands = v.cands) :
    Ranks s (modService i f s) := by
  refine Serves.ranks (i := i) (serves_modService fun v _ => ⟨(h v).1, ?_, fun _ => ?_⟩) ?_
  · simp only [ServiceOk, (h v).2.1, (h v).2.2.1]; exact id
  · exact candidatesOk_keep (h v).2.2.2 (h v).2.2.1
  · rw [service_modService, if_pos rfl]
    cases s.service i with
    | none => rfl
    | some v => simpa using (h v).2.2.1

/-! ## Carriers -/

theorem carrierLaw_put {t : Table Carrier} {i : Nat} {c d : Carrier} (hc : tabGet t i = some c)
    (hi : d.input = c.input) (hf : d.freq = c.freq) (h : CarrierLaw t) : CarrierLaw (tabPut t i d) := by
  refine ⟨tabWf_tabPut (lt_of_tabGet h.1 hc) h.1,
    pairwise_tabPut (fun _ _ h => h.imp Ne.symm Ne.symm) h.2 ?_ (tabWf_iff.mp h.1).1⟩
  intro e he hne
  have hm := mem_of_tabGet hc
  have := pairwise_mem (fun _ _ h => h.imp Ne.symm Ne.symm) h.2 hm he (fun h => hne (congrArg Prod.fst h).symm)
  simpa only [hi, hf] using this

theorem carrierLaw_sublist {t u : Table Carrier} (h : t.Sublist u) (hu : CarrierLaw u) : CarrierLaw t :=
  ⟨tabWf_sublist h hu.1, hu.2.sublist h⟩

/-- A change of every entry that keeps every key. -/
theorem carrierLaw_map {t : Table Carrier} {f : Nat × Carrier → Nat × Carrier} (h1 : ∀ e, (f e).1 = e.1)
    (hi : ∀ e, (f e).2.input = e.2.input) (hf : ∀ e, (f e).2.freq = e.2.freq) (h : CarrierLaw t) :
    CarrierLaw (t.map f) := by
  refine ⟨tabWf_of_keys ?_ h.1, ?_⟩
  · simp [tabKeys, h1]
  · rw [List.pairwise_map]
    simpa [hi, hf] using h.2

end Sys2Proof.Machine
end

