-- ==== Sys2Proof/Laws/Blocks.lean ====
section
/-! SUPPORT. What the notice queue, the watch unit, the room channels, the passes and the ranking unit may do to the state
(`Evolves`), one lemma for each operation. -/

namespace Sys2Proof.Machine

/-! ## Blocks of the state -/

theorem evolves_modSched {s : State} {f : Scheduler → Scheduler} (hm : (f s.sched).mode = s.sched.mode)
    (h : UrgentLaw s.sched → UrgentLaw (f s.sched)) : Evolves s (modSched f s) := evolves_setSched hm h

theorem evolves_modRouter {s : State} {f : Router → Router} (h : RequestLaw s.router → RequestLaw (f s.router))
    (h2 : RecordLaw s.router → RecordLaw (f s.router)) (h3 : (f s.router).rooms = s.router.rooms) :
    Evolves s (modRouter f s) := evolves_setRouter h h2 h3

theorem ranks_modWatches {s : State} {f : WatchUnit → WatchUnit} (h : (f s.watches).mode = s.watches.mode) :
    Ranks s (modWatches f s) := ranks_setWatches h

theorem ranks_modRouter {s : State} {f : Router → Router} (h : RequestLaw s.router → RequestLaw (f s.router))
    (h2 : (f s.router).records = s.router.records) (h3 : (f s.router).rooms = s.router.rooms) :
    Ranks s (modRouter f s) := ranks_setRouter h h2 h3

theorem serves_modRouter (i : Nat) {s : State} {f : Router → Router} (h : RequestLaw s.router → RequestLaw (f s.router))
    (h2 : (f s.router).records = s.router.records) (h3 : (f s.router).rooms = s.router.rooms) :
    Serves i s (modRouter f s) := serves_setRouter i h h2 h3

theorem evolves_searchDue (s : State) : Evolves s (searchDue s) := evolves_modSched rfl id

theorem evolves_drawOrder {α : Type} (l : List α) (s : State) : Evolves s (drawOrder l s).2 := by
  unfold drawOrder
  dsimp only
  split
  · exact .refl s
  · exact evolves_setDraws _

/-! ## Notices (R170) -/

/-- R170: an offer keeps the eighth law. -/
theorem noticeLaw_offerLink (n : Notice) {l : Link} (h : NoticeLaw l) : NoticeLaw (offerLink n l) := by
  unfold offerLink
  split
  · exact h
  · split
    · next hw =>
      refine ⟨by simpa using h.1, ?_⟩
      rw [List.pairwise_map]
      refine h.2.imp_of_mem fun {a b} ha hb hab => ?_
      by_cases h1 : sameNotice n.kind n.subject a = true <;> by_cases h2 : sameNotice n.kind n.subject b = true <;>
        simp_all [sameNotice]
      all_goals grind
    · split
      · exact h
      · next hn hl =>
        refine ⟨by simp only [List.length_append, List.length_singleton]; omega, ?_⟩
        refine List.pairwise_append.mpr ⟨h.2, List.pairwise_singleton _ _, fun a ha b hb => ?_⟩
        rw [List.mem_singleton.mp hb]
        simp only [List.any_eq_true, not_exists, not_and, sameNotice, Bool.and_eq_true, decide_eq_true_eq] at hn
        by_cases hk : a.kind = n.kind
        · exact .inr fun hs => hn a ha hk hs
        · exact .inl hk

theorem linkMoved_offerLink (n : Notice) (l : Link) : LinkMoved l (offerLink n l) where
  rx := by unfold offerLink; split <;> [rfl; split <;> [rfl; split <;> rfl]]
  gap := by unfold offerLink; split <;> [rfl; split <;> [rfl; split <;> rfl]]
  buffer := by unfold offerLink; split <;> [rfl; split <;> [rfl; split <;> rfl]]
  reply := by unfold offerLink; split <;> [rfl; split <;> [rfl; split <;> rfl]]
  sending := by unfold offerLink; split <;> [rfl; split <;> [rfl; split <;> rfl]]
  mask := by unfold offerLink; split <;> [rfl; split <;> [rfl; split <;> rfl]]
  restart := by unfold offerLink; split <;> [rfl; split <;> [rfl; split <;> rfl]]
  frozen := by unfold offerLink; split <;> [rfl; split <;> [rfl; split <;> rfl]]
  checkFailed := by unfold offerLink; split <;> [rfl; split <;> [rfl; split <;> rfl]]
  overrun := by unfold offerLink; split <;> [rfl; split <;> [rfl; split <;> rfl]]
  notices := noticeLaw_offerLink n

theorem ranks_offer (k : NoticeKind) (i : Nat) (c : List Byte) (s : State) : Ranks s (offer k i c s) :=
  ranks_setLink (linkMoved_offerLink _ _)

/-! ## Watches (R157, R158) -/

theorem alertOnFire_mode (u : WatchUnit) : (alertOnFire u).mode = u.mode := by
  unfold alertOnFire
  split <;> simp_all

theorem ranks_fireWatch (n : Fin 16) (i : Nat) (a : View) (s : State) : Ranks s (fireWatch n i a s) := by
  unfold fireWatch
  have h1 : Ranks s (modWatches (fun u => { u with entries := u.entries.set n (firedEntry i s.watches.entries[n]) }) s) :=
    ranks_modWatches rfl
  have h2 := h1.trans (ranks_offer .watch n.val
    (watchNotice n.val (firedEntry i s.watches.entries[n]) i s.now a) _)
  dsimp only
  split
  · exact h2.trans (ranks_modWatches (alertOnFire_mode _))
  · exact h2

theorem ranks_handPair (k : SubjectKind) (i : Nat) (b a : Option View) (s : State) : Ranks s (handPair k i b a s) := by
  refine ranks_foldl (fun s n => ?_) _ s
  unfold judgeWatch
  split
  · exact .refl s
  · split
    · exact ranks_fireWatch ..
    · exact .refl s

/-- A pair of records handed to the watch unit reaches the watches and the notice queue alone. -/
theorem handPair_shape (k : SubjectKind) (i : Nat) (b a : Option View) (s : State) :
    ∃ l u, handPair k i b a s = (s.setLink l).setWatches u := by
  unfold handPair
  generalize allWatches = ns
  induction ns generalizing s with
  | nil => exact ⟨s.link, s.watches, rfl⟩
  | cons n ns ih =>
    have h1 : ∃ l u, judgeWatch k i b a s n = (s.setLink l).setWatches u := by
      unfold judgeWatch
      split
      · exact ⟨s.link, s.watches, rfl⟩
      · split
        · unfold fireWatch
          dsimp only
          split
          · exact ⟨_, _, rfl⟩
          · exact ⟨_, _, rfl⟩
        · exact ⟨s.link, s.watches, rfl⟩
    obtain ⟨l, u, h1⟩ := h1
    obtain ⟨l2, u2, h2⟩ := ih (judgeWatch k i b a s n)
    rw [List.foldl_cons, h2, h1]
    exact ⟨l2, u2, rfl⟩

/-! ## Room channels (R127 to R132) -/

/-- R127 to R131: a change of a room channel reaches its record, the watches and the notice queue alone. -/
theorem changeRoom_shape (r : Fin 48) (x : Room) (s : State) :
    ∃ l u, changeRoom r x s = ((putRoom r x s).setLink l).setWatches u := by
  unfold changeRoom
  dsimp only
  split
  · obtain ⟨l, u, h⟩ := handPair_shape .room r.val (some (roomView (s.room r))) (some (roomView x))
      (offer .room r.val (roomNotice r x) (putRoom r x s))
    exact ⟨l, u, h.trans rfl⟩
  · exact ⟨_, _, rfl⟩

theorem room_putRoom (r j : Fin 48) (x : Room) (s : State) :
    (putRoom r x s).room j = if r = j then x else s.room j := by
  simp only [State.room, putRoom, State.setRouter, Fin.getElem_fin, Vector.getElem_set]
  by_cases e : r = j
  · simp [e]
  · rw [if_neg (fun h => e (Fin.ext h)), if_neg e]

theorem room_changeRoom (r j : Fin 48) (x : Room) (s : State) :
    (changeRoom r x s).room j = if r = j then x else s.room j := by
  obtain ⟨l, u, h⟩ := changeRoom_shape r x s
  rw [h, ← room_putRoom]
  rfl

theorem feeds_changeRoom (r : Fin 48) (x : Room) (s : State) : Feeds s (changeRoom r x s) := by
  obtain ⟨l, u, h⟩ := changeRoom_shape r x s
  rw [h]
  exact feeds_of_eq rfl rfl

theorem moves_changeRoom (r : Fin 48) (x : Room) (s : State) : Moves s (changeRoom r x s) := by
  have h1 : Moves s (putRoom r x s) := moves_setRouter id id
  unfold changeRoom
  dsimp only
  split
  · exact (h1.trans (ranks_offer ..).toMoves).trans (ranks_handPair ..).toMoves
  · exact h1

/-- A change of a room channel to a record that is fed if it is LIVE or HELD. -/
theorem ranks_changeRoom {r : Fin 48} {x : Room} {s : State} (hx : x.route = .live ∨ x.route = .held → Fed s x) :
    Ranks s (changeRoom r x s) := by
  obtain ⟨l, u, h⟩ := changeRoom_shape r x s
  refine ⟨⟨moves_changeRoom r x s, fun _ _ hs j => ?_⟩, ?_, ?_, ?_, ?_, ?_⟩
  · rw [room_changeRoom]
    split
    · exact fun hl => (feeds_changeRoom r x s).fed (hx hl)
    · exact fun hl => (feeds_changeRoom r x s).fed (hs j hl)
  all_goals rw [h]; rfl

theorem feedingService_congr {s : State} {x y : Room} (h1 : y.feeding = x.feeding) (h2 : y.primary = x.primary)
    (h3 : y.fallback = x.fallback) : s.feedingService y = s.feedingService x := by
  simp only [State.feedingService, Room.feedingKey, h1, h2, h3]

/-- R129: a recompute leaves a channel LIVE or HELD only as it is fed. -/
theorem fed_routeRoom (s : State) (x : Room) (h : (routeRoom s x).route = .live ∨ (routeRoom s x).route = .held) :
    Fed s (routeRoom s x) := by
  unfold routeRoom at h ⊢
  split at h
  · simp at h
  · next hn =>
    rw [if_neg hn]
    split at h
    · simp [slateRoom] at h
    · next v hv =>
      split at h
      · simp [slateRoom] at h
      · next c hc =>
        split at h
        · simp [slateRoom] at h
        · next i hi =>
          split at h
          · next hf =>
            rw [if_pos hf]
            have hs := List.find?_some hi
            simp only [slotStreams, Bool.and_eq_true, decide_eq_true_eq] at hs
            exact ⟨v, c, i, (feedingService_congr rfl rfl rfl).trans hv, hc, hf, hs.1.1, hs.2⟩
          · unfold switchingRoom at h
            split at h
            · next hsw => simp [hsw.1] at h
            · simp at h

theorem ranks_recomputeRoom (s : State) (r : Fin 48) : Ranks s (recomputeRoom s r) :=
  ranks_changeRoom (fed_routeRoom s _)

theorem ranks_recomputeRooms (s : State) : Ranks s (recomputeRooms s) := ranks_foldl ranks_recomputeRoom _ s

/-- R129: after a recompute of every channel the seventh law holds, whatever held before. -/
theorem routeLaw_recomputeRooms (s : State) : RouteLaw (recomputeRooms s) := by
  have key : ∀ (l : List (Fin 48)) (s : State) (P : Fin 48 → Prop),
      (∀ r, P r → (s.room r).route = .live ∨ (s.room r).route = .held → Fed s (s.room r)) →
      ∀ r, P r ∨ r ∈ l → ((l.foldl recomputeRoom s).room r).route = .live ∨
        ((l.foldl recomputeRoom s).room r).route = .held → Fed (l.foldl recomputeRoom s) ((l.foldl recomputeRoom s).room r) := by
    intro l
    induction l with
    | nil => exact fun s P h r hr => h r (hr.resolve_right (by simp))
    | cons x l ih =>
      intro s P h r hr
      refine ih (recomputeRoom s x) (fun j => P j ∨ j = x) (fun j hj => ?_) r ?_
      · unfold recomputeRoom
        rw [room_changeRoom]
        split
        · exact fun hl => (feeds_changeRoom ..).fed (fed_routeRoom s _ hl)
        · next hne =>
          exact fun hl => (feeds_changeRoom ..).fed (h j (hj.resolve_right fun e => hne e.symm) hl)
      · rcases hr with hr | hr
        · exact .inl (.inl hr)
        · exact (List.mem_cons.mp hr).elim (fun e => .inl (.inr e)) .inr
  intro r
  exact key allRooms s (fun _ => False) (fun _ h => h.elim) r (.inr (List.mem_finRange r))

/-- R131: the switch of a channel completes. -/
theorem ranks_completeSwitching (s : State) (r : Fin 48) : Ranks s (completeSwitching s r) := by
  unfold completeSwitching
  split
  · obtain ⟨l, u, h⟩ := changeRoom_shape r (completedRoom s (s.room r)) s
    obtain ⟨l2, u2, h2⟩ := changeRoom_shape r (recomputed (changeRoom r (completedRoom s (s.room r)) s)
      ((changeRoom r (completedRoom s (s.room r)) s).room r)) (changeRoom r (completedRoom s (s.room r)) s)
    refine ⟨⟨(moves_changeRoom ..).trans (ranks_recomputeRoom ..).toMoves, fun _ _ hs j => ?_⟩, ?_, ?_, ?_, ?_, ?_⟩
    · unfold recomputeRoom
      rw [room_changeRoom]
      split
      · exact fun hl => (feeds_changeRoom ..).fed (fed_routeRoom _ _ hl)
      · next hne =>
        rw [room_changeRoom, if_neg hne]
        exact fun hl => (feeds_changeRoom ..).fed ((feeds_changeRoom ..).fed (hs j hl))
    all_goals (unfold recomputeRoom; rw [h2, h]; rfl)
  · exact .refl s

/-! ## Passes and the urgent list (R93, R94, R105, R106) -/

theorem evolves_endPass (o : PassOutcome) (s : State) : Evolves s (endPass o s) :=
  (evolves_modSched rfl id).trans (ranks_offer ..).toEvolves

theorem evolves_startPass (s : State) : Evolves s (startPass s) := by
  unfold startPass
  dsimp only
  split
  · exact (evolves_endPass ..).trans (evolves_modSched rfl id)
  · exact evolves_modSched rfl id

theorem evolves_leaveSet (i : Nat) (s : State) : Evolves s (leaveSet i s) := by
  unfold leaveSet
  split
  · exact evolves_modSched rfl id
  · exact .refl s

theorem evolves_joinSet (i : Nat) (s : State) : Evolves s (joinSet i s) := by
  unfold joinSet
  split
  · exact evolves_modSched rfl id
  · exact .refl s

theorem evolves_checkPassEnd (s : State) : Evolves s (checkPassEnd s) := by
  unfold checkPassEnd
  dsimp only
  split
  · exact (evolves_endPass ..).trans (evolves_modSched rfl id)
  · exact evolves_modSched rfl id

theorem evolves_dropUrgent (i : Nat) (s : State) : Evolves s (dropUrgent i s) :=
  evolves_modSched rfl fun h => ⟨h.1.filter _, (List.length_filter_le _ _).trans h.2⟩

theorem evolves_returnUrgent (i : Nat) (s : State) : Evolves s (returnUrgent i s) := by
  unfold returnUrgent
  split
  · exact .refl s
  · next hn =>
    refine evolves_modSched rfl fun h => ⟨List.nodup_cons.mpr ⟨fun hi => hn (.inl hi), h.1⟩, ?_⟩
    have : ¬ urgentPlaces ≤ s.sched.urgent.length := fun hl => hn (.inr hl)
    simp only [List.length_cons]
    omega

end Sys2Proof.Machine
end

