-- ==== Sys2Proof/Laws/Ranking.lean ====
section
/-! SUPPORT. What the service ranking unit may do to the state (`Ranks`), one lemma for each operation. -/

namespace Sys2Proof.Machine

/-! ## Candidate lists (R114, R115) -/

theorem settleConstrained_key (v : Service) : (settleConstrained v).key = v.key := by
  unfold settleConstrained; split <;> rfl

theorem settleConstrained_ok {v : Service} (h : ServiceOk v) : ServiceOk (settleConstrained v) := by
  unfold settleConstrained; split <;> exact h

theorem settleConstrained_cands {v : Service} (h : CandidatesOk v) : CandidatesOk (settleConstrained v) := by
  unfold settleConstrained; split
  · exact candidatesOk_keep rfl rfl h
  · exact h

theorem modService_modService (i : Nat) (f g : Service → Service) (s : State) :
    modService i g (modService i f s) = modService i (fun v => g (f v)) s := by
  cases hv : s.service i with
  | none => simp only [modService, hv]
  | some v =>
    have h1 : ∀ h, modService i h s = putService i (h v) s := fun h => by simp only [modService, hv]
    have h2 : (putService i (f v) s).service i = some (f v) := by rw [service_putService, if_pos rfl]
    rw [h1, h1]
    simp only [modService, h2]
    simp only [putService, State.setServices, tabPut_tabPut]

theorem rebuilt_modService (i : Nat) (f : Service → Service) (s : State) : rebuilt (modService i f s) = rebuilt s := by
  unfold modService
  split <;> rfl

theorem listed_modService (i : Nat) (f : Service → Service) (s : State) : listed (modService i f s) = listed s := by
  unfold modService
  split <;> rfl

/-- A change of service `i` that keeps its key and the fourth law, and a rebuild of its list. -/
theorem serves_rebuildAfter {i : Nat} {f : Service → Service} {s : State} (hk : ∀ v, (f v).key = v.key)
    (h : ∀ v, s.service i = some v → ServiceOk v → ServiceOk (f v)) : Serves i s (rebuildList i (modService i f s)) := by
  unfold rebuildList
  rw [rebuilt_modService, modService_modService]
  refine serves_modService fun v hv => ⟨(settleConstrained_key _).trans (hk v),
    fun ho => settleConstrained_ok (h v hv ho), fun hc _ => settleConstrained_cands (candidatesOk_rebuilt hc _)⟩

theorem serves_rebuildList (i : Nat) (s : State) : Serves i s (rebuildList i s) :=
  serves_modService fun _ _ => ⟨settleConstrained_key _, fun ho => settleConstrained_ok ho,
    fun hc _ => settleConstrained_cands (candidatesOk_rebuilt hc _)⟩

theorem listed_key (s : State) (v : Service) : (listed s v).key = v.key := by
  unfold listed; split
  · rfl
  · split <;> rfl

theorem listed_ok {s : State} {v : Service} (h : ServiceOk v) : ServiceOk (listed s v) := by
  unfold listed; split
  · exact h
  · split <;> exact h

/-- A change of service `i` that keeps its key, list and the fourth law and clears no selection, and its list formed again if
need be. -/
theorem serves_ensureAfter {i : Nat} {f : Service → Service} {s : State} (hk : ∀ v, (f v).key = v.key)
    (hc : ∀ v, (f v).cands = v.cands) (hs : ∀ v, (f v).selection = none → v.selection = none)
    (h : ∀ v, s.service i = some v → ServiceOk v → ServiceOk (f v)) :
    Serves i s (ensureListed i (modService i f s)) := by
  unfold ensureListed
  rw [listed_modService, modService_modService]
  exact serves_modService fun v hv => ⟨(listed_key s _).trans (hk v), fun ho => listed_ok (h v hv ho),
    fun hl ho => candidatesOk_listed hl ho (hc v) (hs v)⟩

/-! ## Requests (R116) -/

theorem requestLaw_post {r : Router} {q : GrantReq} (hn : ¬ (r.requests.any fun p => decide (p.service = q.service)) = true)
    (h : RequestLaw r) : RequestLaw { r with requests := r.requests ++ [q] } := by
  simp only [RequestLaw, List.map_append, List.map_cons, List.map_nil]
  refine List.nodup_append.mpr ⟨h, List.nodup_singleton _, ?_⟩
  intro a ha b hb
  rw [List.mem_singleton.mp hb]
  obtain ⟨x, hx, rfl⟩ := List.mem_map.mp ha
  simp only [List.any_eq_true, decide_eq_true_eq, not_exists, not_and] at hn
  exact hn x hx

theorem serves_postRequest (i : Nat) (q : GrantReq) (s : State) : Serves i s (postRequest q s) := by
  unfold postRequest
  split
  · exact .refl i s
  · next hn => exact serves_modRouter i (fun h => requestLaw_post hn h) rfl rfl

theorem ranks_withdrawRequest (i : Nat) (s : State) : Ranks s (withdrawRequest i s) :=
  ranks_modRouter (fun h => h.sublist (List.filter_sublist.map _)) rfl rfl

theorem serves_withdrawRequest (j i : Nat) (s : State) : Serves j s (withdrawRequest i s) :=
  serves_modRouter j (fun h => h.sublist (List.filter_sublist.map _)) rfl rfl

/-! ## Failover (R119 to R122) -/

theorem unavailableService_cands {v w : Service} (hw : w.cands = v.cands) (h : CandidatesOk v) :
    CandidatesOk (unavailableService w) :=
  candidatesOk_leads (v := v) (f := fun c => { c with lead := 0 }) (fun _ => ⟨rfl, rfl, rfl⟩)
    (by rw [← hw]; rfl) (.inr rfl) (fun _ _ => rfl) h

theorem unavailableService_ok (v : Service) : ServiceOk (unavailableService v) := ⟨fun _ => rfl, fun _ => rfl⟩

theorem serves_failoverStep3 (i : Nat) (first : Bool) (s : State) : Serves i s (failoverStep3 i first s) := by
  refine serves_modService fun v _ => ⟨?_, fun h => ?_, fun _ h => ?_⟩
  · dsimp only
    split
    · rfl
    · split <;> rfl
  · dsimp only
    split
    · exact unavailableService_ok v
    · next hn =>
      split
      · exact unavailableService_ok v
      · exact ⟨fun h => absurd (.inr h) hn, fun h => by cases h⟩
  · dsimp only
    split
    · exact unavailableService_cands rfl h
    · split
      · exact unavailableService_cands rfl h
      · exact candidatesOk_keep rfl rfl h

theorem serves_failoverCarried (i : Nat) (ex : Option Nat) (p : Purpose) (first : Bool) (s : State) :
    Serves i s (failoverCarried i ex p first s) := by
  unfold failoverCarried
  split
  · exact .refl i s
  · split
    · exact serves_failoverStep3 ..
    · exact serves_postRequest ..

theorem serves_failover (i : Nat) (first : Bool) (s : State) : Serves i s (failover i first s) := by
  unfold failover
  split
  · exact .refl i s
  · split
    · exact serves_failoverCarried ..
    · exact serves_postRequest ..

/-! ## After a rebuild (R117, R118, R123) -/

theorem serves_voluntarySwitch (i : Nat) (v : Service) (s : State) : Serves i s (voluntarySwitch i v s) := by
  unfold voluntarySwitch
  split
  · exact .refl i s
  · split
    · exact serves_postRequest ..
    · exact .refl i s

theorem selection_of_abeyance {s : State} {v : Service} (h : selectionInAbeyance s v = true) : v.selection ≠ none := by
  intro hn
  simp [selectionInAbeyance, hn] at h

theorem selection_of_eligible {s : State} {v : Service} (h : selectionEligible s v = true) : v.selection ≠ none := by
  intro hn
  simp [selectionEligible, hn] at h

/-- R123: a service that holds a selection enters a list hold. -/
theorem serves_listHeld {i : Nat} {v : Service} {s : State} (hv : (s.service i).map (·.selection) = some v.selection)
    (h : v.selection ≠ none) : Serves i s (modService i listHeld s) := by
  refine serves_modService fun w hw => ⟨rfl, fun _ => ⟨fun hs => ?_, fun hs => by cases hs⟩,
    fun _ hc => candidatesOk_keep rfl rfl hc⟩
  rw [hw] at hv
  simp only [Option.map_some, Option.some.injEq] at hv
  exact absurd (hv.symm.trans hs) h

theorem serves_actServed (i : Nat) (s : State) : Serves i s (actServed i s) := by
  unfold actServed
  split
  · exact .refl i s
  · next v hv =>
    split
    · exact serves_voluntarySwitch ..
    · split
      · next ha => exact serves_listHeld (v := v) (by rw [hv]; rfl) (selection_of_abeyance ha)
      · exact serves_failover ..

theorem switchedService_key (now settle x : Nat) (prev : Option Nat) (v : Service) :
    (switchedService now settle x prev v).key = v.key := by
  unfold switchedService; dsimp only; split <;> rfl

theorem switchedService_ok (now settle x : Nat) (prev : Option Nat) (v : Service) :
    ServiceOk (switchedService now settle x prev v) := by
  unfold switchedService ServiceOk; dsimp only; split <;> simp

theorem serves_completeSwitch (i x : Nat) (prev : Option Nat) (s : State) : Serves i s (completeSwitch i x prev s) :=
  (serves_rebuildAfter (fun _ => switchedService_key ..) fun _ _ _ => switchedService_ok ..).trans (serves_actServed ..)

theorem serves_clearSelection (i : Nat) (s : State) : Serves i s (clearSelection i s) :=
  serves_modService fun v _ => ⟨rfl, fun _ => unavailableService_ok v, fun _ h => unavailableService_cands rfl h⟩

/-- A change of service `i` that leaves its key, state, selection and candidate list as they were. -/
theorem serves_modService_plain {s : State} {i : Nat} {f : Service → Service}
    (h : ∀ v, (f v).key = v.key ∧ (f v).state = v.state ∧ (f v).selection = v.selection ∧ (f v).cands = v.cands) :
    Serves i s (modService i f s) :=
  serves_modService fun v _ => ⟨(h v).1, by simp only [ServiceOk, (h v).2.1, (h v).2.2.1]; exact id,
    fun _ => candidatesOk_keep (h v).2.2.2 (h v).2.2.1⟩

theorem serves_actWaiting {i : Nat} {v : Service} {s : State} (hv : s.service i = some v) :
    Serves i s (actWaiting i v s).1 := by
  have h1 : Serves i s (modService i (fun v => { v with deferred := { v.deferred with rebuilt := true } }) s) :=
    serves_modService_plain fun _ => ⟨rfl, rfl, rfl, rfl⟩
  have h2 : ((modService i (fun v => { v with deferred := { v.deferred with rebuilt := true } }) s).service i).map
      (·.selection) = some v.selection := by
    rw [service_modService, if_pos rfl, hv]
    rfl
  unfold actWaiting
  dsimp only
  split
  · next ha => exact h1.trans (serves_listHeld h2 (selection_of_abeyance ha.2))
  · split
    · exact h1
    · split
      · exact h1.trans (serves_rebuildAfter (fun _ => switchedService_key ..) fun _ _ _ => switchedService_ok ..)
      · exact h1

theorem serves_act (i : Nat) (s : State) : Serves i s (act i s).1 := by
  unfold act
  split
  · exact .refl i s
  · next v hv =>
    split
    · dsimp only
      split
      · exact serves_clearSelection ..
      · exact .refl i s
    · split
      · exact serves_actWaiting hv
      · split
        · dsimp only
          split
          · exact .refl i s
          · exact serves_failover ..
        · exact serves_actServed ..
        · exact .refl i s
        · split
          · dsimp only
            split
            · exact .refl i s
            · exact serves_failover ..
          · split
            · exact .refl i s
            · split
              · split
                · exact .refl i s
                · exact serves_completeSwitch ..
              · exact serves_failover ..

/-! ## Reports and events of a service (R108 to R116, R124) -/

theorem reportService_shape {i : Nat} {b a : Service} (c : Bool) {s : State} (ha : s.service i = some a) :
    ∃ s2, Ranks s s2 ∧ s2.services = s.services ∧
      reportService i b c s = if routerTold b a then recomputeRooms s2 else s2 := by
  unfold reportService
  rw [ha]
  dsimp only
  have h1 : Ranks s (if c || selectionChanged b a then offer .selection i (serviceSummary i a) s else s) ∧
      (if c || selectionChanged b a then offer .selection i (serviceSummary i a) s else s).services = s.services := by
    split
    · exact ⟨ranks_offer .., rfl⟩
    · exact ⟨.refl s, rfl⟩
  generalize (if c || selectionChanged b a then offer .selection i (serviceSummary i a) s else s) = s1 at h1 ⊢
  refine ⟨_, ?_, ?_, rfl⟩
  · split
    · exact h1.1.trans (ranks_handPair ..)
    · exact h1.1
  · split
    · obtain ⟨l, u, h⟩ := handPair_shape .service i (some (serviceView b)) (some (serviceView a)) s1
      rw [h]
      exact h1.2
    · exact h1.2

/-- What a service did, reported: the router recomputes its room channels when the selection changed. -/
theorem ranks_reported {i : Nat} {b : Service} (c : Bool) {s0 s : State} (h : Serves i s0 s) (hb : s0.service i = some b) :
    Ranks s0 (reportService i b c s) := by
  cases ha : s.service i with
  | none =>
    have := h.sameKey
    rw [hb, ha] at this
    cases this
  | some a =>
    obtain ⟨s2, h2, -, he⟩ := reportService_shape (b := b) c ha
    rw [he]
    split
    · have h3 := ranks_recomputeRooms s2
      exact ⟨⟨(h.toMoves.trans h2.toMoves).trans h3.toMoves, fun _ _ _ => routeLaw_recomputeRooms s2⟩,
        (h3.sameSlots.trans h2.sameSlots).trans h.sameSlots,
        (h3.sameReference.trans h2.sameReference).trans h.sameReference,
        (h3.sameCarriers.trans h2.sameCarriers).trans h.sameCarriers,
        (h3.sameSched.trans h2.sameSched).trans h.sameSched,
        (h3.sameRecords.trans h2.sameRecords).trans h.sameRecords⟩
    · next ht =>
      refine (h.ranks ?_).trans h2
      rw [ha, hb]
      simp only [routerTold, Bool.or_eq_true, decide_eq_true_eq, not_or, not_not] at ht
      simp [ht.1.2]

theorem recomputeRooms_services (s : State) : (recomputeRooms s).services = s.services := by
  unfold recomputeRooms
  generalize allRooms = l
  induction l generalizing s with
  | nil => rfl
  | cons r l ih =>
    rw [List.foldl_cons, ih]
    obtain ⟨l, u, h⟩ := changeRoom_shape r (recomputed s (s.room r)) s
    unfold recomputeRoom
    rw [h]
    rfl

theorem reportService_services (i : Nat) (b : Service) (c : Bool) (s : State) :
    (reportService i b c s).services = s.services := by
  cases ha : s.service i with
  | none => unfold reportService; rw [ha]
  | some a =>
    obtain ⟨s2, -, h2, he⟩ := reportService_shape (b := b) c ha
    rw [he]
    split
    · rw [recomputeRooms_services, h2]
    · exact h2

/-- An entry without a selection leaves the table: no room channel is fed by it. -/
theorem ranks_deleteService {i : Nat} {s : State} (hn : ∀ v, s.service i = some v → v.selection = none) :
    Ranks s (deleteService i s) := by
  unfold deleteService
  split
  · exact .refl s
  · next v hv =>
    have h1 : Moves s (s.setServices (tabDel s.services i)) :=
      moves_setServices
        (fun h => ⟨tabWf_sublist (tabDel_sublist _ _) h.1, h.2.sublist (tabDel_sublist _ _)⟩)
        (fun h e he => h e ((tabDel_sublist _ _).subset he)) (fun _ h e he => h e ((tabDel_sublist _ _).subset he))
    refine Ranks.trans (Ranks.trans ⟨⟨h1, fun _ hs => Feeds.routes ⟨fun k w hw hne => ?_, fun j hr _ => ⟨hr, rfl⟩⟩ rfl⟩, rfl,
      rfl, rfl, rfl, rfl⟩ (ranks_withdrawRequest ..)) (ranks_handPair ..)
    obtain ⟨j, hj, hk⟩ := (serviceOfKey_iff hs).mp hw
    refine ⟨w, (serviceOfKey_iff (h1.services hs)).mpr ⟨j, ?_, hk⟩, rfl⟩
    have hji : j ≠ i := by
      rintro rfl
      exact hne (hn w hj)
    exact (tabGet_tabDel_ne _ _ _ hji).trans hj

/-- An entry whose selection is cleared and reported leaves the table. -/
theorem ranks_clearAndDelete {i : Nat} {v : Service} {s : State} (hv : s.service i = some v) :
    Ranks s (deleteService i (reportService i v false (clearSelection i s))) := by
  refine (ranks_reported false (serves_clearSelection i s) hv).trans (ranks_deleteService fun w hw => ?_)
  rw [State.service, reportService_services] at hw
  have h2 := service_modService i i unavailableService s
  rw [if_pos rfl, hv] at h2
  change (clearSelection i s).service i = some w at hw
  rw [clearSelection, h2] at hw
  cases hw
  rfl

theorem ranks_pruneService (i : Nat) (s : State) : Ranks s (pruneService i s) := by
  unfold pruneService
  split
  · exact .refl s
  · next v hv =>
    split
    · exact .refl s
    · split
      · next hs =>
        refine ranks_deleteService fun w hw => ?_
        rw [hv] at hw
        cases hw
        exact hs
      · split
        · exact .refl s
        · exact ranks_clearAndDelete hv

theorem ranks_serviceEvent {i : Nat} {f : State → State × Bool} {s : State} (h : Serves i s (f s).1) :
    Ranks s (serviceEvent i f s) := by
  unfold serviceEvent
  split
  · exact .refl s
  · next b hb => exact (ranks_reported _ h hb).trans (ranks_pruneService ..)

theorem ranks_rebuildEvent (i : Nat) (s : State) : Ranks s (rebuildEvent i s) :=
  ranks_serviceEvent ((serves_rebuildList i s).trans (serves_act ..))

/-- R108: an entry with a new key put at the lowest free place below 256 keeps the sixth law. -/
theorem ranks_newService {v : Service} {s : State} (hi : tabFree s.services < servicePlaces) (hv : ServiceOk v)
    (hc : CandidatesOk v) (hk : ∀ e ∈ s.services, v.key ≠ e.2.key) :
    Ranks s (putService (tabFree s.services) v s) := by
  have h1 : Moves s (putService (tabFree s.services) v s) :=
    moves_setServices
      (fun h => ⟨tabWf_tabPut hi h.1,
        pairwise_tabPut (fun _ _ h => Ne.symm h) h.2 (fun e he _ => hk e he) (tabWf_iff.mp h.1).1⟩)
      (fun h => selectionLaw_put hv h) (fun _ h => candidateLaw_put hc h)
  refine ⟨⟨h1, fun _ hs => Feeds.routes ⟨fun k w hw _ => ?_, fun j hr _ => ⟨hr, rfl⟩⟩ rfl⟩, rfl, rfl, rfl, rfl, rfl⟩
  obtain ⟨j, hj, hjk⟩ := (serviceOfKey_iff hs).mp hw
  refine ⟨w, (serviceOfKey_iff (h1.services hs)).mpr ⟨j, ?_, hjk⟩, rfl⟩
  rw [service_putService, if_neg]
  · exact hj
  · rintro rfl
    exact (tabFree_spec (tabWf_iff.mp hs.1).1).2.1 (List.mem_map_of_mem (mem_of_tabGet hj))

theorem ranks_addService {v : Service} {s : State} (hv : ServiceOk v) (hc : CandidatesOk v)
    (hk : ∀ e ∈ s.services, v.key ≠ e.2.key) : Ranks s (addService v s) := by
  unfold addService
  dsimp only
  split
  · next hi => exact ((ranks_newService hi hv hc hk).trans (ranks_handPair ..)).trans (ranks_rebuildEvent ..)
  · exact .refl s

theorem newService_ok (k : ServiceKey) (b c : Bool) : ServiceOk (newService k b c) := ⟨fun _ => rfl, fun _ => rfl⟩

theorem newService_cands (k : ServiceKey) (b c : Bool) : CandidatesOk (newService k b c) :=
  ⟨by simp [newService], by simp [newService], by simp [newService],
    fun x (hx : none = some x) => (nomatch hx), fun _ => by simp [newService]⟩

/-- No entry has a key that the table's index does not find. -/
theorem key_ne_of_serviceIndex {t : Table Service} {k : ServiceKey} (h : serviceIndex t k = none) :
    ∀ e ∈ t, k ≠ e.2.key := by
  intro e he hk
  unfold serviceIndex at h
  split at h
  · cases h
  · next hn => exact absurd hk.symm (by simpa using List.find?_eq_none.mp hn e he)

theorem ranks_setServiceTableFull (s : State) :
    Ranks s (modLink (fun l => { l with flags := { l.flags with serviceTableFull := true } }) s) :=
  ranks_setLink ⟨rfl, rfl, rfl, rfl, rfl, rfl, rfl, rfl, rfl, rfl, id⟩

theorem ranks_evaluateSeen (s : State) (k : ServiceKey) : Ranks s (evaluateSeen s k) := by
  unfold evaluateSeen
  split
  · next i _ =>
    have h1 : Ranks s (modService i (fun v => { v with seen := s.seenKey k }) s) :=
      ranks_modService_plain fun _ => ⟨rfl, rfl, rfl, rfl⟩
    exact h1.trans (ranks_pruneService ..)
  · next hn =>
    split
    · split
      · exact ranks_addService (newService_ok ..) (newService_cands ..) (key_ne_of_serviceIndex hn)
      · exact ranks_setServiceTableFull s
    · exact .refl s

theorem ranks_rebuildKeys (ks : List ServiceKey) (s : State) : Ranks s (rebuildKeys ks s) :=
  ranks_foldl (fun s i => ranks_rebuildEvent i s) _ s

theorem ranks_rankCarrier (a b : List ServiceKey) (s : State) : Ranks s (rankCarrier a b s) :=
  (ranks_foldl ranks_evaluateSeen _ s).trans (ranks_rebuildKeys ..)

theorem ranks_dropRemoved (x : Nat) (s : State) (i : Nat) : Ranks s (dropRemoved x s i) := by
  refine ranks_serviceEvent ?_
  split
  · exact .refl i s
  · split
    · exact ((serves_clearSelection i s).trans (serves_rebuildList ..)).trans (serves_act ..)
    · exact .refl i s

/-- A list without one carrier, which is not the selection, meets the third law. -/
theorem dropCandidate_cands (x : Nat) {v : Service} (h : CandidatesOk v) : CandidatesOk (dropCandidate x v) := by
  unfold dropCandidate
  split
  · exact h
  · next hx =>
    obtain ⟨h1, h2, h3, h4, h5⟩ := h
    refine ⟨(List.length_filter_le _ _).trans h1, h2.sublist (List.filter_sublist.map _), h3.sublist List.filter_sublist,
      fun y hy => ?_, fun hn c hc => h5 hn c (List.mem_of_mem_filter hc)⟩
    obtain ⟨c, hc, hcy⟩ := h4 y hy
    refine ⟨c, List.mem_filter.mpr ⟨hc, ?_⟩, hcy⟩
    have hxy : c.carrier ≠ x := fun e => hx (by rw [← e, hcy]; exact hy)
    simpa using hxy

theorem ranks_dropCandidates (x : Nat) (s : State) : Ranks s (dropCandidates x s) := by
  have hf : ∀ v, (dropCandidate x v).key = v.key ∧ (dropCandidate x v).state = v.state
      ∧ (dropCandidate x v).selection = v.selection := fun v => by
    unfold dropCandidate; split <;> exact ⟨rfl, rfl, rfl⟩
  refine ranks_foldl (fun s i => Serves.ranks (i := i) (serves_modService fun v _ =>
    ⟨(hf v).1, ?_, fun _ => dropCandidate_cands x⟩) ?_) _ s
  · simp only [ServiceOk, (hf v).2.1, (hf v).2.2]; exact id
  · rw [service_modService, if_pos rfl]
    cases s.service i with
    | none => rfl
    | some v => simpa using (hf v).2.2

theorem ranks_rankRemoval (x : Nat) (ks : List ServiceKey) (s : State) : Ranks s (rankRemoval x ks s) :=
  (((ranks_foldl (ranks_dropRemoved x) _ s).trans (ranks_foldl ranks_evaluateSeen _ _)).trans
    (ranks_foldl (fun s i => ranks_rebuildEvent i s) _ _)).trans (ranks_dropCandidates x _)

/-! ## Reports from the router (R116, R119 to R121, R123) -/

theorem serves_judgeDeferred (i : Nat) (s : State) : Serves i s (judgeDeferred i s).1 := by
  unfold judgeDeferred
  split
  · exact .refl i s
  · split
    · exact .refl i s
    · dsimp only
      have h1 : Serves i s (modService i (fun v => { v with deferred := { rebuilt := false, carryLost := none } }) s) :=
        serves_modService_plain fun _ => ⟨rfl, rfl, rfl, rfl⟩
      split
      · exact h1.trans (serves_failoverCarried ..)
      · exact h1.trans (serves_failover ..)
      · split
        · exact h1.trans (serves_act ..)
        · exact h1

theorem ranks_carryLostService (r : Bool) (x : Nat) (s : State) (i : Nat) : Ranks s (carryLostService r x s i) := by
  refine ranks_serviceEvent ?_
  split
  · exact .refl i s
  · split
    · exact .refl i s
    · split
      · exact serves_clearSelection ..
      · split
        · exact serves_modService_plain fun _ => ⟨rfl, rfl, rfl, rfl⟩
        · split
          · dsimp only
            split
            · exact serves_failoverCarried ..
            · exact serves_failover ..
          · exact .refl i s

theorem ranks_carryLost (r : Bool) (x : Nat) (s : State) : Ranks s (carryLost r x s) :=
  ranks_foldl (ranks_carryLostService r x) _ s

theorem ranks_endOfCarry (x : Nat) (s : State) : Ranks s (endOfCarry x s) := by
  refine ranks_foldl (fun s i => ranks_serviceEvent ?_) _ s
  split
  · exact .refl i s
  · split
    · exact .refl i s
    · exact serves_clearSelection ..

theorem ranks_targetInEffect (x : Nat) (s : State) (i : Nat) : Ranks s (targetInEffect x s i) := by
  refine ranks_serviceEvent ?_
  split
  · exact .refl i s
  · split
    · exact serves_completeSwitch ..
    · exact .refl i s

theorem ranks_grantFailedService (x : Nat) (s : State) (i : Nat) : Ranks s (grantFailedService x s i) := by
  refine ranks_serviceEvent ?_
  split
  · exact .refl i s
  · next v hv =>
    split
    · next hp =>
      split
      · next he =>
        refine serves_modService fun w hw => ⟨rfl, fun _ => ?_, fun _ h => candidatesOk_keep rfl rfl h⟩
        rw [hv] at hw
        cases hw
        exact ⟨fun h => absurd h (selection_of_eligible he.2.1), fun h => by cases h⟩
      · have h1 : Serves i s (modService i failedPending s) := by
          refine serves_modService fun w hw => ⟨rfl, fun hok => ⟨fun h => ?_, fun h => by cases h⟩,
            fun _ h => candidatesOk_keep rfl rfl h⟩
          rw [hv] at hw
          cases hw
          have := hok.mp h
          rw [hp.1] at this
          cases this
        exact h1.trans (serves_failover ..)
    · exact .refl i s

theorem ranks_grantFailed (x : Nat) (s : State) : Ranks s (grantFailed x s) :=
  ranks_foldl (ranks_grantFailedService x) _ s

theorem ranks_targetsInEffect (x : Nat) (s : State) : Ranks s (targetsInEffect x s) :=
  ranks_foldl (ranks_targetInEffect x) _ s

/-! ## Answers (R116 to R121) -/

theorem pendingService_selection_ne (q : GrantReq) (v : Service) : (pendingService q v).selection ≠ none := by
  intro h
  simp only [pendingService] at h
  split at h
  · cases h
  · next hk => simp [pendingKindOf, h] at hk

theorem pendingService_ok (q : GrantReq) {v : Service} : ServiceOk (pendingService q v) :=
  ⟨fun h => absurd h (pendingService_selection_ne q v), fun h => by cases h⟩

theorem serves_constrain (q : GrantReq) (s : State) :
    Serves q.service s (modService q.service (constrainAfterStep2 q) s) := by
  refine serves_modService_plain fun v => ?_
  unfold constrainAfterStep2
  split <;> exact ⟨rfl, rfl, rfl, rfl⟩

theorem serves_actOnAnswer (q : GrantReq) (a : GrantAnswer) (s : State) : Serves q.service s (actOnAnswer q a s).1 := by
  unfold actOnAnswer
  split
  · exact .refl _ s
  · split
    · exact (serves_completeSwitch ..).trans (serves_constrain q _)
    · exact serves_ensureAfter (fun _ => rfl) (fun _ => rfl)
        (fun v h => absurd h (pendingService_selection_ne q v)) fun _ _ _ => pendingService_ok q
    · split
      · exact .refl _ s
      · exact serves_failoverCarried ..
      · exact serves_failoverStep3 ..
      · exact serves_failoverStep3 ..

theorem ranks_answerService (q : GrantReq) (a : GrantAnswer) (s : State) : Ranks s (answerService q a s) :=
  ranks_serviceEvent ((serves_actOnAnswer q a s).trans (serves_judgeDeferred ..))

/-! ## BOUND marks (R109 to R111) -/

theorem unboundService_key (s : State) (v : Service) : (unboundService s v).key = v.key := by
  unfold unboundService; dsimp only; split
  · rfl
  · split <;> rfl

theorem unboundService_ok {s : State} {v : Service} (h : ServiceOk v) : ServiceOk (unboundService s v) := by
  unfold unboundService
  dsimp only
  split
  · exact unavailableService_ok _
  · next hn =>
    split
    · exact ⟨fun hs => absurd (.inl hs) hn, fun hs => by cases hs⟩
    · exact h

theorem unboundService_cands {s : State} {v : Service} (h : CandidatesOk v) : CandidatesOk (unboundService s v) := by
  unfold unboundService
  dsimp only
  split
  · exact unavailableService_cands rfl h
  · split
    · exact candidatesOk_keep rfl rfl h
    · exact candidatesOk_keep rfl rfl h

theorem ranks_loseBound (s : State) (i : Nat) : Ranks s (loseBound s i) := by
  refine ranks_serviceEvent ?_
  exact ((serves_withdrawRequest i i s).trans
    (serves_modService fun v _ => ⟨unboundService_key s v, unboundService_ok, fun _ => unboundService_cands⟩)).trans
      (serves_modService_plain fun _ => ⟨rfl, rfl, rfl, rfl⟩)

theorem ranks_evictService (i : Nat) (s : State) : Ranks s (evictService i s) := by
  unfold evictService
  split
  · exact .refl s
  · next v hv => exact ranks_clearAndDelete hv

theorem ranks_makeServiceRoom (s : State) : Ranks s (makeServiceRoom s) := by
  unfold makeServiceRoom
  split
  · exact .refl s
  · split
    · exact .refl s
    · exact ranks_evictService ..

/-! ## The room an eviction makes (R110) -/

theorem tabPut_keys {t : Table Service} {i : Nat} {v w : Service} (hv : tabGet t i = some v) (hk : w.key = v.key) :
    ∀ e ∈ tabPut t i w, ∃ d ∈ t, d.2.key = e.2.key := by
  intro e he
  rcases mem_tabPut he with rfl | he
  · exact ⟨_, mem_of_tabGet hv, hk.symm⟩
  · exact ⟨e, he, rfl⟩

theorem deleteService_keys (i : Nat) (s : State) : ∀ e ∈ (deleteService i s).services, e ∈ s.services := by
  unfold deleteService
  split
  · exact fun _ h => h
  · next v hv =>
    intro e he
    obtain ⟨l, u, h⟩ := handPair_shape .service i (some (serviceView v)) none
      (withdrawRequest i (s.setServices (tabDel s.services i)))
    rw [h] at he
    exact (tabDel_sublist _ _).subset he

/-- R110: the entries left after an eviction have keys that entries had before it. -/
theorem makeServiceRoom_keys (s : State) : ∀ e ∈ (makeServiceRoom s).services, ∃ d ∈ s.services, d.2.key = e.2.key := by
  unfold makeServiceRoom
  split
  · exact fun e he => ⟨e, he, rfl⟩
  · split
    · exact fun e he => ⟨e, he, rfl⟩
    · unfold evictService
      split
      · exact fun e he => ⟨e, he, rfl⟩
      · next v hv =>
        intro e he
        have := deleteService_keys _ _ e he
        rw [reportService_services] at this
        unfold clearSelection modService at this
        rw [hv] at this
        exact tabPut_keys hv (w := unavailableService v) rfl e this

theorem ranks_gainBound (s : State) (k : ServiceKey) : Ranks s (gainBound s k) := by
  unfold gainBound
  split
  · split
    · exact .refl s
    · split
      · exact .refl s
      · next i _ _ _ _ _ =>
        have h1 : Ranks s (modService i (fun v => { v with bound := true }) s) :=
          ranks_modService_plain fun _ => ⟨rfl, rfl, rfl, rfl⟩
        exact h1.trans (ranks_rebuildEvent ..)
  · next hn =>
    refine (ranks_makeServiceRoom s).trans (ranks_addService (newService_ok ..) (newService_cands ..) fun e he hk => ?_)
    obtain ⟨d, hd, hde⟩ := makeServiceRoom_keys s e he
    exact key_ne_of_serviceIndex hn d hd (Eq.trans hk hde.symm)

theorem ranks_applyBindings (p : Plan) (s : State) : Ranks s (applyBindings p s) :=
  (ranks_foldl ranks_loseBound _ s).trans (ranks_foldl ranks_gainBound _ _)

/-! ## What the other blocks need of it -/

theorem evolves_offer (k : NoticeKind) (i : Nat) (c : List Byte) (s : State) : Evolves s (offer k i c s) :=
  (ranks_offer k i c s).toEvolves

theorem evolves_handPair (k : SubjectKind) (i : Nat) (b a : Option View) (s : State) :
    Evolves s (handPair k i b a s) := (ranks_handPair k i b a s).toEvolves

theorem evolves_recomputeRooms (s : State) : Evolves s (recomputeRooms s) := (ranks_recomputeRooms s).toEvolves

theorem evolves_completeSwitching (s : State) (r : Fin 48) : Evolves s (completeSwitching s r) :=
  (ranks_completeSwitching s r).toEvolves

theorem evolves_withdrawRequest (i : Nat) (s : State) : Evolves s (withdrawRequest i s) :=
  (ranks_withdrawRequest i s).toEvolves

theorem evolves_rebuildEvent (i : Nat) (s : State) : Evolves s (rebuildEvent i s) :=
  (ranks_rebuildEvent i s).toEvolves

theorem evolves_rankCarrier (a b : List ServiceKey) (s : State) : Evolves s (rankCarrier a b s) :=
  (ranks_rankCarrier a b s).toEvolves

theorem evolves_rankRemoval (x : Nat) (ks : List ServiceKey) (s : State) : Evolves s (rankRemoval x ks s) :=
  (ranks_rankRemoval x ks s).toEvolves

theorem evolves_carryLost (r : Bool) (x : Nat) (s : State) : Evolves s (carryLost r x s) :=
  (ranks_carryLost r x s).toEvolves

theorem evolves_endOfCarry (x : Nat) (s : State) : Evolves s (endOfCarry x s) := (ranks_endOfCarry x s).toEvolves

theorem evolves_grantFailed (x : Nat) (s : State) : Evolves s (grantFailed x s) := (ranks_grantFailed x s).toEvolves

theorem evolves_targetsInEffect (x : Nat) (s : State) : Evolves s (targetsInEffect x s) :=
  (ranks_targetsInEffect x s).toEvolves

theorem evolves_answerService (q : GrantReq) (a : GrantAnswer) (s : State) : Evolves s (answerService q a s) :=
  (ranks_answerService q a s).toEvolves

theorem evolves_applyBindings (p : Plan) (s : State) : Evolves s (applyBindings p s) :=
  (ranks_applyBindings p s).toEvolves

end Sys2Proof.Machine
end

