-- ==== Sys2Proof/Laws/Carriers.lean ====
section
/-! SUPPORT. What the carrier table may do to the state (`Evolves`), and the fifth law (R71) through a removal and a
discovery. -/

namespace Sys2Proof.Machine

/-! ## Reports (R85, R88, R89) -/

theorem evolves_reportCarrier (forced : Bool) (counts : Option DiscoveryCounts) (st : Bool) (i : Nat) (b : Carrier)
    (s : State) : Evolves s (reportCarrier forced counts st i b s) := by
  unfold reportCarrier
  split
  · exact .refl s
  · next a _ =>
    split
    · exact .refl s
    · dsimp only
      have h1 : Evolves s (if forced || counts.isSome || noticeWorthy b a st (s.stale a) then
          offer .carrier i (carrierNotice s.now s.params.maxAge i a false counts) s else s) := by
        split
        · exact evolves_offer ..
        · exact .refl s
      generalize (if forced || counts.isSome || noticeWorthy b a st (s.stale a) then
          offer .carrier i (carrierNotice s.now s.params.maxAge i a false counts) s else s) = s1 at h1 ⊢
      have h2 : Evolves s1
          (if b = a ∧ forced = false then s1 else handPair .carrier i (some (carrierView b)) (some (carrierView a)) s1) := by
        split
        · exact .refl s1
        · exact evolves_handPair ..
      generalize (if b = a ∧ forced = false then s1 else handPair .carrier i (some (carrierView b)) (some (carrierView a)) s1) = s2
        at h2 ⊢
      split
      · exact (h1.trans h2).trans (evolves_rankCarrier ..)
      · exact h1.trans h2

theorem evolves_reportRemoval (s : State) (e : Nat × Carrier) : Evolves s (reportRemoval s e) :=
  ((((evolves_dropUrgent ..).trans (evolves_leaveSet ..)).trans (evolves_offer ..)).trans (evolves_handPair ..)).trans
    (evolves_rankRemoval ..)

theorem evolves_reportAddition (s : State) (i : Nat) : Evolves s (reportAddition s i) := by
  unfold reportAddition
  split
  · exact .refl s
  · exact ((evolves_offer ..).trans (evolves_handPair ..)).trans (evolves_searchDue _)

theorem evolves_reportChanges (old : Table Carrier) (removed added : List Nat) (forced : Nat → Bool)
    (counts : Nat → Option DiscoveryCounts) (wasStale : Carrier → Bool) (s : State) :
    Evolves s (reportChanges old removed added forced counts wasStale s) :=
  ((evolves_foldl evolves_reportRemoval _ s).trans
    (evolves_foldl (fun s (e : Nat × Carrier) => evolves_reportCarrier (forced e.1) (counts e.1) (wasStale e.2) e.1 e.2 s) _ _)).trans
    (evolves_foldl evolves_reportAddition _ _)

/-! ## The tenth law (R83) -/

/-- The tenth law of one entry. -/
def DueOk (s : State) (c : Carrier) : Prop := s.now + s.params.maxAge ≤ maxSecond → c.nextDue ≤ s.now + s.params.maxAge

theorem dueLaw_iff {s : State} : DueLaw s ↔ ∀ e ∈ s.carriers, DueOk s e.2 :=
  ⟨fun h e he hm => h hm e he, fun h hm e he => h e he hm⟩

/-- A change of an entry that keeps the tenth law. -/
def KeepsDue (s : State) (f : Carrier → Carrier) : Prop := IntervalLaw s.plan → ∀ c, DueOk s c → DueOk s (f c)

theorem keepsDue_of_eq (s : State) {f : Carrier → Carrier} (h : ∀ c, (f c).nextDue = c.nextDue) : KeepsDue s f :=
  fun _ c hc hm => by rw [h]; exact hc hm

theorem KeepsDue.comp {s : State} {f g : Carrier → Carrier} (hf : KeepsDue s f) (hg : KeepsDue s g) :
    KeepsDue s fun c => f (g c) := fun hi c hc => hf hi _ (hg hi c hc)

theorem dueOk_congr {s t : State} (h : Moves s t) (c : Carrier) : DueOk t c ↔ DueOk s c := by
  simp only [DueOk, State.now, State.params, h.clock, h.plan]

theorem keepsDue_congr {s t : State} (h : Moves s t) {f : Carrier → Carrier} (k : KeepsDue s f) : KeepsDue t f := by
  intro hi c hc
  rw [h.plan] at hi
  exact (dueOk_congr h _).mpr (k hi c ((dueOk_congr h c).mp hc))

theorem timeAfter_le {now d maxAge : Nat} (hm : now + maxAge ≤ maxSecond) (hd : d ≤ maxAge) :
    timeAfter now d ≤ now + maxAge := by
  unfold timeAfter
  rw [if_pos (by omega)]
  omega

/-- R21: an interval is at most the maximum age. -/
theorem intervalOf_le {p : Params} (h : p.minInterval ≤ p.maxAge) (m : Int) (f : Nat) : intervalOf p m f ≤ p.maxAge := by
  unfold intervalOf clampNat
  split <;> omega

theorem dueAfterInterval_ok {s : State} (h : IntervalLaw s.plan) (c : Carrier) {d : Carrier}
    (hd : d.nextDue = dueAfterInterval s c) : DueOk s d := by
  intro hm
  rw [hd]
  refine timeAfter_le hm ?_
  unfold entryInterval
  split
  · exact h.1
  · exact intervalOf_le h.1 ..

/-- R23: a back-off is at most the maximum age. -/
theorem backoff_ok (s : State) (n : Nat) {d : Carrier} (hd : d.nextDue = timeAfter s.now (backoffOf s.params n)) :
    DueOk s d := by
  intro hm
  rw [hd]
  exact timeAfter_le hm (Nat.min_le_left _ _)

theorem dueNow_ok (s : State) {d : Carrier} (hd : d.nextDue = s.now) : DueOk s d := by
  intro _
  rw [hd]
  exact Nat.le_add_right _ _

theorem dueLaw_sublist {s : State} {t : Table Carrier} (h : t.Sublist s.carriers) (k : DueLaw s) :
    DueLaw (s.setCarriers t) := dueLaw_iff.mpr fun e he => dueLaw_iff.mp k e (h.subset he)

/-! ## Changes of one entry -/

/-- A change of an entry that keeps its key (R71). -/
def KeepsKey (f : Carrier → Carrier) : Prop := ∀ c, (f c).input = c.input ∧ (f c).freq = c.freq

theorem evolves_putCarrier {i : Nat} {c d : Carrier} {s : State} (hc : s.carrier i = some c) (hi : d.input = c.input)
    (hf : d.freq = c.freq) (hd : IntervalLaw s.plan → DueOk s c → DueOk s d) : Evolves s (putCarrier i d s) := by
  refine evolves_setCarriers (fun h => carrierLaw_put hc hi hf h) fun hp h => dueLaw_iff.mpr fun e he => ?_
  rcases mem_tabPut he with rfl | he
  · exact hd hp (dueLaw_iff.mp h _ (mem_of_tabGet hc))
  · exact dueLaw_iff.mp h e he

theorem evolves_changeCarrier {i : Nat} {f : Carrier → Carrier} (h : KeepsKey f) {s : State} (hd : KeepsDue s f) :
    Evolves s (changeCarrier i f s) := by
  unfold changeCarrier
  split
  · exact .refl s
  · next b hb =>
    exact (evolves_putCarrier hb (h b).1 (h b).2 fun hi => hd hi b).trans (evolves_reportCarrier ..)

theorem carrierLaw_clearLister (x : Nat) {t : Table Carrier} (h : CarrierLaw t) : CarrierLaw (clearLister x t) := by
  refine carrierLaw_map (fun e => ?_) (fun e => ?_) (fun e => ?_) h <;> (split <;> rfl)

theorem carrierLaw_removeEntry (x : Nat) {t : Table Carrier} (h : CarrierLaw t) : CarrierLaw (removeEntry x t) :=
  carrierLaw_clearLister x (carrierLaw_sublist (tabDel_sublist _ _) h)

theorem carrierLaw_removeAll (l : List Nat) {t : Table Carrier} (h : CarrierLaw t) :
    CarrierLaw (l.foldl (fun t i => removeEntry i t) t) := by
  induction l generalizing t with
  | nil => exact h
  | cons x l ih => exact ih (carrierLaw_removeEntry x h)

/-- Every entry left by a removal was in the table, its lister aside. -/
theorem mem_removeEntry {x : Nat} {t : Table Carrier} {e : Nat × Carrier} (he : e ∈ removeEntry x t) :
    ∃ d ∈ t, d.1 = e.1 ∧ (e.2 = d.2 ∨ e.2 = { d.2 with lister := none }) := by
  obtain ⟨d, hd, rfl⟩ := List.mem_map.mp he
  refine ⟨d, (tabDel_sublist _ _).subset hd, ?_⟩
  split
  · exact ⟨rfl, .inr rfl⟩
  · exact ⟨rfl, .inl rfl⟩

/-- A removal moves no next-due time. -/
theorem due_removeAll {P : Nat → Prop} (l : List Nat) {t : Table Carrier} (h : ∀ e ∈ t, P e.2.nextDue) :
    ∀ e ∈ l.foldl (fun t i => removeEntry i t) t, P e.2.nextDue := by
  induction l generalizing t with
  | nil => exact h
  | cons x l ih =>
    refine ih fun e he => ?_
    obtain ⟨d, hd, -, h1 | h1⟩ := mem_removeEntry he
    · rw [h1]; exact h d hd
    · rw [h1]; exact h d hd

theorem evolves_removeCarrier (i : Nat) (s : State) : Evolves s (removeCarrier i s) :=
  (evolves_setCarriers (fun h => carrierLaw_removeEntry i h)
    fun _ h hm => due_removeAll (P := fun n => n ≤ s.now + s.params.maxAge) [i] (h hm)).trans (evolves_reportChanges ..)

/-! ## Holds and outcomes (R73 to R77, R80) -/

theorem keepsKey_tuned (j : Fin 8) (carry : Bool) : KeepsKey (tunedEntry j carry) := by
  intro c; unfold tunedEntry; dsimp only; split <;> exact ⟨rfl, rfl⟩

theorem evolves_tableTuned (i : Nat) (j : Fin 8) (carry : Bool) (s : State) : Evolves s (tableTuned i j carry s) := by
  unfold tableTuned
  dsimp only
  have h := evolves_changeCarrier (i := i) (keepsKey_tuned j carry) (s := s)
    (keepsDue_of_eq s fun c => by unfold tunedEntry; dsimp only; split <;> rfl)
  split
  · exact h.trans (evolves_dropUrgent ..)
  · exact h

theorem keepsKey_resume (s : State) : KeepsKey (resumeAcquiring s) := by
  intro c; unfold resumeAcquiring; split
  · exact ⟨rfl, rfl⟩
  · split <;> exact ⟨rfl, rfl⟩

theorem keepsKey_adopted : KeepsKey adoptedEntry := by
  intro c; unfold adoptedEntry; split <;> exact ⟨rfl, rfl⟩

theorem KeepsKey.comp {f g : Carrier → Carrier} (hf : KeepsKey f) (hg : KeepsKey g) : KeepsKey fun c => f (g c) :=
  fun c => ⟨(hf (g c)).1.trans (hg c).1, (hf (g c)).2.trans (hg c).2⟩

theorem resume_nextDue (s : State) (c : Carrier) : (resumeAcquiring s c).nextDue = c.nextDue := by
  unfold resumeAcquiring; split
  · rfl
  · split <;> rfl

theorem adopted_nextDue (c : Carrier) : (adoptedEntry c).nextDue = c.nextDue := by
  unfold adoptedEntry; split <;> rfl

theorem evolves_tableAdopted (i : Nat) (s : State) : Evolves s (tableAdopted i s) :=
  (evolves_changeCarrier ((keepsKey_resume s).comp keepsKey_adopted)
    (keepsDue_of_eq s fun c => (resume_nextDue ..).trans (adopted_nextDue c))).trans (evolves_dropUrgent ..)

theorem evolves_endHold {i : Nat} {j : Fin 8} {g : Carrier → Carrier} (hg : KeepsKey g) {s : State}
    (hd : KeepsDue s g) : Evolves s (endHold i j g s) := by
  unfold endHold
  split
  · exact .refl s
  · next c hc =>
    split
    · exact .refl s
    · split
      · exact .refl s
      · split
        · split
          · have h1 : Evolves s (putCarrier i { c with hold := none } s) := evolves_putCarrier hc rfl rfl fun _ h => h
            exact (h1.trans (evolves_removeCarrier ..)).trans (evolves_searchDue _)
          · refine Evolves.trans ?_ (evolves_searchDue _)
            exact evolves_changeCarrier (by intro c; exact ⟨rfl, rfl⟩) (keepsDue_of_eq s fun _ => rfl)
        · refine Evolves.trans ?_ (evolves_searchDue _)
          exact evolves_changeCarrier (by intro c; exact ⟨(hg c).1, (hg c).2⟩) fun hi c hc => hd hi c hc

theorem evolves_tableReleased (i : Nat) (j : Fin 8) (s : State) : Evolves s (tableReleased i j s) := by
  unfold tableReleased
  exact evolves_endHold (by intro c; exact ⟨rfl, rfl⟩) fun hi c _ => dueAfterInterval_ok hi c rfl

theorem keepsKey_aborted (s : State) : KeepsKey (abortedEntry s) := by
  intro c; unfold abortedEntry; dsimp only
  split <;> split <;> exact ⟨rfl, rfl⟩

theorem keepsDue_aborted (s : State) : KeepsDue s (abortedEntry s) := by
  intro hi c hc
  unfold abortedEntry
  dsimp only
  split <;> split <;> first | exact dueAfterInterval_ok hi c rfl | exact hc

theorem evolves_tableAborted (i : Nat) (j : Fin 8) (s : State) : Evolves s (tableAborted i j s) :=
  evolves_endHold (keepsKey_aborted s) (keepsDue_aborted s)

theorem keepsKey_failed (s : State) (c : FailCause) : KeepsKey (failedEntry s c) := by
  intro c; unfold failedEntry; split <;> exact ⟨rfl, rfl⟩

theorem keepsDue_failed (s : State) (c : FailCause) : KeepsDue s (failedEntry s c) := by
  intro _ d hd
  unfold failedEntry
  split
  · exact hd
  · exact hd
  all_goals exact backoff_ok s _ rfl

theorem evolves_tableFailed (i : Nat) (j : Fin 8) (c : FailCause) (s : State) : Evolves s (tableFailed i j c s) := by
  unfold tableFailed
  have h1 : Evolves s (if activeHold s i j then leaveSet i s else s) := by
    split
    · exact evolves_leaveSet ..
    · exact .refl s
  exact h1.trans (evolves_endHold (keepsKey_failed s c) (keepsDue_congr h1.toMoves (keepsDue_failed s c)))

theorem evolves_tableReport {i : Nat} {j : Fin 8} {f : Carrier → Carrier} (h : KeepsKey f)
    (hd : ∀ c, (f c).nextDue = c.nextDue) (s : State) : Evolves s (tableReport i j f s) := by
  unfold tableReport
  split
  · exact evolves_changeCarrier h (keepsDue_of_eq s hd)
  · exact .refl s

theorem evolves_tableLost (i : Nat) (j : Fin 8) (s : State) : Evolves s (tableLost i j s) :=
  evolves_tableReport (fun _ => by split <;> exact ⟨rfl, rfl⟩) (fun _ => by split <;> rfl) s

theorem evolves_tableReacquired (i : Nat) (j : Fin 8) (s : State) : Evolves s (tableReacquired i j s) :=
  evolves_tableReport (fun _ => by split <;> exact ⟨rfl, rfl⟩) (fun _ => by split <;> rfl) s

theorem evolves_tableIdentity (i : Nat) (j : Fin 8) (d : Identity) (s : State) : Evolves s (tableIdentity i j d s) :=
  evolves_tableReport (by intro c; exact ⟨rfl, rfl⟩) (by intro c; rfl) s

theorem evolves_tableIdChanged (i : Nat) (j : Fin 8) (d : Identity) (s : State) : Evolves s (tableIdChanged i j d s) :=
  evolves_tableReport (by intro c; exact ⟨rfl, rfl⟩) (by intro c; rfl) s

theorem evolves_tableReread (i : Nat) (j : Fin 8) (l : FormedList) (s : State) : Evolves s (tableReread i j l s) :=
  evolves_tableReport (fun _ => by split <;> exact ⟨rfl, rfl⟩) (fun _ => by split <;> rfl) s

/-! ## Discovery (R62 to R65) -/

theorem carrierLaw_prune (x : Nat) (freqs : List Nat) {t : Table Carrier} (h : CarrierLaw t) :
    CarrierLaw (pruneTable x freqs t) := by
  refine carrierLaw_map (fun _ => rfl) (fun e => ?_) (fun e => ?_) (carrierLaw_removeAll _ h) <;>
    (dsimp only; unfold unlist; split <;> rfl)

/-- No entry has a key that the table's index does not find. -/
theorem key_ne_of_carrierIndex {t : Table Carrier} {x : RfInput} {f : Nat} (h : carrierIndex t x f = none) :
    ∀ e ∈ t, x ≠ e.2.input ∨ f ≠ e.2.freq := by
  intro e he
  unfold carrierIndex at h
  split at h
  · cases h
  · next hn =>
    have := List.find?_eq_none.mp hn e he
    simp only [Bool.and_eq_true, decide_eq_true_eq] at this
    by_cases hx : e.2.input = x
    · exact .inr fun hf => this ⟨hx, hf.symm⟩
    · exact .inl fun hx2 => hx hx2.symm

/-- R71: an entry with a new key at a place below 96. -/
theorem carrierLaw_add {t : Table Carrier} {i : Nat} {c : Carrier} (hi : i < carrierPlaces)
    (hk : carrierIndex t c.input c.freq = none) (h : CarrierLaw t) : CarrierLaw (tabPut t i c) :=
  ⟨tabWf_tabPut hi h.1,
    pairwise_tabPut (fun _ _ h => h.imp Ne.symm Ne.symm) h.2 (fun e he _ => key_ne_of_carrierIndex hk e he)
      (tabWf_iff.mp h.1).1⟩

theorem keepsKey_known (x : Nat) : KeepsKey (knownEntry x) := by
  intro c; unfold knownEntry; split <;> exact ⟨rfl, rfl⟩

theorem carrierLaw_discoverOne (p : Plan) (now x : Nat) (input : RfInput) (d : Discovery) (e : ListEntry)
    (h : CarrierLaw d.table) : CarrierLaw (discoverOne p now x input d e).table := by
  unfold discoverOne
  dsimp only
  split
  · exact h
  · split
    · dsimp only
      split
      · exact h
      · next c hc => exact carrierLaw_put hc (keepsKey_known x c).1 (keepsKey_known x c).2 h
    · next hk =>
      split
      · exact h
      · split
        · next hi => exact carrierLaw_add hi hk h
        · exact h

theorem carrierLaw_discover (p : Plan) (now x : Nat) (input : RfInput) (es : List ListEntry) {t : Table Carrier}
    (h : CarrierLaw t) : CarrierLaw (discover p now x input es t).table := by
  unfold discover
  have : ∀ (l : List ListEntry) (d : Discovery), CarrierLaw d.table →
      CarrierLaw (l.foldl (discoverOne p now x input) d).table := by
    intro l
    induction l with
    | nil => exact fun _ h => h
    | cons e l ih => exact fun d hd => ih _ (carrierLaw_discoverOne p now x input d e hd)
  exact this es _ h

theorem carrierLaw_tabMod {t : Table Carrier} {i : Nat} {f : Carrier → Carrier} (hf : KeepsKey f) (h : CarrierLaw t) :
    CarrierLaw (tabMod t i f) := by
  unfold tabMod
  split
  · exact h
  · next c hc => exact carrierLaw_put hc (hf c).1 (hf c).2 h

theorem carrierLaw_runDiscovery (s : State) (i : Nat) (r : VerifiedReport) {t : Table Carrier} (h : CarrierLaw t) :
    CarrierLaw (runDiscovery s i r t).2.table := by
  unfold runDiscovery
  dsimp only
  have h1 : CarrierLaw (if r.status = .received then pruneTable i (r.entries.map (·.freq)) t else t) := by
    split
    · exact carrierLaw_prune _ _ h
    · exact h
  split <;> exact carrierLaw_discover _ _ _ _ _ h1

theorem keepsKey_verified : KeepsKey verifiedEntry := by
  intro c; unfold verifiedEntry; split <;> exact ⟨rfl, rfl⟩

theorem due_tabMod {s : State} {t : Table Carrier} {i : Nat} {f : Carrier → Carrier}
    (hf : ∀ c, (f c).nextDue = c.nextDue) (h : ∀ e ∈ t, DueOk s e.2) : ∀ e ∈ tabMod t i f, DueOk s e.2 := by
  unfold tabMod
  split
  · exact h
  · next c hc =>
    intro e he
    rcases mem_tabPut he with rfl | he
    · exact fun hm => by rw [hf]; exact h _ (mem_of_tabGet hc) hm
    · exact h e he

theorem due_discoverOne (s : State) (x : Nat) (input : RfInput) (d : Discovery) (e : ListEntry)
    (h : ∀ e ∈ d.table, DueOk s e.2) : ∀ c ∈ (discoverOne s.committed s.now x input d e).table, DueOk s c.2 := by
  unfold discoverOne
  dsimp only
  split
  · exact h
  · split
    · dsimp only
      split
      · exact h
      · next c hc =>
        intro e he
        rcases mem_tabPut he with rfl | he
        · have : (knownEntry x c).nextDue = c.nextDue := by unfold knownEntry; split <;> rfl
          intro hm
          rw [this]
          exact h _ (mem_of_tabGet hc) hm
        · exact h e he
    · split
      · exact h
      · split
        · intro e he
          rcases mem_tabPut he with rfl | he
          · exact dueNow_ok s rfl
          · exact h e he
        · exact h

theorem due_runDiscovery (s : State) (i : Nat) (r : VerifiedReport) {t : Table Carrier} (h : ∀ e ∈ t, DueOk s e.2) :
    ∀ e ∈ (runDiscovery s i r t).2.table, DueOk s e.2 := by
  have hd : ∀ (input : RfInput) (es : List ListEntry) (t : Table Carrier), (∀ e ∈ t, DueOk s e.2) →
      ∀ e ∈ (discover s.committed s.now i input es t).table, DueOk s e.2 := by
    intro input es t ht
    unfold discover
    have : ∀ (l : List ListEntry) (d : Discovery), (∀ e ∈ d.table, DueOk s e.2) →
        ∀ e ∈ (l.foldl (discoverOne s.committed s.now i input) d).table, DueOk s e.2 := by
      intro l
      induction l with
      | nil => exact fun _ h => h
      | cons e l ih => exact fun d hd => ih _ (due_discoverOne s i input d e hd)
    exact this es _ ht
  have h1 : ∀ e ∈ (if r.status = .received then pruneTable i (r.entries.map (·.freq)) t else t), DueOk s e.2 := by
    split
    · intro e he
      obtain ⟨d, hd, rfl⟩ := List.mem_map.mp he
      have := fun hm => due_removeAll (P := fun n => n ≤ s.now + s.params.maxAge) _ (fun e he => h e he hm) d hd
      dsimp only
      unfold unlist
      split <;> exact this
    · exact h
  unfold runDiscovery
  dsimp only
  split <;> exact hd _ _ _ h1

theorem evolves_tableVerified (i : Nat) (j : Fin 8) (r : VerifiedReport) (s : State) :
    Evolves s (tableVerified i j r s) := by
  unfold tableVerified
  split
  · dsimp only
    refine Evolves.trans ?_ (evolves_foldl (fun s n => evolves_joinSet n s) _ _)
    refine Evolves.trans ?_ (evolves_reportChanges ..)
    refine Evolves.trans ?_ (evolves_leaveSet ..)
    refine evolves_setCarriers (fun h => carrierLaw_tabMod keepsKey_verified
      (carrierLaw_runDiscovery s i r (carrierLaw_tabMod (by intro c; exact ⟨rfl, rfl⟩) h))) fun _ h => dueLaw_iff.mpr ?_
    exact due_tabMod (by intro c; unfold verifiedEntry; split <;> rfl)
      (due_runDiscovery s i r (due_tabMod (by intro c; rfl) (dueLaw_iff.mp h)))
  · exact .refl s

/-! ## Records (R78, R79) -/

theorem keepsKey_recorded (s : State) (w : WindowRecord) : KeepsKey (recordedEntry s w) := by
  intro c; unfold recordedEntry; dsimp only; split <;> exact ⟨rfl, rfl⟩

theorem evolves_tableRecord (i : Nat) (j : Fin 8) (w : WindowRecord) (s : State) : Evolves s (tableRecord i j w s) := by
  unfold tableRecord
  split
  · dsimp only
    have h1 : Evolves s (if s.carriedAt i then leaveSet i s else s) := by
      split
      · exact evolves_leaveSet ..
      · exact .refl s
    refine h1.trans (evolves_changeCarrier (keepsKey_recorded s w) (keepsDue_congr h1.toMoves fun hi c hc => ?_))
    unfold recordedEntry
    dsimp only
    split
    · exact hc
    · exact dueAfterInterval_ok hi _ rfl
  · exact .refl s

end Sys2Proof.Machine
end

