-- ==== Sys2Proof/Laws/Slots.lean ====
section
/-! SUPPORT. What the slots and the level reference may do to the state (`Evolves`), and the first two laws (R26, R42)
through a tune, a release and a lock loss. -/

namespace Sys2Proof.Machine

/-! ## Changes of one slot (R46) -/

theorem evolves_reportSlot (b : Bool) (i : Fin 8) (x y : Slot) (l : List (Fin 8)) (s : State) :
    Evolves s (if b then handPair .slot i.val (some (slotView x)) (some (slotView y))
      (offer .slot i.val (slotBytes l i y) s) else s) := by
  split
  · exact (evolves_offer ..).trans (evolves_handPair ..)
  · exact .refl s

/-- A change of slot `i` whose write `Evolves` allows. -/
theorem evolves_changeSlot {i : Fin 8} {f : Slot → Slot} {s : State} (h : Evolves s (putSlot i (f (s.slot i)) s)) :
    Evolves s (changeSlot i f s) :=
  h.trans (evolves_reportSlot ..)

/-- A change of slot `i` that leaves its state, role, carrier and window activity as they were, or ends its window. -/
theorem evolves_changeSlot_plain {i : Fin 8} {f : Slot → Slot} {s : State}
    (h : ∀ r, (f r).state = r.state ∧ (f r).role = r.role ∧ (f r).carrier = r.carrier)
    (hm : (f (s.slot i)).meas.active = true → (s.slot i).meas.active = true) : Evolves s (changeSlot i f s) := by
  obtain ⟨h1, h2, h3⟩ := h (s.slot i)
  refine evolves_changeSlot (evolves_putSlot (fun k => ?_) (.inl h3) (by rw [h1]; exact id)
    fun _ hr _ => ⟨h2.trans hr, h3⟩)
  simp only [SlotOk, h1, h2, h3] at k ⊢
  exact ⟨k.1, k.2.1, fun a => k.2.2 (hm a)⟩

/-- A slot that is not TUNING, ACQUIRING or LOCKED has no carrier and no role. -/
theorem idle_of_slotOk {r : Slot} (k : SlotOk r) (h1 : r.state ≠ .tuning) (h2 : r.state ≠ .acquiring)
    (h3 : r.state ≠ .locked) : r.carrier = none ∧ r.role = .none := by
  have hc : r.carrier = none := by
    by_cases hc : r.carrier = none
    · exact hc
    · rcases k.2.1.mp hc with h | h | h <;> contradiction
  exact ⟨hc, k.1.mp hc⟩

/-- A change of slot `i`, which is not LOCKED and has no carrier before it or after it. -/
theorem evolves_changeSlot_idle {i : Fin 8} {f : Slot → Slot} {s : State} (hl : (s.slot i).state ≠ .locked)
    (hb : (s.slot i).state ≠ .tuning ∧ (s.slot i).state ≠ .acquiring)
    (hr : (f (s.slot i)).role = .none) (hc : (f (s.slot i)).carrier = none)
    (hs : (f (s.slot i)).state = .offline ∨ (f (s.slot i)).state = .parked ∨ (f (s.slot i)).state = .idle ∨
      (f (s.slot i)).state = .releasing)
    (hm : (f (s.slot i)).meas.active = true → (s.slot i).meas.active = true) :
    Evolves s (changeSlot i f s) := by
  refine evolves_changeSlot (evolves_putSlot (fun k => ?_) (.inr hc) (fun h => absurd h hl)
    fun k _ hn => absurd (idle_of_slotOk k hb.1 hb.2 hl).1 hn)
  refine ⟨⟨fun _ => hr, fun _ => hc⟩, ⟨fun h => absurd hc h, ?_⟩, fun h => absurd (k.2.2 (hm h)) hl⟩
  rcases hs with h | h | h | h <;> rw [h] <;> simp

/-! ## The level reference (R42 to R45) -/

theorem evolves_grantReference (s : State) : Evolves s (grantReference s) := by
  unfold grantReference
  split
  · next h t hh hq =>
    refine Evolves.trans (evolves_setReference fun k => ?_) (evolves_changeSlot_plain (by intro r; exact ⟨rfl, rfl, rfl⟩) ?_)
    · rw [ReferenceLaw, hq] at k
      obtain ⟨k1, -, k3⟩ := k
      obtain ⟨kn, kt⟩ := List.nodup_cons.mp k1
      refine ⟨kt, fun i hi => ?_, fun i hi => k3 i (.inl ?_)⟩
      · cases hi; exact kn
      · rcases hi with hi | hi
        · exact List.mem_cons_of_mem _ hi
        · cases hi; exact List.mem_cons_self
    · intro a; cases a
  · exact .refl s

theorem evolves_joinReference (s : State) (i : Fin 8) : Evolves s (joinReference s i) := by
  unfold joinReference
  split
  · next hj =>
    simp only [mayJoin, needsCalibration, Bool.and_eq_true, decide_eq_true_eq, Bool.not_eq_true',
      List.contains_eq_mem, decide_eq_false_iff_not] at hj
    obtain ⟨⟨⟨⟨⟨hl, -⟩, -⟩, -⟩, hq⟩, hh⟩ := hj
    refine Evolves.trans (Evolves.trans (evolves_setReference fun k => ?_)
      (evolves_changeSlot_plain (by intro r; exact ⟨rfl, rfl, rfl⟩) id)) (evolves_grantReference _)
    refine ⟨List.nodup_append.mpr ⟨k.1, List.nodup_singleton _, ?_⟩, fun j hj => ?_, fun j hj => ?_⟩
    · intro a ha b hb hab
      rw [List.mem_singleton.mp hb] at hab
      exact hq (hab ▸ ha)
    · simp only [List.mem_append, List.mem_singleton, not_or]
      exact ⟨k.2.1 j hj, fun e => hh (e ▸ hj)⟩
    · simp only [List.mem_append, List.mem_singleton] at hj
      rcases hj with (hj | rfl) | hj
      · exact k.2.2 j (.inl hj)
      · exact hl
      · exact k.2.2 j (.inr hj)
  · exact .refl s

theorem evolves_evaluateNeeds (s : State) : Evolves s (evaluateNeeds s) :=
  (evolves_drawOrder _ s).trans (evolves_foldl evolves_joinReference _ _)

theorem evolves_passReference (s : State) : Evolves s (passReference s) :=
  (evolves_grantReference s).trans (evolves_evaluateNeeds _)

theorem referenceLaw_quit {v : Vector Slot 8} {r : Reference} (i : Fin 8) (h : ReferenceLaw v r) :
    ReferenceLaw v (quitReference i r) := by
  unfold quitReference
  split
  · exact ⟨h.1, by simp, fun j hj => h.2.2 j (.inl (Or.resolve_right hj (by simp)))⟩
  · refine ⟨h.1.filter _, fun j hj hm => h.2.1 j hj (List.mem_of_mem_filter hm), fun j hj => h.2.2 j ?_⟩
    exact hj.imp List.mem_of_mem_filter id

/-- R44: a slot that has quit neither waits nor calibrates. -/
theorem quitReference_out {v : Vector Slot 8} {r : Reference} (i : Fin 8) (h : ReferenceLaw v r) :
    i ∉ (quitReference i r).queue ∧ (quitReference i r).holder ≠ some i := by
  unfold quitReference
  split
  · next hi => exact ⟨h.2.1 i hi, by simp⟩
  · next hi => exact ⟨by simp, hi⟩

/-- R44: a slot leaves LOCKED. -/
theorem moves_leaveLocked {i : Fin 8} {f : Slot → Slot} {s : State} (hr : SlotOk (s.slot i) → SlotOk (f (s.slot i)))
    (hc : (f (s.slot i)).carrier = (s.slot i).carrier ∨ (f (s.slot i)).carrier = none) :
    Moves s (leaveLocked i f s)
      ∧ (StaysCarried (s.slot i) (f (s.slot i)) → SlotLaw s.slots → ServiceLaw s.services → RouteLaw s →
          RouteLaw (leaveLocked i f s)) := by
  have h1 : Moves s (putSlot i (f (s.slot i)) (s.setReference (quitReference i s.reference))) := by
    refine ⟨rfl, rfl, rfl, rfl, rfl, .refl _, id, id, id, id, id, id, slotLaw_set hr hc, fun h => ?_, fun _ => id,
      fun _ => id⟩
    obtain ⟨q1, q2⟩ := quitReference_out i h
    have k := referenceLaw_quit i h
    refine ⟨k.1, k.2.1, fun j hj => ?_⟩
    have hne : i ≠ j := by
      rintro rfl
      exact hj.elim q1 q2
    have := k.2.2 j hj
    simpa [putSlot, Vector.getElem_set, Fin.val_inj, hne] using this
  have h2 := evolves_reportSlot (slotChanged (s.slot i) (f (s.slot i))) i (s.slot i) (f (s.slot i))
    (quitReference i s.reference).queue (putSlot i (f (s.slot i)) (s.setReference (quitReference i s.reference)))
  have h3 : ∀ t : State, Evolves t (if s.reference.holder = some i then passReference t else t) := fun t => by
    split
    · exact evolves_passReference _
    · exact .refl t
  have h4 := h2.trans (h3 _)
  exact ⟨h1.trans h4.toMoves, fun hk hs hv hrt => h4.routes (h1.slots hs) (h1.services hv)
    (routes_putSlot (s := s.setReference (quitReference i s.reference)) hk hrt)⟩

/-- R44: a slot that stays carried leaves LOCKED. -/
theorem evolves_leaveLocked {i : Fin 8} {f : Slot → Slot} {s : State} (hr : SlotOk (s.slot i) → SlotOk (f (s.slot i)))
    (hc : (f (s.slot i)).carrier = (s.slot i).carrier ∨ (f (s.slot i)).carrier = none)
    (hk : StaysCarried (s.slot i) (f (s.slot i))) : Evolves s (leaveLocked i f s) :=
  ⟨(moves_leaveLocked hr hc).1, (moves_leaveLocked hr hc).2 hk⟩

/-! ## Reports to the scheduler and the router (R98, R100, R132, R139, R140) -/

theorem evolves_putSurvey (i : Fin 8) (x : Option SurveyRecord) (s : State) : Evolves s (putSurvey i x s) :=
  evolves_modSched rfl id

theorem evolves_endSurvey (i : Fin 8) (reason : EndReason) (s : State) : Evolves s (endSurvey i reason s) := by
  unfold endSurvey
  split
  · exact .refl s
  · dsimp only
    split
    · exact (evolves_putSurvey ..).trans (evolves_returnUrgent ..)
    · exact evolves_putSurvey ..

theorem evolves_surveyRunning (i : Fin 8) (s : State) : Evolves s (surveyRunning i s) := by
  unfold surveyRunning
  split
  · exact .refl s
  · exact evolves_putSurvey ..

theorem evolves_closeRecord (x : Nat) (s : State) : Evolves s (closeRecord x s) :=
  evolves_modRouter id (fun h => h.sublist (List.filter_sublist.map _)) rfl

theorem evolves_openRecord (x : Nat) (i : Fin 8) (ph : CarryPhase) (s : State) : Evolves s (openRecord x i ph s) := by
  refine evolves_modRouter id (fun h => ?_) rfl
  simp only [RecordLaw, List.map_append, List.map_cons, List.map_nil]
  refine List.nodup_append.mpr ⟨List.Nodup.sublist (List.filter_sublist.map _) h, List.nodup_singleton _, ?_⟩
  intro a ha b hb
  rw [List.mem_singleton.mp hb]
  obtain ⟨c, hc, rfl⟩ := List.mem_map.mp ha
  simpa using List.of_mem_filter hc

theorem evolves_setPhase (x : Nat) (i : Fin 8) (ph : CarryPhase) (s : State) : Evolves s (setPhase x i ph s) := by
  refine evolves_modRouter id (fun h => ?_) rfl
  simp only [RecordLaw, List.map_map]
  have : (CarryRecord.carrier ∘ fun c : CarryRecord => if c.carrier = x then { c with slot := i, phase := ph } else c) =
      CarryRecord.carrier := by
    funext c
    simp only [Function.comp]
    split <;> rfl
  rw [this]
  exact h

theorem evolves_streamPresent (i : Fin 8) (x : Nat) (s : State) : Evolves s (streamPresent i x s) :=
  ((evolves_setPhase ..).trans (evolves_targetsInEffect ..)).trans (evolves_recomputeRooms _)

theorem evolves_streamLost (i : Fin 8) (x : Nat) (s : State) : Evolves s (streamLost i x s) :=
  (evolves_setPhase ..).trans (evolves_recomputeRooms _)

theorem evolves_endCarry (x : Nat) (asked : Bool) (s : State) : Evolves s (endCarry x asked s) := by
  unfold endCarry
  split
  · split
    · exact ((evolves_closeRecord ..).trans (evolves_recomputeRooms _)).trans (evolves_endOfCarry ..)
    · exact evolves_recomputeRooms s
  · exact (((evolves_closeRecord ..).trans (evolves_recomputeRooms _)).trans (evolves_carryLost ..)).trans
      (evolves_grantFailed ..)

theorem evolves_holdLost (i : Fin 8) (s : State) : Evolves s (holdLost i s) := by
  unfold holdLost
  split
  · exact .refl s
  · exact (evolves_closeRecord ..).trans (evolves_grantFailed ..)

/-! ## Entering RELEASING (R26, R30, R31, R33, R35, R37) -/

/-- R133, R140: after the report of the end of a carry the seventh law holds, whatever held before. -/
theorem routeLaw_endCarry {x : Nat} {asked : Bool} {s : State} (h : SlotLaw s.slots) (hv : ServiceLaw s.services) :
    RouteLaw (endCarry x asked s) := by
  have hc := evolves_closeRecord x s
  have hr := evolves_recomputeRooms (closeRecord x s)
  unfold endCarry
  split
  · split
    · exact (evolves_endOfCarry ..).routes (hr.slots (hc.slots h)) (hr.services (hc.services hv))
        (routeLaw_recomputeRooms _)
    · exact routeLaw_recomputeRooms s
  · exact ((evolves_carryLost ..).trans (evolves_grantFailed ..)).routes (hr.slots (hc.slots h))
      (hr.services (hc.services hv)) (routeLaw_recomputeRooms _)

theorem moves_enterReleasing (i : Fin 8) (hold offline : Bool) (s : State) :
    Moves s (enterReleasing i hold offline s) :=
  (moves_leaveLocked (fun _ => ⟨⟨fun _ => rfl, fun _ => rfl⟩,
    ⟨fun h => absurd rfl h, fun h => by rcases h with h | h | h <;> cases h⟩, fun h => by cases h⟩) (.inr rfl)).1

/-- A slot that carries nothing enters RELEASING. -/
theorem evolves_enterReleasing {i : Fin 8} (hold offline : Bool) {s : State}
    (h : (s.slot i).role = .carry → (s.slot i).carrier = none) : Evolves s (enterReleasing i hold offline s) :=
  evolves_leaveLocked (fun _ => ⟨⟨fun _ => rfl, fun _ => rfl⟩,
    ⟨fun h => absurd rfl h, fun h => by rcases h with h | h | h <;> cases h⟩, fun h => by cases h⟩) (.inr rfl)
    fun hr hc => absurd (h hr) hc

theorem evolves_reportEnd (b : Slot) (i : Fin 8) (x : Nat) (reason : EndReason) (asked : Bool) (s : State) :
    Evolves s (reportEnd b i x reason asked s) := by
  unfold reportEnd
  split
  · exact .refl s
  · dsimp only
    split
    · exact (evolves_endSurvey ..).trans (evolves_endCarry ..)
    · exact evolves_endSurvey ..
  · exact evolves_endCarry ..

/-- A slot with carrier `x` enters RELEASING, the table is told (`f`), and the end of the role is reported. -/
theorem evolves_endRole {i : Fin 8} {x : Nat} {hold offline asked : Bool} {reason : EndReason} {f : State → State}
    {s : State} (hf : ∀ s, Evolves s (f s)) :
    Evolves s (reportEnd (s.slot i) i x reason asked (f (enterReleasing i hold offline s))) := by
  have h1 := (moves_enterReleasing i hold offline s).trans (hf _).toMoves
  by_cases hr : (s.slot i).role = .carry
  · refine ⟨h1.trans (evolves_reportEnd ..).toMoves, fun hs hv _ => ?_⟩
    unfold reportEnd
    rw [hr]
    exact routeLaw_endCarry (h1.slots hs) (h1.services hv)
  · exact ((evolves_enterReleasing hold offline fun h => absurd h hr).trans (hf _)).trans (evolves_reportEnd ..)

theorem evolves_releaseWork (i : Fin 8) (hold offline : Bool) (reason : EndReason) (asked : Bool) (s : State) :
    Evolves s (releaseWork i hold offline reason asked s) := by
  unfold releaseWork
  dsimp only
  split
  · next hn => exact evolves_enterReleasing _ _ fun _ => hn
  · next x _ =>
    split
    · exact evolves_endRole (f := tableReleased x i) fun s => evolves_tableReleased ..
    · exact evolves_endRole (f := tableAborted x i) fun s => evolves_tableAborted ..

theorem evolves_failSlot (i : Fin 8) (c : FailCause) (s : State) : Evolves s (failSlot i c s) := by
  unfold failSlot
  dsimp only
  split
  · next hn => exact evolves_enterReleasing _ _ fun _ => hn
  · next x _ => exact evolves_endRole (f := tableFailed x i c) fun s => evolves_tableFailed ..

/-! ## Requests (R27 to R36, R38) -/

/-- What R29's refusal rules out when it refuses nothing. -/
theorem tuneRefusal_none {carry : Bool} {x : Nat} {i : Fin 8} {s : State} (h : tuneRefusal carry x i s = none) :
    ((s.slot i).state = .parked ∨ (s.slot i).state = .idle) ∧ ∀ j : Fin 8, (s.slot j).carrier ≠ some x := by
  unfold tuneRefusal at h
  dsimp only at h
  split at h
  · cases h
  · next h1 =>
    split at h
    · cases h
    · next h2 =>
      split at h
      · cases h
      · split at h
        · cases h
        · next h4 =>
          refine ⟨?_, fun j hj => h4 ?_⟩
          · cases hs : (s.slot i).state <;> simp_all
          · unfold State.slotOn
            rw [List.find?_isSome]
            exact ⟨j, List.mem_finRange j, by simpa using hj⟩

/-- R26: a slot that takes a carrier no slot is assigned. -/
theorem slotLaw_take {v : Vector Slot 8} {i : Fin 8} {r : Slot} {x : Nat} (hr : SlotOk r) (hc : r.carrier = some x)
    (hx : ∀ j : Fin 8, v[j].carrier ≠ some x) (h : SlotLaw v) : SlotLaw (v.set i r) := by
  have hget : ∀ j : Fin 8, (v.set i r)[j] = if i = j then r else v[j] := by
    intro j
    simp only [Fin.getElem_fin, Vector.getElem_set]
    by_cases e : i = j
    · simp [e]
    · rw [if_neg (fun h => e (Fin.ext h)), if_neg e]
  refine ⟨fun j => ?_, fun j k hjk hj => ?_⟩
  · rw [hget]
    split
    · exact hr
    · exact h.1 j
  · rw [hget, hget] at hjk
    rw [hget] at hj
    by_cases e1 : i = j <;> by_cases e2 : i = k
    · exact e1.symm.trans e2
    · rw [if_pos e1, if_neg e2, hc] at hjk
      exact absurd hjk.symm (hx k)
    · rw [if_neg e1, if_pos e2, hc] at hjk
      exact absurd hjk (hx j)
    · rw [if_neg e1, if_neg e2] at hjk
      rw [if_neg e1] at hj
      exact h.2 j k hjk hj

theorem evolves_tuneSlot (carry : Bool) (x : Nat) (i : Fin 8) (s : State) : Evolves s (tuneSlot carry x i s).1 := by
  unfold tuneSlot
  split
  · exact .refl s
  · exact .refl s
  · next c hn _ =>
    obtain ⟨hi, hx⟩ := tuneRefusal_none hn
    have hb : (s.slot i).state ≠ .tuning ∧ (s.slot i).state ≠ .acquiring ∧ (s.slot i).state ≠ .locked := by
      rcases hi with hi | hi <;> rw [hi] <;> simp
    refine Evolves.trans (evolves_changeSlot ⟨moves_setSlots (fun h => slotLaw_take ?_ rfl hx h)
      (referenceLaw_set fun hl => ?_), fun hs _ => routes_putSlot fun _ hn =>
        absurd (idle_of_slotOk (hs.1 i) hb.1 hb.2.1 hb.2.2).1 hn⟩) (evolves_tableTuned ..)
    · refine ⟨⟨fun h => (by cases h), fun h => ?_⟩, ⟨fun _ => .inl rfl, fun _ h => (by cases h)⟩, fun h => by cases h⟩
      simp only [tunedSlot] at h
      split at h <;> cases h
    · change (s.slot i).state = .locked at hl
      rw [hl] at hi
      rcases hi with hi | hi <;> cases hi

theorem evolves_releaseSlot (sender : Sender) (hold : Bool) (i : Fin 8) (s : State) :
    Evolves s (releaseSlot sender hold i s).1 := by
  unfold releaseSlot
  dsimp only
  split
  · exact .refl s
  · split
    · exact evolves_releaseWork ..
    · exact evolves_releaseWork ..
    · exact evolves_releaseWork ..
    · dsimp only
      split
      · exact evolves_modSlot_plain (by intro r; exact ⟨rfl, rfl, rfl, rfl⟩)
      · exact .refl s
    · dsimp only
      split
      · exact evolves_modSlot_plain (by intro r; exact ⟨rfl, rfl, rfl, rfl⟩)
      · exact .refl s
    · exact .refl s
    · exact .refl s

theorem evolves_withdrawHold (i : Fin 8) (s : State) : Evolves s (withdrawHold i s) := by
  unfold withdrawHold
  dsimp only
  split
  · exact .refl s
  · split
    · refine Evolves.trans ?_ (evolves_searchDue _)
      exact evolves_modSlot_plain (by intro r; exact ⟨rfl, rfl, rfl, rfl⟩)
    · exact evolves_modSlot_plain (by intro r; exact ⟨rfl, rfl, rfl, rfl⟩)

theorem evolves_adoptSlot (x : Nat) (i : Fin 8) (s : State) : Evolves s (adoptSlot x i s).1 := by
  unfold adoptSlot
  dsimp only
  split
  · exact .refl s
  · next hn =>
    split
    · refine Evolves.trans (Evolves.trans ?_ (evolves_tableAdopted ..)) (evolves_endSurvey ..)
      refine evolves_changeSlot (evolves_putSlot (fun k => ?_) (.inl rfl) id fun _ _ _ => ⟨rfl, rfl⟩)
      refine ⟨⟨fun h => ?_, fun h => ?_⟩, k.2⟩
      · have := k.1.mp h
        simp_all
      · cases h
    · dsimp only
      exact evolves_modSlot_plain (by intro r; exact ⟨rfl, rfl, rfl, rfl⟩)
    · dsimp only
      exact evolves_modSlot_plain (by intro r; exact ⟨rfl, rfl, rfl, rfl⟩)
    all_goals exact .refl s

theorem evolves_slotGoOffline (i : Fin 8) (s : State) : Evolves s (slotGoOffline i s).1 := by
  unfold slotGoOffline
  dsimp only
  have hm : Evolves s (modSlot i (fun r => { r with offlinePending := true, heldForRouter := false }) s) :=
    evolves_modSlot_plain fun _ => ⟨rfl, rfl, rfl, rfl⟩
  have hi : (s.slot i).state = .parked ∨ (s.slot i).state = .idle → Evolves s (changeSlot i offlineSlot s) := fun h =>
    evolves_changeSlot_idle (by rcases h with h | h <;> rw [h] <;> simp) (by rcases h with h | h <;> rw [h] <;> simp)
      rfl rfl (.inl rfl) id
  split <;> dsimp only
  · exact .refl s
  · next h =>
    split
    · exact (hi (.inl h)).trans (evolves_holdLost ..)
    · exact hi (.inl h)
  · next h =>
    split
    · exact (hi (.inr h)).trans (evolves_holdLost ..)
    · exact hi (.inr h)
  · exact evolves_releaseWork ..
  · exact evolves_releaseWork ..
  · exact evolves_releaseWork ..
  · split
    · exact hm.trans (evolves_holdLost ..)
    · exact hm

theorem evolves_slotGoOnline (i : Fin 8) (s : State) : Evolves s (slotGoOnline i s).1 := by
  unfold slotGoOnline
  split
  · next h =>
    have hb : (s.slot i).state ≠ .tuning ∧ (s.slot i).state ≠ .acquiring ∧ (s.slot i).state ≠ .locked := by rw [h]; simp
    refine Evolves.trans (evolves_changeSlot (evolves_putSlot (fun k => ?_) (.inl rfl) ?_ fun k _ hn =>
      absurd (idle_of_slotOk k hb.1 hb.2.1 hb.2.2).1 hn)) (evolves_searchDue _)
    · have hc : (s.slot i).carrier = none := by
        by_cases hc : (s.slot i).carrier = none
        · exact hc
        · have := k.2.1.mp hc
          rw [h] at this
          simp at this
      refine ⟨⟨fun _ => rfl, fun _ => hc⟩, ⟨fun hn => absurd hc hn, fun hs => by simp at hs⟩, fun ha => ?_⟩
      have := k.2.2 ha
      rw [h] at this
      cases this
    · rw [h]
      simp
  · exact .refl s

/-! ## Verification, lock loss and re-tune (R37 to R40, R59) -/

/-- A slot that is assigned a carrier enters LOCKED, its role kept or become CARRY. -/
theorem evolves_lockSlot {i : Fin 8} {f : Slot → Slot} {s : State} {x : Nat} (hx : (s.slot i).carrier = some x)
    (hs : (f (s.slot i)).state = .locked) (hc : (f (s.slot i)).carrier = (s.slot i).carrier)
    (hr : (f (s.slot i)).role = (s.slot i).role ∨ (f (s.slot i)).role = .carry) : Evolves s (changeSlot i f s) := by
  refine evolves_changeSlot (evolves_putSlot (fun k => ?_) (.inl hc) (fun _ => hs)
    fun _ hk _ => ⟨hr.elim (fun h => h.trans hk) id, hc⟩)
  refine ⟨⟨fun h => ?_, fun h => ?_⟩, ⟨fun _ => .inr (.inr hs), fun _ => ?_⟩, fun _ => hs⟩
  · rw [hc, hx] at h; cases h
  · rcases hr with hr | hr
    · rw [hc]; exact k.1.mpr (hr ▸ h)
    · rw [hr] at h; cases h
  · rw [hc, hx]; simp

theorem evolves_verifySlot (i : Fin 8) (r : VerifiedReport) (s : State) : Evolves s (verifySlot i r s) := by
  unfold verifySlot
  dsimp only
  split
  · exact .refl s
  · next x hx =>
    have h1 : Evolves s (tableVerified x i r (changeSlot i (verifiedSlot s.now) s)) := by
      refine Evolves.trans (evolves_lockSlot hx ?_ ?_ ?_) (evolves_tableVerified ..) <;>
        (unfold verifiedSlot; dsimp only; split <;> simp)
    refine Evolves.trans ?_ (evolves_joinReference ..)
    split
    · exact h1
    · exact h1.trans (evolves_streamPresent ..)
    · split
      · exact ((h1.trans (evolves_tableAdopted ..)).trans (evolves_endSurvey ..)).trans (evolves_streamPresent ..)
      · exact h1.trans (evolves_surveyRunning ..)

theorem evolves_loseCarriedLock {i : Fin 8} {s : State} (hl : (s.slot i).state = .locked) :
    Evolves s (loseCarriedLock i s) := by
  have h1 : Evolves s (leaveLocked i retuningSlot s) := by
    refine evolves_leaveLocked (fun k => ?_) (.inl rfl) fun hr _ => ⟨hr, rfl⟩
    exact ⟨k.1, ⟨fun _ => .inl rfl, fun _ => k.2.1.mpr (.inr (.inr hl))⟩, fun h => by cases h⟩
  unfold loseCarriedLock
  dsimp only
  split
  · exact h1
  · exact (h1.trans (evolves_tableLost ..)).trans (evolves_streamLost ..)

theorem evolves_relockSlot (i : Fin 8) (s : State) : Evolves s (relockSlot i s) := by
  unfold relockSlot
  split
  · exact .refl s
  · next x hx =>
    exact (((evolves_lockSlot hx rfl rfl (.inl rfl)).trans (evolves_tableReacquired ..)).trans
      (evolves_streamPresent ..)).trans (evolves_joinReference ..)

end Sys2Proof.Machine
end

