-- ==== Sys2Proof/Laws/Router.lean ====
section
/-! SUPPORT. What the survey scheduler and the output router may do to the state (`Evolves`), and what `settle` may. -/

namespace Sys2Proof.Machine

/-! ## The search and the course of a survey (R96 to R98, R101) -/

theorem evolves_openSurvey (x : Nat) (i : Fin 8) (s : State) : Evolves s (openSurvey x i s) :=
  (evolves_putSurvey ..).trans (evolves_dropUrgent ..)

theorem evolves_searchLoop (n : Nat) (a : List Nat) (b : List (Fin 8)) (s : State) : Evolves s (searchLoop n a b s) := by
  induction n generalizing a b s with
  | zero => exact .refl s
  | succ n ih =>
    unfold searchLoop
    split
    · next x i _ _ =>
      have h := evolves_tuneSlot false x i s
      split <;> rename_i s1 e <;> rw [e] at h
      · exact (h.trans (evolves_openSurvey ..)).trans (ih ..)
      · exact h.trans (ih ..)
      · exact h.trans (ih ..)
      · exact h.trans (ih ..)
      · exact h.trans (ih ..)
      · exact (h.trans (evolves_dropUrgent ..)).trans (ih ..)
    · exact .refl s

theorem evolves_search (s : State) : Evolves s (search s) := evolves_searchLoop ..

theorem evolves_finishSurvey (i : Fin 8) (r : SurveyRecord) (s : State) : Evolves s (finishSurvey i r s) := by
  unfold finishSurvey
  dsimp only
  split
  · exact evolves_putSurvey ..
  · exact (evolves_putSurvey ..).trans (evolves_releaseSlot ..)

theorem evolves_countSurveyWindow (i : Fin 8) (s : State) : Evolves s (countSurveyWindow i s) := by
  unfold countSurveyWindow
  split
  · exact .refl s
  · split
    · split
      · exact evolves_finishSurvey ..
      · exact evolves_putSurvey ..
    · exact .refl s

theorem evolves_endSurveyByTable (i : Fin 8) (s : State) : Evolves s (endSurveyByTable i s) := by
  unfold endSurveyByTable
  split
  · exact .refl s
  · split
    · exact evolves_putSurvey ..
    · exact (evolves_putSurvey ..).trans (evolves_releaseSlot ..)
    · exact (evolves_putSurvey ..).trans (evolves_releaseSlot ..)

/-! ## Claims and settling (R96, R106, R133) -/

theorem evolves_giveUp (r : CarryRecord) (s : State) : Evolves s (giveUp r s) := by
  unfold giveUp
  split
  · exact (evolves_withdrawHold ..).trans (evolves_closeRecord ..)
  · exact .refl s
  all_goals exact evolves_releaseSlot ..

theorem evolves_checkClaims (s : State) : Evolves s (checkClaims s) := by
  have : ∀ (n : Nat) (s : State), Evolves s (examineClaims n s) := by
    intro n
    induction n with
    | zero => exact fun s => .refl s
    | succ n ih =>
      intro s
      unfold examineClaims
      split
      · exact .refl s
      · exact (evolves_giveUp ..).trans (ih _)
  exact this _ s

theorem evolves_runSearch (s : State) : Evolves s (runSearch s) := by
  have h1 : Evolves s (modSched (fun c => { c with searchDue := false }) s) := evolves_modSched rfl id
  unfold runSearch
  dsimp only
  split
  · exact h1.trans (evolves_search _)
  · exact h1

theorem evolves_settle (s : State) : Evolves s (settle s) :=
  (((((evolves_checkPassEnd s).trans (evolves_checkClaims _)).trans (evolves_runSearch _)).trans
    (evolves_checkClaims _)).trans (evolves_runSearch _)).trans (evolves_checkPassEnd _)

/-! ## The grant steps (R134 to R138) -/

theorem evolves_grantSharing (x : Nat) (s : State) : Evolves s (grantSharing x s).1 := by
  unfold grantSharing
  split <;> exact .refl s

theorem evolves_grantAdoptionOf (x : Nat) (i : Fin 8) (s : State) : Evolves s (grantAdoptionOf x i s).1 := by
  have h := evolves_adoptSlot x i s
  unfold grantAdoptionOf
  split <;> rename_i s1 e <;> rw [e] at h <;> dsimp only
  · exact (h.trans (evolves_openRecord ..)).trans (evolves_recomputeRooms _)
  · exact h.trans (evolves_openRecord ..)
  · exact h

theorem evolves_grantAdoption (x : Nat) (s : State) : Evolves s (grantAdoption x s).1 := by
  unfold grantAdoption
  split
  · exact .refl s
  · exact evolves_grantAdoptionOf ..

theorem evolves_grantTune (x : Nat) (l : List (Fin 8)) (s : State) : Evolves s (grantTune x l s).1 := by
  induction l generalizing s with
  | nil => exact .refl s
  | cons i l ih =>
    have h := evolves_tuneSlot true x i s
    unfold grantTune
    split <;> rename_i s1 e <;> rw [e] at h
    · exact h.trans (evolves_openRecord ..)
    · exact h.trans (ih _)
    · exact h.trans (ih _)
    · exact h.trans (ih _)
    · exact h.trans (evolves_grantAdoption ..)
    · exact h

theorem evolves_grantFree (x : Nat) (s : State) : Evolves s (grantFree x s).1 := by
  unfold grantFree
  split
  · exact evolves_grantTune ..
  · exact .refl s

theorem evolves_grantPreempt (x : Nat) (l : List (Fin 8)) (s : State) : Evolves s (grantPreempt x l s).1 := by
  induction l generalizing s with
  | nil => exact .refl s
  | cons i l ih =>
    unfold grantPreempt
    dsimp only
    split
    · exact (evolves_releaseSlot ..).trans (evolves_openRecord ..)
    · exact (evolves_releaseSlot ..).trans (ih _)

theorem evolves_grantReserve (x : Nat) (s : State) : Evolves s (grantReserve x s).1 := by
  have h := evolves_grantTune x s.freeSlots s
  unfold grantReserve
  split <;> rename_i s1 e <;> rw [e] at h
  · exact h
  · exact h.trans (evolves_grantPreempt ..)

theorem evolves_displace (x : Nat) (i : Fin 8) (v : Nat) (s : State) : Evolves s (displace x i v s) :=
  (((evolves_carryLost ..).trans (evolves_closeRecord ..)).trans (evolves_releaseSlot ..)).trans (evolves_openRecord ..)

theorem evolves_grantDisplace (k : ServiceKey) (x : Nat) (s : State) : Evolves s (grantDisplace k x s).1 := by
  unfold grantDisplace
  split
  · exact .refl s
  · split
    · exact evolves_displace ..
    · exact .refl s

theorem evolves_orElseStep {s : State} {r : StepResult} {f : State → StepResult} (h : Evolves s r.1)
    (hf : ∀ s, Evolves s (f s).1) : Evolves s (orElseStep r f).1 := by
  unfold orElseStep
  split
  · exact h
  · exact h.trans (hf _)

theorem evolves_grantSteps (fo : Bool) (k : ServiceKey) (x : Nat) (s : State) : Evolves s (grantSteps fo k x s).1 := by
  have h3 := evolves_orElseStep (evolves_orElseStep (evolves_grantSharing x s) (evolves_grantAdoption x))
    (evolves_grantFree x)
  unfold grantSteps
  dsimp only
  split
  · exact evolves_orElseStep (evolves_orElseStep h3 (evolves_grantReserve x)) (evolves_grantDisplace k x)
  · exact h3

theorem evolves_takeRequest (q : GrantReq) (s : State) : Evolves s (takeRequest q s) := by
  unfold takeRequest
  split
  · exact evolves_withdrawRequest ..
  · exact ((evolves_grantSteps ..).trans (evolves_withdrawRequest ..)).trans (evolves_answerService ..)

/-! ## Waiting records (R139) -/

theorem evolves_failWaiting (x : Nat) (i : Fin 8) (s : State) : Evolves s (failWaiting x i s) :=
  ((evolves_withdrawHold ..).trans (evolves_closeRecord ..)).trans (evolves_grantFailed ..)

theorem evolves_heldSlotFree (i : Fin 8) (s : State) : Evolves s (heldSlotFree i s) := by
  unfold heldSlotFree
  split
  · exact .refl s
  · next r _ =>
    have h := evolves_tuneSlot true r.carrier i s
    split
    · next s1 e => rw [e] at h; exact h.trans (evolves_setPhase ..)
    · next s1 e =>
      rw [e] at h
      refine h.trans ?_
      split
      · exact evolves_failWaiting ..
      · next j _ =>
        have k := evolves_adoptSlot r.carrier j s1
        split <;> rename_i s2 e2 <;> rw [e2] at k
        · exact ((k.trans (evolves_withdrawHold ..)).trans (evolves_setPhase ..)).trans (evolves_streamPresent ..)
        · exact (k.trans (evolves_withdrawHold ..)).trans (evolves_setPhase ..)
        · exact k.trans (evolves_failWaiting ..)
    · next s1 a _ _ e => rw [e] at h; exact h.trans (evolves_failWaiting ..)

end Sys2Proof.Machine
end

