-- ==== Sys2Proof/Laws/Events.lean ====
section
/-! SUPPORT. What the events of the slots, the acquisition channels and the router may do to the state (`Evolves`), one
lemma for each operation, and the shape of an event's outcome. -/

namespace Sys2Proof.Machine

/-! ## The shape of an outcome -/

/-- An event's outcome while the part runs and the event's condition holds. -/
theorem blockEvent_done {p : State → Bool} {f : State → State} {s : State} (hr : s.clock.inReset = false)
    (hp : p s = true) : blockEvent p f s = .next (settle (f s)) := by
  simp [blockEvent, whileRunning, hr, hp]

/-- An event whose condition does not hold has no effect (log entry 11). -/
theorem blockEvent_idle {p : State → Bool} {f : State → State} {s : State} (hp : p s = false) :
    blockEvent p f s = .next s := by
  simp [blockEvent, whileRunning, hp]

/-- An event always completes, and does no more than its effect and its settling. -/
theorem blockEvent_evolves {p : State → Bool} {f : State → State} {s t : State} (hf : p s = true → Evolves s (f s))
    (h : blockEvent p f s = .next t) : Evolves s t := by
  unfold blockEvent whileRunning at h
  cases h
  split
  · exact .refl s
  · dsimp only
    split
    · next hp => exact (hf hp).trans (evolves_settle _)
    · exact .refl s

theorem whileRunning_evolves {f : State → State} {s t : State} (hf : Evolves s (f s)) (h : whileRunning f s = .next t) :
    Evolves s t := by
  unfold whileRunning at h
  cases h
  split
  · exact .refl s
  · exact hf

/-! ## The acquisition channels (R49 to R69) -/

theorem evolves_modChan (i : Fin 8) (f : Channel → Channel) (s : State) : Evolves s (modChan i f s) :=
  evolves_modSlot_plain fun _ => ⟨rfl, rfl, rfl, rfl⟩

theorem evolves_takeIdentity (i : Fin 8) (d : Identity) (s : State) : Evolves s (takeIdentity i d s) := by
  unfold takeIdentity
  split
  · exact evolves_modChan ..
  · exact evolves_failSlot ..

theorem evolves_verifyWith (i : Fin 8) (st : CarrierListStatus) (es : List ListEntry) (s : State) :
    Evolves s (verifyWith i st es s) := by
  unfold verifyWith
  split
  · exact evolves_verifySlot ..
  · exact .refl s

theorem evolves_leaveSvcWait (i : Fin 8) (d : Identity) (l : FormedList) (s : State) :
    Evolves s (leaveSvcWait i d l s) := by
  unfold leaveSvcWait
  dsimp only
  split
  · exact (evolves_modChan ..).trans (evolves_modChan ..)
  · exact (evolves_modChan ..).trans (evolves_verifyWith ..)

theorem evolves_takeServices (i : Fin 8) (p l : Nat) (ns : List Nat) (s : State) :
    Evolves s (takeServices i p l ns s) := by
  unfold takeServices
  dsimp only
  split
  · exact .refl s
  · split
    · exact evolves_modChan ..
    · split
      · exact (evolves_modChan ..).trans (evolves_leaveSvcWait ..)
      · exact evolves_modChan ..

theorem evolves_takeEntries (i : Fin 8) (p l : Nat) (es : List ListEntry) (s : State) :
    Evolves s (takeEntries i p l es s) := by
  unfold takeEntries
  dsimp only
  split
  · exact .refl s
  · split
    · exact (evolves_modChan ..).trans (evolves_verifyWith ..)
    · exact evolves_modChan ..

theorem evolves_sameIdentity (i : Fin 8) (x : Nat) (d : Identity) (s : State) : Evolves s (sameIdentity i x d s) := by
  have h1 : Evolves s (if listPending s x then rereadServices i d s else endRecheck i s) := by
    split <;> exact evolves_modChan ..
  unfold sameIdentity
  dsimp only
  split
  · exact h1
  · exact h1.trans (evolves_tableIdentity ..)

theorem evolves_recheckIdentity (i : Fin 8) (d : Identity) (s : State) : Evolves s (recheckIdentity i d s) := by
  unfold recheckIdentity
  split
  · exact .refl s
  · split
    · split
      · exact evolves_sameIdentity ..
      · exact evolves_failSlot ..
    · split
      · exact evolves_sameIdentity ..
      · exact (evolves_modChan ..).trans (evolves_tableIdChanged ..)

theorem evolves_recheckServices (i : Fin 8) (p l : Nat) (ns : List Nat) (s : State) :
    Evolves s (recheckServices i p l ns s) := by
  unfold recheckServices
  dsimp only
  split
  · exact .refl s
  · split
    · split
      · exact ((evolves_modChan ..).trans (evolves_modChan ..)).trans (evolves_tableReread ..)
      · exact evolves_modChan ..
    · exact evolves_modChan ..

theorem evolves_takeSection (i : Fin 8) (sec : Section) (s : State) : Evolves s (takeSection i sec s) := by
  unfold takeSection
  split
  · unfold takeBody
    split
    · exact evolves_takeIdentity ..
    · exact evolves_takeServices ..
    · exact evolves_takeEntries ..
    · exact evolves_recheckIdentity ..
    · exact evolves_recheckServices ..
    · exact .refl s
  · exact .refl s

theorem evolves_lockTimeoutEnds (i : Fin 8) (s : State) : Evolves s (lockTimeoutEnds i s) := by
  unfold lockTimeoutEnds
  split
  · exact evolves_failSlot ..
  · exact .refl s

theorem evolves_retuneTimeoutEnds (i : Fin 8) (s : State) : Evolves s (retuneTimeoutEnds i s) := by
  unfold retuneTimeoutEnds
  dsimp only
  split
  · split
    · exact evolves_modSlot_plain fun _ => ⟨rfl, rfl, rfl, rfl⟩
    · exact evolves_failSlot ..
  · exact .refl s

/-- R51: lock gained in LOCK_WAIT, in TUNING. -/
theorem evolves_acquire {i : Fin 8} {s : State} (hs : (s.slot i).state = .tuning) :
    Evolves s (changeSlot i acquiringSlot s) := by
  refine evolves_changeSlot (evolves_putSlot (fun k => ?_) (.inl rfl) (fun h => by rw [hs] at h; cases h)
    fun _ hr _ => ⟨hr, rfl⟩)
  refine ⟨k.1, ⟨fun _ => .inr (.inl rfl), fun _ => k.2.1.mpr (.inl hs)⟩, fun h => ?_⟩
  have := k.2.2 h
  rw [hs] at this
  cases this

theorem evolves_gainLock (i : Fin 8) (s : State) : Evolves s (gainLock i s) := by
  unfold gainLock
  dsimp only
  split
  · next hs =>
    split
    · exact evolves_relockSlot ..
    · split
      · exact evolves_acquire hs
      · exact .refl s
  · exact .refl s

theorem evolves_loseLock (i : Fin 8) (s : State) : Evolves s (loseLock i s) := by
  unfold loseLock
  dsimp only
  split
  · exact evolves_failSlot ..
  · next hs =>
    split
    · exact evolves_loseCarriedLock hs
    · exact evolves_failSlot ..
  all_goals exact .refl s

/-! ## Windows and calibration (R2 to R6, R43, R66) -/

theorem evolves_countRecheckWindow (i : Fin 8) (s : State) : Evolves s (countRecheckWindow i s) := by
  unfold countRecheckWindow
  dsimp only
  split
  · split <;> exact evolves_modChan ..
  · exact .refl s

/-- R2: a window starts on a slot that is LOCKED or whose window is active. -/
theorem evolves_startWindow {i : Fin 8} {s : State}
    (h : (s.slot i).state = .locked ∨ (s.slot i).meas.active = true) :
    Evolves s (modSlot i (fun r => { r with meas := startWindow r.meas }) s) :=
  evolves_modSlot (fun k => ⟨k.1, k.2.1, fun _ => h.elim id k.2.2⟩) (.inl rfl) id fun _ hr _ => ⟨hr, rfl⟩

theorem active_of_windowFull {m : MeasUnit} (h : windowFull m = true) : m.active = true := by
  simp only [windowFull, Bool.and_eq_true] at h
  exact h.1

theorem evolves_completeWindow (i : Fin 8) (z : Int) (s : State) : Evolves s (completeWindow i z s) := by
  unfold completeWindow
  dsimp only
  split
  · next hf =>
    split
    · exact .refl s
    · exact (((evolves_startWindow (.inr (active_of_windowFull hf))).trans (evolves_tableRecord ..)).trans
        (evolves_countRecheckWindow ..)).trans (evolves_countSurveyWindow ..)
  · exact .refl s

theorem evolves_deliverSymbol (i : Fin 8) (q : Nat) (s : State) : Evolves s (deliverSymbol i q s) := by
  unfold deliverSymbol
  split
  · exact evolves_modSlot_plain fun _ => ⟨rfl, rfl, rfl, rfl⟩
  · exact .refl s

theorem evolves_reportBlock (i : Fin 8) (s : State) : Evolves s (reportBlock i s) := by
  unfold reportBlock
  split
  · exact evolves_modSlot_plain fun _ => ⟨rfl, rfl, rfl, rfl⟩
  · exact .refl s

theorem evolves_startWindowAfter (i : Fin 8) (s : State) : Evolves s (startWindowAfter i s) := by
  unfold startWindowAfter
  split
  · next h => exact evolves_startWindow (.inl h.1)
  · exact .refl s

theorem referenceLaw_idle {v : Vector Slot 8} {r : Reference} (h : ReferenceLaw v r) :
    ReferenceLaw v (idleReference r) :=
  ⟨h.1, by simp [idleReference], fun j hj => h.2.2 j (.inl (Or.resolve_right hj (by simp [idleReference])))⟩

theorem evolves_endCalibration (s : State) : Evolves s (endCalibration s) := by
  have h1 : Evolves s (s.setReference (idleReference s.reference)) := evolves_setReference referenceLaw_idle
  unfold endCalibration
  split
  · exact .refl s
  · dsimp only
    split
    · refine Evolves.trans (Evolves.trans (h1.trans (evolves_changeSlot_plain ?_ id)) (evolves_passReference _))
        (evolves_startWindowAfter ..)
      exact fun _ => ⟨rfl, rfl, rfl⟩
    · exact h1.trans (evolves_passReference _)

/-! ## Slot timers (R28, R33, R34) -/

theorem evolves_unparked (i : Fin 8) (s : State) : Evolves s (modSlot i unparkedSlot s) :=
  evolves_modSlot_plain fun _ => ⟨rfl, rfl, rfl, rfl⟩

/-- A slot that works on nothing goes from one idle state to another. -/
theorem evolves_idleSlot {i : Fin 8} {f : Slot → Slot} {s : State}
    (h : (s.slot i).state ≠ .tuning ∧ (s.slot i).state ≠ .acquiring ∧ (s.slot i).state ≠ .locked)
    (hf : (f (s.slot i)).role = (s.slot i).role ∧ (f (s.slot i)).carrier = (s.slot i).carrier ∧
      (f (s.slot i)).meas = (s.slot i).meas)
    (hs : (f (s.slot i)).state ≠ .tuning ∧ (f (s.slot i)).state ≠ .acquiring ∧ (f (s.slot i)).state ≠ .locked) :
    Evolves s (changeSlot i f s) := by
  refine evolves_changeSlot (evolves_putSlot (fun k => ?_) (.inl hf.2.1) (fun hl => absurd hl h.2.2)
    fun _ hr _ => ⟨hf.1.trans hr, hf.2.1⟩)
  obtain ⟨hc, hr⟩ := idle_of_slotOk k h.1 h.2.1 h.2.2
  refine ⟨⟨fun _ => hf.1.trans hr, fun _ => hf.2.1.trans hc⟩, ⟨fun hn => absurd (hf.2.1.trans hc) hn, ?_⟩, fun ha => ?_⟩
  · rintro (e | e | e)
    · exact absurd e hs.1
    · exact absurd e hs.2.1
    · exact absurd e hs.2.2
  · rw [hf.2.2] at ha
    exact absurd (k.2.2 ha) h.2.2

theorem evolves_endRelease {i : Fin 8} {s : State} (h : (s.slot i).state = .releasing) :
    Evolves s (endRelease i s) := by
  have hb : (s.slot i).state ≠ .tuning ∧ (s.slot i).state ≠ .acquiring ∧ (s.slot i).state ≠ .locked := by
    rw [h]; simp
  have h1 : Evolves s (changeSlot i releasedOffline s) :=
    evolves_idleSlot hb ⟨rfl, rfl, rfl⟩ (by simp [releasedOffline])
  have h2 : Evolves s (changeSlot i releasedIdle s) := evolves_idleSlot hb ⟨rfl, rfl, rfl⟩ (by simp [releasedIdle])
  unfold endRelease
  dsimp only
  split
  · exact h1
  · split
    · exact h2.trans (evolves_heldSlotFree ..)
    · exact h2.trans (evolves_searchDue _)

theorem evolves_park {i : Fin 8} {s : State} (h : (s.slot i).state = .idle) : Evolves s (changeSlot i parkedSlot s) :=
  evolves_idleSlot (by rw [h]; simp) ⟨rfl, rfl, rfl⟩ (by simp [parkedSlot])

/-! ## The router's and the watch unit's events (R131, R134, R160) -/

theorem evolves_takeRequestOf (i : Nat) (s : State) : Evolves s (takeRequestOf i s) := by
  unfold takeRequestOf
  split
  · exact .refl s
  · exact evolves_takeRequest ..

theorem evolves_endPulse (s : State) : Evolves s (modWatches endPulse s) := by
  refine (ranks_modWatches ?_).toEvolves
  unfold endPulse
  split <;> rfl

end Sys2Proof.Machine
end

