-- ==== Sys2Proof/Laws/Commit.lean ====
section
/-! SUPPORT. What a commit of a plan and CLEAR_SURVEY may do to the state (`Evolves`), and the fifth law (R71) through a
commit: the capacity rule (R86) leaves a place for every carrier the plan adds. -/

namespace Sys2Proof.Machine

/-! ## Counting entries -/

/-- A condition on an entry that its lister does not matter to. -/
def ListerFree (n : Nat × Carrier → Bool) : Prop :=
  ∀ (e : Nat × Carrier) (x : Option Nat), n (e.1, { e.2 with lister := x }) = n e

theorem countP_clearLister {n : Nat × Carrier → Bool} (hn : ListerFree n) (x : Nat) (t : Table Carrier) :
    (clearLister x t).countP n = t.countP n := by
  unfold clearLister
  rw [List.countP_map]
  congr 1
  funext e
  simp only [Function.comp]
  split
  · exact hn e none
  · rfl

theorem countP_tabDel_le (n : Nat × Carrier → Bool) (x : Nat) {t : Table Carrier}
    (hs : (tabKeys t).Pairwise (· < ·)) :
    (tabDel t x).countP n ≤ t.countP fun e => n e && decide (e.1 ≠ x) := by
  have hsub : (tabDel t x).countP n = (tabDel t x).countP fun e => n e && decide (e.1 ≠ x) := by
    refine List.countP_congr fun e he => ?_
    have : e.1 ≠ x := by
      induction t with
      | nil => simp [tabDel] at he
      | cons d t ih =>
        simp only [tabKeys, List.map_cons, List.pairwise_cons] at hs
        simp only [tabDel] at he
        split at he
        · next hd =>
          have := hs.1 e.1 (List.mem_map_of_mem he)
          omega
        · next hd =>
          rcases List.mem_cons.mp he with rfl | he
          · exact fun h => hd h.symm
          · exact ih hs.2 he
    simp [this]
  rw [hsub]
  exact (tabDel_sublist t x).countP_le

theorem tabKeys_removeEntry (x : Nat) (t : Table Carrier) : tabKeys (removeEntry x t) = tabKeys (tabDel t x) := by
  unfold removeEntry clearLister tabKeys
  rw [List.map_map]
  congr 1
  funext e
  simp only [Function.comp]
  split <;> rfl

theorem rising_removeEntry (x : Nat) {t : Table Carrier} (hs : (tabKeys t).Pairwise (· < ·)) :
    (tabKeys (removeEntry x t)).Pairwise (· < ·) := by
  rw [tabKeys_removeEntry]
  exact hs.sublist ((tabDel_sublist t x).map _)

/-- The entries left by a removal of several places, counted. -/
theorem countP_removeAll {n : Nat × Carrier → Bool} (hn : ListerFree n) (l : List Nat) {t : Table Carrier}
    (hs : (tabKeys t).Pairwise (· < ·)) :
    (l.foldl (fun t i => removeEntry i t) t).countP n ≤ t.countP fun e => n e && !l.contains e.1 := by
  induction l generalizing t with
  | nil => simp
  | cons x l ih =>
    refine (ih (rising_removeEntry x hs)).trans ?_
    have hn2 : ListerFree fun e => n e && !l.contains e.1 := fun e y => by simp [hn e y]
    unfold removeEntry
    rw [countP_clearLister hn2]
    refine (countP_tabDel_le _ x hs).trans (le_of_eq (List.countP_congr fun e _ => ?_))
    simp only [List.contains_cons, Bool.and_eq_true, decide_eq_true_eq, Bool.not_eq_true', Bool.or_eq_false_iff,
      beq_eq_false_iff_ne, ne_eq]
    grind

/-- A write at a free place of an entry that does not count leaves the count as it was. -/
theorem countP_tabPut_new {n : Nat × Carrier → Bool} {i : Nat} {c : Carrier} {t : Table Carrier} (hi : i ∉ tabKeys t)
    (hc : n (i, c) = false) : (tabPut t i c).countP n = t.countP n := by
  induction t with
  | nil => simp [tabPut, hc]
  | cons d t ih =>
    simp only [tabKeys, List.map_cons, List.mem_cons, not_or] at hi
    simp only [tabPut]
    split
    · simp [List.countP_cons, hc]
    · rw [if_neg hi.1]
      simp [List.countP_cons, ih hi.2]

/-! ## The capacity rule (R86) -/

/-- The plan names the entry's key. -/
def named (p : Plan) (e : Nat × Carrier) : Bool := (planRecord p e.2).isSome

theorem named_of_key {p : Plan} {e d : Nat × Carrier} (hi : e.2.input = d.2.input) (hf : e.2.freq = d.2.freq) :
    named p e = named p d := by
  simp [named, planRecord, hi, hf]

/-- The evictions are places of discovered-only entries, none twice, and as many as the count is over 96. -/
theorem evictions_spec {p : Plan} {t : Table Carrier} {ev : List Nat} (hs : (tabKeys t).Pairwise (· < ·))
    (h : evictions p t = some ev) :
    ev.Nodup ∧ ev.length = capacityCount p t - carrierPlaces ∧
      ∀ i ∈ ev, ∃ e ∈ t, e.1 = i ∧ discoveredAfter p e.2 = true := by
  unfold evictions at h
  dsimp only at h
  split at h
  · next hl =>
    cases h
    have hp : (evictionOrder p t).Perm ((t.filter fun e => discoveredAfter p e.2 && e.2.hold.isNone).map Prod.fst) :=
      (sortBy_perm _ _).map _
    have hn : (evictionOrder p t).Nodup := by
      rw [hp.nodup_iff]
      exact ((hs.imp fun h => Nat.ne_of_lt h).sublist (List.filter_sublist.map _) : _)
    refine ⟨hn.sublist (List.take_sublist _ _), by simpa using hl, fun i hi => ?_⟩
    have := hp.mem_iff.mp (List.mem_of_mem_take hi)
    obtain ⟨e, he, rfl⟩ := List.mem_map.mp this
    obtain ⟨h1, h2⟩ := List.mem_filter.mp he
    simp only [Bool.and_eq_true] at h2
    exact ⟨e, h1, rfl, h2.1⟩
  · cases h

/-- The places a commit frees. -/
def goneAt (p : Plan) (ev : List Nat) (t : Table Carrier) : List Nat :=
  (t.filter fun e => ev.contains e.1 || (losesLast p e.2 && e.2.hold.isNone)).map Prod.fst

/-- R86: with the evictions made, the entries the plan does not name leave room for all it names. -/
theorem capacity_left {p : Plan} {t : Table Carrier} {ev : List Nat} (hs : (tabKeys t).Pairwise (· < ·))
    (h : evictions p t = some ev) :
    (t.countP fun e => !named p e && !(goneAt p ev t).contains e.1) + p.carriers.length ≤ carrierPlaces := by
  obtain ⟨h1, h2, h3⟩ := evictions_spec hs h
  let stay : Nat × Carrier → Bool := fun e => discoveredAfter p e.2 || pendingAfter p e.2
  have ha : (t.countP fun e => !named p e && !(goneAt p ev t).contains e.1) ≤
      t.countP fun e => stay e && !ev.contains e.1 := by
    refine List.countP_mono_left fun e he hk => ?_
    simp only [Bool.and_eq_true, Bool.not_eq_true', List.contains_eq_mem, decide_eq_false_iff_not] at hk
    have hg : ¬ ((e.1 ∈ ev) ∨ (losesLast p e.2 = true ∧ e.2.hold.isNone = true)) := fun hc => hk.2 <| by
      refine List.mem_map_of_mem (List.mem_filter.mpr ⟨he, ?_⟩)
      simpa [List.contains_eq_mem] using hc
    have hn : (planRecord p e.2).isNone = true := by
      have := hk.1
      simp only [named] at this
      simpa using this
    simp only [not_or, not_and, losesLast, hn, Bool.true_and, Bool.and_eq_true, Bool.not_eq_true'] at hg
    simp only [stay, discoveredAfter, pendingAfter, hn, Bool.true_and, Bool.and_eq_true, Bool.or_eq_true,
      Bool.not_eq_true', List.contains_eq_mem, decide_eq_false_iff_not]
    obtain ⟨hg1, hg2⟩ := hg
    refine ⟨?_, hg1⟩
    revert hg2
    cases e.2.removalPending <;> cases e.2.discovered <;> cases e.2.hold <;> simp
  have hb : (t.countP fun e => stay e && !ev.contains e.1) + ev.length ≤ t.countP stay := by
    have hev : ev.length ≤ t.countP fun e => stay e && ev.contains e.1 := by
      rw [List.countP_eq_length_filter]
      have hsub : ev ⊆ (t.filter fun e => stay e && ev.contains e.1).map Prod.fst := by
        intro i hi
        obtain ⟨e, he, rfl, hd⟩ := h3 i hi
        refine List.mem_map_of_mem (List.mem_filter.mpr ⟨he, ?_⟩)
        simp [stay, hd, hi]
      simpa using h1.length_le_of_subset hsub
    have hsplit : t.countP stay = (t.countP fun e => stay e && ev.contains e.1) +
        t.countP fun e => stay e && !ev.contains e.1 := by
      clear h3 hev ha h1 h2 h hs
      induction t with
      | nil => rfl
      | cons d t ih =>
        simp only [List.countP_cons, ih]
        cases stay d <;> cases ev.contains d.1 <;> simp <;> omega
    omega
  have hc : capacityCount p t = p.carriers.length + t.countP stay := by
    rw [List.countP_eq_length_filter]; rfl
  have : t.countP stay ≤ capacityCount p t := by omega
  omega

/-! ## The table of a commit (R71, R72, R81, R83) -/

theorem keepsKey_exclusion (s : State) (b : Bool) : KeepsKey (applyExclusion s b) := by
  intro c
  unfold applyExclusion
  split
  · split <;> exact ⟨rfl, rfl⟩
  · split
    · exact ⟨(keepsKey_resume s _).1, (keepsKey_resume s _).2⟩
    · exact ⟨rfl, rfl⟩

theorem keepsKey_committed (s : State) (p : Plan) : KeepsKey (committedEntry s p) := by
  intro c
  unfold committedEntry
  split
  · exact ⟨(keepsKey_exclusion s _ _).1, (keepsKey_exclusion s _ _).2⟩
  · split
    · exact ⟨rfl, rfl⟩
    · split
      · split
        · exact ⟨(keepsKey_exclusion s _ _).1, (keepsKey_exclusion s _ _).2⟩
        · exact ⟨rfl, rfl⟩
      · exact ⟨rfl, rfl⟩

theorem rescoreOne_key (old new : Plan) (t : Table Carrier) (e : Nat × Carrier) :
    (rescoreOne old new t e).1 = e.1 ∧ (rescoreOne old new t e).2.input = e.2.input ∧
      (rescoreOne old new t e).2.freq = e.2.freq := by
  unfold rescoreOne
  split
  · exact ⟨rfl, rfl, rfl⟩
  · split <;> exact ⟨rfl, rfl, rfl⟩

/-- A table whose entries the plan does not name are few enough, and the keys taken in so far. -/
theorem carrierLaw_addPlanned (p : Plan) (now : Nat) (l : List Planned) (r : Table Carrier × List Nat)
    (hl : l ⊆ p.carriers) (h : CarrierLaw r.1)
    (hc : (r.1.countP fun e => !named p e) + p.carriers.length ≤ carrierPlaces) :
    CarrierLaw (l.foldl (addPlanned now) r).1 := by
  induction l generalizing r with
  | nil => exact h
  | cons q l ih =>
    have hq : q ∈ p.carriers := hl List.mem_cons_self
    refine ih _ (fun x hx => hl (List.mem_cons_of_mem _ hx)) ?_ ?_
    · unfold addPlanned
      split
      · exact h
      · next hk =>
        refine carrierLaw_add ?_ hk h
        have hle := (tabFree_spec (tabWf_iff.mp h.1).1).1
        have hn : (r.1.countP fun e => named p e) < p.carriers.length := by
          let key : Nat × Carrier → RfInput × Nat := fun e => (e.2.input, e.2.freq)
          have hnd : ((q.input, q.freq) :: (r.1.filter fun e => named p e).map key).Nodup := by
            refine List.nodup_cons.mpr ⟨fun hm => ?_, ?_⟩
            · obtain ⟨e, he, hke⟩ := List.mem_map.mp hm
              have := key_ne_of_carrierIndex hk e (List.mem_of_mem_filter he)
              simp only [key, Prod.mk.injEq] at hke
              rcases this with h1 | h1
              · exact h1 hke.1.symm
              · exact h1 hke.2.symm
            · refine List.Pairwise.map key (fun a b hab => ?_) (h.2.sublist List.filter_sublist)
              intro heq
              simp only [key, Prod.mk.injEq] at heq
              rcases hab with h1 | h1
              · exact h1 heq.1
              · exact h1 heq.2
          have hsub : ((q.input, q.freq) :: (r.1.filter fun e => named p e).map key) ⊆
              p.carriers.map fun x => (x.input, x.freq) := by
            intro k hk2
            rcases List.mem_cons.mp hk2 with rfl | hk2
            · exact List.mem_map_of_mem (f := fun x : Planned => (x.input, x.freq)) hq
            · obtain ⟨e, he, rfl⟩ := List.mem_map.mp hk2
              have hne := (List.mem_filter.mp he).2
              simp only [named, planRecord, List.find?_isSome] at hne
              obtain ⟨x, hx, hkx⟩ := hne
              simp only [hasKey, Bool.and_eq_true, decide_eq_true_eq] at hkx
              have := List.mem_map_of_mem (f := fun x : Planned => (x.input, x.freq)) hx
              simpa [key, hkx.1, hkx.2] using this
          have := hnd.length_le_of_subset hsub
          simp only [List.length_cons, List.length_map] at this
          rw [List.countP_eq_length_filter]
          omega
        have hsum : r.1.length = (r.1.countP fun e => named p e) + r.1.countP fun e => !named p e := by
          rw [List.length_eq_countP_add_countP (p := fun e => named p e)]
          congr 1
          refine List.countP_congr fun e _ => ?_
          simp
        omega
    · unfold addPlanned
      split
      · exact hc
      · have hf := (tabFree_spec (tabWf_iff.mp h.1).1).2.1
        dsimp only
        rw [countP_tabPut_new hf]
        · exact hc
        · have : named p (tabFree r.1, plannedEntry now q) = true := by
            simp only [named, planRecord, List.find?_isSome]
            exact ⟨q, hq, by simp [hasKey, plannedEntry]⟩
          simp [this]

theorem countP_map_named {p : Plan} {f : Nat × Carrier → Nat × Carrier} (hi : ∀ e, (f e).2.input = e.2.input)
    (hf : ∀ e, (f e).2.freq = e.2.freq) (t : Table Carrier) :
    ((t.map f).countP fun e => !named p e) = t.countP fun e => !named p e := by
  rw [List.countP_map]
  congr 1
  funext e
  simp only [Function.comp, named_of_key (hi e) (hf e)]

/-- R71, R86: the table of a commit that the capacity rule lets through keeps the fifth law. -/
theorem carrierLaw_commitTable {s : State} {p : Plan} {ev : List Nat} (hev : evictions p s.carriers = some ev)
    (h : CarrierLaw s.carriers) : CarrierLaw (commitTable s p ev).table := by
  have hs := (tabWf_iff.mp h.1).1
  unfold commitTable
  dsimp only
  have h1 : CarrierLaw ((goneAt p ev s.carriers).foldl (fun t i => removeEntry i t) s.carriers) :=
    carrierLaw_removeAll _ h
  have c1 : (((goneAt p ev s.carriers).foldl (fun t i => removeEntry i t) s.carriers).countP fun e => !named p e) +
      p.carriers.length ≤ carrierPlaces := by
    have hn : ListerFree fun e => !named p e := fun e x => by
      simp only [named_of_key (p := p) (e := (e.1, { e.2 with lister := x })) (d := e) rfl rfl]
    have := countP_removeAll hn (goneAt p ev s.carriers) hs
    have := capacity_left hs hev
    omega
  change CarrierLaw (p.carriers.foldl (addPlanned s.now) ((if p.params.maxAge < s.committed.params.maxAge then
      (((goneAt p ev s.carriers).foldl (fun t i => removeEntry i t) s.carriers).map fun e =>
        (e.1, committedEntry s p e.2)).map (rescoreOne s.committed p s.carriers) |>.map fun e =>
          (e.1, reclamp (s.now + p.params.maxAge) e.2)
    else (((goneAt p ev s.carriers).foldl (fun t i => removeEntry i t) s.carriers).map fun e =>
        (e.1, committedEntry s p e.2)).map (rescoreOne s.committed p s.carriers)), [])).1
  generalize (goneAt p ev s.carriers).foldl (fun t i => removeEntry i t) s.carriers = t1 at h1 c1 ⊢
  have h2 : CarrierLaw (t1.map fun e => (e.1, committedEntry s p e.2)) :=
    carrierLaw_map (fun _ => rfl) (fun e => (keepsKey_committed s p e.2).1) (fun e => (keepsKey_committed s p e.2).2) h1
  have c2 : ((t1.map fun e => (e.1, committedEntry s p e.2)).countP fun e => !named p e) + p.carriers.length ≤
      carrierPlaces := by
    rw [countP_map_named (fun e => (keepsKey_committed s p e.2).1) (fun e => (keepsKey_committed s p e.2).2)]
    exact c1
  generalize t1.map (fun e => (e.1, committedEntry s p e.2)) = t2 at h2 c2 ⊢
  have h3 : CarrierLaw (t2.map (rescoreOne s.committed p s.carriers)) :=
    carrierLaw_map (fun e => (rescoreOne_key _ _ _ e).1) (fun e => (rescoreOne_key _ _ _ e).2.1)
      (fun e => (rescoreOne_key _ _ _ e).2.2) h2
  have c3 : ((t2.map (rescoreOne s.committed p s.carriers)).countP fun e => !named p e) + p.carriers.length ≤
      carrierPlaces := by
    rw [countP_map_named (fun e => (rescoreOne_key _ _ _ e).2.1) (fun e => (rescoreOne_key _ _ _ e).2.2)]
    exact c2
  generalize t2.map (rescoreOne s.committed p s.carriers) = t3 at h3 c3 ⊢
  refine carrierLaw_addPlanned p s.now p.carriers _ (fun _ h => h) ?_ ?_
  · dsimp only
    split
    · exact carrierLaw_map (fun _ => rfl) (fun _ => rfl) (fun _ => rfl) h3
    · exact h3
  · dsimp only
    split
    · have := countP_map_named (p := p) (f := fun e => (e.1, reclamp (s.now + p.params.maxAge) e.2))
        (fun _ => rfl) (fun _ => rfl) t3
      rw [this]
      exact c3
    · exact c3

/-! ## The next-due times of a commit (R72, R83, R84) -/

theorem rescoreOne_nextDue (old new : Plan) (t : Table Carrier) (e : Nat × Carrier) :
    (rescoreOne old new t e).2.nextDue = e.2.nextDue := by
  unfold rescoreOne
  split
  · rfl
  · split <;> rfl

theorem exclusion_nextDue (s : State) (b : Bool) (c : Carrier) :
    (applyExclusion s b c).nextDue = c.nextDue ∨ (applyExclusion s b c).nextDue = s.now := by
  unfold applyExclusion
  split
  · split <;> exact .inl rfl
  · split
    · exact .inr (resume_nextDue ..)
    · exact .inl rfl

theorem committed_nextDue (s : State) (p : Plan) (c : Carrier) :
    (committedEntry s p c).nextDue = c.nextDue ∨ (committedEntry s p c).nextDue = s.now := by
  unfold committedEntry
  split
  · exact exclusion_nextDue ..
  · split
    · exact .inl rfl
    · split
      · split
        · exact exclusion_nextDue ..
        · exact .inl rfl
      · exact .inl rfl

/-- R83: after a commit no next-due time lies more than the new maximum age after now. -/
theorem due_commitTable {s : State} {p : Plan} {ev : List Nat} (h : DueLaw s)
    (hm : s.now + p.params.maxAge ≤ maxSecond) :
    ∀ e ∈ (commitTable s p ev).table, e.2.nextDue ≤ s.now + p.params.maxAge := by
  have hadd : ∀ (l : List Planned) (r : Table Carrier × List Nat), (∀ e ∈ r.1, e.2.nextDue ≤ s.now + p.params.maxAge) →
      ∀ e ∈ (l.foldl (addPlanned s.now) r).1, e.2.nextDue ≤ s.now + p.params.maxAge := by
    intro l
    induction l with
    | nil => exact fun _ h => h
    | cons q l ih =>
      intro r hr
      refine ih _ ?_
      unfold addPlanned
      split
      · exact hr
      · intro e he
        rcases mem_tabPut he with rfl | he
        · exact Nat.le_add_right _ _
        · exact hr e he
  unfold commitTable
  dsimp only
  refine hadd _ _ ?_
  dsimp only
  split
  · intro e he
    obtain ⟨d, -, rfl⟩ := List.mem_map.mp he
    exact Nat.min_le_right _ _
  · next hlt =>
    intro e he
    obtain ⟨d, hd, rfl⟩ := List.mem_map.mp he
    obtain ⟨c, hc, rfl⟩ := List.mem_map.mp hd
    rw [rescoreOne_nextDue]
    have hp : s.committed.params.maxAge = s.params.maxAge := rfl
    have := due_removeAll (P := fun n => n ≤ s.now + p.params.maxAge) _
      (fun e he => (h (by omega) e he).trans (by omega)) c hc
    dsimp only
    rcases committed_nextDue s p c.2 with h1 | h1
    · rw [h1]; exact this
    · rw [h1]; exact Nat.le_add_right _ _

/-! ## The other blocks' parts (R94, R101, R105, R106, R109, R113, R127) -/

theorem evolves_endSurveys (t : Table Carrier) (s : State) : Evolves s (endSurveys t s) :=
  evolves_foldl (fun s i => evolves_endSurveyByTable i s) _ s

theorem evolves_scheduleCommit (was new : Plan) (old : Table Carrier) (r : TableCommit) (s : State) :
    Evolves s (scheduleCommit was new old r s) := by
  unfold scheduleCommit
  dsimp only
  have h3 : ∀ (a b : List Nat), Evolves s (endSurveys r.table
      (a.foldl (fun s i => leaveSet i s) (b.foldl (fun s i => dropUrgent i s) s))) := fun a b =>
    ((evolves_foldl (fun s i => evolves_dropUrgent i s) b s).trans
      (evolves_foldl (fun s i => evolves_leaveSet i s) a _)).trans (evolves_endSurveys ..)
  split
  · exact (h3 ..).trans (evolves_foldl (fun s i => evolves_joinSet i s) _ _)
  · exact (h3 ..).trans (evolves_startPass _)

theorem evolves_rankCommit (was new : Plan) (s : State) : Evolves s (rankCommit was new s) := by
  unfold rankCommit
  dsimp only
  split
  · exact evolves_applyBindings ..
  · exact (evolves_applyBindings ..).trans (evolves_foldl (fun s i => evolves_rebuildEvent i s) _ _)

theorem evolves_rebindRoom (p : Plan) (s : State) (r : Fin 48) : Evolves s (rebindRoom p s r) := by
  unfold rebindRoom
  dsimp only
  split
  · exact .refl s
  · exact (ranks_changeRoom (fed_routeRoom s _)).toEvolves

/-- R152, R153: what follows the new plan and the new table within a commit. -/
theorem evolves_applyCommit (p : Plan) (ev : List Nat) (s : State) :
    Evolves ((s.setPlan { committed := p, staged := none, last := commitRecord s (commitTable s p ev) ev }).setCarriers
      (commitTable s p ev).table) (applyCommit p ev s) := by
  unfold applyCommit
  dsimp only
  refine .trans ?_ (evolves_searchDue _)
  refine .trans ?_ (evolves_offer ..)
  refine .trans ?_ (evolves_foldl (evolves_rebindRoom p) _ _)
  refine .trans ?_ (evolves_rankCommit ..)
  refine .trans ?_ (evolves_scheduleCommit ..)
  exact evolves_reportChanges ..

/-! ## CLEAR_SURVEY (R87) -/

theorem keepsKey_clear (now : Nat) : KeepsKey (clearEntry now) := by
  intro c
  unfold clearEntry
  split
  · exact ⟨rfl, rfl⟩
  · split <;> exact ⟨rfl, rfl⟩

theorem evolves_clearSurvey (s : State) : Evolves s (clearSurvey s) := by
  unfold clearSurvey
  dsimp only
  refine .trans ?_ (evolves_searchDue _)
  refine .trans ?_ (evolves_startPass _)
  refine .trans ?_ (evolves_endSurveys ..)
  refine .trans ?_ (evolves_foldl (fun s i => evolves_leaveSet i s) _ _)
  refine .trans ?_ (evolves_reportChanges ..)
  refine evolves_setCarriers (fun h => carrierLaw_map (f := fun e => (e.1, clearEntry s.now e.2)) (fun _ => rfl)
    (fun e => (keepsKey_clear s.now e.2).1) (fun e => (keepsKey_clear s.now e.2).2) (carrierLaw_removeAll _ h))
    fun _ h hm e he => ?_
  obtain ⟨d, hd, rfl⟩ := List.mem_map.mp he
  have := due_removeAll (P := fun n => n ≤ s.now + s.params.maxAge) _ (h hm) d hd
  change (clearEntry s.now d.2).nextDue ≤ s.now + s.params.maxAge
  unfold clearEntry
  split
  · exact this
  · split
    · exact Nat.le_add_right _ _
    · exact this

end Sys2Proof.Machine
end

