-- ==== Sys2Proof/Laws/Keeps.lean ====
section
/-! SUPPORT. That the laws of the device are kept by the clock, the resets, the link unit and the host's commands, one
lemma for each operation. -/

namespace Sys2Proof.Machine

/-- The laws of the device that hold of `s` hold of `t`. -/
structure Keeps (s t : State) : Prop where
  notices : NoticeLaw s.link → NoticeLaw t.link
  buffer : BufferLaw s.link → BufferLaw t.link
  carriers : CarrierLaw s.carriers → CarrierLaw t.carriers
  services : ServiceLaw s.services → ServiceLaw t.services
  selections : SelectionLaw s.services → SelectionLaw t.services
  urgent : UrgentLaw s.sched → UrgentLaw t.sched
  requests : RequestLaw s.router → RequestLaw t.router
  records : RecordLaw s.router → RecordLaw t.router
  slots : SlotLaw s.slots → SlotLaw t.slots
  reference : ReferenceLaw s.slots s.reference → ReferenceLaw t.slots t.reference
  candidates : CarrierLaw s.carriers → CandidateLaw s.services → CandidateLaw t.services
  intervals : IntervalLaw s.plan → IntervalLaw t.plan
  due : IntervalLaw s.plan → DueLaw s → DueLaw t
  routes : SlotLaw s.slots → ServiceLaw s.services → RouteLaw s → RouteLaw t

theorem Keeps.refl (s : State) : Keeps s s :=
  ⟨id, id, id, id, id, id, id, id, id, id, fun _ => id, id, fun _ => id, fun _ _ => id⟩

theorem Keeps.trans {s t u : State} (h : Keeps s t) (k : Keeps t u) : Keeps s u :=
  ⟨fun x => k.notices (h.notices x), fun x => k.buffer (h.buffer x), fun x => k.carriers (h.carriers x),
    fun x => k.services (h.services x), fun x => k.selections (h.selections x), fun x => k.urgent (h.urgent x),
    fun x => k.requests (h.requests x), fun x => k.records (h.records x), fun x => k.slots (h.slots x),
    fun x => k.reference (h.reference x), fun c x => k.candidates (h.carriers c) (h.candidates c x),
    fun x => k.intervals (h.intervals x), fun p x => k.due (h.intervals p) (h.due p x),
    fun a b x => k.routes (h.slots a) (h.services b) (h.routes a b x)⟩

/-- What a block may do to the state keeps every law. -/
theorem Evolves.keeps {s t : State} (h : Evolves s t) : Keeps s t :=
  ⟨h.link.notices, fun x => by unfold BufferLaw at x ⊢; rw [h.link.buffer]; exact x, h.carriers, h.services,
    h.selections, h.urgent, h.requests, h.records, h.slots, h.reference, h.candidates,
    fun x => by rw [h.plan]; exact x, h.due, h.routes⟩

/-- An edit of the staged plan (R145). -/
theorem keeps_setPlan {x : PlanStore} {s : State} (h : x.committed = s.plan.committed)
    (hi : IntervalLaw s.plan → IntervalLaw x) : Keeps s (s.setPlan x) :=
  ⟨id, id, id, id, id, id, id, id, id, id, fun _ => id, hi,
    fun _ hd => by simpa only [DueLaw, State.params, State.committed, State.now, State.setPlan, h] using hd, fun _ _ => id⟩

/-- The second count advances, or the clock's other fields change. -/
theorem keeps_setClock {x : Clock} {s : State} (h : s.clock.now ≤ x.now) : Keeps s (s.setClock x) := by
  refine ⟨id, id, id, id, id, id, id, id, id, id, fun _ => id, id, fun _ hd hm e he => ?_, fun _ _ => id⟩
  have h1 : s.now ≤ (s.setClock x).now := h
  have h2 : (s.setClock x).params = s.params := rfl
  rw [h2] at hm ⊢
  exact (hd (by omega) e he).trans (by omega)

theorem keeps_setPending (x : List Instr) (s : State) : Keeps s (s.setPending x) :=
  ⟨id, id, id, id, id, id, id, id, id, id, fun _ => id, id, fun _ => id, fun _ _ => id⟩

theorem keeps_setWatches (x : WatchUnit) (s : State) : Keeps s (s.setWatches x) :=
  ⟨id, id, id, id, id, id, id, id, id, id, fun _ => id, id, fun _ => id, fun _ _ => id⟩

/-- A change of the link that adds no notice and no frame. -/
theorem keeps_setLink {l : Link} {s : State} (hn : NoticeLaw s.link → NoticeLaw l)
    (hb : BufferLaw s.link → BufferLaw l) : Keeps s (s.setLink l) :=
  ⟨hn, hb, id, id, id, id, id, id, id, id, fun _ => id, id, fun _ => id, fun _ _ => id⟩

theorem keeps_modLink {f : Link → Link} {s : State} (hn : ∀ l, (f l).notices = l.notices)
    (hb : ∀ l, (f l).buffer = l.buffer) : Keeps s (modLink f s) :=
  keeps_setLink (fun h => by unfold NoticeLaw at h ⊢; rw [hn]; exact h)
    (fun h => by unfold BufferLaw at h ⊢; rw [hb]; exact h)

/-! ## The clock and the resets (R122, R172, R173) -/

theorem ranks_endHoldOf (i : Nat) (s : State) : Ranks s (endHoldOf i s) := by
  refine ranks_serviceEvent ?_
  split
  · exact .refl i s
  · dsimp only
    split
    · exact serves_failover ..
    · exact serves_clearSelection ..

theorem keeps_advanceSecond (s : State) : Keeps s (advanceSecond s) := by
  unfold advanceSecond
  dsimp only
  refine .trans ?_ (evolves_searchDue _).keeps
  refine .trans ?_ (evolves_evaluateNeeds _).keeps
  refine .trans ?_ (evolves_reportChanges ..).keeps
  exact keeps_setClock (Nat.le_succ _)

theorem slotLaw_tick {v : Vector Slot 8} (h : SlotLaw v) : SlotLaw (vecMap (fun _ r => tickSlot r) v) := by
  refine ⟨fun i => ?_, fun i j hc hn => ?_⟩
  · rw [vecMap_get]; exact h.1 i
  · rw [vecMap_get, vecMap_get] at hc
    rw [vecMap_get] at hn
    exact h.2 i j hc hn

theorem referenceLaw_tick {v : Vector Slot 8} {r : Reference} (x : Option Nat) (h : ReferenceLaw v r) :
    ReferenceLaw (vecMap (fun _ r => tickSlot r) v) { r with timer := x } := by
  refine ⟨h.1, h.2.1, fun i hi => ?_⟩
  rw [vecMap_get]
  exact h.2.2 i hi

/-- R129: no timer is read by a room channel's feed. -/
theorem routeLaw_tickTimers {s : State} (h : RouteLaw s) : RouteLaw (tickTimers s) := by
  have hf : Feeds s (tickTimers s) := by
    refine ⟨fun k v hv _ => ⟨v, hv, rfl⟩, fun i hr _ => ?_⟩
    have he : (tickTimers s).slot i = tickSlot (s.slot i) := vecMap_get ..
    rw [he]
    exact ⟨hr, rfl⟩
  intro r hl
  have he : (tickTimers s).room r = { s.room r with timer := tickTimer (s.room r).timer } := vecMap_get ..
  rw [he] at hl ⊢
  exact hf.fed (h r hl)

theorem keeps_tick (s : State) : Keeps s (tick s) := by
  have h1 : Keeps s (tickTimers s) :=
    ⟨id, id, id, id, id, id, id, id, slotLaw_tick, fun h => referenceLaw_tick _ h, fun _ => id, id, fun _ => id,
      fun _ _ => routeLaw_tickTimers⟩
  unfold tick
  split
  · exact .refl s
  · dsimp only
    exact (h1.trans (evolves_drawOrder _ _).keeps).trans (keeps_setPending ..)

/-- R173: every law holds of the part in reset. -/
theorem keeps_atReset (s : State) (c : ResetCause) (b h : Bool) (n : Nat) (q : List Instr) :
    Keeps s (State.atReset c b h n q) := by
  refine ⟨fun _ => ?_, fun _ => ?_, fun _ => ?_, fun _ => ?_, fun _ => ?_, fun _ => ?_, fun _ => ?_, fun _ => ?_,
    fun _ => ?_, fun _ => ?_, fun _ _ => ?_, fun _ => ?_, fun _ _ => ?_, fun _ _ _ => ?_⟩
  · simp [NoticeLaw, State.atReset, Link.reset]
  · simp [BufferLaw, State.atReset, Link.reset]
  · simp [CarrierLaw, State.atReset, tabWf, tabKeys]
  · simp [ServiceLaw, State.atReset, tabWf, tabKeys]
  · simp [SelectionLaw, State.atReset]
  · simp [UrgentLaw, State.atReset, Scheduler.reset]
  · simp [RequestLaw, State.atReset, Router.reset]
  · simp [RecordLaw, State.atReset, Router.reset]
  · exact ⟨fun i => by simp [State.atReset, SlotOk, Slot.reset, MeasUnit.reset], fun i j _ h => absurd (by
      simp [State.atReset, Slot.reset]) h⟩
  · exact ⟨by simp [State.atReset, Reference.reset], by simp [State.atReset, Reference.reset],
      by simp [State.atReset, Reference.reset]⟩
  · simp [CandidateLaw, State.atReset]
  · simp [IntervalLaw, State.atReset, PlanStore.reset, Plan.reset, Params.reset]
  · simp [DueLaw, State.atReset]
  · intro r hl
    simp [State.room, State.atReset, Router.reset, Room.reset] at hl

theorem keeps_afterReset (s : State) (c : ResetCause) (h : Bool) (n : Nat) (q : List Instr) :
    Keeps s (State.afterReset c h n q) :=
  (keeps_atReset s c false h n q).trans
    (keeps_setLink (fun _ => by simp [NoticeLaw, noticePlaces]) (fun _ => by simp [BufferLaw, Link.reset]))

/-! ## The link unit (R164, R166, R167, R169) -/

theorem acceptFrame_notices (f : Frame) (l : Link) : (acceptFrame f l).notices = l.notices := by
  unfold acceptFrame; split <;> rfl

theorem acceptFrame_buffer {f : Frame} {l : Link} (h : BufferLaw l) : BufferLaw (acceptFrame f l) := by
  unfold acceptFrame
  split
  · next hl =>
    simp only [BufferLaw, List.length_append, List.length_singleton]
    omega
  · exact h

theorem receive_law (b : Byte) (l : Link) :
    (receive b l).notices = l.notices ∧ (BufferLaw l → BufferLaw (receive b l)) := by
  unfold receive
  split
  · split <;> exact ⟨rfl, id⟩
  · exact ⟨rfl, id⟩
  · exact ⟨rfl, id⟩
  · split
    · exact ⟨rfl, id⟩
    · split <;> exact ⟨rfl, id⟩
  · split <;> exact ⟨rfl, id⟩
  · unfold endFrame
    split
    · exact ⟨acceptFrame_notices .., fun h => acceptFrame_buffer h⟩
    · exact ⟨rfl, id⟩

theorem dropPartial_notices (l : Link) : (dropPartial l).notices = l.notices := by unfold dropPartial; split <;> rfl

theorem dropPartial_buffer (l : Link) : (dropPartial l).buffer = l.buffer := by unfold dropPartial; split <;> rfl

theorem keeps_receive (b : Byte) (s : State) :
    Keeps s (modLink (fun l => receive b (dropPartial l)) s) := by
  refine keeps_setLink (fun h => ?_) (fun h => (receive_law b _).2 ?_)
  · unfold NoticeLaw at h ⊢
    rw [(receive_law b _).1, dropPartial_notices]
    exact h
  · unfold BufferLaw at h ⊢
    rw [dropPartial_buffer]
    exact h

theorem startNotice_law {n : Notice} {rest : List Notice} {l : Link} (hn : l.notices = n :: rest) (h : NoticeLaw l) :
    NoticeLaw (startNotice n rest l) := by
  rw [NoticeLaw, hn] at h
  refine ⟨?_, h.2.of_cons⟩
  have := h.1
  simp only [List.length_cons] at this
  simp only [startNotice]
  omega

theorem startFrame_law (l : Link) : (NoticeLaw l → NoticeLaw (startFrame l)) ∧ (startFrame l).buffer = l.buffer := by
  unfold startFrame
  split
  · exact ⟨id, rfl⟩
  · split
    · exact ⟨id, rfl⟩
    · next n rest _ hn =>
      split
      · exact ⟨startNotice_law hn, rfl⟩
      · exact ⟨id, rfl⟩
    · next hn => exact ⟨startNotice_law hn, rfl⟩
    · exact ⟨id, rfl⟩

theorem keeps_startFrame (s : State) : Keeps s (modLink startFrame s) :=
  keeps_setLink (startFrame_law _).1 (fun h => by unfold BufferLaw at h ⊢; rw [(startFrame_law _).2]; exact h)

theorem keeps_endSending (s : State) : Keeps s (modLink endSending s) :=
  keeps_modLink (fun l => by unfold endSending; split <;> rfl) (fun l => by unfold endSending; split <;> rfl)

/-! ## The host's commands -/

/-- R151: a plan edit that leaves the parameters as they are, or keeps the minimum interval at or below the maximum
age. -/
def EditLaw (f : Plan → EditResult) : Prop :=
  ∀ p q c, f p = .edited q c → p.params.minInterval ≤ p.params.maxAge → q.params.minInterval ≤ q.params.maxAge

theorem keeps_doEdit {f : Plan → EditResult} (hf : EditLaw f) (s : State) : Keeps s (doEdit f s).state := by
  refine keeps_setPlan ?_ fun h => ?_
  · unfold applyEdit
    split <;> rfl
  · have hb : (editBase s.plan).params.minInterval ≤ (editBase s.plan).params.maxAge := by
      unfold editBase
      cases hs : s.plan.staged with
      | none => exact h.1
      | some q => exact h.2 q hs
    unfold applyEdit
    split
    · exact h
    · next q c he =>
      refine ⟨h.1, fun r hr => ?_⟩
      cases hr
      exact hf _ _ _ he hb

/-- An edit that leaves the parameters as they are. -/
theorem editLaw_of_params {f : Plan → EditResult} (h : ∀ p q c, f p = .edited q c → q.params = p.params) : EditLaw f :=
  fun p q c he hb => by rw [h p q c he]; exact hb

theorem editLaw_params (n v : Nat) : EditLaw (editParams n v) := by
  intro p q c he hb
  unfold editParams at he
  split at he
  · cases he
  · injection he with h1 _
    subst h1
    simp only [setParam]
    split <;> first | exact hb | exact Nat.min_le_right ..

/-- R146 to R150: the seven other edits leave the parameters as they are. -/
theorem editLaw_plain {f : Plan → EditResult} (t : Table Carrier)
    (h : (∃ e, f = editInput e) ∨ (∃ e, f = editProfile e) ∨ (∃ i q c, f = editAdd i q c) ∨ (∃ n, f = editDrop t n)
      ∨ (∃ n c, f = editSet t n c) ∨ (∃ e, f = editBind e) ∨ ∃ r, f = editUnbind r) : EditLaw f := by
  refine editLaw_of_params fun p q c he => ?_
  rcases h with ⟨e, rfl⟩ | ⟨e, rfl⟩ | ⟨i, r, d, rfl⟩ | ⟨n, rfl⟩ | ⟨n, d, rfl⟩ | ⟨e, rfl⟩ | ⟨r, rfl⟩
  · unfold editInput at he
    split at he <;> try cases he
    split at he <;> try cases he
    split at he <;> cases he
    rfl
  · unfold editProfile at he
    split at he <;> try cases he
    split at he <;> cases he
    rfl
  · unfold editAdd at he
    split at he <;> try cases he
    split at he <;> try cases he
    split at he <;> try cases he
    split at he <;> cases he
    rfl
  · unfold editDrop at he
    split at he <;> try cases he
    split at he <;> cases he
    rfl
  · unfold editSet at he
    split at he <;> try cases he
    split at he <;> cases he
    rfl
  · unfold editBind at he
    split at he <;> try cases he
    dsimp only at he
    split at he <;> cases he
    rfl
  · unfold editUnbind at he
    split at he <;> try cases he
    dsimp only at he
    split at he <;> cases he
    rfl

theorem keeps_doSurveyNow (i : Nat) (s : State) : Keeps s (doSurveyNow i s).state := by
  unfold doSurveyNow
  split
  · split
    · exact .refl s
    · split
      · exact .refl s
      · split
        · exact .refl s
        · split
          · exact .refl s
          · split
            · exact .refl s
            · next hi hl =>
              have h1 : Evolves s (modSched (fun c => { c with urgent := c.urgent ++ [i] }) s) := by
                refine evolves_modSched rfl fun h => ⟨?_, ?_⟩
                · refine List.nodup_append.mpr ⟨h.1, List.nodup_singleton _, fun a ha b hb => ?_⟩
                  rw [List.mem_singleton.mp hb]
                  rintro rfl
                  exact hi ha
                · simp only [List.length_append, List.length_singleton]
                  omega
              exact ((h1.trans (evolves_searchDue _)).trans (evolves_settle _)).keeps
  · exact .refl s

theorem keeps_modMode (m : SurveyMode) (s : State) : Keeps s (modSched (fun c => { c with mode := m }) s) :=
  ⟨id, id, id, id, id, id, id, id, id, id, fun _ => id, id, fun _ => id, fun _ _ => id⟩

theorem keeps_doSetSurveyMode (m : Nat) (s : State) : Keeps s (doSetSurveyMode m s).state := by
  unfold doSetSurveyMode
  split
  · exact .refl s
  · exact ((keeps_modMode ..).trans (evolves_searchDue _).keeps).trans (evolves_settle _).keeps
  · exact keeps_modMode ..
  · exact .refl s
  · exact .refl s

theorem keeps_doSlotOffline (i : Nat) (s : State) : Keeps s (doSlotOffline i s).state := by
  unfold doSlotOffline
  split
  · next h =>
    have k := evolves_slotGoOffline ⟨i, h⟩ s
    split <;> rename_i s1 e <;> rw [e] at k
    · exact (k.trans (evolves_settle _)).keeps
    · exact k.keeps
  · exact .refl s

theorem keeps_doSlotOnline (i : Nat) (s : State) : Keeps s (doSlotOnline i s).state := by
  unfold doSlotOnline
  split
  · next h =>
    have k := evolves_slotGoOnline ⟨i, h⟩ s
    split <;> rename_i s1 e <;> rw [e] at k
    · exact (k.trans (evolves_settle _)).keeps
    · exact k.keeps
  · exact .refl s

/-- R152, R153: a commit keeps every law. -/
theorem keeps_applyCommit {p : Plan} {ev : List Nat} {s : State} (hp : s.plan.staged = some p)
    (hev : evictions p s.carriers = some ev) : Keeps s (applyCommit p ev s) := by
  refine .trans ?_ (evolves_applyCommit p ev s).keeps
  exact ⟨id, id, fun h => carrierLaw_commitTable hev h, id, id, id, id, id, id, id, fun _ => id,
    fun h => ⟨h.2 p hp, by simp⟩, fun _ h => due_commitTable h, fun _ _ => id⟩

theorem keeps_doCommitPlan (s : State) : Keeps s (doCommitPlan s).state := by
  unfold doCommitPlan
  split
  · exact .refl s
  · next p hp =>
    split
    · exact keeps_setPlan rfl fun h => ⟨h.1, by simp⟩
    · split
      · exact .refl s
      · next ev hev => exact (keeps_applyCommit hp hev).trans (evolves_settle _).keeps

theorem keeps_carryOut (c : HostCommand) (s : State) : Keeps s (carryOut c s).state := by
  cases c
  case restart => exact keeps_modLink (f := fun l => { l with restart := .replyWaiting }) (fun _ => rfl) (fun _ => rfl)
  case setNotices m => exact keeps_modLink (f := fun l => { l with mask := BitVec.ofNat 8 m }) (fun _ => rfl) (fun _ => rfl)
  case freeze => exact keeps_modLink (f := fun l => { l with frozen := some (viewOf s) }) (fun _ => rfl) (fun _ => rfl)
  case thaw =>
    simp only [carryOut, doThaw]
    split
    · exact .refl s
    · exact keeps_modLink (f := fun l => { l with frozen := none }) (fun _ => rfl) (fun _ => rfl)
  case surveyNow => exact keeps_doSurveyNow ..
  case setSurveyMode => exact keeps_doSetSurveyMode ..
  case clearSurvey => exact (evolves_clearSurvey s).keeps.trans (evolves_settle _).keeps
  case slotOffline => exact keeps_doSlotOffline ..
  case slotOnline => exact keeps_doSlotOnline ..
  case commitPlan => exact keeps_doCommitPlan s
  case discardPlan =>
    simp only [carryOut, doDiscardPlan]
    split
    · exact .refl s
    · exact keeps_setPlan rfl fun h => ⟨h.1, by simp⟩
  case setWatch =>
    simp only [carryOut, doSetWatch]
    split
    · split
      · split
        · exact .refl s
        · split
          · exact keeps_setWatches ..
          · exact .refl s
      · exact .refl s
    · exact .refl s
  case clearWatch =>
    simp only [carryOut, doClearWatch]
    split
    · exact keeps_setWatches ..
    · exact .refl s
  case ackWatch =>
    simp only [carryOut, doAckWatch]
    split
    · exact keeps_setWatches ..
    · exact .refl s
  case setAlertMode =>
    simp only [carryOut, doSetAlertMode]
    split
    · exact .refl s
    · exact keeps_setWatches ..
    · exact keeps_setWatches ..
    · exact .refl s
    · exact .refl s
  case getCarrier =>
    simp only [carryOut, doGetCarrier]
    split
    · split <;> exact .refl s
    · exact .refl s
  case listCarriers => simp only [carryOut, doListCarriers]; split <;> exact .refl s
  case getService => simp only [carryOut, doGetService]; split <;> exact .refl s
  case getRoom => simp only [carryOut, doGetRoom]; split <;> exact .refl s
  case getSlot => simp only [carryOut, doGetSlot]; split <;> exact .refl s
  case identify => exact .refl s
  case readStatus => exact .refl s
  case listServices => exact .refl s
  case setParams n v => exact keeps_doEdit (editLaw_params n v) s
  case setInput e => exact keeps_doEdit (editLaw_plain s.carriers (.inl ⟨e, rfl⟩)) s
  case setProfile e => exact keeps_doEdit (editLaw_plain s.carriers (.inr (.inl ⟨e, rfl⟩))) s
  case addCarrier i f c => exact keeps_doEdit (editLaw_plain s.carriers (.inr (.inr (.inl ⟨i, f, c, rfl⟩)))) s
  case dropCarrier n => exact keeps_doEdit (editLaw_plain s.carriers (.inr (.inr (.inr (.inl ⟨n, rfl⟩))))) s
  case setCarrier n c =>
    exact keeps_doEdit (editLaw_plain s.carriers (.inr (.inr (.inr (.inr (.inl ⟨n, c, rfl⟩)))))) s
  case bindRoom e =>
    exact keeps_doEdit (editLaw_plain s.carriers (.inr (.inr (.inr (.inr (.inr (.inl ⟨e, rfl⟩))))))) s
  case unbindRoom r =>
    exact keeps_doEdit (editLaw_plain s.carriers (.inr (.inr (.inr (.inr (.inr (.inr ⟨r, rfl⟩))))))) s

theorem keeps_answerCommand (c : HostCommand) (s : State) : Keeps s (answerCommand c s) := by
  unfold answerCommand
  dsimp only
  refine .trans (keeps_carryOut c s) ?_
  have h1 : Keeps (carryOut c s).state
      (formReply (fieldsOf c).1 (carryOut c s).code (carryOut c s).content (carryOut c s).state) :=
    keeps_modLink (by intro l; rfl) (by intro l; rfl)
  unfold clearAfter
  split
  · exact h1.trans (keeps_modLink (by intro l; rfl) (by intro l; rfl))
  · exact h1

theorem keeps_hostCommand (c : HostCommand) (s : State) : Keeps s (hostCommand c s) := by
  unfold hostCommand
  split
  · exact keeps_answerCommand c s
  · exact keeps_setLink (fun h => by unfold NoticeLaw at h ⊢; rw [acceptFrame_notices]; exact h) acceptFrame_buffer

theorem keeps_takeFrame (s : State) : Keeps s (takeFrame s) := by
  unfold takeFrame
  split
  · exact .refl s
  · next f rest hb =>
    have h1 : Keeps s (modLink (fun l => { l with buffer := rest }) s) := by
      refine keeps_setLink (fun h => h) (fun h => ?_)
      simp only [BufferLaw, hb, List.length_cons] at h ⊢
      omega
    refine h1.trans ?_
    unfold answerFrame
    split
    · exact keeps_modLink (by intro l; rfl) (by intro l; rfl)
    · exact keeps_answerCommand ..

end Sys2Proof.Machine
end

