-- ==== Sys2Proof/Laws/Reports.lean ====
section
/-! SUPPORT. What a report leaves alone: the slots, the level reference and the carrier table of the state it is made
in; and what a change of one entry and the departure of one slot leave there. -/

namespace Sys2Proof.Machine

/-- What a report may not touch. -/
structure Tells (s t : State) : Prop where
  slots : t.slots = s.slots
  reference : t.reference = s.reference
  carriers : t.carriers = s.carriers
  clock : t.clock = s.clock
  plan : t.plan = s.plan

theorem Tells.refl (s : State) : Tells s s := ⟨rfl, rfl, rfl, rfl, rfl⟩

theorem Tells.trans {s t u : State} (h : Tells s t) (k : Tells t u) : Tells s u :=
  ⟨k.slots.trans h.slots, k.reference.trans h.reference, k.carriers.trans h.carriers, k.clock.trans h.clock,
    k.plan.trans h.plan⟩

theorem Tells.slot {s t : State} (h : Tells s t) (i : Fin 8) : t.slot i = s.slot i := by
  simp only [State.slot, h.slots]

theorem Tells.carrier {s t : State} (h : Tells s t) (i : Nat) : t.carrier i = s.carrier i := by
  simp only [State.carrier, h.carriers]

theorem Ranks.tells {s t : State} (h : Ranks s t) : Tells s t :=
  ⟨h.sameSlots, h.sameReference, h.sameCarriers, h.clock, h.plan⟩

theorem tells_modSched (f : Scheduler → Scheduler) (s : State) : Tells s (modSched f s) := ⟨rfl, rfl, rfl, rfl, rfl⟩

theorem tells_modRouter (f : Router → Router) (s : State) : Tells s (modRouter f s) := ⟨rfl, rfl, rfl, rfl, rfl⟩

theorem tells_foldl {β : Type} {f : State → β → State} (h : ∀ s b, Tells s (f s b)) (l : List β) (s : State) :
    Tells s (l.foldl f s) := by
  induction l generalizing s with
  | nil => exact .refl s
  | cons b l ih => exact (h s b).trans (ih (f s b))

/-! ## The carrier table's reports -/

theorem ranks_reportCarrier (forced : Bool) (counts : Option DiscoveryCounts) (st : Bool) (i : Nat) (b : Carrier)
    (s : State) : Ranks s (reportCarrier forced counts st i b s) := by
  unfold reportCarrier
  split
  · exact .refl s
  · next a _ =>
    split
    · exact .refl s
    · dsimp only
      have h1 : Ranks s (if forced || counts.isSome || noticeWorthy b a st (s.stale a) then
          offer .carrier i (carrierNotice s.now s.params.maxAge i a false counts) s else s) := by
        split
        · exact ranks_offer ..
        · exact .refl s
      generalize (if forced || counts.isSome || noticeWorthy b a st (s.stale a) then
          offer .carrier i (carrierNotice s.now s.params.maxAge i a false counts) s else s) = s1 at h1 ⊢
      have h2 : Ranks s1
          (if b = a ∧ forced = false then s1 else handPair .carrier i (some (carrierView b)) (some (carrierView a)) s1) := by
        split
        · exact .refl s1
        · exact ranks_handPair ..
      generalize (if b = a ∧ forced = false then s1 else handPair .carrier i (some (carrierView b)) (some (carrierView a)) s1) = s2
        at h2 ⊢
      split
      · exact (h1.trans h2).trans (ranks_rankCarrier ..)
      · exact h1.trans h2

theorem tells_leaveSet (i : Nat) (s : State) : Tells s (leaveSet i s) := by
  unfold leaveSet
  split
  · exact tells_modSched ..
  · exact .refl s

theorem tells_joinSet (i : Nat) (s : State) : Tells s (joinSet i s) := by
  unfold joinSet
  split
  · exact tells_modSched ..
  · exact .refl s

theorem tells_reportRemoval (s : State) (e : Nat × Carrier) : Tells s (reportRemoval s e) :=
  ((((tells_modSched _ s).trans (tells_leaveSet ..)).trans (ranks_offer ..).tells).trans (ranks_handPair ..).tells).trans
    (ranks_rankRemoval ..).tells

theorem tells_reportAddition (s : State) (i : Nat) : Tells s (reportAddition s i) := by
  unfold reportAddition
  split
  · exact .refl s
  · exact ((ranks_offer ..).tells.trans (ranks_handPair ..).tells).trans (tells_modSched ..)

theorem tells_reportChanges (old : Table Carrier) (removed added : List Nat) (forced : Nat → Bool)
    (counts : Nat → Option DiscoveryCounts) (wasStale : Carrier → Bool) (s : State) :
    Tells s (reportChanges old removed added forced counts wasStale s) :=
  ((tells_foldl tells_reportRemoval _ s).trans
    (tells_foldl (fun s (e : Nat × Carrier) =>
      (ranks_reportCarrier (forced e.1) (counts e.1) (wasStale e.2) e.1 e.2 s).tells) _ _)).trans
    (tells_foldl tells_reportAddition _ _)

/-! ## A change of one entry -/

theorem carrier_putCarrier (i y : Nat) (c : Carrier) (s : State) :
    (putCarrier i c s).carrier y = if y = i then some c else s.carrier y := by
  unfold putCarrier State.carrier
  split
  · next h => subst h; exact tabGet_tabPut ..
  · next h => exact tabGet_tabPut_ne _ _ _ _ h

theorem changeCarrier_tells {i : Nat} {f : Carrier → Carrier} {s : State} {c : Carrier} (h : s.carrier i = some c) :
    Tells (putCarrier i (f c) s) (changeCarrier i f s) := by
  unfold changeCarrier
  rw [h]
  exact (ranks_reportCarrier ..).tells

theorem changeCarrier_slots (i : Nat) (f : Carrier → Carrier) (s : State) :
    (changeCarrier i f s).slots = s.slots ∧ (changeCarrier i f s).reference = s.reference := by
  unfold changeCarrier
  split
  · exact ⟨rfl, rfl⟩
  · exact ⟨(ranks_reportCarrier ..).sameSlots, (ranks_reportCarrier ..).sameReference⟩

theorem removeCarrier_slots (i : Nat) (s : State) :
    (removeCarrier i s).slots = s.slots ∧ (removeCarrier i s).reference = s.reference :=
  ⟨(tells_reportChanges ..).slots, (tells_reportChanges ..).reference⟩

theorem endHold_slots (i : Nat) (j : Fin 8) (g : Carrier → Carrier) (s : State) :
    (endHold i j g s).slots = s.slots ∧ (endHold i j g s).reference = s.reference := by
  unfold endHold
  split
  · exact ⟨rfl, rfl⟩
  · split
    · exact ⟨rfl, rfl⟩
    · split
      · exact ⟨rfl, rfl⟩
      · split
        · split
          · exact removeCarrier_slots ..
          · exact changeCarrier_slots ..
        · exact changeCarrier_slots ..

/-- The end of an ACTIVE hold: the entry changes as `g` says and is unheld, no other entry changes. -/
theorem endHold_active {i : Nat} {j : Fin 8} {g : Carrier → Carrier} {s : State} {c : Carrier} {h : Hold}
    (hc : s.carrier i = some c) (hh : c.hold = some h) (hj : h.slot = j) (he : h.ending = false) (y : Nat) :
    (endHold i j g s).carrier y = if y = i then some { g c with hold := none } else s.carrier y := by
  have := changeCarrier_tells (f := fun c => { g c with hold := none }) hc
  simp only [endHold, hc, hh, hj, he]
  simp only [ne_eq, not_true_eq_false, if_false, Bool.false_eq_true]
  refine ((tells_modSched _ _).carrier y).trans ((this.carrier y).trans (carrier_putCarrier ..))

/-- The end of an ENDING hold of an entry that stays: the entry is unheld and nothing else changes. -/
theorem endHold_ending {i : Nat} {j : Fin 8} {g : Carrier → Carrier} {s : State} {c : Carrier} {h : Hold}
    (hc : s.carrier i = some c) (hh : c.hold = some h) (hj : h.slot = j) (he : h.ending = true)
    (hp : c.removalPending = false) (y : Nat) :
    (endHold i j g s).carrier y = if y = i then some { c with hold := none } else s.carrier y := by
  have := changeCarrier_tells (f := fun c => { c with hold := none }) hc
  have e : endHold i j g s = searchDue (changeCarrier i (fun c => { c with hold := none }) s) := by
    simp only [endHold, hc, hh, hj, he, hp, ne_eq, not_true_eq_false, if_false, if_true, Bool.false_eq_true]
  rw [e]
  refine ((tells_modSched _ _).carrier y).trans ((this.carrier y).trans (carrier_putCarrier ..))

/-! ## Reports of a slot -/

theorem tells_putSurvey (i : Fin 8) (x : Option SurveyRecord) (s : State) : Tells s (putSurvey i x s) := tells_modSched ..

theorem tells_returnUrgent (i : Nat) (s : State) : Tells s (returnUrgent i s) := by
  unfold returnUrgent
  split
  · exact .refl s
  · exact tells_modSched ..

theorem tells_endSurvey (i : Fin 8) (reason : EndReason) (s : State) : Tells s (endSurvey i reason s) := by
  unfold endSurvey
  split
  · exact .refl s
  · dsimp only
    split
    · exact (tells_putSurvey ..).trans (tells_returnUrgent ..)
    · exact tells_putSurvey ..

theorem tells_surveyRunning (i : Fin 8) (s : State) : Tells s (surveyRunning i s) := by
  unfold surveyRunning
  split
  · exact .refl s
  · exact tells_putSurvey ..

theorem tells_endCarry (x : Nat) (asked : Bool) (s : State) : Tells s (endCarry x asked s) := by
  unfold endCarry
  split
  · split
    · exact ((tells_modRouter ..).trans (ranks_recomputeRooms _).tells).trans (ranks_endOfCarry ..).tells
    · exact (ranks_recomputeRooms s).tells
  · exact (((tells_modRouter ..).trans (ranks_recomputeRooms _).tells).trans (ranks_carryLost ..).tells).trans
      (ranks_grantFailed ..).tells

theorem tells_reportEnd (b : Slot) (i : Fin 8) (x : Nat) (reason : EndReason) (asked : Bool) (s : State) :
    Tells s (reportEnd b i x reason asked s) := by
  unfold reportEnd
  split
  · exact .refl s
  · dsimp only
    split
    · exact (tells_endSurvey ..).trans (tells_endCarry ..)
    · exact tells_endSurvey ..
  · exact tells_endCarry ..

theorem tells_streamPresent (i : Fin 8) (x : Nat) (s : State) : Tells s (streamPresent i x s) :=
  ((tells_modRouter ..).trans (ranks_targetsInEffect ..).tells).trans (ranks_recomputeRooms _).tells

theorem tells_streamLost (i : Fin 8) (x : Nat) (s : State) : Tells s (streamLost i x s) :=
  (tells_modRouter ..).trans (ranks_recomputeRooms _).tells

theorem tells_holdLost (i : Fin 8) (s : State) : Tells s (holdLost i s) := by
  unfold holdLost
  split
  · exact .refl s
  · exact (tells_modRouter ..).trans (ranks_grantFailed ..).tells

/-! ## A change of one slot -/

theorem changeSlot_tells (i : Fin 8) (f : Slot → Slot) (s : State) :
    Tells (putSlot i (f (s.slot i)) s) (changeSlot i f s) := by
  unfold changeSlot
  dsimp only
  split
  · exact (ranks_offer ..).tells.trans (ranks_handPair ..).tells
  · exact .refl _

theorem changeSlot_slot (i j : Fin 8) (f : Slot → Slot) (s : State) :
    (changeSlot i f s).slot j = if j = i then f (s.slot i) else s.slot j :=
  ((changeSlot_tells i f s).slot j).trans (by rw [slot_putSlot]; simp only [eq_comm])

theorem modSlot_slot (i j : Fin 8) (f : Slot → Slot) (s : State) :
    (modSlot i f s).slot j = if j = i then f (s.slot i) else s.slot j := by
  unfold modSlot; rw [slot_putSlot]; simp only [eq_comm]

theorem changeSlot_carriers (i : Fin 8) (f : Slot → Slot) (s : State) : (changeSlot i f s).carriers = s.carriers :=
  (changeSlot_tells i f s).carriers

theorem changeSlot_reference (i : Fin 8) (f : Slot → Slot) (s : State) : (changeSlot i f s).reference = s.reference :=
  (changeSlot_tells i f s).reference

/-! ## The level reference -/

/-- What an operation on the level reference may not touch: the carrier table, the clock, the plan, and any slot that is
not LOCKED and out of the reference's hands. -/
structure Passes (s t : State) : Prop where
  carriers : t.carriers = s.carriers
  clock : t.clock = s.clock
  plan : t.plan = s.plan
  idle : ∀ i : Fin 8, (s.slot i).state ≠ .locked → i ∉ s.reference.queue → t.slot i = s.slot i ∧ i ∉ t.reference.queue

theorem Passes.refl (s : State) : Passes s s := ⟨rfl, rfl, rfl, fun _ _ h => ⟨rfl, h⟩⟩

theorem Passes.trans {s t u : State} (h : Passes s t) (k : Passes t u) : Passes s u := by
  refine ⟨k.carriers.trans h.carriers, k.clock.trans h.clock, k.plan.trans h.plan, fun i hl hq => ?_⟩
  obtain ⟨h1, h2⟩ := h.idle i hl hq
  obtain ⟨k1, k2⟩ := k.idle i (h1 ▸ hl) h2
  exact ⟨k1.trans h1, k2⟩

theorem passes_grantReference (s : State) : Passes s (grantReference s) := by
  unfold grantReference
  split
  · next h t _ hq =>
    refine ⟨by rw [changeSlot_carriers]; rfl, (changeSlot_tells ..).clock, (changeSlot_tells ..).plan, fun i hl hn => ?_⟩
    rw [hq, List.mem_cons, not_or] at hn
    rw [changeSlot_slot, if_neg hn.1, changeSlot_reference]
    exact ⟨rfl, hn.2⟩
  · exact .refl s

theorem passes_joinReference (s : State) (i : Fin 8) : Passes s (joinReference s i) := by
  unfold joinReference
  split
  · next hj =>
    simp only [mayJoin, needsCalibration, Bool.and_eq_true, decide_eq_true_eq] at hj
    obtain ⟨⟨⟨⟨⟨hl, -⟩, -⟩, -⟩, -⟩, -⟩ := hj
    refine Passes.trans (t := changeSlot i (fun r => { r with calStatus := .waiting })
      (s.setReference { s.reference with queue := s.reference.queue ++ [i] })) ⟨by rw [changeSlot_carriers]; rfl,
      (changeSlot_tells ..).clock, (changeSlot_tells ..).plan, fun j hj hq => ?_⟩ (passes_grantReference _)
    have hne : j ≠ i := fun e => hj (e ▸ hl)
    rw [changeSlot_slot, if_neg hne, changeSlot_reference]
    refine ⟨rfl, ?_⟩
    simp only [State.setReference_reference, List.mem_append, List.mem_singleton, not_or]
    exact ⟨hq, hne⟩
  · exact .refl s

theorem passes_foldl {β : Type} {f : State → β → State} (h : ∀ s b, Passes s (f s b)) (l : List β) (s : State) :
    Passes s (l.foldl f s) := by
  induction l generalizing s with
  | nil => exact .refl s
  | cons b l ih => exact (h s b).trans (ih (f s b))

theorem passes_evaluateNeeds (s : State) : Passes s (evaluateNeeds s) := by
  unfold evaluateNeeds
  refine Passes.trans (t := (drawOrder (allSlots.filter (mayJoin s)) s).2) ?_ (passes_foldl passes_joinReference ..)
  simp only [drawOrder]
  split
  · exact .refl s
  · exact ⟨rfl, rfl, rfl, fun _ _ h => ⟨rfl, h⟩⟩

theorem passes_passReference (s : State) : Passes s (passReference s) :=
  (passes_grantReference s).trans (passes_evaluateNeeds _)

/-- A slot that leaves LOCKED is as `f` says, and no entry changes. -/
theorem leaveLocked_slot {i : Fin 8} {f : Slot → Slot} {s : State} (hf : (f (s.slot i)).state ≠ .locked)
    (hr : s.reference.holder = some i → i ∉ s.reference.queue) :
    (leaveLocked i f s).slot i = f (s.slot i) ∧ i ∉ (leaveLocked i f s).reference.queue
      ∧ (leaveLocked i f s).carriers = s.carriers := by
  have h1 : (changeSlot i f (s.setReference (quitReference i s.reference))).slot i = f (s.slot i) := by
    rw [changeSlot_slot, if_pos rfl]; rfl
  have h2 : i ∉ (changeSlot i f (s.setReference (quitReference i s.reference))).reference.queue := by
    rw [changeSlot_reference, State.setReference_reference, quitReference]
    split
    · next h => exact hr h
    · simp
  have h3 : (changeSlot i f (s.setReference (quitReference i s.reference))).carriers = s.carriers := by
    rw [changeSlot_carriers]; rfl
  unfold leaveLocked
  dsimp only
  split
  · have p := passes_passReference (changeSlot i f (s.setReference (quitReference i s.reference)))
    obtain ⟨a, b⟩ := p.idle i (by rw [h1]; exact hf) h2
    exact ⟨a.trans h1, b, p.carriers.trans h3⟩
  · exact ⟨h1, h2, h3⟩

theorem leaveLocked_clock (i : Fin 8) (f : Slot → Slot) (s : State) :
    (leaveLocked i f s).clock = s.clock ∧ (leaveLocked i f s).plan = s.plan := by
  unfold leaveLocked
  dsimp only
  split
  · have p := passes_passReference (changeSlot i f (s.setReference (quitReference i s.reference)))
    exact ⟨p.clock.trans (changeSlot_tells ..).clock, p.plan.trans (changeSlot_tells ..).plan⟩
  · exact ⟨(changeSlot_tells ..).clock, (changeSlot_tells ..).plan⟩

end Sys2Proof.Machine
end

