-- ==== Sys2Proof/Laws/PerInstr.lean ====
section
/-! SUPPORT. No statement is made per row: LAWS.json names no family. -/
end

