-- ==== Sys2Proof/Certificates/Slice0/Obligations.lean ====
section
/-! DEFINITION. The statements for the provers. A number R<n> is a rule of the manual; an entry of the assumption log is
named where a statement rests on a choice of the model. What follows from a command within its step, and in which order
(`settle`), is log entry 9 in every statement that names it. -/

open Sys2Proof Sys2Proof.Machine

/-! ## The queue of commands, the tick and the resets -/

/-- The command at the front of the queue runs with the queue's rest. -/
def Obligations.StepTakesTheFront : Prop :=
  ∀ (c : Instr) (rest : List Instr) (s : State), s.pending = c :: rest → step s = exec c (s.setPending rest)

/-- With no command waiting, a step is one tick of 1 ms (the model's choice, log entry 12): every millisecond timer is one
less, the gap of a frame in progress one more, and the ticks of the second are counted modulo 1000 (R172, log entry 35). The
events that are then due join the queue in an order the manual leaves open (log entry 3): the end of each timer that has
run out, the bound of each stage, a re-check that is due, the second's advance at the 1000th tick, a hold-until reached
with no request waiting, a waiting request, a gap over 50 ms, a frame to take and a frame to send. Held in reset, the part
idles. -/
def Obligations.IdleStepIsATick : Prop :=
  ∀ s : State, s.pending = [] →
    (s.clock.inReset = true → step s = .next s) ∧
      (s.clock.inReset = false →
        ∃ (t : State) (due : List Instr) (n : Nat),
          step s = .next ((t.setPending due).setDraws n) ∧
            (∀ e : Instr, e ∈ due ↔
              (∃ i, e = .unparkTimeEnd i ∧ (t.slot i).unparkTimer = some 0) ∨
                (∃ i, e = .releaseTimeEnd i ∧ (t.slot i).releaseTimer = some 0) ∨
                (∃ i, e = .park i ∧ (t.slot i).parkTimer = some 0) ∨
                (∃ i, e = .retuneTimeout i ∧ (t.slot i).retuneTimer = some 0) ∨
                (∃ i, (t.slot i).chan.timer = some 0 ∧
                  match (t.slot i).chan.stage with
                  | .lockWait => e = .lockTimeout i
                  | .idWait => e = .idTimeout i
                  | .svcWait => e = .svcTimeout i
                  | .listWait => e = .listTimeout i
                  | .recheckId => e = .recheckIdTimeout i
                  | .recheckSvc => e = .recheckSvcTimeout i
                  | .none => False
                  | .idCheck => False) ∨
                (∃ i, e = .recheckStart i ∧ (t.slot i).state = .locked ∧ (t.slot i).chan.recheckDue = true) ∨
                (∃ r, e = .switchTimeout r ∧ (t.room r).timer = some 0) ∨
                (e = .calibrationEnd ∧ t.reference.timer = some 0) ∨
                (e = .pulseTimerEnd ∧ t.watches.pulseTimer = some 0) ∨
                (e = .secondCountAdvance ∧ t.clock.ticks = 0) ∨
                (∃ i v h, e = .holdUntilReached i ∧ t.service i.val = some v ∧ v.state = .holding ∧
                  v.holdUntil = some h ∧ h ≤ t.clock.now ∧ ∀ q ∈ t.router.requests, q.service ≠ i.val) ∨
                (∃ i q, e = .grantRequest i ∧ q ∈ t.router.requests ∧ q.service = i.val) ∨
                (∃ g, e = .byteGapTimeout ∧ t.link.gap = some g ∧ 50 < g) ∨
                (e = .commandTaken ∧ t.link.reply = none ∧ t.link.buffer ≠ [] ∧ t.link.restart = .none) ∨
                (e = .transmitStart ∧ t.link.sending = none ∧ (t.link.reply ≠ none ∨ t.link.notices ≠ []) ∧
                  t.link.restart ≠ .due)) ∧
            (t.pending = [] ∧ t.plan = s.plan ∧ t.carriers = s.carriers ∧ t.services = s.services ∧ t.sched = s.sched) ∧
              t.clock = { s.clock with ticks := if s.clock.ticks + 1 < 1000 then s.clock.ticks + 1 else 0 } ∧
                t.link = { s.link with gap := s.link.gap.map (· + 1) } ∧
                  t.watches = { s.watches with pulseTimer := s.watches.pulseTimer.map (· - 1) } ∧
                    t.reference = { s.reference with timer := s.reference.timer.map (· - 1) } ∧
                      (∀ r : Fin 48, t.room r = { s.room r with timer := (s.room r).timer.map (· - 1) }) ∧
                        (t.router.records = s.router.records ∧ t.router.requests = s.router.requests) ∧
                          ∀ i : Fin 8, t.slot i =
                            { s.slot i with
                              unparkTimer := (s.slot i).unparkTimer.map (· - 1),
                              releaseTimer := (s.slot i).releaseTimer.map (· - 1),
                              parkTimer := (s.slot i).parkTimer.map (· - 1),
                              retuneTimer := (s.slot i).retuneTimer.map (· - 1),
                              chan := { (s.slot i).chan with timer := (s.slot i).chan.timer.map (· - 1) } })

/-- R172: the second count advances by one and holds at its maximum, where the event has no effect (log entry 32). The
advance reports staleness, then evaluates the need for calibration (an order of the model's, log entry 8), and a search
follows (R96); the rest of the clock, the link's frames and the plan are left alone. R82: each entry that turns stale, no
other, has its CARRIER notice and the rebuilds of its services. R42, R43: the LOCKED slots that have no last calibration,
one on another input or one 900 s old join the queue in an order the manual leaves open (log entry 3); a free reference is
granted to the first. -/
def Obligations.SecondCountAdvances : Prop :=
  (∀ s : State, s.clock.inReset = false →
    (s.clock.now < 4294967295 →
      ∃ t : State, exec .secondCountAdvance s = .next t ∧
        BlocksOnly (s.setClock { s.clock with now := s.clock.now + 1 }) t ∧
          t = settle (searchDue (evaluateNeeds (reportChanges s.carriers [] [] (fun _ => false) (fun _ => none)
            (staleAt s.clock.now s.params.maxAge) (s.setClock { s.clock with now := s.clock.now + 1 }))))) ∧
      (s.clock.now = 4294967295 → exec .secondCountAdvance s = .next s)) ∧
  (∀ s : State, CarrierLaw s.carriers →
    let t := s.setClock { s.clock with now := s.clock.now + 1 }
    let maxAge := s.plan.committed.params.maxAge
    let reported (u : State) (e : Nat × Carrier) : State :=
      match e.2.meas with
      | none => u
      | some m =>
        if m.time + maxAge = s.clock.now then
          rankCarrier e.2.services e.2.services
            (offer .carrier e.1 (carrierNotice (s.clock.now + 1) maxAge e.1 e.2 false none) u)
        else u
    reportChanges s.carriers [] [] (fun _ => false) (fun _ => none) (staleAt s.clock.now maxAge) t =
      s.carriers.foldl reported t) ∧
  ∀ u : State,
    let v := evaluateNeeds u
    let joins (i : Fin 8) : Prop :=
      (u.slot i).state = .locked ∧ (u.slot i).calStatus ≠ .waiting ∧ (u.slot i).calStatus ≠ .active ∧
        i ∉ u.reference.queue ∧ u.reference.holder ≠ some i ∧
          ((u.slot i).lastCal = none ∨
            ∃ x time, (u.slot i).lastCal = some (x, time) ∧ ((u.slot i).input ≠ some x ∨ time + 900 ≤ u.clock.now))
    let waits (l : List (Fin 8)) (i : Fin 8) : Slot := if i ∈ l then { u.slot i with calStatus := .waiting } else u.slot i
    ∃ order : List (Fin 8), order.Nodup ∧ (∀ i, i ∈ order ↔ joins i) ∧ (order = [] → v = u) ∧
      (u.reference.holder ≠ none →
        v.reference = { u.reference with queue := u.reference.queue ++ order } ∧ ∀ i, v.slot i = waits order i) ∧
        ∀ h rest, u.reference.holder = none → u.reference.queue = [] → order = h :: rest →
          v.reference = { holder := some h, queue := rest, timer := some 40 } ∧
            v.slot h =
              { u.slot h with
                calStatus := .active,
                meas := { k := (u.slot h).meas.k, active := false, symbols := 0, acc := 0, overflow := 0, u := 0 } } ∧
              ∀ i, i ≠ h → v.slot i = waits rest i

/-- R173: power-on and the assertion of the reset input hold the part in reset with cause POWER or PIN: the receive buffer,
the reply place and the notice queue are empty and the frame being sent is cut off. Of the two rows the last gives the
cause, the blocks stand at their reset values from the beginning of the reset, and the commands that wait stay: the model's
choices (log entry 31). The link speed (R174) stays as it was. -/
def Obligations.ResetsBegin : Prop :=
  ∀ s : State, ∃ t u : State,
    exec .powerOn s = .next t ∧ exec .resetAssert s = .next u ∧
      t.clock.cause = .power ∧ u.clock.cause = .pin ∧
        ∀ v : State, v = t ∨ v = u →
          v.clock.inReset = true ∧ v.clock.now = 0 ∧ v.clock.speedHigh = s.clock.speedHigh ∧ v.link.buffer = [] ∧
            v.link.reply = none ∧ v.link.notices = [] ∧ v.link.sending = none ∧ v.link.rx = .hunt ∧
              v.pending = s.pending

/-- R173, R174: a reset ends at the release of the reset input, or when a RESTART whose reply has been sent takes effect:
the second count is 0, the SPEED strap is sampled, the link unit is at its reset values and the READY notice alone is
queued, with the part code 0x0816, the revision 1 and the cause. The commands that wait stay (log entry 31), and the ticks
are counted from 0 (log entry 35). A release with no reset in progress, and a RESTART that is not due, have no effect (log
entry 11). -/
def Obligations.ResetsEnd : Prop :=
  ∀ (s : State) (strapHigh : Bool),
    let link (cause : Byte) : Link :=
      { rx := .hunt, gap := none, buffer := [], reply := none, sending := none,
        notices := [{ kind := .ready, subject := 0, content := [0x16#8, 0x08#8, 1#8, cause] }], mask := 0xFF#8,
        flags := { checkFailed := false, overrun := false, noticesDropped := false, serviceTableFull := false },
        restart := .none, frozen := none }
    (s.clock.inReset = true →
      ∃ t : State, exec (.resetRelease strapHigh) s = .next t ∧ t.pending = s.pending ∧
        t.clock = { now := 0, ticks := 0, cause := s.clock.cause, inReset := false, speedHigh := strapHigh } ∧
          t.link = link (match s.clock.cause with | .power => 0#8 | .pin => 1#8 | .restart => 2#8)) ∧
      (s.clock.inReset = false → s.link.restart = .due →
        ∃ t : State, exec (.restartTakesEffect strapHigh) s = .next t ∧ t.pending = s.pending ∧
          t.clock = { now := 0, ticks := 0, cause := .restart, inReset := false, speedHigh := strapHigh } ∧
            t.link = link 2#8) ∧
        (s.clock.inReset = false → exec (.resetRelease strapHigh) s = .next s) ∧
          (s.clock.inReset = false → s.link.restart ≠ .due → exec (.restartTakesEffect strapHigh) s = .next s)

/-- R48, R24, R70, R91, R107, R126, R144, R151, R154: the slots with their measurement units and acquisition channels, the
level reference, the carrier table, the scheduler, the service table and the plan store when a reset has ended. The latched
modulation, code rate and symbol rate are absent then because no rule gives them a value (log entry 16), and `recheckDue` is
the model's own mark (log entry 5). -/
def Obligations.BlocksAfterReset : Prop :=
  (∀ s t : State, ResetEnds s t →
    (∀ i : Fin 8, t.slot i =
      { state := .parked, role := .none, carrier := none, input := none, power := .off, roleTime := none,
        lockTimeout := none, modulation := none, codeRate := none, symRate := none, retune := 0, adoptionPending := false,
        heldForRouter := false, offlinePending := false, calStatus := .none, lastCal := none, unparkTimer := none,
        releaseTimer := none, parkTimer := none, retuneTimer := none,
        meas := { k := none, active := false, symbols := 0, acc := 0, overflow := 0, u := 0 },
        chan :=
          { stage := .none, timer := none, held := none, services := { last := none, parts := [] },
            listing := { last := none, parts := [] }, formed := none, windows := 0, recheckDue := false } }) ∧
      t.reference = { holder := none, queue := [], timer := none } ∧ t.carriers = [] ∧ t.services = [] ∧
        t.sched.mode = .run ∧ t.sched.urgent = [] ∧ (∀ i : Fin 8, t.sched.surveys[i] = none) ∧
          t.sched.pass =
            { number := 0, start := 0, ended := none, outcome := .open, verified := 0, failed := 0, lost := 0 } ∧
            t.sched.outstanding = [] ∧ OnlyReadyWaits t) ∧
  (∀ s t : State, ResetEnds s t →
    t.plan.staged = none ∧
      t.plan.last =
        { number := 0, time := 0, added := 0, removed := 0, evicted := 0, removalPending := 0, passStarted := false } ∧
        (∀ i : Fin 4, t.plan.committed.inputs[i] =
          { cls := .disabled, bias := 0, winMin := 0, winMax := 1200, discovery := false }) ∧
          t.plan.committed.profiles.toList.map
              (fun p => (p.modulation, p.codeRate, p.reqMer, p.lockTimeout, p.k)) =
            [(.qpsk, .r3_4, 55, 800, 13), (.psk8, .r2_3, 70, 800, 13), (.psk8, .r3_4, 85, 800, 13),
              (.apsk16, .r3_4, 105, 1000, 14), (.qam64, .noRate, 240, 600, 12), (.qam256, .noRate, 310, 600, 12),
              (.ofdm16, .r2_3, 130, 1500, 14), (.ofdm64, .r2_3, 190, 1500, 14)] ∧
            t.plan.committed.carriers = [] ∧
              (∀ r : Fin 48, t.plan.committed.bindings[r] = { primary := none, fallback := none, priority := 3 }) ∧
                t.plan.committed.params =
                  { hysteresis := 40, leadCount := 2, settle := 30, floor := 150, guardMargin := 30, maxAge := 600,
                    minInterval := 10, holdLimit := 20, reserve := 1, windows := 2 })

/-- R143, R162: the room channels, the router and the watch unit when a reset has ended. -/
def Obligations.RoomsAndWatchesAfterReset : Prop :=
  ∀ s t : State, ResetEnds s t →
    (∀ r : Fin 48, t.room r =
      { primary := none, fallback := none, priority := 3, feeding := .primary, route := .unbound, feedSlot := none,
        pendingFeed := none, requestTime := none, timer := none }) ∧
      t.router.records = [] ∧ t.router.requests = [] ∧
        (∀ n : Fin 16, t.watches.entries[n].active = false ∧ t.watches.entries[n] =
          { kind := .carrier, subject := none, stateEq := none, marginBelow := none, scoreBelow := none,
            selectionChanged := false, routeEq := none, alert := false, latched := false, lastSubject := none,
            fireCount := 0 }) ∧
          t.watches.mode = .level ∧ t.watches.pulseTimer = none ∧ t.watches.alert = false ∧ OnlyReadyWaits t

/-- R173 with the model's reading of "held in reset" (log entry 11): while the part is held in reset, every command and
event but the resets themselves changes nothing. -/
def Obligations.NothingHappensInReset : Prop :=
  ∀ (c : Instr) (s : State), s.clock.inReset = true → c.wf = true → c ≠ .powerOn → c ≠ .resetAssert →
    (∀ strapHigh : Bool, c ≠ .resetRelease strapHigh) → exec c s = .next s

/-! ## The control link -/

/-- R165: reading the frame that a command's encoding writes gives the command back, for every command of the table with
every field at every value its payload layout admits. -/
def Obligations.CommandFramesRoundTrip : Prop :=
  ∀ c : HostCommand, c.wf = true → parseCommand (encodeCommand c) = .ok c

/-- R163, R164, R166: the bytes of a whole frame, arriving one after another at a receiver in HUNT, complete it: a command
frame (KIND 1) is offered to the receive buffer with the CODE and payload sent; a frame of another KIND is discarded and
CHECK_FAILED set. In both cases the receiver is back in HUNT. -/
def Obligations.FrameBytesArriveAsTheFrame : Prop :=
  ∀ (l : Link) (kind code : Byte) (payload : List Byte), l.rx = .hunt → payload.length ≤ 240 →
    (frameBytes kind.toNat code.toNat payload).foldl (fun m b => receive b m) l =
      if kind = 1#8 then acceptFrame { code := code.toNat, payload := payload } { l with gap := none }
      else { l with gap := none, flags := { l.flags with checkFailed := true } }

/-- R164: what the receiver does with a byte in each of its phases, when the gap before it was at most 50 ms; a byte after
a longer gap is taken in HUNT, with the partial frame discarded and no flag set. The gap's timeout discards the partial frame
when the gap is over 50 ms and otherwise has no effect (log entries 11 and 33). -/
def Obligations.ReceiverPhases : Prop :=
  ∀ (s : State) (b : Byte), s.clock.inReset = false →
    let after (l : Link) : Prop := exec (.byteReceived b) s = .next (s.setLink l)
    let failed (l : Link) : Link := { l with rx := .hunt, gap := none, flags := { l.flags with checkFailed := true } }
    ((∀ g, s.link.gap = some g → g ≤ 50) →
      (s.link.rx = .hunt →
        (b = 0xC5#8 → after { s.link with rx := .headerKind, gap := some 0 }) ∧ (b ≠ 0xC5#8 → after s.link)) ∧
        (s.link.rx = .headerKind → after { s.link with rx := .headerCode b, gap := some 0 }) ∧
          (∀ kind, s.link.rx = .headerCode kind → after { s.link with rx := .headerLength kind b, gap := some 0 }) ∧
            (∀ kind code, s.link.rx = .headerLength kind code →
              (240 < b.toNat → after (failed s.link)) ∧
                (b.toNat = 0 → after { s.link with rx := .check kind code 0 [], gap := some 0 }) ∧
                  (1 ≤ b.toNat → b.toNat ≤ 240 →
                    after { s.link with rx := .payload kind code b.toNat [], gap := some 0 })) ∧
              (∀ kind code n got, s.link.rx = .payload kind code n got →
                (got.length + 1 < n → after { s.link with rx := .payload kind code n (got ++ [b]), gap := some 0 }) ∧
                  (n ≤ got.length + 1 → after { s.link with rx := .check kind code n (got ++ [b]), gap := some 0 })) ∧
                ∀ kind code n got, s.link.rx = .check kind code n got →
                  let sum := (got.foldl (· + ·) (kind + code + BitVec.ofNat 8 n)) + b
                  (sum = 0#8 → kind = 1#8 →
                    after (acceptFrame { code := code.toNat, payload := got } { s.link with rx := .hunt, gap := none })) ∧
                    (¬ (sum = 0#8 ∧ kind = 1#8) → after (failed s.link))) ∧
      (∀ g, s.link.gap = some g → 50 < g →
        exec (.byteReceived b) s = exec (.byteReceived b) (s.setLink { s.link with rx := .hunt, gap := none })) ∧
        ((∃ g, s.link.gap = some g ∧ 50 < g) →
          exec .byteGapTimeout s = .next (s.setLink { s.link with rx := .hunt, gap := none })) ∧
          ((∀ g, s.link.gap = some g → g ≤ 50) → exec .byteGapTimeout s = .next s)

/-- R166: a completed command frame is accepted behind those that wait when fewer than two wait; with both places full it is
discarded and OVERRUN is set. The buffer never holds more than two, and a frame leaves it when the command unit takes
it. -/
def Obligations.ReceiveBufferTakesTwoFrames : Prop :=
  (∀ (f : Frame) (l : Link),
    (l.buffer.length < 2 → acceptFrame f l = { l with buffer := l.buffer ++ [f] }) ∧
      (2 ≤ l.buffer.length → acceptFrame f l = { l with flags := { l.flags with overrun := true } })) ∧
    (∀ s t : State, s.link.buffer.length ≤ 2 → step s = .next t → t.link.buffer.length ≤ 2) ∧
      ∀ (s : State) (f : Frame) (rest : List Frame), s.clock.inReset = false → s.link.reply = none →
        s.link.restart = .none → s.link.buffer = f :: rest →
          ∃ t : State, exec .commandTaken s = .next t ∧ t.link.buffer = rest

/-- R165, R167: a reply formed for a command stands in the reply place with the command's code; its payload is the reply
code, the link flags, and the content, which a refusal (UNKNOWN_COMMAND to NOT_FROZEN) does not carry; nothing else changes.
The command unit takes the oldest frame when the reply place is empty (and no RESTART has been taken, R173): a CODE not in
the command table is answered UNKNOWN_COMMAND and a wrong LENGTH BAD_LENGTH, reaching no block; any other frame's command is
carried out (`answerCommand`) on the state with the buffer's rest, with the effect its row has when no frame waits, and its
one reply stands in the reply place with the command's own code and, in its second byte, the flags as they stood when it was
formed. With a reply waiting nothing is taken. -/
def Obligations.CommandUnitAnswersTheOldestFrame : Prop :=
  (∀ (code : Nat) (c : ReplyCode) (content : List Byte) (s : State),
    let flags : Nat :=
      (if s.link.flags.checkFailed then 1 else 0) + (if s.link.flags.overrun then 2 else 0)
        + (if s.link.flags.noticesDropped then 4 else 0) + (if s.link.flags.serviceTableFull then 8 else 0)
    let payload : List Byte :=
      BitVec.ofNat 8 (replyCodeNumber c) :: BitVec.ofNat 8 flags ::
        (if c = .ok ∨ c = .adjusted ∨ c = .noChange then content else [])
    formReply code c content s = s.setLink { s.link with reply := some { code := code, payload := payload } }) ∧
  (∀ s : State, s.clock.inReset = false →
    (∀ (f : Frame) (rest : List Frame), s.link.buffer = f :: rest → s.link.reply = none → s.link.restart = .none →
      let s1 := s.setLink { s.link with buffer := rest }
      (layoutOf f.code = none → exec .commandTaken s = .next (formReply f.code .unknownCommand [] s1)) ∧
        (∀ ws, layoutOf f.code = some ws → f.payload.length ≠ ws.sum →
          exec .commandTaken s = .next (formReply f.code .badLength [] s1)) ∧
          ∀ c, parseCommand f = .ok c →
            ∃ (t : State) (r : Reply) (code : ReplyCode) (flags : LinkFlags) (content : List Byte),
              exec .commandTaken s = .next t ∧ t = answerCommand c s1 ∧ t.link.reply = some r ∧ r.code = (fieldsOf c).1 ∧
                r.payload = BitVec.ofNat 8 (replyCodeNumber code) :: BitVec.ofNat 8 (flagsByte flags) :: content ∧
                  flags = if c = .readStatus then s.link.flags else t.link.flags) ∧
      (s.link.buffer = [] → exec .commandTaken s = .next s) ∧
        (s.link.reply ≠ none → exec .commandTaken s = .next s) ∧
          (s.link.restart ≠ .none → exec .commandTaken s = .next s)) ∧
  ∀ (c : HostCommand) (s : State), c.wf = true → Ready s → exec (rowOf c) s = .next (answerCommand c s)

/-- R169, R173: an idle transmitter starts the reply first and, with no reply waiting, the oldest notice; a READY at the head
of the notices goes before the reply, being the first frame after a reset (DEDUCED, log entry 37). What starts leaves its
place, and a frame being sent is not interrupted. Once the reply of a RESTART has gone nothing more starts (DEDUCED, log
entry 33). The end of a frame leaves the transmitter idle, and after the reply of a RESTART the reset is due; with no frame
being sent it has no effect (log entry 11). -/
def Obligations.TransmitterSendsTheReplyFirst : Prop :=
  ∀ s : State, s.clock.inReset = false →
    let readyFirst : Prop := ∃ n rest, s.link.notices = n :: rest ∧ n.kind = .ready
    (∀ r : Reply, s.link.sending = none → s.link.restart ≠ .due → s.link.reply = some r → ¬ readyFirst →
      exec .transmitStart s = .next (s.setLink { s.link with
        sending := some (frameBytes 2 r.code r.payload), reply := none,
        restart := if s.link.restart = .replyWaiting then .replySending else s.link.restart })) ∧
      (∀ (n : Notice) (rest : List Notice), s.link.sending = none → s.link.restart ≠ .due →
        s.link.reply = none ∨ n.kind = .ready → s.link.notices = n :: rest →
          exec .transmitStart s = .next (s.setLink { s.link with
            sending := some (frameBytes 3 (noticeCode n.kind) (le 2 n.subject ++ n.content)), notices := rest })) ∧
        (s.link.sending ≠ none ∨ s.link.restart = .due ∨ (s.link.reply = none ∧ s.link.notices = []) →
          exec .transmitStart s = .next s) ∧
          (s.link.sending ≠ none →
            exec .frameSent s = .next (s.setLink { s.link with
              sending := none, restart := if s.link.restart = .replySending then .due else s.link.restart })) ∧
            (s.link.sending = none → exec .frameSent s = .next s)

/-- R170: the notice queue's four cases: a disabled kind is not queued and sets no flag; a waiting notice of the same kind
and subject has its content replaced in its place; with 32 waiting the notice is dropped and NOTICES_DROPPED set;
otherwise it is appended. The law of the queue, at most 32 notices and one per kind and subject, outlasts every offer.
SET_NOTICES gives the mask, bit 0 READY to bit 7 PLAN, and leaves the queue as it is. -/
def Obligations.NoticeQueue : Prop :=
  (∀ (n : Notice) (s : State),
    let same (m : Notice) : Prop := m.kind = n.kind ∧ m.subject = n.subject
    let t := offer n.kind n.subject n.content s
    (s.link.mask.getLsbD (noticeIndex n.kind) = false → t = s) ∧
      (s.link.mask.getLsbD (noticeIndex n.kind) = true →
        (∀ before after m, s.link.notices = before ++ m :: after → same m →
          (∀ x ∈ before ++ after, ¬ same x) → t = s.setLink { s.link with notices := before ++ n :: after }) ∧
          ((∀ x ∈ s.link.notices, ¬ same x) →
            (32 ≤ s.link.notices.length →
              t = s.setLink { s.link with flags := { s.link.flags with noticesDropped := true } }) ∧
              (s.link.notices.length < 32 → t = s.setLink { s.link with notices := s.link.notices ++ [n] }))) ∧
        (NoticeLaw s.link → NoticeLaw t.link)) ∧
    [NoticeKind.ready, .carrier, .selection, .room, .surveyPass, .watch, .slot, .plan].map noticeIndex =
        [0, 1, 2, 3, 4, 5, 6, 7] ∧
      (∀ m : Nat, m < 256 → ∀ s : State, Ready s →
        exec (.setNotices m) s = .next (formReply 0x13 .ok [] (s.setLink { s.link with mask := BitVec.ofNat 8 m }))) ∧
        ∀ s t : State, ResetEnds s t → t.link.mask = 0xFF#8

/-- The row of a host command whose fields fit the payload (the model's choice, log entry 13). When the command unit is free
and no frame waits, it is the taking of that command's frame: the rows and the frames of the link give one effect and one
reply. When a frame waits before it, a reply waits or a RESTART has been taken, its frame completes at the receive buffer,
accepted while a place is free and otherwise discarded with OVERRUN (R166). -/
def Obligations.HostRowsGoThroughTheLink : Prop :=
  ∀ (c : HostCommand) (s : State), c.wf = true →
    (Ready s → exec (rowOf c) s = exec .commandTaken (s.setLink { s.link with buffer := [encodeCommand c] })) ∧
      (s.clock.inReset = false → s.link.reply ≠ none ∨ s.link.restart ≠ .none ∨ s.link.buffer ≠ [] →
        (s.link.buffer.length < 2 →
          exec (rowOf c) s = .next (s.setLink { s.link with buffer := s.link.buffer ++ [encodeCommand c] })) ∧
          (2 ≤ s.link.buffer.length →
            exec (rowOf c) s = .next (s.setLink { s.link with flags := { s.link.flags with overrun := true } })))

/-- A term whose operands fit no field of the manual (R165, R50, R3) stands for nothing the part can meet, and is refused as
ill-formed: the model's choice (log entry 34). Every other command and event answers a next state, in every state: one that
does not fit the state has no effect there (log entry 11). -/
def Obligations.EveryCommandCompletes : Prop :=
  ∀ (c : Instr) (s : State),
    (c.wf = true → ∃ t : State, exec c s = .next t) ∧ (c.wf = false → exec c s = .refused .illFormed)

/-! ## Identity, status, the frozen view and the queries -/

/-- R172, R173, R168: IDENTIFY is answered with the part code 0x0816, the revision 1, the cause of the last reset, the
second count and the link speed in use (in baud, three bytes: the model's coding, log entry 7), and changes nothing. RESTART
is answered OK and is taken from then on. READ_STATUS is answered OK with the four flags as they stand, which it then
clears, and with the live values in the order of the rule. -/
def Obligations.IdentityStatusAndRestart : Prop :=
  ∀ s : State, Ready s →
    exec .identify s = .next (formReply 0x10 .ok
      ([0x16#8, 0x08#8, 1#8, match s.clock.cause with | .power => 0#8 | .pin => 1#8 | .restart => 2#8]
        ++ le 4 s.clock.now ++ le 3 (if s.clock.speedHigh then 921600 else 115200)) s) ∧
      exec .restart s = .next (formReply 0x12 .ok [] (s.setLink { s.link with restart := .replyWaiting })) ∧
        let online := ((List.finRange 8).filter fun i =>
          decide ((s.slot i).state ≠ .offline) && !(s.slot i).offlinePending).length
        let content : List Byte :=
          le 4 s.clock.now ++ [match s.sched.mode with | .run => 0#8 | .hold => 1#8] ++ le 2 s.sched.pass.number
            ++ le 4 s.sched.pass.start ++ [if s.plan.staged.isSome then 1#8 else 0#8] ++ le 2 s.plan.last.number
            ++ (match s.link.frozen with | none => 0#8 :: le 4 0 | some v => 1#8 :: le 4 v.now)
            ++ le 1 s.link.notices.length ++ [s.link.mask] ++ le 1 online ++ le 1 s.carriers.length
            ++ le 2 s.services.length
        let answered := (formReply 0x11 .ok content s).link
        let clear : LinkFlags :=
          { checkFailed := false, overrun := false, noticesDropped := false, serviceTableFull := false }
        exec .readStatus s = .next (s.setLink { answered with flags := clear })

/-- R171: FREEZE copies the carrier table, the service table, the room-channel records and the second count and answers
that count, replacing a view held; THAW drops a held view, and with none held is answered NOT_FROZEN. -/
def Obligations.FreezeAndThaw : Prop :=
  ∀ s : State, Ready s →
    let view : FrozenView :=
      { carriers := s.carriers, services := s.services, rooms := s.router.rooms, now := s.clock.now }
    exec .freeze s = .next (formReply 0x14 .ok (le 4 s.clock.now) (s.setLink { s.link with frozen := some view })) ∧
      (s.link.frozen ≠ none →
        exec .thaw s = .next (formReply 0x15 .ok [] (s.setLink { s.link with frozen := none }))) ∧
        (s.link.frozen = none → exec .thaw s = .next (formReply 0x15 .notFrozen [] s))

/-- R90, R171: GET_CARRIER reads the frozen view while one is held and the live table otherwise; an index above 95 or
without an entry is BAD_INDEX; the reply is 85 + 4 n bytes with every field at the offset and in the coding of R90's table.
The stale mark is formed from the view's second count and the committed maximum age (the model's reading, log entry 7). -/
def Obligations.GetCarrierLayout : Prop :=
  (∀ (s : State) (i : Nat), i < 256 → Ready s →
    let carriers := (s.link.frozen.map (·.carriers)).getD s.carriers
    let now := (s.link.frozen.map (·.now)).getD s.clock.now
    (95 < i ∨ tabGet carriers i = none → exec (.getCarrier i) s = .next (formReply 0x20 .badIndex [] s)) ∧
      ∀ c, i ≤ 95 → tabGet carriers i = some c →
        exec (.getCarrier i) s =
          .next (formReply 0x20 .ok (carrierBytes now s.plan.committed.params.maxAge i c) s)) ∧
    ∀ (now maxAge i : Nat) (c : Carrier), c.history.length ≤ 4 →
      let bytes := carrierBytes now maxAge i c
      let field (at_ width value : Nat) : Prop := (bytes.drop at_).take width = le width value
      let signed (at_ : Nat) (z : Int) : Prop := field at_ 2 (z % 65536).toNat
      let yes (b : Bool) : Nat := if b then 1 else 0
      bytes.length = 85 + 4 * c.services.length ∧ field 0 1 i ∧
        field 1 1 (match c.input with | .a => 0 | .b => 1 | .c => 2 | .d => 3) ∧ field 2 4 c.freq ∧
        field 6 2 c.symRate ∧ field 8 1 c.profile.val ∧ field 9 1 (yes c.planned + 2 * yes c.discovered) ∧
        field 10 1 (match c.lister with | none => 255 | some x => x) ∧
        field 11 1 (match c.state with
          | .unsurveyed => 0 | .acquiring => 1 | .verified => 2 | .lost => 3 | .failed => 4 | .excluded => 5) ∧
        field 12 1 (match c.failCause with
          | none => 0 | some .noLock => 1 | some .noId => 2 | some .idMismatch => 3 | some .noServices => 4) ∧
        field 13 1 c.failCount ∧ field 14 4 c.added ∧
        (match c.expected with
          | none => field 18 1 0 ∧ field 19 4 0
          | some e => field 18 1 1 ∧ field 19 2 e.origin ∧ field 21 2 e.transport) ∧
        (match c.observed with
          | none => field 23 1 0 ∧ field 24 4 0 ∧ field 28 1 0
          | some o => field 23 1 1 ∧ field 24 2 o.origin ∧ field 26 2 o.transport ∧ field 28 1 (yes o.listAnnounced)) ∧
        (match c.meas with
          | none =>
            field 29 1 0 ∧ field 30 4 0 ∧ field 34 2 0 ∧ field 36 2 0 ∧ field 38 2 0 ∧ field 40 2 0 ∧ field 42 2 65535 ∧
              field 44 1 0 ∧ field 45 2 65535
          | some m =>
            field 29 1 1 ∧ field 30 4 m.time ∧ field 34 2 m.mer ∧ signed 36 m.margin ∧ field 38 2 m.u ∧
              field 40 2 m.overflow ∧ field 42 2 (match m.level with | none => 65535 | some l => l) ∧
              field 44 1 (yes m.saturated + 2 * yes m.uncalibrated) ∧
              field 45 2 (match m.score with | none => 65535 | some x => x)) ∧
        field 47 1 (match c.meas with | none => 0 | some m => if m.time + maxAge < now then 1 else 0) ∧
        signed 48 (slopeOf c.history) ∧ field 50 4 c.nextDue ∧
        field 54 1 (match c.hold with | none => 255 | some h => h.slot.val) ∧
        field 55 1 (match c.hold with | none => 0 | some h => (if h.carry then 2 else 1) + 128 * yes h.ending) ∧
        field 56 1 (yes c.removalPending) ∧ field 57 1 c.history.length ∧
        (∀ j : Fin 4, match c.history[j.val]? with
          | none => field (58 + 6 * j.val) 6 0
          | some p => field (58 + 6 * j.val) 4 p.time ∧ signed (62 + 6 * j.val) p.margin) ∧
        field 82 1 ((match c.listStatus with | .absent => 0 | .valid => 1 | .pending => 2) + 128 * yes c.listTruncated) ∧
        field 83 1 (match c.carrierList with | .none => 0 | .received => 1 | .missed => 2 | .truncated => 3) ∧
        field 84 1 c.services.length ∧
        ∀ (j : Nat) (k : ServiceKey), c.services[j]? = some k →
          field (85 + 4 * j) 2 k.origin ∧ field (87 + 4 * j) 2 k.number

/-- R171, R125: LIST_CARRIERS and LIST_SERVICES answer the summaries of the first eight entries present at the start index
or above, in the view or the live table, and then the next index to ask for, present when more entries lie above; a start
index above 95 is BAD_INDEX for LIST_CARRIERS. GET_SERVICE reads the view or the live table; an index without an entry is
BAD_INDEX; an entry is answered in full, the fields in the order of section 6.1 and every candidate in list order with
carrier, score, stale mark, eligible mark and lead count. The summaries hold the fields that R171 and R124 list. The widths
are the model's coding by R165 (log entry 7). R89: a change of an entry raises a CARRIER notice with its summary when one of
the fields that R89 lists differs. R124: an event of a service raises a SELECTION notice with its summary when state,
selection, target or constrained differ or a switch completed. Notice, watches, ranking unit or router stand in the model's
order (log entries 8 and 42). -/
def Obligations.ServiceAndListQueries : Prop :=
  (∀ (s : State) (start : Nat), start < 256 → Ready s →
    let now := (s.link.frozen.map (·.now)).getD s.clock.now
    let cs : Table Carrier := ((s.link.frozen.map (·.carriers)).getD s.carriers).filter fun e => decide (start ≤ e.1)
    let vs : Table Service := ((s.link.frozen.map (·.services)).getD s.services).filter fun e => decide (start ≤ e.1)
    let next (last : Option Nat) (more : Bool) : List Byte :=
      match last, more with
      | some i, true => [1#8, BitVec.ofNat 8 (i + 1)]
      | _, _ => [0#8, 0#8]
    (95 < start → exec (.listCarriers start) s = .next (formReply 0x21 .badIndex [] s)) ∧
      (start ≤ 95 →
        exec (.listCarriers start) s = .next (formReply 0x21 .ok
          (((cs.take 8).map fun e => carrierSummary now s.plan.committed.params.maxAge e.1 e.2).flatten
            ++ next ((cs.take 8).getLast?.map Prod.fst) (decide (8 < cs.length))) s)) ∧
        exec (.listServices start) s = .next (formReply 0x23 .ok
          (((vs.take 8).map fun e => serviceSummary e.1 e.2).flatten
            ++ next ((vs.take 8).getLast?.map Prod.fst) (decide (8 < vs.length))) s)) ∧
  (∀ (s : State) (i : Nat), i < 256 → Ready s →
    let services := (s.link.frozen.map (·.services)).getD s.services
    let yes (b : Bool) : Byte := if b then 1#8 else 0#8
    let optional (width : Nat) (x : Option Nat) : List Byte :=
      match x with | none => 0#8 :: le width 0 | some n => 1#8 :: le width n
    let candidate (c : Candidate) : List Byte :=
      le 1 c.carrier ++ le 2 (c.score.getD 65535) ++ [yes c.stale, yes c.eligible] ++ le 1 c.lead
    (tabGet services i = none → exec (.getService i) s = .next (formReply 0x22 .badIndex [] s)) ∧
      ∀ v, tabGet services i = some v →
        exec (.getService i) s = .next (formReply 0x22 .ok
          (le 2 v.key.origin ++ le 2 v.key.number ++ le 1 ((if v.bound then 1 else 0) + (if v.seen then 2 else 0))
            ++ [match v.state with | .unavailable => 0#8 | .served => 1#8 | .pending => 2#8 | .holding => 3#8]
            ++ optional 1 v.selection ++ optional 1 v.target
            ++ (match v.pendingKind with
                | none => [0#8, 0#8]
                | some .voluntary => [1#8, 0#8]
                | some .failover => [1#8, 1#8]
                | some .first => [1#8, 2#8])
            ++ [yes v.constrained] ++ le 4 v.settleUntil ++ optional 4 v.holdUntil ++ le 2 v.switchCount
            ++ optional 4 v.lastSwitch ++ le 1 v.cands.length ++ (v.cands.map candidate).flatten) s)) ∧
  (∀ (now maxAge i : Nat) (c : Carrier) (v : Service),
    let yes (b : Bool) : Byte := if b then 1#8 else 0#8
    let optional (width : Nat) (x : Option Nat) : List Byte :=
      match x with | none => 0#8 :: le width 0 | some n => 1#8 :: le width n
    let score : Option Nat := (v.cands.find? fun k => decide (some k.carrier = v.selection)).bind (·.score)
    carrierSummary now maxAge i c =
        le 1 i ++ [match c.input with | .a => 0#8 | .b => 1#8 | .c => 2#8 | .d => 3#8] ++ le 4 c.freq ++ le 1 c.profile.val
          ++ le 1 ((if c.planned then 1 else 0) + (if c.discovered then 2 else 0))
          ++ [match c.state with
              | .unsurveyed => 0#8 | .acquiring => 1#8 | .verified => 2#8 | .lost => 3#8 | .failed => 4#8 | .excluded => 5#8]
          ++ [match c.failCause with
              | none => 0#8 | some .noLock => 1#8 | some .noId => 2#8 | some .idMismatch => 3#8 | some .noServices => 4#8]
          ++ le 1 (match c.hold with | none => 255 | some h => h.slot.val)
          ++ le 1 (match c.hold with | none => 0 | some h => (if h.carry then 2 else 1) + (if h.ending then 128 else 0))
          ++ [yes c.removalPending] ++ le 2 (((c.meas.map (·.margin)).getD 0) % 65536).toNat
          ++ le 2 ((c.meas.bind (·.score)).getD 65535)
          ++ [match c.meas with | none => 0#8 | some m => if m.time + maxAge < now then 1#8 else 0#8] ++ le 4 c.nextDue
          ++ le 1 c.services.length ∧
      serviceSummary i v =
        le 1 i ++ le 2 v.key.origin ++ le 2 v.key.number
          ++ le 1 ((if v.bound then 1 else 0) + (if v.seen then 2 else 0))
          ++ [match v.state with | .unavailable => 0#8 | .served => 1#8 | .pending => 2#8 | .holding => 3#8]
          ++ optional 1 v.selection ++ le 2 (score.getD 65535) ++ optional 1 v.target ++ [yes v.constrained]
          ++ le 2 v.switchCount ++ optional 4 v.lastSwitch) ∧
  (∀ (s : State) (i : Nat) (b : Carrier) (f : Carrier → Carrier), s.carrier i = some b →
    let a := f b
    let t := s.setCarriers (tabPut s.carriers i a)
    let score (c : Carrier) : Option Nat := c.meas.bind (·.score)
    let ranked : Prop :=
      b.state ≠ a.state ∨ score b ≠ score a ∨ s.stale b ≠ s.stale a ∨ b.services ≠ a.services ∨ b.listStatus ≠ a.listStatus
    let noticed : Prop :=
      ranked ∨ b.failCause ≠ a.failCause ∨ b.planned ≠ a.planned ∨ b.discovered ≠ a.discovered ∨ b.lister ≠ a.lister ∨
        b.hold ≠ a.hold ∨ b.removalPending ≠ a.removalPending ∨ b.observed ≠ a.observed ∨
          b.listTruncated ≠ a.listTruncated ∨ b.carrierList ≠ a.carrierList ∨
            b.meas.map (·.mer) ≠ a.meas.map (·.mer) ∨ b.history ≠ a.history
    let notice : State :=
      offer .carrier i (carrierSummary s.clock.now s.plan.committed.params.maxAge i a ++ [0#8] ++ (0#8 :: le 4 0)) t
    let watched (u : State) : State := handPair .carrier i (some (carrierView b)) (some (carrierView a)) u
    (b = a → changeCarrier i f s = t) ∧
      (b ≠ a → ¬ noticed → changeCarrier i f s = watched t) ∧
        (noticed → ¬ ranked → changeCarrier i f s = watched notice) ∧
          (ranked → changeCarrier i f s = rankCarrier a.services b.services (watched notice))) ∧
  ∀ (s : State) (i : Nat) (b a : Service) (completed : Bool), s.service i = some a →
    let score (v : Service) : Option Nat := (v.cands.find? fun k => decide (some k.carrier = v.selection)).bind (·.score)
    let told : Prop := b.state ≠ a.state ∨ b.selection ≠ a.selection ∨ b.target ≠ a.target
    let noticed : Prop := completed = true ∨ told ∨ b.constrained ≠ a.constrained
    let watched : Prop :=
      b.state ≠ a.state ∨ b.selection ≠ a.selection ∨ b.constrained ≠ a.constrained ∨ score b ≠ score a
    ∃ u v : State,
      (noticed → u = offer .selection i (serviceSummary i a) s) ∧ (¬ noticed → u = s) ∧
        (watched → v = handPair .service i (some (serviceView b)) (some (serviceView a)) u) ∧ (¬ watched → v = u) ∧
          (told → reportService i b completed s = recomputeRooms v) ∧ (¬ told → reportService i b completed s = v)

/-- R142: GET_ROOM reads the view or the live records; a number above 47 is BAD_INDEX; a channel is answered with the
record of R127, less the switch timer, and its port. R141: a change of route state, feeding, feed slot, pending feed or
bindings raises a ROOM notice with the fields that R141 lists and hands the watch unit the pair of records; another change
raises none. The widths, and the coding of the pending feed as presence, slot and carrier, are the model's by R165 (log
entry 7). -/
def Obligations.GetRoomAnswersTheRecord : Prop :=
  let key (k : Option ServiceKey) : List Byte :=
    match k with | none => [0#8, 0#8, 0#8, 0#8, 0#8] | some k => 1#8 :: (le 2 k.origin ++ le 2 k.number)
  (∀ (s : State) (r : Nat), r < 256 → Ready s →
    let rooms := (s.link.frozen.map (·.rooms)).getD s.router.rooms
    (47 < r → exec (.getRoom r) s = .next (formReply 0x24 .badIndex [] s)) ∧
      ∀ h : r < 48,
        let x := rooms[r]
        exec (.getRoom r) s = .next (formReply 0x24 .ok
          (key x.primary ++ key x.fallback ++ le 1 x.priority
            ++ [match x.feeding with | .primary => 0#8 | .fallback => 1#8]
            ++ [match x.route with
                | .unbound => 0#8 | .slate => 1#8 | .live => 2#8 | .held => 3#8 | .switching => 4#8]
            ++ (match x.feedSlot with | none => [0#8, 0#8] | some i => 1#8 :: le 1 i.val)
            ++ (match x.pendingFeed with | none => [0#8, 0#8, 0#8] | some p => 1#8 :: (le 1 p.1.val ++ le 1 p.2))
            ++ (match x.requestTime with | none => 0#8 :: le 4 0 | some n => 1#8 :: le 4 n) ++ le 1 (r / 12)) s)) ∧
    ∀ (s : State) (r : Fin 48) (x : Room),
      let b := s.room r
      let t := s.setRouter { s.router with rooms := s.router.rooms.set r x }
      let noticed : Prop :=
        b.route ≠ x.route ∨ b.feeding ≠ x.feeding ∨ b.feedSlot ≠ x.feedSlot ∨ b.pendingFeed ≠ x.pendingFeed ∨
          b.primary ≠ x.primary ∨ b.fallback ≠ x.fallback
      (¬ noticed → changeRoom r x s = t) ∧
        (noticed → changeRoom r x s = handPair .room r.val (some (roomView b)) (some (roomView x))
          (offer .room r.val
            (le 1 r.val ++ le 1 (r.val / 12) ++ key x.primary ++ key x.fallback ++ le 1 x.priority
              ++ [match x.feeding with | .primary => 0#8 | .fallback => 1#8]
              ++ [match x.route with
                  | .unbound => 0#8 | .slate => 1#8 | .live => 2#8 | .held => 3#8 | .switching => 4#8]
              ++ (match x.feedSlot with | none => [0#8, 0#8] | some i => 1#8 :: le 1 i.val)
              ++ (match x.pendingFeed with | none => [0#8, 0#8, 0#8] | some p => 1#8 :: (le 1 p.1.val ++ le 1 p.2))) t))

/-- R47: GET_SLOT reads live state, whether or not a frozen view is held; a number above 7 is BAD_INDEX. The fields stand
in the order of the rule's table, the stage none outside TUNING, ACQUIRING and LOCKED, the queue position counted from 1
at the head. R46: a change of a slot's state, role or calibration status raises a SLOT notice whose content is that record
and hands the watch unit the pair of records; another change raises none. The widths, and the coding of the last calibration
as presence, input and time, are the model's by R165 (log entry 7). -/
def Obligations.GetSlotAnswersTheRecord : Prop :=
  let yes (b : Bool) : Byte := if b then 1#8 else 0#8
  let optional (width : Nat) (x : Option Nat) : List Byte :=
    match x with | none => 0#8 :: le width 0 | some n => 1#8 :: le width n
  let input (x : RfInput) : Nat := match x with | .a => 0 | .b => 1 | .c => 2 | .d => 3
  let record (queue : List (Fin 8)) (i : Fin 8) (x : Slot) : List Byte :=
          le 1 i.val
            ++ [match x.state with
                | .offline => 0#8 | .parked => 1#8 | .idle => 2#8 | .tuning => 3#8 | .acquiring => 4#8 | .locked => 5#8
                | .releasing => 6#8]
            ++ [match x.role with | .none => 0#8 | .survey => 1#8 | .carry => 2#8] ++ optional 1 x.carrier
            ++ optional 1 (x.input.map input) ++ [match x.power with | .off => 0#8 | .unparking => 1#8 | .on => 2#8]
            ++ optional 4 x.roleTime ++ le 1 x.retune ++ [yes x.adoptionPending, yes x.heldForRouter, yes x.offlinePending]
            ++ [if x.state = .tuning ∨ x.state = .acquiring ∨ x.state = .locked then
                  match x.chan.stage with
                  | .none => 0#8 | .lockWait => 1#8 | .idWait => 2#8 | .idCheck => 3#8 | .svcWait => 4#8 | .listWait => 5#8
                  | .recheckId => 6#8 | .recheckSvc => 7#8
                else 0#8]
            ++ [match x.calStatus with | .none => 0#8 | .waiting => 1#8 | .active => 2#8 | .done => 3#8]
            ++ optional 1 (if i ∈ queue then some (queue.idxOf i + 1) else none)
            ++ (match x.lastCal with
                | none => 0#8 :: le 5 0
                | some p => 1#8 :: (le 1 (input p.1) ++ le 4 p.2))
  (∀ (s : State) (i : Nat), i < 256 → Ready s →
    (7 < i → exec (.getSlot i) s = .next (formReply 0x25 .badIndex [] s)) ∧
      ∀ h : i < 8,
        exec (.getSlot i) s = .next (formReply 0x25 .ok (record s.reference.queue ⟨i, h⟩ (s.slot ⟨i, h⟩)) s)) ∧
    ∀ (s : State) (i : Fin 8) (f : Slot → Slot),
      let b := s.slot i
      let a := f b
      let t := s.setSlots (s.slots.set i a)
      let noticed : Prop := b.state ≠ a.state ∨ b.role ≠ a.role ∨ b.calStatus ≠ a.calStatus
      (¬ noticed → changeSlot i f s = t) ∧
        (noticed → changeSlot i f s =
          handPair .slot i.val (some (slotView b)) (some (slotView a))
            (offer .slot i.val (record s.reference.queue i a) t))

/-! ## Surveys and slots by command -/

/-- R93, R102: SURVEY_NOW is answered by the first case of the rule's table that applies, and reads the live table; the last
case appends the index at the tail of the urgent list, and a search follows (R96). SET_SURVEY_MODE: RUN in HOLD changes the
mode and a search follows; HOLD in RUN changes the mode alone; the mode in force is NO_CHANGE and any other value BAD_VALUE.
In HOLD a search that is due is not made. Of what settles after a command (log entry 9): R133: with every record claimed
nothing is given up, and with no search due and no set shrunk nothing at all happens; the first record in the order of
opening (log entry 43) that no feed, pending feed, selection or target claims is given up: waiting for a slot, its hold is
withdrawn and it is closed; otherwise its slot is released and it is closed. R92, R94 to R98: a turn of a search takes the
first listed carrier that may be surveyed, or else the one due first, and the first free slot, IDLE before PARKED; it tunes
that slot in role SURVEY, opens the survey record and takes the carrier off the urgent list. With no candidate or no free
slot the search ends. -/
def Obligations.SurveyNowAndModes : Prop :=
  (∀ (s : State) (i : Nat), i < 256 → Ready s →
    (95 < i ∨ tabGet s.carriers i = none → exec (.surveyNow i) s = .next (formReply 0x30 .badIndex [] s)) ∧
      ∀ c, i ≤ 95 → tabGet s.carriers i = some c →
        let carried : Prop := ∃ h, c.hold = some h ∧ h.carry = true
        (c.state = .excluded → exec (.surveyNow i) s = .next (formReply 0x30 .excluded [] s)) ∧
          (c.state ≠ .excluded → carried ∨ i ∈ s.sched.urgent →
            exec (.surveyNow i) s = .next (formReply 0x30 .ok [] s)) ∧
            (c.state ≠ .excluded → ¬ carried → i ∉ s.sched.urgent →
              (8 ≤ s.sched.urgent.length → exec (.surveyNow i) s = .next (formReply 0x30 .queueFull [] s)) ∧
                (s.sched.urgent.length < 8 →
                  let joined : Scheduler := { s.sched with urgent := s.sched.urgent ++ [i], searchDue := true }
                  exec (.surveyNow i) s = .next (formReply 0x30 .ok [] (settle (s.setSched joined)))))) ∧
    (∀ s : State, Ready s →
      (s.sched.mode = .hold →
        exec (.setSurveyMode 0) s =
            .next (formReply 0x31 .ok [] (settle (s.setSched { s.sched with mode := .run, searchDue := true }))) ∧
          exec (.setSurveyMode 1) s = .next (formReply 0x31 .noChange [] s)) ∧
        (s.sched.mode = .run →
          exec (.setSurveyMode 1) s = .next (formReply 0x31 .ok [] (s.setSched { s.sched with mode := .hold })) ∧
            exec (.setSurveyMode 0) s = .next (formReply 0x31 .noChange [] s)) ∧
          ∀ m, 2 ≤ m → m < 256 → exec (.setSurveyMode m) s = .next (formReply 0x31 .badValue [] s)) ∧
      (∀ s : State, s.sched.mode = .hold → runSearch s = s.setSched { s.sched with searchDue := false }) ∧
  (∀ s : State,
    let claimedBy (x : Nat) : Prop :=
      (∃ r i, (s.room r).feedSlot = some i ∧ (s.slot i).carrier = some x) ∨ (∃ r i, (s.room r).pendingFeed = some (i, x)) ∨
        ∃ e ∈ s.services, e.2.bound = true ∧ (e.2.selection = some x ∨ e.2.target = some x)
    let stands (q : CarryRecord) : Prop := q.phase = .adopting ∨ claimedBy q.carrier
    ((∀ q ∈ s.router.records, stands q) →
      checkClaims s = s ∧ (s.sched.setShrunk = false → s.sched.searchDue = false → settle s = s)) ∧
      ∀ before q after, s.router.records = before ++ q :: after → (∀ p ∈ before, stands p) → ¬ stands q →
        let r := s.slot q.slot
        let u := examineClaims 1 s
        let closed (v : State) : State :=
          v.setRouter { v.router with records := v.router.records.filter fun p => decide (p.carrier ≠ q.carrier) }
        (q.phase = .waitingSlot →
          (r.heldForRouter = false → u = closed s) ∧
            (r.heldForRouter = true → r.state = .idle →
              u = closed ((s.setSlots (s.slots.set q.slot { r with heldForRouter := false, parkTimer := some 5000 })).setSched
                { s.sched with searchDue := true })) ∧
              (r.heldForRouter = true → r.state ≠ .idle →
                u = closed (s.setSlots (s.slots.set q.slot { r with heldForRouter := false })))) ∧
          (q.phase ≠ .waitingSlot → r.role = .carry → r.carrier = some q.carrier →
            r.state = .tuning ∨ r.state = .acquiring ∨ r.state = .locked →
              ((u.slot q.slot).state = .releasing ∧ (u.slot q.slot).role = .none ∧ (u.slot q.slot).carrier = none ∧
                (u.slot q.slot).heldForRouter = false ∧ (u.slot q.slot).releaseTimer = some 20) ∧
                ∀ p, p ∈ u.router.records ↔ p ∈ s.router.records ∧ p.carrier ≠ q.carrier)) ∧
  ∀ (s : State) (n : Nat), CarrierLaw s.carriers →
    let may (c : Carrier) : Prop :=
      c.state ≠ .excluded ∧ c.state ≠ .acquiring ∧ c.hold = none ∧
        (s.plan.committed.inputs[inputCode c.input]).cls ≠ .disabled
    let urgent (x : Nat) : Prop := x ∈ s.sched.urgent ∧ ∃ c, s.carrier x = some c ∧ may c
    let due (x : Nat) (c : Carrier) : Prop := s.carrier x = some c ∧ may c ∧ c.nextDue ≤ s.clock.now
    let free (i : Fin 8) : Prop :=
      ((s.slot i).state = .idle ∨ (s.slot i).state = .parked) ∧ (s.slot i).role = .none ∧
        (s.slot i).heldForRouter = false
    ((∀ i, ¬ free i) ∨ ((∀ x, ¬ urgent x) ∧ ∀ x c, ¬ due x c) → searchLoop n [] [] s = s) ∧
      ∀ x c i, s.carrier x = some c → may c →
        (∃ before after, s.sched.urgent = before ++ x :: after ∧ ∀ y ∈ before, ¬ urgent y) ∨
          ((∀ y, ¬ urgent y) ∧ c.nextDue ≤ s.clock.now ∧
            ∀ y d, due y d → c.nextDue < d.nextDue ∨ (c.nextDue = d.nextDue ∧ x ≤ y)) →
          free i → ((s.slot i).state = .idle → ∀ k, k < i → free k → (s.slot k).state = .parked) →
            ((s.slot i).state = .parked → ∀ k, free k → (s.slot k).state = .parked ∧ i ≤ k) →
              (∀ k, (s.slot k).carrier ≠ some x) →
                let p := s.plan.committed.profiles[c.profile]
                let parked : Bool := decide ((s.slot i).state = .parked)
                ∃ u, searchLoop (n + 1) [] [] s = searchLoop n [] [] u ∧
                  ((u.slot i).state = .tuning ∧ (u.slot i).role = .survey ∧ (u.slot i).carrier = some x ∧
                    (u.slot i).input = some c.input ∧ (u.slot i).roleTime = some s.clock.now ∧
                      (u.slot i).power = (if parked then .unparking else .on) ∧
                        (u.slot i).unparkTimer = (if parked then some 50 else none) ∧
                          (u.slot i).lockTimeout = some p.lockTimeout ∧ (u.slot i).modulation = some p.modulation ∧
                            (u.slot i).codeRate = some p.codeRate ∧ (u.slot i).symRate = some c.symRate ∧
                              (u.slot i).meas.k = some p.k ∧
                                (u.slot i).chan.stage = (if parked then .none else .lockWait)) ∧
                    (∀ k, k ≠ i → u.slot k = s.slot k) ∧
                      u.sched = { s.sched with
                        urgent := s.sched.urgent.filter fun y => decide (y ≠ x),
                        surveys := s.sched.surveys.set i (some
                          { carrier := x, start := s.clock.now, wanted := s.plan.committed.params.windows, taken := 0,
                            phase := .acquiring, fromUrgent := s.sched.urgent.contains x, askedByTable := false }) } ∧
                        u.carrier x = some
                          { c with
                            state := .acquiring, stateBefore := some c.state,
                            hold := some { slot := i, carry := false, ending := false } } ∧
                          ∀ y, y ≠ x → u.carrier y = s.carrier y

/-- R87, R101, R105, R65: CLEAR_SURVEY is answered OK. Before what follows from it settles: every carried entry is as it was,
and keeps its lister while that one is in the table; every other planned entry whose removal is not pending is at the rule's
values, with its identity, origin, key, profile and addition time kept, and every other discovered-only one has left the
table, at once when unheld, and under a SURVEY hold when the survey the table ends has released its slot. A new pass is open
whose number is the next and whose outstanding set is R105's. R105, R106: an OPEN pass ends SUPERSEDED first; an event that
leaves the set of an OPEN pass empty ends it COMPLETE when it settles (log entry 9), the end time now and the three counts
from the table; each end raises a SURVEY_PASS notice with the pass record. The bytes of the notice and the numbers of the
outcomes are log entry 7; that a new pass makes an OPEN one SUPERSEDED though its set is empty is log entry 23; that a
carried entry loses a lister that leaves is log entry 49. -/
def Obligations.ClearSurveyClearsWhatIsNotCarried : Prop :=
  (∀ s : State, CarrierLaw s.carriers → Ready s →
    ∃ u : State, exec .clearSurvey s = .next (formReply 0x32 .ok [] (settle u)) ∧
      (u.sched.pass =
          { number := (s.sched.pass.number + 1) % 65536, start := s.clock.now, ended := none, outcome := .open,
            verified := 0, failed := 0, lost := 0 } ∧
        ∀ i, i ∈ u.sched.outstanding ↔ ∃ c, tabGet u.carriers i = some c ∧ c.state ≠ .excluded ∧
          c.removalPending = false ∧ (s.plan.committed.inputs[inputCode c.input]).cls ≠ .disabled) ∧
        ∀ i c, tabGet s.carriers i = some c →
          let surveyed : Prop := ∃ h q, c.hold = some h ∧ h.carry = false ∧ s.sched.surveys[h.slot] = some q ∧
            q.phase ≠ .ending ∧ (s.slot h.slot).role = .survey ∧ (s.slot h.slot).carrier = some i ∧
              ((s.slot h.slot).state = .tuning ∨ (s.slot h.slot).state = .acquiring ∨ (s.slot h.slot).state = .locked)
          let listerOf (l : Option Nat) : Prop := (c.lister = none → l = none) ∧
            ∀ y, c.lister = some y → (tabGet u.carriers y ≠ none → l = some y) ∧
              (tabGet s.carriers y ≠ none → tabGet u.carriers y = none → l = none)
          (c.hold = none ∨ surveyed → c.planned = false → c.removalPending = false → tabGet u.carriers i = none) ∧
            (c.hold = none ∨ surveyed → c.planned = true → c.removalPending = false →
              ∃ d, tabGet u.carriers i = some d ∧ d.meas = none ∧ d.history = [] ∧ d.failCount = 0 ∧ d.failCause = none ∧
                d.services = [] ∧ d.listStatus = .absent ∧ d.listTruncated = false ∧ d.carrierList = .none ∧
                  d.nextDue = s.clock.now ∧ d.stateBefore = none ∧ d.hold = none ∧ d.removalPending = false ∧
                    d.state = (if c.state = .excluded then .excluded else .unsurveyed) ∧ d.observed = c.observed ∧
                      d.planned = true ∧ d.discovered = c.discovered ∧ d.added = c.added ∧ d.input = c.input ∧
                        d.freq = c.freq ∧ d.symRate = c.symRate ∧ d.profile = c.profile ∧ d.expected = c.expected ∧
                          listerOf d.lister) ∧
              (surveyed → c.removalPending = false → ∀ h, c.hold = some h →
                (u.slot h.slot).state = .releasing ∧ u.sched.surveys[h.slot] = none) ∧
                ∀ h, c.hold = some h → h.carry = true → s.sched.surveys[h.slot] = none →
                  ∃ l, tabGet u.carriers i = some { c with lister := l } ∧ listerOf l) ∧
  ∀ s : State,
    let count (x : CarrierState) : Nat := (s.carriers.filter fun e => decide (e.2.state = x)).length
    let ended (o : PassOutcome) : PassRecord :=
      { s.sched.pass with
        ended := some s.clock.now, outcome := o, verified := count .verified, failed := count .failed, lost := count .lost }
    let noticed (o : PassOutcome) (code : Byte) (u : State) : State :=
      offer .surveyPass s.sched.pass.number
        (le 2 s.sched.pass.number ++ le 4 s.sched.pass.start ++ (1#8 :: le 4 s.clock.now) ++ [code]
          ++ le 1 (count .verified) ++ le 1 (count .failed) ++ le 1 (count .lost)) (u.setSched { s.sched with pass := ended o })
    let emptied : Prop := s.sched.setShrunk = true ∧ s.sched.outstanding = [] ∧ s.sched.pass.outcome = .open
    settle s = settle (checkPassEnd s) ∧
      (emptied → checkPassEnd s = (noticed .complete 1#8 s).setSched
        { s.sched with pass := ended .complete, setShrunk := false }) ∧
        (¬ emptied → checkPassEnd s = s.setSched { s.sched with setShrunk := false }) ∧
          ∃ u : State, (s.sched.pass.outcome = .open → u = noticed .superseded 2#8 s) ∧
            (s.sched.pass.outcome ≠ .open → u = s) ∧
              (startPass s).link = u.link ∧ (startPass s).sched.pass.number = (s.sched.pass.number + 1) % 65536

/-- R35, R36, R30, R31: SLOT_OFFLINE and SLOT_ONLINE. A slot in PARKED or IDLE goes OFFLINE with the rule's fields cleared;
one in TUNING, ACQUIRING or LOCKED enters RELEASING with offline pending; one in RELEASING has offline pending set; an
OFFLINE one is answered NO_CHANGE. ONLINE takes an OFFLINE slot to PARKED. Slots that only stand beside are untouched; a
number above 7 is BAD_INDEX (of SLOT_ONLINE the model's choice, log entry 48). R73, R76, R80: the entry that the slot holds
in phase ACTIVE loses the hold; after a release in LOCKED, and after an abort of a carry, its next-due is now and the
re-survey interval of R21; an abort gives an ACQUIRING entry the state it had before the acquisition; nothing else of it
changes, nor of another entry. The survey record of the slot (R100) or the carry records of the carrier (R140) are closed. -/
def Obligations.SlotsGoOfflineAndOnline : Prop :=
  ∀ s : State, Ready s →
    (∀ n : Nat, 8 ≤ n → n < 256 →
      exec (.slotOffline n) s = .next (formReply 0x33 .badIndex [] s) ∧
        exec (.slotOnline n) s = .next (formReply 0x34 .badIndex [] s)) ∧
      ∀ i : Fin 8,
        let r := s.slot i
        let offline (p : State → Prop) : Prop :=
          ∃ u, exec (.slotOffline i.val) s = .next (formReply 0x33 .ok [] (settle u)) ∧ p u
        let others (u : State) : Prop := (∀ j, j ≠ i → u.slot j = s.slot j) ∧ u.carriers = s.carriers
        (r.state = .offline → exec (.slotOffline i.val) s = .next (formReply 0x33 .noChange [] s)) ∧
          (r.state = .parked ∨ r.state = .idle →
            offline fun u => others u ∧ u.slot i =
              { r with
                state := .offline, role := .none, carrier := none, roleTime := none, input := none, power := .off,
                parkTimer := none, heldForRouter := false, lastCal := none, calStatus := .none }) ∧
            (r.state = .tuning ∨ r.state = .acquiring ∨ r.state = .locked →
              offline fun u => (u.slot i).state = .releasing ∧ (u.slot i).offlinePending = true ∧
                (u.slot i).role = .none ∧ (u.slot i).carrier = none ∧ (u.slot i).roleTime = none ∧
                  (u.slot i).heldForRouter = false ∧ (u.slot i).releaseTimer = some 20 ∧ (u.slot i).meas.active = false ∧
                    (u.slot i).lastCal = r.lastCal ∧ (u.slot i).chan.stage = .none ∧
                      ∀ x c, ActivelyHolds s i x c →
                        let q := s.plan.committed.params
                        let due := timeAfter s.clock.now
                          (match c.meas with
                            | none => q.minInterval
                            | some m => intervalOf q m.margin (fallOf c.history))
                        let carried : Bool := (c.hold.map (·.carry)).getD false
                        (r.state = .locked → u.carrier x = some { c with hold := none, nextDue := due }) ∧
                          (r.state ≠ .locked → u.carrier x = some
                            { c with
                              hold := none, nextDue := if carried then due else c.nextDue,
                              state := if c.state = .acquiring then c.stateBefore.getD .unsurveyed else c.state,
                              stateBefore := if c.state = .acquiring then none else c.stateBefore }) ∧
                            (∀ y, y ≠ x → u.carrier y = s.carrier y) ∧
                              (r.role = .survey → u.sched.surveys[i] = none) ∧
                                (r.role = .carry → ∀ p ∈ u.router.records, p.carrier ≠ x)) ∧
              (r.state = .releasing →
                offline fun u => others u ∧ u.slot i = { r with offlinePending := true, heldForRouter := false }) ∧
                (r.state = .offline →
                  ∃ u, exec (.slotOnline i.val) s = .next (formReply 0x34 .ok [] (settle u)) ∧ others u ∧ u.slot i =
                    { r with state := .parked, power := .off, role := .none, calStatus := .none, lastCal := none }) ∧
                  (r.state ≠ .offline → exec (.slotOnline i.val) s = .next (formReply 0x34 .noChange [] s))

/-! ## The plan -/

/-- R145: whatever an edit command says, its effect is on the staged plan alone: refused or NO_CHANGE it changes nothing;
otherwise the staged plan, first copied from the committed one where staging is closed, takes the edit. -/
def Obligations.EditsTouchOnlyTheStagedPlan : Prop :=
  ∀ (c : HostCommand) (s : State), c.wf = true → Ready s → 0x40 ≤ (fieldsOf c).1 → (fieldsOf c).1 ≤ 0x47 →
    (∃ code, code ≠ .ok ∧ code ≠ .adjusted ∧ exec (rowOf c) s = .next (formReply (fieldsOf c).1 code [] s)) ∨
      ∃ code plan, (code = .ok ∨ code = .adjusted) ∧
        exec (rowOf c) s =
          .next (formReply (fieldsOf c).1 code [] (s.setPlan { s.plan with staged := some plan }))

/-- R144, R146, R147: SET_INPUT and SET_PROFILE against the staged plan, or the committed one where staging is closed: the
refusals in their order, the clamps and the default windows. A yes-or-no byte above 1 means what a free value says (log
entry 2). -/
def Obligations.InputAndProfileEdits : Prop :=
  (∀ (s : State) (e : InputEdit), e.wf = true → Ready s →
    let base := s.plan.staged.getD s.plan.committed
    let refused (code : ReplyCode) : Prop := exec (.setInput e) s = .next (formReply 0x40 code [] s)
    (3 < e.input → refused .badIndex) ∧ (e.input ≤ 3 → 3 < e.cls → refused .badValue) ∧
      ∀ x cls, inputOf e.input = some x → classOf e.cls = some cls →
        let low : Nat := match cls with | .terrestrial => 174000 | .satellite => 950000 | .cable => 108000 | .disabled => 1
        let high : Nat := match cls with | .terrestrial => 862000 | .satellite => 2150000 | .cable => 862000 | .disabled => 0
        let window : Nat × Nat :=
          match cls with | .terrestrial => (450, 800) | .satellite => (500, 850) | .cable => (500, 800) | .disabled => (0, 1200)
        let given := flagOf e.windowPresent
        let bias : Int := max (-50) (min 50 e.bias)
        let clamped : Bool := decide (bias ≠ e.bias) || (given && decide (1200 < e.winMin ∨ 1200 < e.winMax))
        let record : InputCfg :=
          { cls := cls, bias := bias, winMin := if given then min e.winMin 1200 else window.1,
            winMax := if given then min e.winMax 1200 else window.2, discovery := flagOf e.discovery }
        ((∃ q ∈ base.carriers, q.input = x ∧ ¬ (low ≤ q.freq ∧ q.freq ≤ high)) → refused .outOfBand) ∧
          ((∀ q ∈ base.carriers, q.input = x → low ≤ q.freq ∧ q.freq ≤ high) →
            exec (.setInput e) s = .next (formReply 0x40 (if clamped then .adjusted else .ok) []
              (s.setPlan { s.plan with staged := some { base with inputs := base.inputs.set (inputCode x) record } })))) ∧
    ∀ (s : State) (e : ProfileEdit), e.wf = true → Ready s →
      let base := s.plan.staged.getD s.plan.committed
      let refused (code : ReplyCode) : Prop := exec (.setProfile e) s = .next (formReply 0x41 code [] s)
      (7 < e.profile → refused .badIndex) ∧ (e.profile ≤ 7 → 6 < e.modulation ∨ 9 < e.codeRate → refused .badValue) ∧
        ∀ (h : e.profile < 8) (m : Modulation) (r : CodeRate), modulationOf e.modulation = some m → codeRateOf e.codeRate = some r →
          let profile : Profile :=
            { modulation := m, codeRate := r, reqMer := min 350 e.reqMer,
              lockTimeout := max 100 (min 5000 e.lockTimeout), k := max 10 (min 16 e.k) }
          let exact : Bool :=
            decide (profile.reqMer = e.reqMer ∧ profile.lockTimeout = e.lockTimeout ∧ profile.k = e.k)
          exec (.setProfile e) s = .next (formReply 0x41 (if exact then .ok else .adjusted) []
            (s.setPlan { s.plan with staged := some { base with profiles := base.profiles.set e.profile profile h } }))

/-- R148, R149: ADD_CARRIER appends a planned carrier, its symbol rate and profile number clamped; DROP_CARRIER by key
removes the record; SET_CARRIER by key replaces its fields in place. The refusals stand in the order of the rules. An index
names the key of the live entry there (form 1). A yes-or-no byte above 1 means what a free value says (log entry 2): those
of the identity and of the exclusion, and a form above 1, of which the statement says nothing. -/
def Obligations.PlannedCarrierEdits : Prop :=
  ∀ (s : State) (f : CarrierFields), f.wf = true → Ready s →
    let base := s.plan.staged.getD s.plan.committed
    let staged (carriers : List Planned) : State := s.setPlan { s.plan with staged := some { base with carriers := carriers } }
    let code : ReplyCode := if f.symRate < 1000 ∨ 45000 < f.symRate ∨ 7 < f.profile then .adjusted else .ok
    let record (x : RfInput) (freq : Nat) : Planned :=
      { input := x, freq := freq, symRate := max 1000 (min 45000 f.symRate), profile := clampProfile f.profile,
        expected := if flagOf f.idPresent then some { origin := f.origin, transport := f.transport } else none,
        excluded := flagOf f.excluded }
    let named (x : RfInput) (freq : Nat) : Prop := ∃ q ∈ base.carriers, q.input = x ∧ q.freq = freq
    (∀ input freq, input < 256 → freq < 4294967296 →
      let answered (c : ReplyCode) (t : State) : Prop := exec (.addCarrier input freq f) s = .next (formReply 0x42 c [] t)
      (3 < input → answered .badIndex s) ∧
        ∀ x, inputOf input = some x →
          (inBand (base.inputs[inputCode x]).cls freq = false → answered .outOfBand s) ∧
            (inBand (base.inputs[inputCode x]).cls freq = true →
              (named x freq → answered .duplicate s) ∧
                (¬ named x freq → 96 ≤ base.carriers.length → answered .tableFull s) ∧
                  (¬ named x freq → base.carriers.length < 96 →
                    answered code (staged (base.carriers ++ [record x freq]))))) ∧
      ∀ n : CarrierName, n.wf = true →
        let drop (c : ReplyCode) (t : State) : Prop := exec (.dropCarrier n) s = .next (formReply 0x43 c [] t)
        let set (c : ReplyCode) (t : State) : Prop := exec (.setCarrier n f) s = .next (formReply 0x44 c [] t)
        ((n.form = 0 ∧ 3 < n.target) ∨ (n.form = 1 ∧ (95 < n.target ∨ tabGet s.carriers n.target = none)) →
          drop .badIndex s ∧ set .badIndex s) ∧
          ∀ x freq,
            (n.form = 0 ∧ inputOf n.target = some x ∧ freq = n.freq) ∨
              (n.form = 1 ∧ n.target ≤ 95 ∧ ∃ c, tabGet s.carriers n.target = some c ∧ c.input = x ∧ c.freq = freq) →
                (named x freq →
                  drop .ok (staged (base.carriers.filter fun q => !(decide (q.input = x) && decide (q.freq = freq)))) ∧
                    set code (staged (base.carriers.map fun q =>
                      if q.input = x ∧ q.freq = freq then record x freq else q))) ∧
                  (¬ named x freq → drop .noChange s ∧ set .badIndex s)

/-- R150, R151: BIND_ROOM and UNBIND_ROOM with their refusals and the clamp of the priority. SET_PARAMS: BAD_INDEX above 9; a
value outside the parameter's range is clamped; the minimum interval is kept at or below the maximum age by lowering it;
every clamp and lowering gives ADJUSTED. A presence byte of a key above 1 means what a free value says (log entry 2). -/
def Obligations.BindingAndParameterEdits : Prop :=
  (∀ s : State, Ready s →
    let base := s.plan.staged.getD s.plan.committed
    let staged (r : Nat) (h : r < 48) (b : Binding) : State :=
      s.setPlan { s.plan with staged := some { base with bindings := base.bindings.set r b h } }
    let key (present origin number : Nat) : Option ServiceKey :=
      if flagOf present then some { origin := origin, number := number } else none
    (∀ e : BindEdit, e.wf = true →
      let primary := key e.primaryPresent e.primaryOrigin e.primaryNumber
      let fallback := key e.fallbackPresent e.fallbackOrigin e.fallbackNumber
      (47 < e.room → exec (.bindRoom e) s = .next (formReply 0x45 .badIndex [] s)) ∧
        (e.room ≤ 47 → primary = fallback → exec (.bindRoom e) s = .next (formReply 0x45 .badValue [] s)) ∧
          ∀ h : e.room < 48, primary ≠ fallback →
            exec (.bindRoom e) s = .next (formReply 0x45 (if 3 < e.priority then .adjusted else .ok) []
              (staged e.room h { primary := primary, fallback := fallback, priority := min 3 e.priority }))) ∧
      ∀ r : Nat, r < 256 →
        (47 < r → exec (.unbindRoom r) s = .next (formReply 0x46 .badIndex [] s)) ∧
          ∀ h : r < 48,
            ((base.bindings[r]).primary = none ∧ (base.bindings[r]).fallback = none →
              exec (.unbindRoom r) s = .next (formReply 0x46 .noChange [] s)) ∧
              (¬ ((base.bindings[r]).primary = none ∧ (base.bindings[r]).fallback = none) →
                exec (.unbindRoom r) s =
                  .next (formReply 0x46 .ok [] (staged r h { primary := none, fallback := none, priority := 3 })))) ∧
    ∀ (s : State) (n v : Nat), n < 256 → v < 65536 → Ready s →
      let base := s.plan.staged.getD s.plan.committed
      let q := base.params
      let answered (exact : Bool) (p : Params) : Prop :=
        exec (.setParams n v) s = .next (formReply 0x47 (if exact then .ok else .adjusted) []
          (s.setPlan { s.plan with staged := some { base with params := p } }))
      let within (low high : Nat) : Nat := max low (min high v)
      (9 < n → exec (.setParams n v) s = .next (formReply 0x47 .badIndex [] s)) ∧
        (n = 0 → answered (decide (v ≤ 200)) { q with hysteresis := within 0 200 }) ∧
        (n = 1 → answered (decide (1 ≤ v ∧ v ≤ 4)) { q with leadCount := within 1 4 }) ∧
        (n = 2 → answered (decide (v ≤ 600)) { q with settle := within 0 600 }) ∧
        (n = 3 → answered (decide (v ≤ 1000)) { q with floor := within 0 1000 }) ∧
        (n = 4 → answered (decide (v ≤ 200)) { q with guardMargin := within 0 200 }) ∧
        (n = 5 → answered (decide (60 ≤ v ∧ v ≤ 3600 ∧ q.minInterval ≤ within 60 3600))
          { q with maxAge := within 60 3600, minInterval := min q.minInterval (within 60 3600) }) ∧
        (n = 6 → answered (decide (5 ≤ v ∧ v ≤ 300 ∧ within 5 300 ≤ q.maxAge))
          { q with minInterval := min (within 5 300) q.maxAge }) ∧
        (n = 7 → answered (decide (v ≤ 120)) { q with holdLimit := within 0 120 }) ∧
        (n = 8 → answered (decide (v ≤ 2)) { q with reserve := within 0 2 }) ∧
        (n = 9 → answered (decide (1 ≤ v ∧ v ≤ 4)) { q with windows := within 1 4 })

/-- R152, R153, R154: a commit with staging closed is NO_STAGING; one of a staged plan equal to the committed plan closes
staging and is NO_CHANGE; one that does not fit the carrier table is CAPACITY and changes nothing. DISCARD_PLAN closes
staging, and with none open is NO_CHANGE. A commit that fits becomes the committed plan, staging closes, the commit number
goes up by one, the record of the commit holds the second count and the counts of the table's change (`commitTable`, see
CapacityAtCommit), the reply carries number and four counts, and the PLAN notice the record. Before the rest settles: the
carrier table is the changed one, but for the surveys the table ends (R101): their slots are released, and their entries
lose the hold or leave. R105, R106: with an addition a new pass starts; without one the pass goes on, the entries newly
EXCLUDED or pending are out of its set and those un-excluded in it, the joining last (log entry 45). R109: the BOUND keys
are those the bindings name, each with an entry. R127: every room channel has its binding. That the PLAN notice is the last
offered before the rest settles is log entry 8, and its bytes are log entry 7. -/
def Obligations.CommitAndDiscard : Prop :=
  (∀ s : State, Ready s →
    (s.plan.staged = none →
      exec .commitPlan s = .next (formReply 0x48 .noStaging [] s) ∧
        exec .discardPlan s = .next (formReply 0x49 .noChange [] s)) ∧
      ∀ p, s.plan.staged = some p →
        exec .discardPlan s = .next (formReply 0x49 .ok [] (s.setPlan { s.plan with staged := none })) ∧
          (p = s.plan.committed →
            exec .commitPlan s = .next (formReply 0x48 .noChange [] (s.setPlan { s.plan with staged := none }))) ∧
            (p ≠ s.plan.committed → evictions p s.carriers = none →
              exec .commitPlan s = .next (formReply 0x48 .capacity [] s))) ∧
  (∀ (s : State) (p : Plan) (ev : List Nat), Ready s → s.plan.staged = some p → p ≠ s.plan.committed →
    evictions p s.carriers = some ev → CarrierLaw s.carriers → ServiceLaw s.services →
      let r := commitTable s p ev
      let newly (q : Carrier → Carrier → Bool) (i : Nat) : Prop :=
        ∃ b a, tabGet s.carriers i = some b ∧ tabGet r.table i = some a ∧ q b a = true
      let pending (b a : Carrier) : Bool := !b.removalPending && a.removalPending
      let record : CommitRecord :=
        { number := (s.plan.last.number + 1) % 65536, time := s.clock.now, added := r.added.length,
          removed := r.removed.length, evicted := ev.length,
          removalPending := (s.carriers.filter fun e =>
            match tabGet r.table e.1 with | none => false | some a => pending e.2 a).length,
          passStarted := !r.added.isEmpty }
      let counts : List Byte :=
        le 1 record.added ++ le 1 record.removed ++ le 1 record.evicted ++ le 1 record.removalPending
      let named (k : ServiceKey) : Prop :=
        ∃ n : Fin 48, (p.bindings[n]).primary = some k ∨ (p.bindings[n]).fallback = some k
      ∃ u v : State,
        (exec .commitPlan s = .next (formReply 0x48 .ok (le 2 record.number ++ counts) (settle u)) ∧
          u.plan = { committed := p, staged := none, last := record } ∧ (settle u).plan = u.plan ∧
            u.link = (offer .plan 0
              (le 2 record.number ++ le 4 record.time ++ counts ++ [if r.added = [] then 0#8 else 1#8]) v).link ∧
              u.sched.searchDue = true) ∧
        ((r.added ≠ [] →
            u.sched.pass =
              { number := (s.sched.pass.number + 1) % 65536, start := s.clock.now, ended := none, outcome := .open,
                verified := 0, failed := 0, lost := 0 } ∧
              ∀ i, i ∈ u.sched.outstanding ↔ ∃ c, tabGet u.carriers i = some c ∧ c.state ≠ .excluded ∧
                c.removalPending = false ∧ (p.inputs[inputCode c.input]).cls ≠ .disabled) ∧
          (r.added = [] → u.sched.pass = s.sched.pass ∧
            (s.sched.pass.outcome = .open → ∀ i,
              (newly pending i ∨ newly (fun b a => decide (b.state ≠ .excluded ∧ a.state = .excluded)) i →
                i ∉ u.sched.outstanding) ∧
                (newly (fun b a => decide (b.state = .excluded ∧ a.state ≠ .excluded)) i → i ∈ u.sched.outstanding)))) ∧
          (∀ i, tabGet r.table i = none → tabGet u.carriers i = none) ∧
            (∀ i a, tabGet r.table i = some a →
              let listerOf (l : Option Nat) : Prop := (a.lister = none → l = none) ∧
                ∀ y, a.lister = some y → (tabGet u.carriers y ≠ none → l = some y) ∧
                  (tabGet r.table y ≠ none → tabGet u.carriers y = none → l = none)
              let alone (h : Hold) : Prop :=
                ∀ y b g, tabGet r.table y = some b → b.hold = some g → g.slot = h.slot → y = i
              let ended (h : Hold) : Prop := h.carry = false ∧ h.ending = true ∧
                (∃ q, s.sched.surveys[h.slot] = some q ∧ q.phase ≠ .ending) ∧ (s.slot h.slot).role = .survey ∧
                  (s.slot h.slot).carrier = some i ∧
                    ((s.slot h.slot).state = .tuning ∨ (s.slot h.slot).state = .acquiring ∨
                      (s.slot h.slot).state = .locked)
              (a.hold = none → ∃ l, tabGet u.carriers i = some { a with lister := l } ∧ listerOf l) ∧
                ∀ h, a.hold = some h → alone h →
                  (h.carry = true ∨ h.ending = false →
                    ∃ l, tabGet u.carriers i = some { a with lister := l } ∧ listerOf l) ∧
                    (ended h → (u.slot h.slot).state = .releasing ∧ u.sched.surveys[h.slot] = none ∧
                      (a.removalPending = true → tabGet u.carriers i = none) ∧
                        (a.removalPending = false →
                          ∃ l, tabGet u.carriers i = some { a with hold := none, lister := l } ∧ listerOf l))) ∧
              (∀ i w, u.service i = some w → (w.bound = true ↔ named w.key)) ∧
                (∀ k, named k → ∃ i w, u.service i = some w ∧ w.key = k) ∧
                  ∀ n : Fin 48, (u.room n).primary = (p.bindings[n]).primary ∧
                    (u.room n).fallback = (p.bindings[n]).fallback ∧ (u.room n).priority = (p.bindings[n]).priority)

/-- R86: the capacity check of a commit: the count of the planned carriers, the entries left discovered-only and the
entries left pending; what it is above 96 is evicted of the unheld discovered-only entries, oldest addition first and then
lowest index; the commit does not fit exactly when there are too few of them. What a commit that fits makes of the carrier
table: R84, R85, R86: the evicted entries and the unheld planned-only ones the plan no longer names leave; a held one is
marked removal pending. R72, R85: an entry the plan names takes its values, and a pending removal is cancelled; an entry of
origin both that it no longer names loses PLANNED and its expected identity. R84: exclusion and un-exclusion. R81: the
entries a changed profile or input affects are rescored. R83: next-due is lowered to the new maximum age. R65: a lister that
leaves is made absent. R71, R72: each carrier without an entry is added at the lowest free place. That a rescored entry that
is not VERIFIED has its score absent is log entry 27, and that a cancelled removal leaves the entry's state as it is log
entry 44. -/
def Obligations.CapacityAtCommit : Prop :=
  (∀ (p : Plan) (t : Table Carrier), CarrierLaw t →
    let named (c : Carrier) : Prop := ∃ q ∈ p.carriers, q.input = c.input ∧ q.freq = c.freq
    let discoveredOnly (e : Nat × Carrier) : Prop := ¬ named e.2 ∧ e.2.removalPending = false ∧ e.2.discovered = true
    let pending (e : Nat × Carrier) : Prop :=
      ¬ named e.2 ∧ (e.2.removalPending = true ∨ (e.2.discovered = false ∧ e.2.hold ≠ none))
    ∃ counted evictable : Table Carrier,
      counted.Sublist t ∧ (∀ e ∈ t, e ∈ counted ↔ discoveredOnly e ∨ pending e) ∧
        (∀ e, e ∈ evictable ↔ e ∈ t ∧ discoveredOnly e ∧ e.2.hold = none) ∧
          evictable.Pairwise (fun a b => a.2.added < b.2.added ∨ (a.2.added = b.2.added ∧ a.1 < b.1)) ∧
            let excess := p.carriers.length + counted.length - 96
            (excess ≤ evictable.length → evictions p t = some ((evictable.take excess).map Prod.fst)) ∧
              (evictable.length < excess → evictions p t = none)) ∧
  ∀ (s : State) (p : Plan) (ev : List Nat), CarrierLaw s.carriers → evictions p s.carriers = some ev →
    p.carriers.Pairwise (fun a b => a.input ≠ b.input ∨ a.freq ≠ b.freq) →
      let old := s.plan.committed
      let r := commitTable s p ev
      let names (q : Planned) (c : Carrier) : Prop := q ∈ p.carriers ∧ q.input = c.input ∧ q.freq = c.freq
      let unnamed (c : Carrier) : Prop := ∀ q, ¬ names q c
      let gone (i : Nat) (c : Carrier) : Prop :=
        i ∈ ev ∨ (unnamed c ∧ c.removalPending = false ∧ c.discovered = false ∧ c.hold = none)
      (∀ i, i ∈ r.removed ↔ ∃ c, tabGet s.carriers i = some c ∧ gone i c) ∧
        (∀ i c a, tabGet s.carriers i = some c → gone i c → tabGet r.table i = some a → i ∈ r.added) ∧
        (∀ i c, tabGet s.carriers i = some c → ¬ gone i c →
          ∃ a, tabGet r.table i = some a ∧ i ∉ r.added ∧
            (a.input = c.input ∧ a.freq = c.freq ∧ a.added = c.added ∧ a.discovered = c.discovered ∧
              a.observed = c.observed ∧ a.failCause = c.failCause ∧ a.failCount = c.failCount ∧
                a.carrierList = c.carrierList) ∧
            ((c.lister = none → a.lister = none) ∧
              ∀ y, c.lister = some y → (y ∈ r.removed → a.lister = none) ∧ (y ∉ r.removed → a.lister = some y)) ∧
            (∀ q, names q c →
              (a.planned = true ∧ a.symRate = q.symRate ∧ a.profile = q.profile ∧ a.expected = q.expected ∧
                a.removalPending = false) ∧
              (q.excluded = true → a.state = .excluded) ∧
              (q.excluded = false → c.state ≠ .excluded → a.state = c.state ∧ a.stateBefore = c.stateBefore) ∧
              (q.excluded = false → c.state = .excluded →
                a.state = .unsurveyed ∨ (c.hold ≠ none ∧ a.state = .acquiring)) ∧
              ∀ h, c.hold = some h → ∃ e, a.hold = some { h with ending := e } ∧
                (q.excluded = true → c.state ≠ .excluded → h.carry = false → e = true) ∧
                  (q.excluded = false ∨ c.state = .excluded ∨ h.carry = true → e = (h.ending && !c.removalPending))) ∧
            (unnamed c → a.symRate = c.symRate ∧ a.profile = c.profile ∧
              (c.removalPending = true →
                a.removalPending = true ∧ a.planned = c.planned ∧ a.hold = c.hold ∧ a.state = c.state) ∧
              (c.removalPending = false → c.discovered = true →
                a.removalPending = false ∧ a.planned = false ∧ a.hold = c.hold ∧
                  a.expected = (if c.planned then none else c.expected) ∧
                    (c.state ≠ .excluded → a.state = c.state) ∧
                      (c.state = .excluded → c.planned = true →
                        a.state = .unsurveyed ∨ (c.hold ≠ none ∧ a.state = .acquiring))) ∧
              (c.removalPending = false → c.discovered = false →
                a.removalPending = true ∧ a.planned = false ∧ a.state = c.state ∧ a.services = [] ∧
                  a.listStatus = .absent ∧ a.listTruncated = false ∧
                    ∀ h, c.hold = some h → a.hold = some { h with ending := true })) ∧
            (¬ (unnamed c ∧ c.removalPending = false ∧ c.discovered = false) →
              a.services = c.services ∧ a.listStatus = c.listStatus ∧ a.listTruncated = c.listTruncated) ∧
            (c.hold = none → a.hold = none) ∧
            let due := if c.state = .excluded ∧ a.state ≠ .excluded then s.clock.now else c.nextDue
            let here := inputCode c.input
            let affected : Prop := c.meas ≠ none ∧
              ((old.profiles[a.profile]).reqMer ≠ (p.profiles[a.profile]).reqMer ∨ c.profile ≠ a.profile ∨
                (old.inputs[here]).bias ≠ (p.inputs[here]).bias ∨ (old.inputs[here]).winMin ≠ (p.inputs[here]).winMin ∨
                  (old.inputs[here]).winMax ≠ (p.inputs[here]).winMax)
            let shift : Int := ((old.profiles[c.profile]).reqMer : Int) - (p.profiles[a.profile]).reqMer
            (a.nextDue =
              if p.params.maxAge < old.params.maxAge then min due (s.clock.now + p.params.maxAge) else due) ∧
            (i ∈ r.rescored ↔ affected) ∧
              (affected →
                a.history = c.history.map (fun n => { n with margin := n.margin + shift }) ∧
                  ∀ m, c.meas = some m → a.meas = some
                    { m with
                      margin := m.margin + shift,
                      score := if a.state = .verified then
                        some (scoreOf (m.margin + shift) m.u m.level a.history p.inputs[here]) else none }) ∧
                (¬ affected → a.history = c.history ∧
                  (c.state ≠ .excluded → a.state = .excluded → a.meas = c.meas.map fun m => { m with score := none }) ∧
                    (c.state = .excluded ∨ a.state ≠ .excluded → a.meas = c.meas))) ∧
        (∀ q ∈ p.carriers, (∀ i c, tabGet s.carriers i = some c → ¬ names q c) →
          ∃ i ∈ r.added, tabGet r.table i = some
            { input := q.input, freq := q.freq, symRate := q.symRate, profile := q.profile, planned := true,
              discovered := false, lister := none, added := s.clock.now, expected := q.expected, observed := none,
              state := if q.excluded then .excluded else .unsurveyed, stateBefore := none, failCause := none,
              failCount := 0, meas := none, history := [], nextDue := s.clock.now, hold := none, removalPending := false,
              services := [], listStatus := .absent, listTruncated := false, carrierList := .none }) ∧
          ∀ i ∈ r.added, (∀ j, j < i → tabGet r.table j ≠ none) ∧
            ∃ q ∈ p.carriers, (∀ j c, tabGet s.carriers j = some c → ¬ names q c) ∧
              ∃ a, tabGet r.table i = some a ∧ a.input = q.input ∧ a.freq = q.freq

/-! ## Watches -/

/-- R155: SET_WATCH with its refusals in order, the clamp of the thresholds, and the whole entry replaced: not latched, no
last subject, fire count 0. In LEVEL mode ALERT then stands while an alert watch is latched; in PULSE mode a pulse ends when
the entry replaced was an alert watch and latched (R161). The subject 0xFFFF means ANY, and a yes-or-no byte above 1 means
what a free value says (log entries 2 and 7). -/
def Obligations.SetWatchReplacesTheEntry : Prop :=
  ∀ (s : State) (e : WatchEdit), e.wf = true → Ready s →
    let answered (c : ReplyCode) (t : State) : Prop := exec (.setWatch e) s = .next (formReply 0x50 c [] t)
    let inRange : Prop :=
      e.subject = 0xFFFF ∨ (e.kind = 0 → e.subject ≤ 95) ∧ (e.kind = 1 → e.subject ≤ 255) ∧ (e.kind = 2 → e.subject ≤ 47) ∧
        (e.kind = 3 → e.subject ≤ 7)
    let allowed : Prop :=
      (flagOf e.statePresent = true → e.kind ≠ 2) ∧ (flagOf e.marginPresent = true → e.kind = 0) ∧
        (flagOf e.scorePresent = true → e.kind = 0 ∨ e.kind = 1) ∧ (flagOf e.selectionChanged = true → e.kind = 1) ∧
          (flagOf e.routePresent = true → e.kind = 2)
    let known : Prop :=
      (flagOf e.statePresent = true →
        (e.kind = 0 → e.state ≤ 5) ∧ (e.kind = 1 → e.state ≤ 3) ∧ (e.kind = 3 → e.state ≤ 6)) ∧
        (flagOf e.routePresent = true → e.route ≤ 4)
    (15 < e.watch ∨ ¬ inRange → answered .badIndex s) ∧
      (e.watch ≤ 15 → inRange → 3 < e.kind ∨ 1 < e.action ∨ ¬ allowed ∨ ¬ known → answered .badValue s) ∧
        ∀ (n : Fin 16) (kind : SubjectKind), e.watch = n.val → inRange → subjectKindOf e.kind = some kind → e.action ≤ 1 →
          allowed → known →
            let clamped : Prop :=
              (flagOf e.marginPresent = true ∧ (e.margin < -350 ∨ 359 < e.margin)) ∨
                (flagOf e.scorePresent = true ∧ 1000 < e.score)
            let entry : Watch :=
              { kind := kind, subject := if e.subject = 0xFFFF then none else some e.subject,
                stateEq := if flagOf e.statePresent then subjectStateOf kind e.state else none,
                marginBelow := if flagOf e.marginPresent then some (max (-350) (min 359 e.margin)) else none,
                scoreBelow := if flagOf e.scorePresent then some (min 1000 e.score) else none,
                selectionChanged := flagOf e.selectionChanged,
                routeEq := if flagOf e.routePresent then routeOf e.route else none,
                alert := decide (e.action = 1), latched := false, lastSubject := none, fireCount := 0 }
            let old := s.watches.entries[n]
            let entries := s.watches.entries.set n entry
            let code : ReplyCode := if clamped then .adjusted else .ok
            (s.watches.mode = .level →
              answered code (s.setWatches { s.watches with
                entries := entries, alert := entries.toList.any fun w => w.alert && w.latched })) ∧
              (s.watches.mode = .pulse → old.alert = true → old.latched = true →
                answered code (s.setWatches { s.watches with entries := entries, alert := false, pulseTimer := none })) ∧
                (s.watches.mode = .pulse → ¬ (old.alert = true ∧ old.latched = true) →
                  answered code (s.setWatches { s.watches with entries := entries }))

/-- R156, R161: ACK_WATCH and CLEAR_WATCH name a watch 0 to 15 or ALL (255); any other number is BAD_INDEX. The latches of
the watches named are cleared; CLEAR_WATCH then makes their conditions absent, the action NOTICE, the last subject absent
and the fire count 0. ALERT in LEVEL mode drops when no alert watch is left latched; in PULSE mode a pulse ends when the
latch of an alert watch was cleared. No waiting notice is touched. -/
def Obligations.ClearAndAckWatch : Prop :=
  ∀ (s : State) (n : Nat), n < 256 → Ready s →
    let named (j : Fin 16) : Bool := decide (n = 255 ∨ j.val = n)
    let yes (b : Bool) : Byte := if b then 1#8 else 0#8
    let active (w : Watch) : Bool :=
      w.stateEq.isSome || w.marginBelow.isSome || w.scoreBelow.isSome || w.selectionChanged || w.routeEq.isSome
    let acked : Vector Watch 16 := .ofFn fun j =>
      let w := s.watches.entries[j]
      if named j then { w with latched := false } else w
    let cleared : Vector Watch 16 := .ofFn fun j =>
      let w := s.watches.entries[j]
      if named j then
        { w with
          stateEq := none, marginBelow := none, scoreBelow := none, selectionChanged := false, routeEq := none,
          alert := false, latched := false, lastSubject := none, fireCount := 0 }
      else w
    let unlatched (p : Watch → Prop) : Prop :=
      ∃ j, named j = true ∧ s.watches.entries[j].latched = true ∧ p s.watches.entries[j]
    let after (entries : Vector Watch 16) (u : WatchUnit) : Prop :=
      (s.watches.mode = .level →
        u = { s.watches with entries := entries, alert := entries.toList.any fun w => w.alert && w.latched }) ∧
        (s.watches.mode = .pulse → unlatched (fun w => w.alert = true) →
          u = { s.watches with entries := entries, alert := false, pulseTimer := none }) ∧
          (s.watches.mode = .pulse → ¬ unlatched (fun w => w.alert = true) → u = { s.watches with entries := entries })
    (15 < n → n ≠ 255 →
      exec (.ackWatch n) s = .next (formReply 0x52 .badIndex [] s) ∧
        exec (.clearWatch n) s = .next (formReply 0x51 .badIndex [] s)) ∧
      (n ≤ 15 ∨ n = 255 →
        (∃ u code, exec (.ackWatch n) s = .next (formReply 0x52 code
            (acked.toList.map fun w => [yes (active w), yes w.latched] ++ le 2 w.fireCount).flatten (s.setWatches u)) ∧
          after acked u ∧ (unlatched (fun _ => True) → code = .ok) ∧ (¬ unlatched (fun _ => True) → code = .noChange)) ∧
          ∃ u code, exec (.clearWatch n) s = .next (formReply 0x51 code [] (s.setWatches u)) ∧ after cleared u ∧
            ((∃ j, named j = true ∧ active s.watches.entries[j] = true) → code = .ok) ∧
              ((∀ j, named j = true → active s.watches.entries[j] = false) → code = .noChange))

/-- R160: SET_ALERT_MODE: the mode in force is NO_CHANGE, a value above 1 BAD_VALUE; from LEVEL to PULSE ALERT is
deasserted; from PULSE to LEVEL the pulse ends and ALERT stands while an alert watch is latched; latches are kept. When the
pulse timer has run out ALERT is deasserted; with time left on it, or with the timer stopped, the event has no effect (log
entry 11). -/
def Obligations.AlertModes : Prop :=
  (∀ s : State, Ready s →
    (s.watches.mode = .level →
      exec (.setAlertMode 0) s = .next (formReply 0x53 .noChange [] s) ∧
        exec (.setAlertMode 1) s = .next (formReply 0x53 .ok []
          (s.setWatches { s.watches with mode := .pulse, alert := false, pulseTimer := none }))) ∧
      (s.watches.mode = .pulse →
        exec (.setAlertMode 1) s = .next (formReply 0x53 .noChange [] s) ∧
          exec (.setAlertMode 0) s = .next (formReply 0x53 .ok []
            (s.setWatches { s.watches with
              mode := .level, pulseTimer := none,
              alert := s.watches.entries.toList.any fun w => w.alert && w.latched }))) ∧
        ∀ m, 2 ≤ m → m < 256 → exec (.setAlertMode m) s = .next (formReply 0x53 .badValue [] s)) ∧
    ∀ s : State, s.clock.inReset = false →
      (s.watches.pulseTimer = some 0 →
        exec .pulseTimerEnd s = .next (s.setWatches { s.watches with alert := false, pulseTimer := none })) ∧
        (s.watches.pulseTimer ≠ some 0 → exec .pulseTimerEnd s = .next s)

/-- R157, R158, R159, R160: a pair of records handed to the watch unit fires exactly the active watches of its kind and
subject whose every present condition holds for the record after and one of whose present conditions fails for the record
before; an absent record satisfies none, and a removal fires none. A firing latches the watch, sets its last subject,
counts it modulo 65536 and offers its WATCH notice; an alert watch's firing asserts ALERT and in PULSE mode starts the
250 ms anew. Only the watch unit, the notices and NOTICES_DROPPED change. The bytes of the WATCH notice are log entry 7. -/
def Obligations.WatchFires : Prop :=
  ∀ (s : State) (kind : SubjectKind) (idx : Nat) (before after : Option View),
    let t := handPair kind idx before after s
    let met (w : Watch) (v : View) : Prop :=
      (∀ x, w.stateEq = some x → v.state = some x) ∧
        (∀ x, w.marginBelow = some x → ∃ m, v.margin = some m ∧ m < x) ∧
          (∀ x, w.scoreBelow = some x → ∃ m, v.score = some m ∧ m < x) ∧ ∀ x, w.routeEq = some x → v.route = some x
    let fired (w : Watch) : Prop :=
      w.active = true ∧ w.kind = kind ∧ (w.subject = none ∨ w.subject = some idx) ∧
        (∃ a, after = some a ∧ met w a ∧ (w.selectionChanged = true → a.selection ≠ before.bind (·.selection))) ∧
          ∀ b, before = some b → w.selectionChanged = true ∨ ¬ met w b
    t = (s.setWatches t.watches).setLink t.link ∧
      t.link = { s.link with
        notices := t.link.notices,
        flags := { s.link.flags with noticesDropped := t.link.flags.noticesDropped } } ∧
        t.watches.mode = s.watches.mode ∧
          (∀ n : Fin 16,
            let w := s.watches.entries[n]
            (¬ fired w → t.watches.entries[n] = w) ∧
              (fired w →
                t.watches.entries[n] =
                  { w with latched := true, lastSubject := some idx, fireCount := (w.fireCount + 1) % 65536 } ∧
                  (s.link.mask.getLsbD 5 = true → s.link.notices.length ≤ 16 →
                    ∃ v, after = some v ∧
                      { kind := .watch, subject := n.val,
                        content := le 1 n.val ++ le 1 (subjectKindCode kind) ++ le 1 idx
                          ++ le 2 ((w.fireCount + 1) % 65536) ++ le 4 s.clock.now ++ watchValues w v } ∈ t.link.notices))) ∧
            ((∃ n : Fin 16, fired s.watches.entries[n] ∧ s.watches.entries[n].alert = true) →
              t.watches.alert = true ∧
                t.watches.pulseTimer =
                  match s.watches.mode with | .level => s.watches.pulseTimer | .pulse => some 250) ∧
              ((¬ ∃ n : Fin 16, fired s.watches.entries[n] ∧ s.watches.entries[n].alert = true) →
                t.watches.alert = s.watches.alert ∧ t.watches.pulseTimer = s.watches.pulseTimer)

/-! ## Slots and acquisition -/

/-- R28, R33, R34, R139: the ends of a slot's unpark time and release time, and a PARK at the end of its park delay. A held
slot that is free is tuned in role CARRY to the carrier of the record that waits for it. In any other state of the slot, and
with time left on the timer, these events have no effect (log entry 11). -/
def Obligations.SlotTimersEnd : Prop :=
  ∀ (s : State) (i : Fin 8), s.clock.inReset = false →
    let r := s.slot i
    let ends (e : Instr) (p : State → Prop) : Prop := ∃ u, exec e s = .next (settle u) ∧ p u
    let alone (u : State) : Prop :=
      (∀ j, j ≠ i → u.slot j = s.slot j) ∧ u.carriers = s.carriers ∧ u.router.records = s.router.records
    let waits (q : CarryRecord) : Prop := q.slot = i ∧ q.phase = .waitingSlot
    let released : Prop := r.state = .releasing ∧ r.releaseTimer = some 0
    let idle : Slot := { r with state := .idle, power := .on, input := none, releaseTimer := none }
    (r.state = .tuning → r.power = .unparking → r.unparkTimer = some 0 → ∀ bound, r.lockTimeout = some bound →
      ends (.unparkTimeEnd i) fun u => u = s.setSlots (s.slots.set i
        { r with
          power := .on, unparkTimer := none,
          chan :=
            { stage := .lockWait, timer := some bound, held := none, services := { last := none, parts := [] },
              listing := { last := none, parts := [] }, formed := none, windows := r.chan.windows,
              recheckDue := false } })) ∧
      (¬ (r.state = .tuning ∧ r.power = .unparking ∧ r.unparkTimer = some 0) → exec (.unparkTimeEnd i) s = .next s) ∧
        (released → r.offlinePending = true →
          ends (.releaseTimeEnd i) fun u => alone u ∧ u.slot i =
            { r with
              state := .offline, offlinePending := false, power := .off, input := none, lastCal := none,
              calStatus := .none, releaseTimer := none }) ∧
          (released → r.offlinePending = false → r.heldForRouter = false →
            ends (.releaseTimeEnd i) fun u =>
              alone u ∧ u.slot i = { idle with parkTimer := some 5000 } ∧ u.sched.searchDue = true) ∧
            (released → r.offlinePending = false → r.heldForRouter = true →
              (∀ q ∈ s.router.records, ¬ waits q) →
                ends (.releaseTimeEnd i) fun u => alone u ∧ u.slot i = { idle with parkTimer := none }) ∧
              (released → r.offlinePending = false → r.heldForRouter = true →
                ∀ q c, (∀ x ∈ s.router.records, waits x ↔ x = q) → q ∈ s.router.records →
                  s.carrier q.carrier = some c → (∀ j, (s.slot j).carrier ≠ some q.carrier) →
                    ends (.releaseTimeEnd i) fun u =>
                      let p := s.plan.committed.profiles[c.profile]
                      (u.slot i).state = .tuning ∧ (u.slot i).role = .carry ∧ (u.slot i).carrier = some q.carrier ∧
                        (u.slot i).input = some c.input ∧ (u.slot i).power = .on ∧
                          (u.slot i).roleTime = some s.clock.now ∧ (u.slot i).lockTimeout = some p.lockTimeout ∧
                            (u.slot i).retune = 0 ∧ (u.slot i).heldForRouter = false ∧ (u.slot i).parkTimer = none ∧
                              (u.slot i).meas.k = some p.k ∧ (u.slot i).chan.stage = .lockWait ∧
                                (u.slot i).chan.timer = some p.lockTimeout ∧
                                  (∀ x ∈ u.router.records, x.carrier = q.carrier → x.slot = i ∧ x.phase = .acquiring) ∧
                                    ∃ d, u.carrier q.carrier = some d ∧
                                      d.hold = some { slot := i, carry := true, ending := false } ∧
                                        d.state = if c.state = .excluded then .excluded else .acquiring) ∧
                (¬ released → exec (.releaseTimeEnd i) s = .next s) ∧
                  (r.state = .idle → r.parkTimer = some 0 →
                    ends (.park i) fun u => alone u ∧ u.sched.searchDue = true ∧
                      u.slot i = { r with state := .parked, power := .off, parkTimer := none }) ∧
                    (¬ (r.state = .idle ∧ r.parkTimer = some 0) → exec (.park i) s = .next s)

/-- R37, R40, R51, R69, R77: lock gained in LOCK_WAIT takes the slot to ACQUIRING in stage ID_WAIT with 2000 ms; lock gained
in a re-tune attempt takes it back to LOCKED with a fresh window (or at once to its calibration, R42), its record LIVE, a
LOST entry VERIFIED, and into RECHECK_ID when the service list is PENDING. Lock gained at any other time has no effect (log
entry 11). -/
def Obligations.LockGained : Prop :=
  ∀ (s : State) (i : Fin 8), s.clock.inReset = false →
    let r := s.slot i
    (r.state = .tuning → r.retune = 0 → r.chan.stage = .lockWait →
      ∃ u, exec (.lockGained i) s = .next (settle u) ∧ u.carriers = s.carriers ∧ (∀ j, j ≠ i → u.slot j = s.slot j) ∧
        u.slot i = { r with state := .acquiring, chan := { r.chan with stage := .idWait, timer := some 2000 } }) ∧
      (∀ x c, r.state = .tuning → 0 < r.retune → ActivelyHolds s i x c →
        ∃ u, exec (.lockGained i) s = .next (settle u) ∧ (u.slot i).state = .locked ∧ (u.slot i).retune = 0 ∧
          (u.slot i).retuneTimer = none ∧ (u.slot i).role = r.role ∧ (u.slot i).carrier = some x ∧
            ((u.slot i).meas.active = true ∧ (u.slot i).meas.acc = 0 ∧ (u.slot i).meas.symbols = 0 ∨
              u.reference.holder = some i) ∧
              (u.slot i).chan.stage = (if c.listStatus = .pending then .recheckId else .none) ∧
                (u.slot i).chan.timer = (if c.listStatus = .pending then some 2000 else none) ∧
                  (u.slot i).chan.windows = 0 ∧
                    (∀ q ∈ u.router.records, q.carrier = x → q.slot = i ∧ q.phase = .live) ∧
                      u.carrier x = some { c with state := if c.state = .lost then .verified else c.state } ∧
                        ∀ y, y ≠ x → u.carrier y = s.carrier y) ∧
        (r.state ≠ .tuning ∨ (r.retune = 0 ∧ r.chan.stage ≠ .lockWait) → exec (.lockGained i) s = .next s)

/-- R37, R39, R40, R60, R75, R140: a failure of slot `i`'s acquisition, re-check or re-tune: the slot enters RELEASING with
role, carrier, role time and re-tune attempt cleared, and the latched values with them (DEDUCED, log entry 16); the entry
under its ACTIVE hold becomes FAILED with the cause, the fail count one more (at most 7), next-due by the back-off and the
hold cleared, everything else kept (an EXCLUDED entry keeps all but the hold); a survey record of the slot and a carry record
of the carrier are closed. A bound fails the slot when it has run out (log entry 11). -/
def Obligations.FailuresReleaseTheSlot : Prop :=
  ∀ (s : State) (i : Fin 8) (e : Instr) (cause : FailCause) (x : Nat) (c : Carrier), s.clock.inReset = false →
    FailsWith s i e cause → ReferenceLaw s.slots s.reference → ActivelyHolds s i x c →
      let r := s.slot i
      ∃ u, exec e s = .next (settle u) ∧
        ((u.slot i).state = .releasing ∧ (u.slot i).role = .none ∧ (u.slot i).carrier = none ∧
          (u.slot i).roleTime = none ∧ (u.slot i).lockTimeout = none ∧ (u.slot i).modulation = none ∧
            (u.slot i).codeRate = none ∧ (u.slot i).symRate = none ∧ (u.slot i).retune = 0 ∧
              (u.slot i).retuneTimer = none ∧ (u.slot i).adoptionPending = false ∧ (u.slot i).heldForRouter = false ∧
              (u.slot i).offlinePending = false ∧ (u.slot i).releaseTimer = some 20 ∧ (u.slot i).power = .on ∧
                (u.slot i).meas.active = false ∧ (u.slot i).chan.stage = .none ∧ (u.slot i).chan.timer = none ∧
                  (u.slot i).input = r.input ∧ (u.slot i).lastCal = r.lastCal) ∧
          (∀ j, j ≠ i → (u.slot j).state = (s.slot j).state ∧ (u.slot j).carrier = (s.slot j).carrier) ∧
            i ∉ u.reference.queue ∧ u.reference.holder ≠ some i ∧
              (c.state = .excluded → u.carrier x = some { c with hold := none }) ∧
                (c.state ≠ .excluded → c.state ≠ .failed →
                  let n := min 7 (c.failCount + 1)
                  u.carrier x = some
                    { c with
                      state := .failed, failCause := some cause, failCount := n, stateBefore := none, hold := none,
                      nextDue := timeAfter s.clock.now
                        (min s.plan.committed.params.maxAge (s.plan.committed.params.minInterval * 2 ^ n)) }) ∧
                  (∀ y, y ≠ x → u.carrier y = s.carrier y) ∧
                    (r.role = .survey → u.sched.surveys[i] = none) ∧
                      (r.role = .carry ∨ (r.role = .survey ∧ r.adoptionPending = true) →
                        ∀ q ∈ u.router.records, q.carrier ≠ x)

/-- R40, R77, R132, R133: a carrying slot that loses lock in LOCKED goes to TUNING on re-tune attempt 1 bounded by its
latched lock timeout, a VERIFIED entry becomes LOST with nothing else changed, and the carry record is RETUNING. Re-tune
attempts 1 and 2 that run out start the next attempt with the full bound. A lock loss in another state, and an expiry with
no attempt running or with time left, have no effect (log entry 11). -/
def Obligations.CarriedLockLossRetunes : Prop :=
  ∀ (s : State) (i : Fin 8), s.clock.inReset = false →
    let r := s.slot i
    (∀ x c bound, r.state = .locked → r.role = .carry → r.lockTimeout = some bound →
      ReferenceLaw s.slots s.reference → ActivelyHolds s i x c →
        ∃ u, exec (.lockLoss i) s = .next (settle u) ∧
          u.slot i =
            { r with
              state := .tuning, retune := 1, calStatus := if r.lastCal.isSome then .done else .none,
              retuneTimer := some bound,
              meas := { k := r.meas.k, active := false, symbols := 0, acc := 0, overflow := 0, u := 0 },
              chan :=
                { stage := .lockWait, timer := none, held := none, services := { last := none, parts := [] },
                  listing := { last := none, parts := [] }, formed := none, windows := r.chan.windows,
                  recheckDue := false } } ∧
            u.carrier x = some { c with state := if c.state = .verified then .lost else c.state } ∧
              (∀ y, y ≠ x → u.carrier y = s.carrier y) ∧
                ∀ q ∈ u.router.records, q.carrier = x → q.slot = i ∧ q.phase = .retuning) ∧
      (∀ bound, r.state = .tuning → r.retune = 1 ∨ r.retune = 2 → r.retuneTimer = some 0 → r.lockTimeout = some bound →
        exec (.retuneTimeout i) s = .next (settle (s.setSlots (s.slots.set i
          { r with retune := r.retune + 1, retuneTimer := some bound })))) ∧
        (¬ (r.state = .tuning ∧ 0 < r.retune ∧ r.retuneTimer = some 0) → exec (.retuneTimeout i) s = .next s) ∧
          (r.state ≠ .acquiring → r.state ≠ .locked → exec (.lockLoss i) s = .next s)

/-- R50, R52, R53, R54, R56, R57: a section is taken by the present stage alone. One marked failed, or passed to a slot that is
neither ACQUIRING nor LOCKED, changes nothing; one of a kind the stage does not await, or with malformed part numbers, is
discarded. In ID_WAIT an identity that fits the expected identity is held and SVC_WAIT starts with 3000 ms. A well-formed
part that leaves its list incomplete joins the assembly, and the timer goes on. A complete service list whose identity
announces a carrier list, on an input with discovery enabled, is kept and LIST_WAIT starts with 6000 ms. -/
def Obligations.SectionsTakenByTheStage : Prop :=
  ∀ (s : State) (i : Fin 8) (body : SectionBody), s.clock.inReset = false → body.wf = true →
    let r := s.slot i
    let taken (t : State) : Prop := exec (.sectionReceived i { passed := true, body := body }) s = .next t
    let channel (c : Channel) : State := s.setSlots (s.slots.set i { r with chan := c })
    exec (.sectionReceived i { passed := false, body := body }) s = .next s ∧
      (r.state ≠ .acquiring → r.state ≠ .locked → taken s) ∧
        (r.state = .acquiring ∨ r.state = .locked →
          ((match body with
            | .identity _ => r.chan.stage ≠ .idWait ∧ r.chan.stage ≠ .recheckId
            | .serviceList part last _ =>
              (r.chan.stage ≠ .svcWait ∧ r.chan.stage ≠ .recheckSvc) ∨ 3 < last ∨ last < part
            | .carrierList part last _ => r.chan.stage ≠ .listWait ∨ 3 < last ∨ last < part) → taken (settle s)) ∧
            (∀ id x c, body = .identity id → r.chan.stage = .idWait → r.carrier = some x → s.carrier x = some c →
              (∀ want, c.expected = some want → want.origin = id.origin ∧ want.transport = id.transport) →
                taken (settle (channel { r.chan with stage := .svcWait, timer := some 3000, held := some id }))) ∧
              (∀ part last ns, body = .serviceList part last ns → part ≤ last → last ≤ 3 →
                r.chan.stage = .svcWait ∨ r.chan.stage = .recheckSvc →
                  let a := takePart part last ns r.chan.services
                  assemblyComplete a = false → taken (settle (channel { r.chan with services := a }))) ∧
                (∀ part last ns id y, body = .serviceList part last ns → part ≤ last → last ≤ 3 → r.chan.stage = .svcWait →
                  r.chan.held = some id → id.listAnnounced = true → r.input = some y →
                    (s.plan.committed.inputs[inputCode y]).discovery = true →
                      let a := takePart part last ns r.chan.services
                      assemblyComplete a = true →
                        taken (settle (channel { r.chan with
                          stage := .listWait, timer := some 6000, services := a,
                          formed := some (formServices id.origin a) }))) ∧
                  ∀ part last es, body = .carrierList part last es → part ≤ last → last ≤ 3 → r.chan.stage = .listWait →
                    let a := takePart part last es r.chan.listing
                    assemblyComplete a = false → taken (settle (channel { r.chan with listing := a })))

/-- R54, R55, R57: the assemblies. A part with the assembly's last-part number is stored unless it is there already; one
with another last-part number starts the assembly anew; the list is complete when every part from 0 to the last is stored.
The service list is the parts' numbers in ascending part number, each with the origin id, no key twice, the first 24 kept
and LIST_TRUNCATED set when there are more; the carrier list keeps the first entry of each frequency, the first 16 of
them, TRUNCATED when there are more and RECEIVED otherwise. -/
def Obligations.AssembliesFormLists : Prop :=
  (∀ (part last : Nat) (ns : List Nat) (a : Assembly Nat),
    (a.last = some last → (∃ p ∈ a.parts, p.1 = part) → takePart part last ns a = a) ∧
      (a.last = some last → (∀ p ∈ a.parts, p.1 ≠ part) →
        takePart part last ns a = { last := some last, parts := a.parts ++ [(part, ns)] }) ∧
        (a.last ≠ some last → takePart part last ns a = { last := some last, parts := [(part, ns)] }) ∧
          (assemblyComplete a = true ↔ ∃ l, a.last = some l ∧ ∀ n, n ≤ l → ∃ p ∈ a.parts, p.1 = n)) ∧
    (∀ (origin : Nat) (a : Assembly Nat),
      let part (n : Nat) : List Nat := ((a.parts.find? fun p => decide (p.1 = n)).map Prod.snd).getD []
      let keys : List ServiceKey :=
        ((part 0 ++ part 1 ++ part 2 ++ part 3).map fun n => { origin := origin, number := n : ServiceKey }).eraseDups
      formServices origin a = { keys := keys.take 24, truncated := decide (24 < keys.length) }) ∧
      ∀ a : Assembly ListEntry,
        let part (n : Nat) : List ListEntry := ((a.parts.find? fun p => decide (p.1 = n)).map Prod.snd).getD []
        let all := part 0 ++ part 1 ++ part 2 ++ part 3
        ∃ kept : List ListEntry,
          formEntries a = (kept.take 16, if 16 < kept.length then .truncated else .received) ∧ kept.Sublist all ∧
            (kept.map (·.freq)).Nodup ∧ (∀ e ∈ kept, (all.find? fun x => decide (x.freq = e.freq)) = some e) ∧
              ∀ e ∈ all, ∃ x ∈ kept, x.freq = e.freq

/-- R37, R38, R56, R58, R59, R74: the three ways a carrier is verified (the service list complete where no carrier list is
awaited, the carrier list complete, LIST_WAIT run out) and what verification leaves: the slot LOCKED with stage NONE and
window count 0, its first window active unless it calibrates; a survey with adoption pending now in role CARRY; identity,
lists and statuses stored, an ACQUIRING entry VERIFIED with fail count 0 and no cause; the survey record running, or closed
by the adoption; the carry record LIVE. -/
def Obligations.VerificationLocksTheSlot : Prop :=
  ∀ (s : State) (i : Fin 8) (e : Instr) (x : Nat) (c : Carrier) (id : Identity) (list : FormedList)
    (status : CarrierListStatus), s.clock.inReset = false → CarrierLaw s.carriers → ActivelyHolds s i x c →
    let r := s.slot i
    let awaited : Prop := id.listAnnounced = true ∧ ∃ y, r.input = some y ∧ (s.plan.committed.inputs[inputCode y]).discovery = true
    r.chan.held = some id → r.role ≠ .none →
      (e = .listTimeout i ∧ r.chan.stage = .listWait ∧ r.chan.timer = some 0 ∧ r.chan.formed = some list ∧ status = .missed) ∨
        (∃ part last ns, e = .sectionReceived i { passed := true, body := .serviceList part last ns } ∧
          (∀ n ∈ ns, n < 65536) ∧ r.state = .acquiring ∧ r.chan.stage = .svcWait ∧ part ≤ last ∧ last ≤ 3 ∧
            assemblyComplete (takePart part last ns r.chan.services) = true ∧
              list = formServices id.origin (takePart part last ns r.chan.services) ∧ ¬ awaited ∧ status = .none) ∨
          (∃ part last es, e = .sectionReceived i { passed := true, body := .carrierList part last es } ∧
            (∀ y ∈ es, y.cls ≠ some .disabled) ∧ r.state = .acquiring ∧ r.chan.stage = .listWait ∧ part ≤ last ∧
              last ≤ 3 ∧ r.chan.formed = some list ∧
                assemblyComplete (takePart part last es r.chan.listing) = true ∧
                  status = (formEntries (takePart part last es r.chan.listing)).2) →
        let adopted : Bool := decide (r.role = .survey) && r.adoptionPending
        ∃ u d, exec e s = .next (settle u) ∧
          ((u.slot i).state = .locked ∧ (u.slot i).carrier = some x ∧ (u.slot i).adoptionPending = false ∧
            (u.slot i).chan.stage = .none ∧ (u.slot i).chan.timer = none ∧ (u.slot i).chan.windows = 0 ∧
              (u.slot i).chan.held = none ∧ ((u.slot i).meas.active = true ∨ u.reference.holder = some i) ∧
                (u.slot i).role = (if adopted = true ∨ r.role = .carry then .carry else .survey)) ∧
            (u.carrier x = some d ∧ d.observed = some id ∧ d.services = list.keys ∧ d.listStatus = .valid ∧
              d.listTruncated = list.truncated ∧ d.carrierList = status ∧
                d.state = (if c.state = .acquiring then .verified else c.state) ∧
                  (c.state = .acquiring → d.failCount = 0 ∧ d.failCause = none ∧ d.stateBefore = none) ∧
                    d.meas = c.meas ∧ d.history = c.history ∧ d.nextDue = c.nextDue ∧ d.profile = c.profile ∧
                      (∀ h, c.hold = some h → d.hold = some { h with carry := h.carry || adopted })) ∧
              (∀ q, r.role = .survey → s.sched.surveys[i] = some q →
                u.sched.surveys[i] = if adopted then none else some { q with phase := .measuring }) ∧
                (r.role = .carry ∨ adopted = true → ∀ q ∈ u.router.records, q.carrier = x → q.slot = i ∧ q.phase = .live)

/-- R63, R64, R65: what discovery does with one entry of a carrier list (unmatched, known, added at the lowest free place,
not added), that the four counts sum to the entries, and what pruning by a lister that is held does to each entry: a
discovered-only one it no longer lists leaves, one of origin both loses DISCOVERED and its lister, a held one stays, and
any other keeps all but a lister that has left the table. -/
def Obligations.DiscoveryAddsAndPrunes : Prop :=
  (∀ (p : Plan) (now x : Nat) (input : RfInput) (d : Discovery) (e : ListEntry), CarrierLaw d.table →
    let cls := (p.inputs[inputCode input]).cls
    let fits : Prop := cls ≠ .disabled ∧ e.cls = some cls ∧ inBand cls e.freq = true
    let after := discoverOne p now x input d e
    let absent : Prop := ∀ q ∈ d.table, ¬ (q.2.input = input ∧ q.2.freq = e.freq)
    let profile (n : Fin 8) : Prop :=
      (∃ m, e.hint = some m ∧ (p.profiles[n]).modulation = m) ∧
        ∀ j : Fin 8, j < n → e.hint ≠ some (p.profiles[j]).modulation
    let unmatched : Discovery := { d with counts := { d.counts with unmatched := d.counts.unmatched + 1 } }
    (¬ fits → after = unmatched) ∧
      (∀ i c, fits → tabGet d.table i = some c → c.input = input → c.freq = e.freq →
        after =
          { d with
            counts := { d.counts with known := d.counts.known + 1 },
            table := tabPut d.table i
              (if c.removalPending then c else { c with discovered := true, lister := some (c.lister.getD x) }) }) ∧
        (fits → absent → (∀ n, ¬ profile n) → after = unmatched) ∧
          ∀ n, fits → absent → profile n →
            (∀ k, k < 96 → tabGet d.table k = none → (∀ j, j < k → tabGet d.table j ≠ none) →
              after =
                { table := tabPut d.table k
                    { input := input, freq := e.freq, symRate := max 1000 (min 45000 e.symRate), profile := n,
                      planned := false, discovered := true, lister := some x, added := now, expected := none,
                      observed := none, state := .unsurveyed, stateBefore := none, failCause := none, failCount := 0,
                      meas := none, history := [], nextDue := now, hold := none, removalPending := false,
                      services := [], listStatus := .absent, listTruncated := false, carrierList := .none },
                  counts := { d.counts with added := d.counts.added + 1 }, added := d.added ++ [k] }) ∧
              ((∀ k, k < 96 → tabGet d.table k ≠ none) →
                after = { d with counts := { d.counts with notAdded := d.counts.notAdded + 1 } })) ∧
    (∀ (p : Plan) (now x : Nat) (input : RfInput) (es : List ListEntry) (t : Table Carrier),
      let n := (discover p now x input es t).counts
      n.added + n.known + n.unmatched + n.notAdded = es.length) ∧
      ∀ (x : Nat) (freqs : List Nat) (t : Table Carrier) (i : Nat) (c : Carrier), CarrierLaw t → tabGet t i = some c →
        (∀ l, tabGet t x = some l → l.hold ≠ none) →
          let left : Prop := c.lister = some x ∧ c.freq ∉ freqs ∧ c.discovered = true
          let after := tabGet (pruneTable x freqs t) i
          (left → c.planned = false → c.hold = none → after = none) ∧
            (left → c.planned = true → after = some { c with discovered := false, lister := none }) ∧
              (left → c.planned = false → c.hold ≠ none → after = some c) ∧
                (¬ left → ∃ l, after = some { c with lister := l } ∧ (c.lister = none → l = none) ∧
                  ∀ y, c.lister = some y → (tabGet (pruneTable x freqs t) y ≠ none → l = some y) ∧
                    (tabGet t y ≠ none → tabGet (pruneTable x freqs t) y = none → l = none))

/-- R66, R67, R68: the identity re-check. When it is due (the model's own mark, log entry 5) a LOCKED slot enters
RECHECK_ID with 2000 ms. An identity that fits ends it, the identity stored; but with the service list still PENDING from a
re-check cut short RECHECK_SVC starts, so that the list is read again (R69; DEDUCED, log entry 38). With no expected
identity, one whose ids differ from those observed is stored, the service list marked PENDING, and RECHECK_SVC starts with
3000 ms; the complete list then replaces the old, VALID, and the re-check ends with the window count at 0. The other slots
stay as they are, and so do the other entries. R74 gives these reports for an entry that is VERIFIED; that they hold of an
entry in another state is log entry 25. R85: a list that a cancelled removal left ABSENT stays ABSENT. That an identity
differs from an observed one that is absent is log entry 50. -/
def Obligations.IdentityRecheck : Prop :=
  ∀ (s : State) (i : Fin 8), s.clock.inReset = false →
    let r := s.slot i
    let ends (body : SectionBody) (x : Nat) (d : Carrier) (chan : Channel) : Prop :=
      ∃ u, exec (.sectionReceived i { passed := true, body := body }) s = .next (settle u) ∧
        u.slot i = { r with chan := chan } ∧ (∀ j, j ≠ i → u.slot j = s.slot j) ∧ u.carrier x = some d ∧
          ∀ y, y ≠ x → u.carrier y = s.carrier y
    let quiet : Channel :=
      { stage := .none, timer := none, held := none, services := { last := none, parts := [] },
        listing := { last := none, parts := [] }, formed := none, windows := 0, recheckDue := false }
    (r.state = .locked → r.chan.recheckDue = true →
      exec (.recheckStart i) s = .next (s.setSlots (s.slots.set i
        { r with chan := { r.chan with stage := .recheckId, timer := some 2000, recheckDue := false } }))) ∧
      (¬ (r.state = .locked ∧ r.chan.recheckDue = true) → exec (.recheckStart i) s = .next s) ∧
        ∀ x c, r.state = .locked → ActivelyHolds s i x c →
          (∀ id, id.origin < 65536 → id.transport < 65536 → r.chan.stage = .recheckId →
            let sameIds : Prop := ∃ o, c.observed = some o ∧ o.origin = id.origin ∧ o.transport = id.transport
            let expected : Prop := ∃ w, c.expected = some w ∧ w.origin = id.origin ∧ w.transport = id.transport
            let rereads : Channel := { r.chan with stage := .recheckSvc, timer := some 3000, held := some id }
            (expected ∨ (c.expected = none ∧ sameIds) →
              ends (.identity id) x { c with observed := some id } (if c.listStatus = .pending then rereads else quiet)) ∧
              (c.expected = none → ¬ sameIds →
                ends (.identity id) x
                  { c with observed := some id, listStatus := if c.listStatus = .absent then .absent else .pending } rereads)) ∧
            ∀ part last ns id, (∀ n ∈ ns, n < 65536) → part ≤ last → last ≤ 3 → r.chan.stage = .recheckSvc →
              r.chan.held = some id →
                let a := takePart part last ns r.chan.services
                let l := formServices id.origin a
                assemblyComplete a = true →
                  ends (.serviceList part last ns) x
                    (if c.listStatus = .absent then c
                      else { c with services := l.keys, listStatus := .valid, listTruncated := l.truncated }) quiet

/-! ## Measuring -/

/-- R3, R4: a symbol in the active window adds its error power shifted right by max(0, k − 12) to ACC, which stays at
4294967295 when the sum would pass it, counting the overflow (at most 65535); a reported block adds one to u, at most
65535. With no window active neither has an effect; nor has a symbol once the window has its W (log entry 10). -/
def Obligations.SymbolsAndBlocks : Prop :=
  ∀ (s : State) (i : Fin 8) (q : Nat), s.clock.inReset = false → q ≤ 1048575 →
    let r := s.slot i
    let m := r.meas
    let meas (m' : MeasUnit) : State := s.setSlots (s.slots.set i { r with meas := m' })
    (m.active = false → exec (.symbolDelivered i q) s = .next s ∧ exec (.blockReport i) s = .next s) ∧
      (m.active = true →
        exec (.blockReport i) s = .next (meas { m with u := min 65535 (m.u + 1) }) ∧
          ∀ k, m.k = some k →
            (m.symbols = 2 ^ k → exec (.symbolDelivered i q) s = .next s) ∧
              (m.symbols ≠ 2 ^ k →
                let sum := m.acc + q / 2 ^ (max 12 k - 12)
                (sum ≤ 4294967295 →
                  exec (.symbolDelivered i q) s = .next (meas { m with acc := sum, symbols := m.symbols + 1 })) ∧
                  (4294967295 < sum →
                    exec (.symbolDelivered i q) s = .next (meas { m with
                      acc := 4294967295, overflow := min 65535 (m.overflow + 1), symbols := m.symbols + 1 }))))

/-- R5, R13, R20, R66, R78, R79, R98: the completion of a window: the next window starts, the record is taken into the
entry with the margin, the history and (in VERIFIED) the score of the moment, a carrier that is not carried gets its next-due
time, the window counts for the re-check and the survey; the survey's last wanted window releases the slot, unless its lock
loss waits next (log entry 39). The level is the operand, the corrected reading, within 0 to 1200 (PRESUMED, log entry 15).
At the 256th window the model sets its own mark of a re-check that is due, which RECHECK_START takes, and counts none while
the mark stands (DEDUCED, log entry 5). With the window not full the event has no effect (log entry 11). -/
def Obligations.WindowCompletes : Prop :=
  ∀ (s : State) (i : Fin 8) (reading : Int), s.clock.inReset = false →
    let r := s.slot i
    let full : Prop := r.meas.active = true ∧ ∃ k, r.meas.k = some k ∧ r.meas.symbols = 2 ^ k
    (¬ full → exec (.windowComplete i reading) s = .next s) ∧
      ∀ x c k, full → r.meas.k = some k → ActivelyHolds s i x c →
        let p := s.plan.committed
        let level : Option Nat :=
          r.lastCal.bind fun l => if r.input = some l.1 then some (max 0 (min 1200 reading)).toNat else none
        let margin : Int := (merOf k r.meas.acc : Int) - (p.profiles[c.profile]).reqMer
        let history := offerPoint { time := s.clock.now, margin := margin } c.history
        let score : Option Nat :=
          if c.state = .verified then some (scoreOf margin r.meas.u level history p.inputs[inputCode c.input]) else none
        let record : WindowRecord :=
          { time := s.clock.now, mer := merOf k r.meas.acc, u := r.meas.u, overflow := r.meas.overflow, level := level,
            saturated := decide (0 < r.meas.overflow), uncalibrated := level.isNone, margin := margin, score := score }
        let due := timeAfter s.clock.now (intervalOf p.params margin (fallOf history))
        let carried : Bool := (c.hold.map (·.carry)).getD false
        let taken : Carrier :=
          { c with meas := some record, history := history, nextDue := if carried then c.nextDue else due }
        (∀ q, s.sched.surveys[i] = some q → r.role = .survey → q.phase = .measuring → q.taken + 1 = q.wanted →
          r.state = .locked → r.adoptionPending = false → ReferenceLaw s.slots s.reference → carried = false →
            s.pending.head? ≠ some (.lockLoss i) →
            ∃ u, exec (.windowComplete i reading) s = .next (settle u) ∧ (u.slot i).state = .releasing ∧
              (u.slot i).carrier = none ∧ u.sched.surveys[i] = none ∧ u.carrier x = some { taken with hold := none }) ∧
          ((r.role = .survey → ∀ q, s.sched.surveys[i] = some q → q.phase = .measuring → q.taken + 1 ≠ q.wanted) →
            ∃ u, exec (.windowComplete i reading) s = .next (settle u) ∧
              u.slot i =
                { r with
                  meas := { k := some k, active := true, symbols := 0, acc := 0, overflow := 0, u := 0 },
                  chan :=
                    if r.chan.stage = .none ∧ r.chan.recheckDue = false then
                      (if r.chan.windows = 255 then { r.chan with windows := 0, recheckDue := true }
                       else { r.chan with windows := r.chan.windows + 1 })
                    else r.chan } ∧
                (∀ j, j ≠ i → u.slot j = s.slot j) ∧ u.carrier x = some taken ∧
                  (∀ y, y ≠ x → u.carrier y = s.carrier y) ∧
                    ∀ q, s.sched.surveys[i] = some q →
                      u.sched.surveys[i] =
                        some (if q.phase = .measuring ∧ r.role = .survey then { q with taken := q.taken + 1 } else q))

/-- R9, R10, R11: the ratio Q, its logarithm L and the MER. -/
def Obligations.MerArithmetic : Prop :=
  (∀ d acc : Nat, d ≤ 12 →
    (acc = 0 → quotientQ d acc = 65535) ∧ (1 ≤ acc → acc ≤ 2 ^ d → quotientQ d acc = 65535) ∧
      (2 ^ d < acc → quotientQ d acc = 2 ^ (16 + d) / acc) ∧ (2 ^ (16 + d) < acc → quotientQ d acc = 0)) ∧
    (∀ q p : Nat, 1 ≤ q → q ≤ 65535 → 2 ^ p ≤ q → q < 2 ^ (p + 1) →
      let f := q * 16 / 2 ^ p - 16
      f ≤ 15 ∧
        logL q = 16 * ((p : Int) - 4) + ([0, 1, 3, 4, 5, 6, 7, 8, 9, 10, 11, 12, 13, 14, 15, 15][f]?.getD 0 : Nat) ∧
          -64 ≤ logL q ∧ logL q ≤ 191) ∧
      (∀ q : Nat, q ≤ 65535 →
        (q = 0 ∨ logL q ≤ 0 → merOfQ q = 0) ∧
          (1 ≤ q → 0 < logL q → (merOfQ q : Int) = (logL q * 1927 + 512) / 1024) ∧ merOfQ q ≤ 359) ∧
        ∀ k acc : Nat, merOf k acc = merOfQ (quotientQ (min k 12) acc)

/-- R12 to R18, R21, R23, R79: margin, level penalty, block term, slope, fall, fade penalty, score, the re-survey interval,
the back-off and the admission of a point to the history. -/
def Obligations.ScoreArithmetic : Prop :=
  (∀ mer req : Nat, marginOf mer req = (mer : Int) - req) ∧
    (∀ (l lo hi : Nat),
      levelPenalty none lo hi = 0 ∧ (lo ≤ l → l ≤ hi → levelPenalty (some l) lo hi = 0) ∧
        (l < lo ∨ hi < l → levelPenalty (some l) lo hi = 60)) ∧
      (∀ u : Nat, (u ≤ 12 → blockTerm u = 25 * u) ∧ (12 ≤ u → blockTerm u = 300)) ∧
        (∀ (o n : HistoryPoint) (mid : List HistoryPoint),
          slopeOf [] = 0 ∧ slopeOf [o] = 0 ∧ (o.time = n.time → slopeOf (o :: mid ++ [n]) = 0) ∧
            (o.time ≠ n.time →
              slopeOf (o :: mid ++ [n]) =
                max (-200) (min 200 (((n.margin - o.margin) * 60).tdiv ((n.time : Int) - o.time))))) ∧
          (∀ h : List HistoryPoint, (fallOf h : Int) = max 0 (-(slopeOf h)) ∧ fadePenalty h = min 100 (fallOf h : Int)) ∧
            (∀ (margin : Int) (u : Nat) (level : Option Nat) (h : List HistoryPoint) (cfg : InputCfg),
              (scoreOf margin u level h cfg : Int) =
                max 0 (min 1000 (500 + 2 * max (-200) (min 200 margin) + cfg.bias - blockTerm u - fadePenalty h
                  - levelPenalty level cfg.winMin cfg.winMax))) ∧
              (∀ (p : Params) (margin : Int) (fall : Nat), p.minInterval ≤ p.maxAge →
                (margin ≤ p.guardMargin → intervalOf p margin fall = p.minInterval) ∧
                  ((p.guardMargin : Int) < margin →
                    (intervalOf p margin fall : Int) =
                      max (p.minInterval : Int)
                        (min (p.maxAge : Int) ((margin - p.guardMargin) * 60 / (max fall 1 : Nat))))) ∧
                (∀ (p : Params) (n : Nat), backoffOf p n = min p.maxAge (p.minInterval * 2 ^ n)) ∧
                  ∀ (q : HistoryPoint) (h : List HistoryPoint) (n : HistoryPoint), h.length ≤ 3 →
                    offerPoint q [] = [q] ∧
                      (n.time + 30 ≤ q.time → offerPoint q (h ++ [n]) = (h ++ [n, q]).drop (h.length - 2)) ∧
                        (q.time < n.time + 30 → offerPoint q (h ++ [n]) = h ++ [n])

/-- R42, R43, R45: the end of the 40 ms: the slot that calibrated has its last calibration at its input and now, status DONE
and, still LOCKED, a window active anew; the head of the queue, if one waits, is granted next, with status ACTIVE, its
window abandoned and 40 ms to run. With no calibration running, or with time left, the event has no effect (log entry 11).
-/
def Obligations.CalibrationEnds : Prop :=
  ∀ s : State, s.clock.inReset = false →
    (s.reference.holder = none ∨ s.reference.timer ≠ some 0 → exec .calibrationEnd s = .next s) ∧
      ∀ (i : Fin 8) (x : RfInput), s.reference.holder = some i → s.reference.timer = some 0 →
        (s.slot i).state = .locked → (s.slot i).input = some x →
        ReferenceLaw s.slots s.reference →
          ∃ u, exec .calibrationEnd s = .next (settle u) ∧
            ((u.slot i).state = .locked ∧ (u.slot i).calStatus = .done ∧ (u.slot i).lastCal = some (x, s.clock.now) ∧
              (u.slot i).meas.active = true ∧ (u.slot i).meas.acc = 0 ∧ (u.slot i).meas.symbols = 0) ∧
              (∀ j, (u.slot j).state = (s.slot j).state ∧ (u.slot j).carrier = (s.slot j).carrier) ∧
                u.carriers = s.carriers ∧
                  ∀ h rest, s.reference.queue = h :: rest →
                    u.reference.holder = some h ∧ u.reference.timer = some 40 ∧ (u.slot h).calStatus = .active ∧
                      (u.slot h).meas.active = false ∧ rest <+: u.reference.queue

/-! ## Ranking and routing -/

/-- R112, R114, R115: what a rebuild of a service's candidate list leaves: at most six candidates, no carrier twice, in the
order of the rule, each with its carrier's score, stale mark and eligibility (a selection without an entry has no score and
is not eligible), the selection among them, no eligible reception left out but behind six; and the lead counts. R120:
constrained is cleared where a SERVED service has the top candidate as its selection, and stands otherwise. R85: a removed
carrier is no service's selection and stands in no candidate list. -/
def Obligations.CandidateListRebuilt : Prop :=
  (∀ (s : State) (x : Nat) (keys : List ServiceKey) (i : Nat) (w : Service), ServiceLaw s.services →
    (rankRemoval x keys s).service i = some w → w.selection ≠ some x ∧ ∀ k ∈ w.cands, k.carrier ≠ x) ∧
  ∀ (s : State) (i : Nat) (v : Service), CarrierLaw s.carriers → s.service i = some v →
    let p := s.plan.committed.params
    let eligible (c : Carrier) : Prop :=
      c.state = .verified ∧ c.listStatus = .valid ∧ v.key ∈ c.services ∧
        ∃ m x, c.meas = some m ∧ m.score = some x ∧ p.floor ≤ x
    let stale (c : Carrier) : Prop := ∃ m, c.meas = some m ∧ m.time + p.maxAge < s.clock.now
    let before (a b : Candidate) : Prop :=
      (a.stale = false ∧ b.stale = true) ∨
        (a.stale = b.stale ∧
          (b.score.getD 0 < a.score.getD 0 ∨ (a.score.getD 0 = b.score.getD 0 ∧ a.carrier < b.carrier)))
    let held (l : List Candidate) (x : Nat) : Nat := ((l.find? fun k => decide (k.carrier = x)).map (·.lead)).getD 0
    ∃ w, (rebuildList i s).service i = some w ∧ w.cands.length ≤ 6 ∧ (w.cands.map (·.carrier)).Nodup ∧
      w.cands.Pairwise before ∧
        (∀ k ∈ w.cands,
          (∃ c, s.carrier k.carrier = some c ∧ k.score = c.meas.bind (·.score) ∧ (k.stale = true ↔ stale c) ∧
            (k.eligible = true ↔ eligible c) ∧ (eligible c ∨ v.selection = some k.carrier)) ∨
            (s.carrier k.carrier = none ∧ v.selection = some k.carrier ∧ k.score = none ∧ k.eligible = false)) ∧
          (∀ x, v.selection = some x → ∃ k ∈ w.cands, k.carrier = x) ∧
            (∀ x c, s.carrier x = some c → eligible c → (∀ k ∈ w.cands, k.carrier ≠ x) →
              w.cands.length = 6 ∧ ∀ k ∈ w.cands, v.selection ≠ some k.carrier → before k (candidateOf s v.key x c)) ∧
              (∀ k ∈ w.cands,
                let leads : Prop :=
                  ∃ x, v.selection = some x ∧ k.carrier ≠ x ∧
                    (w.cands.find? (·.eligible)).map (·.carrier) = some k.carrier ∧
                      ((w.cands.find? fun n => decide (n.carrier = x)).bind (·.score)).getD 0 + p.hysteresis ≤ k.score.getD 0
                (leads → k.lead = min 15 (held v.cands k.carrier + 1)) ∧ (¬ leads → k.lead = 0)) ∧
                w = { v with cands := w.cands, constrained := w.constrained } ∧
                  (w.constrained = true ↔ v.constrained = true ∧
                    ¬ (v.state = .served ∧ ∃ x, v.selection = some x ∧
                      (w.cands.find? (·.eligible)).map (·.carrier) = some x))

/-- R116 to R120: what a service does with the answer to its request. GRANTED, on a reception that is eligible, completes the
switch: selection, SERVED, and but for a restoration a switch counted, its time and settle-until; constrained follows step 2
or stands until the selection is the top candidate. PENDING: target and kind, FIRST (whose target is its selection at once)
for a service that held no selection, or held it by an earlier grant of kind FIRST (log entry 18); step 2 sets constrained.
REFUSED changes nothing for a voluntary request, goes on from step 1 to step 2, and from step 2 to step 3: a hold with its
limit, or UNAVAILABLE. R118, R119, R122, R123: what a BOUND service with no request waiting does after a rebuild: in SERVED
the voluntary switch or the constrained retry, the list hold, or failover; in UNAVAILABLE and in a failover hold failover
once there is a top candidate; in PENDING nothing; in a list hold its end. A list hold begins while a request waits, too; the
request carries the step that asked (DEDUCED, log entry 17). A service made UNAVAILABLE has every lead count 0 (R115); that
its candidates stand until the next rebuild is log entry 30. -/
def Obligations.AnswersToRequests : Prop :=
  let askedFor (s : State) (i : Nat) : Prop := ∃ q ∈ s.router.requests, q.service = i
  let unavailable (v : Service) : Service :=
    { v with
      state := .unavailable, selection := none, target := none, pendingKind := none, holdUntil := none,
      cands := v.cands.map fun k => { k with lead := 0 } }
  let held (v : Service) (limit : Nat) : Service :=
    { v with state := .holding, target := none, pendingKind := none, holdUntil := some limit }
  let limitOf (s : State) (v : Service) : Nat :=
    v.holdUntil.getD (timeAfter s.clock.now s.plan.committed.params.holdLimit)
  let posted (s : State) (q : GrantReq) : State := s.setRouter { s.router with requests := s.router.requests ++ [q] }
  (∀ (q : GrantReq) (v : Service) (s : State), s.service q.service = some v →
    let x := q.carrier
    let service (a : GrantAnswer) : Option Service := (actOnAnswer q a s).1.service q.service
    let first : Prop := q.first = true ∨ v.selection = none
    let step2 : Prop := q.purpose = .carried ∨ q.purpose = .restricted
    let previous : Option Nat := if q.first then none else v.selection
    let step3 : Prop :=
      (first ∨ limitOf s v ≤ s.clock.now → service .refused = some (unavailable v)) ∧
        (¬ first → s.clock.now < limitOf s v → service .refused = some (held v (limitOf s v)))
    (∃ w, service .pending = some w ∧ w.state = .pending ∧ w.target = some x ∧ w.key = v.key ∧
      w.holdUntil = v.holdUntil ∧ w.switchCount = v.switchCount ∧
        (first → w.pendingKind = some .first ∧ w.selection = some x) ∧
          (¬ first → w.selection = v.selection ∧
            w.pendingKind = some (if q.purpose = .voluntary then .voluntary else .failover)) ∧
            w.constrained = if q.purpose = .carried ∨ q.purpose = .restricted then true else v.constrained) ∧
      (∀ c, s.carrier x = some c → eligibleFor s.plan.committed.params v.key c = true →
        ∃ w, service .granted = some w ∧ w.key = v.key ∧ w.selection = some x ∧ w.state = .served ∧ w.target = none ∧
          w.pendingKind = none ∧ w.holdUntil = none ∧
            (previous = some x →
              w.switchCount = v.switchCount ∧ w.lastSwitch = v.lastSwitch ∧ w.settleUntil = v.settleUntil) ∧
              (previous ≠ some x →
                w.switchCount = (v.switchCount + 1) % 65536 ∧ w.lastSwitch = some s.clock.now ∧
                  w.settleUntil = timeAfter s.clock.now s.plan.committed.params.settle) ∧
                (w.constrained = true ↔ (step2 ∨ v.constrained = true) ∧
                  (w.cands.find? (·.eligible)).map (·.carrier) ≠ some x)) ∧
        (actOnAnswer q .granted s).2 = true ∧ (q.purpose = .voluntary → actOnAnswer q .refused s = (s, false)) ∧
          (step2 → step3) ∧
            (q.purpose = .best →
              let best := (s.eligibleRanked v.key).find? fun k => s.carriedAt k.carrier && decide (k.carrier ≠ x)
              (best = none → step3) ∧
                ∀ b, best = some b → ¬ askedFor s q.service →
                  actOnAnswer q .refused s = (posted s
                    { service := q.service, carrier := b.carrier, failover := false, purpose := .carried,
                      first := q.first }, false))) ∧
  ∀ (s : State) (i : Nat) (v : Service), s.service i = some v → v.bound = true →
    let params := s.plan.committed.params
    let top := v.cands.find? (·.eligible)
    let onSelection (p : Carrier → Prop) : Prop := ∃ x c, v.selection = some x ∧ s.carrier x = some c ∧ p c
    let eligible : Prop := onSelection fun c => eligibleFor params v.key c = true
    let abeyance : Prop := onSelection fun c => c.state = .verified ∧ c.listStatus = .pending ∧ v.key ∈ c.services ∧
      ∃ m n, c.meas = some m ∧ m.score = some n ∧ params.floor ≤ n
    let asks (purpose : Purpose) (x : Nat) : Prop :=
      act i s = (posted s
        { service := i, carrier := x, failover := decide (purpose = .best), purpose := purpose, first := false }, false)
    let nothing : Prop := act i s = (s, false)
    let becomes (w : Service) : Prop := act i s = (s.setServices (tabPut s.services i w), false)
    let failsOver : Prop :=
      (∀ b rest, s.eligibleRanked v.key = b :: rest → asks .best b.carrier) ∧
        (s.eligibleRanked v.key = [] →
          (v.selection = none ∨ limitOf s v ≤ s.clock.now → becomes (unavailable v)) ∧
            (v.selection ≠ none → s.clock.now < limitOf s v → becomes (held v (limitOf s v))))
    let wants (t : Candidate) : Prop := v.selection ≠ some t.carrier ∧
      (v.constrained = true ∨ (params.leadCount ≤ t.lead ∧ v.settleUntil ≤ s.clock.now))
    (¬ askedFor s i →
      (v.state = .served →
        (∀ t, eligible → top = some t → wants t → asks .voluntary t.carrier) ∧
          (eligible → (∀ t, top = some t → ¬ wants t) → nothing) ∧
            (abeyance → becomes { v with state := .holding, holdUntil := none }) ∧
              (¬ eligible → ¬ abeyance → failsOver)) ∧
        (v.state = .unavailable ∨ (v.state = .holding ∧ v.holdUntil ≠ none) →
          (top = none → nothing) ∧ (top ≠ none → failsOver)) ∧
          (v.state = .pending → nothing) ∧
            (v.state = .holding → v.holdUntil = none →
              (abeyance → nothing) ∧ (¬ eligible → ¬ abeyance → failsOver) ∧
                (eligible → (act i s).2 = true ∧
                  ∃ w, (act i s).1.service i = some w ∧ w.state = .served ∧ w.selection = v.selection ∧
                    w.target = none ∧ w.switchCount = v.switchCount ∧ w.lastSwitch = v.lastSwitch ∧
                      w.settleUntil = v.settleUntil))) ∧
      (askedFor s i → v.state = .served → abeyance →
        becomes { v with state := .holding, holdUntil := none, deferred := { v.deferred with rebuilt := true } })

/-- R134 to R138, R116, R117, R119: the arbiter takes the waiting request of a BOUND service that has nothing deferred:
shared on a LIVE record or adopted from a LOCKED survey it is granted, and on an eligible reception the switch completes;
shared on another record, adopted from a survey that still acquires, or given a slot that must first be tuned, preempted or
displaced, it is PENDING with that carrier as its target. A free slot within the reserve, and for a failover request any free
slot (R137), is tuned in role CARRY; a failover request that finds no free slot preempts the survey taken latest, and, with
none, displaces a carried carrier of lower demand. A plain request without a slot within the reserve, and a failover request
without a free slot, a survey or a carried carrier of lower demand, is refused and leaves slots, entries and records alone;
from step 1 the service then goes on to step 2 (R119), or to step 3, its candidates kept (log entry 30). Without a waiting request the event has no
effect (log entry 11); what the service does between request and answer is log entry 17. -/
def Obligations.GrantSteps : Prop :=
  ∀ (s : State) (i : Fin 256), s.clock.inReset = false →
    ((∀ q ∈ s.router.requests, q.service ≠ i.val) → exec (.grantRequest i) s = .next s) ∧
      ∀ (q : GrantReq) (v : Service), RequestLaw s.router → RecordLaw s.router → SlotLaw s.slots →
        ServiceLaw s.services → q ∈ s.router.requests → q.service = i.val → s.service i.val = some v → v.bound = true →
          v.deferred = { rebuilt := false, carryLost := none } →
            let x := q.carrier
            let params := s.plan.committed.params
            let done (p : State → Prop) : Prop := ∃ u, exec (.grantRequest i) s = .next (settle u) ∧ p u
            let unshared : Prop := ∀ r ∈ s.router.records, r.carrier ≠ x
            let unassigned : Prop := ∀ j, (s.slot j).carrier ≠ some x
            let free (j : Fin 8) : Prop :=
              ((s.slot j).state = .idle ∨ (s.slot j).state = .parked) ∧ (s.slot j).heldForRouter = false
            let recorded (u : State) (j : Fin 8) (ph : CarryPhase) : Prop :=
              ∀ r : CarryRecord, r ∈ u.router.records ∧ r.carrier = x ↔ r = { carrier := x, slot := j, phase := ph }
            let spare : Prop := committedSlots s + params.reserve < onlineSlots s
            let eligible : Prop := ∃ c, s.carrier x = some c ∧ eligibleFor params v.key c = true
            let others : List GrantReq := s.router.requests.filter fun n => decide (n.service ≠ i.val)
            let best := (s.eligibleRanked v.key).find? fun k => s.carriedAt k.carrier && decide (k.carrier ≠ x)
            let limit : Nat := v.holdUntil.getD (timeAfter s.clock.now params.holdLimit)
            let lost : Prop := q.first = true ∨ v.selection = none ∨ limit ≤ s.clock.now
            let previous : Option Nat := if q.first then none else v.selection
            let switched (u : State) : Prop :=
              ∃ w, u.service i.val = some w ∧ w.selection = some x ∧ w.state = .served ∧ w.target = none ∧
                w.pendingKind = none ∧ w.holdUntil = none ∧
                  (previous = some x →
                    w.switchCount = v.switchCount ∧ w.lastSwitch = v.lastSwitch ∧ w.settleUntil = v.settleUntil) ∧
                    (previous ≠ some x →
                      w.switchCount = (v.switchCount + 1) % 65536 ∧ w.lastSwitch = some s.clock.now ∧
                        w.settleUntil = timeAfter s.clock.now params.settle)
            let waits (u : State) : Prop :=
              ∃ w, u.service i.val = some w ∧ w.bound = true ∧ w.state = .pending ∧ w.target = some x ∧
                (q.first = true → w.pendingKind = some .first ∧ w.selection = some x)
            (∀ r ∈ s.router.records, r.carrier = x →
              (r.phase = .live → eligible →
                done fun u => switched u ∧ u.slots = s.slots ∧ u.carriers = s.carriers ∧
                  u.router.records = s.router.records) ∧
                (r.phase ≠ .live →
                  done fun u => waits u ∧ u.slots = s.slots ∧ u.carriers = s.carriers ∧
                    u.router.records = s.router.records)) ∧
              (∀ j, unshared → (s.slot j).role = .survey → (s.slot j).carrier = some x →
                ((s.slot j).state = .locked →
                  done fun u => (eligible → switched u) ∧
                    u.slot j = { s.slot j with role := .carry, roleTime := some s.clock.now } ∧
                      (∀ k, k ≠ j → u.slot k = s.slot k) ∧ u.sched.surveys[j] = none ∧ recorded u j .live) ∧
                  ((s.slot j).state = .tuning ∨ (s.slot j).state = .acquiring →
                    done fun u => waits u ∧ u.slot j = { s.slot j with adoptionPending := true } ∧
                      (∀ k, k ≠ j → u.slot k = s.slot k) ∧ recorded u j .adopting)) ∧
                (∀ j c, unshared → unassigned → spare ∨ q.failover = true → s.carrier x = some c → free j →
                  ((s.slot j).state = .idle → ∀ k, k < j → free k → (s.slot k).state = .parked) →
                    ((s.slot j).state = .parked → ∀ k, free k → (s.slot k).state = .parked ∧ j ≤ k) →
                      done fun u => waits u ∧ (u.slot j).state = .tuning ∧ (u.slot j).role = .carry ∧
                        (u.slot j).carrier = some x ∧ (u.slot j).roleTime = some s.clock.now ∧
                          (u.slot j).power = (if (s.slot j).state = .parked then .unparking else .on) ∧
                            (∀ k, k ≠ j → u.slot k = s.slot k) ∧ recorded u j .acquiring) ∧
                  (unshared → (∀ j, ¬ ((s.slot j).role = .survey ∧ (s.slot j).carrier = some x)) →
                    (q.failover = false ∧ (¬ spare ∨ ∀ j, ¬ free j)) ∨ (q.failover = true ∧ (∀ j, ¬ free j) ∧
                      (∀ k, ¬ ((s.slot k).role = .survey ∧ (s.slot k).adoptionPending = false)) ∧
                        ∀ k z, (s.slot k).role = .carry → (s.slot k).state = .locked → (s.slot k).carrier = some z →
                          requestedDemand s v.key x ≤ carriedDemand s z) →
                      done fun u => u.slots = s.slots ∧ u.carriers = s.carriers ∧ u.router.records = s.router.records ∧
                        (q.purpose = .voluntary → u.service i.val = some v ∧ u.router.requests = others) ∧
                          (q.purpose = .best →
                            (∀ b, best = some b → u.service i.val = some v ∧ u.router.requests = others ++
                              [{ service := i.val, carrier := b.carrier, failover := false, purpose := .carried,
                                 first := q.first }]) ∧
                              (best = none → u.router.requests = others ∧
                                (lost → u.service i.val = some
                                  { v with
                                    state := .unavailable, selection := none, target := none, pendingKind := none,
                                    holdUntil := none, cands := v.cands.map fun k => { k with lead := 0 } }) ∧
                                  (¬ lost → u.service i.val = some
                                    { v with
                                      state := .holding, target := none, pendingKind := none, holdUntil := some limit })))) ∧
                    (∀ j, unshared → unassigned → q.failover = true → (∀ k, ¬ free k) → (s.slot j).role = .survey →
                      (s.slot j).adoptionPending = false →
                        (∀ k, (s.slot k).role = .survey → (s.slot k).adoptionPending = false →
                          (s.slot k).roleTime.getD 0 < (s.slot j).roleTime.getD 0 ∨
                            ((s.slot k).roleTime.getD 0 = (s.slot j).roleTime.getD 0 ∧ k ≤ j)) →
                          ReferenceLaw s.slots s.reference →
                            done fun u => waits u ∧ (u.slot j).state = .releasing ∧ (u.slot j).role = .none ∧
                              (u.slot j).heldForRouter = true ∧ u.sched.surveys[j] = none ∧
                                recorded u j .waitingSlot) ∧
                      ∀ j y, unshared → unassigned → q.failover = true → (∀ k, ¬ free k) →
                        (∀ k, ¬ ((s.slot k).role = .survey ∧ (s.slot k).adoptionPending = false)) →
                          (s.slot j).role = .carry → (s.slot j).state = .locked → (s.slot j).carrier = some y →
                            carriedDemand s y < requestedDemand s v.key x →
                              (∀ k z, (s.slot k).role = .carry → (s.slot k).state = .locked →
                                (s.slot k).carrier = some z →
                                  carriedDemand s y < carriedDemand s z ∨
                                    (carriedDemand s y = carriedDemand s z ∧ k ≤ j)) →
                                ReferenceLaw s.slots s.reference →
                                  done fun u => waits u ∧ (u.slot j).state = .releasing ∧ (u.slot j).role = .none ∧
                                    (u.slot j).carrier = none ∧ (u.slot j).heldForRouter = true ∧
                                      recorded u j .waitingSlot ∧ ∀ r ∈ u.router.records, r.carrier ≠ y

/-- R127, R134: the demand of a carried carrier and of a requested one, each the sum of the shares 8, 4, 2, 1 of a set of room
channels; the online and the committed slots. R109, R110, R111: the marks of a service key, which say who may demand. A key
is SEEN while a list with status VALID or PENDING holds it; evaluated afresh, an entry takes the mark and, left with none,
leaves the table unless the carrier of its selection is carried; a key seen anew takes the lowest free place, and with 256
entries SERVICE_TABLE_FULL is set. A key given BOUND is always added: at the lowest free place, or, with 256 entries, at that
of the entry without BOUND evicted for it, by the three preferences of R110; a selection of that entry is cleared and reported
to the router before it leaves. A service that loses BOUND has its request withdrawn and its target dropped; a selection
whose carrier is carried stays, a PENDING service, of kind FIRST too, being SERVED with constrained as it stood and
its hold-until kept (the model's choice, log entry 41); otherwise it is UNAVAILABLE, its lead counts 0 (R115) and its candidates kept (log entry 30), and leaves the table
when it is not SEEN. -/
def Obligations.DemandAndSlotCounts : Prop :=
  (∀ (s : State) (k : ServiceKey), ServiceLaw s.services →
    let seen : Prop := ∃ e ∈ s.carriers, e.2.listStatus ≠ .absent ∧ k ∈ e.2.services
    let carried (x : Nat) : Prop := ∃ c h, s.carrier x = some c ∧ c.hold = some h ∧ h.carry = true
    let unavailable (v : Service) : Service :=
      { v with
        state := .unavailable, selection := none, target := none, pendingKind := none, holdUntil := none,
        cands := v.cands.map fun k => { k with lead := 0 } }
    let u := evaluateSeen s k
    (∀ i v, s.service i = some v → v.key = k →
      (v.bound = true ∨ seen ∨ (∃ x, v.selection = some x ∧ carried x) →
        ∃ m : Bool, u.service i = some { v with seen := m } ∧ (m = true ↔ seen)) ∧
        (v.bound = false → ¬ seen → (∀ x, v.selection = some x → ¬ carried x) → u.service i = none)) ∧
      ((∀ i v, s.service i = some v → v.key ≠ k) →
        (¬ seen → u = s) ∧
          (seen → s.services.length = 256 →
            u = s.setLink { s.link with flags := { s.link.flags with serviceTableFull := true } }) ∧
            ∀ n, seen → s.service n = none → (∀ j, j < n → s.service j ≠ none) → n < 256 →
              ∃ w, u.service n = some w ∧ w.key = k ∧ w.bound = false ∧ w.seen = true ∧ w.state = .unavailable ∧
                w.selection = none) ∧
        ((∀ i v, s.service i = some v → v.key ≠ k) →
          let t := gainBound s k
          let added (n : Nat) : Prop :=
            (∃ w, t.service n = some w ∧ w.key = k ∧ w.bound = true ∧ (w.seen = true ↔ seen) ∧ w.state = .unavailable ∧
              w.selection = none) ∧ ∀ j, j ≠ n → t.service j = s.service j
          let unbound (v : Service) : Prop := v.bound = false
          let unselected (v : Service) : Prop := v.bound = false ∧ v.selection = none
          let candidateless (v : Service) : Prop := v.bound = false ∧ v.selection = none ∧ v.cands = []
          let lowest (p : Service → Prop) (i : Nat) : Prop :=
            (∃ v, s.service i = some v ∧ p v) ∧ ∀ j v, j < i → s.service j = some v → ¬ p v
          let noneOf (p : Service → Prop) : Prop := ∀ j v, s.service j = some v → ¬ p v
          (∀ n, n < 256 → s.service n = none → (∀ j, j < n → s.service j ≠ none) → added n) ∧
            (s.services.length = 256 → ∀ i,
              lowest candidateless i ∨ (noneOf candidateless ∧ lowest unselected i) ∨
                (noneOf unselected ∧ lowest unbound i) →
                  added i ∧ ∀ v, s.service i = some v → v.selection ≠ none →
                    t.router.rooms = (recomputeRooms (s.setServices (tabPut s.services i (unavailable v)))).router.rooms)) ∧
        ∀ i v, s.service i = some v → v.bound = true →
          let t := loseBound s i
          let kept : Prop := ∃ x, v.selection = some x ∧ carried x
          let idle : Service := { v with bound := false, deferred := { rebuilt := false, carryLost := none } }
          t.router.requests = s.router.requests.filter (fun q => decide (q.service ≠ i)) ∧
            (kept → t.service i = some
              (if v.state = .pending then
                { idle with state := .served, target := none, pendingKind := none, constrained := v.constrainedBefore }
              else idle)) ∧
              (¬ kept → (v.seen = false → t.service i = none) ∧
                (v.seen = true → t.service i = some (unavailable idle)))) ∧
  ∀ s : State,
    let share (r : Room) : Nat := if r.priority = 0 then 8 else if r.priority = 1 then 4 else if r.priority = 2 then 2 else 1
    let feeding (r : Room) : Option ServiceKey := match r.feeding with | .primary => r.primary | .fallback => r.fallback
    let service (k : ServiceKey) : Option Service := (serviceIndex s.services k).bind s.service
    let on (x : Nat) (r : Room) : Prop :=
      ∃ k v, feeding r = some k ∧ service k = some v ∧ (v.selection = some x ∨ v.target = some x)
    let would (k : ServiceKey) (r : Room) : Prop :=
      feeding r = some k ∨
        (r.fallback = some k ∧ ∀ p, r.primary = some p → ∃ v, service p = some v ∧ v.state = .unavailable)
    let sum (rooms : List (Fin 48)) : Nat := (rooms.map fun r => share (s.room r)).sum
    (∀ x, ∃ rooms : List (Fin 48), rooms.Nodup ∧ (∀ r, r ∈ rooms ↔ on x (s.room r)) ∧ carriedDemand s x = sum rooms) ∧
      (∀ k x, ∃ rooms : List (Fin 48), rooms.Nodup ∧ (∀ r, r ∈ rooms ↔ on x (s.room r) ∨ would k (s.room r)) ∧
        requestedDemand s k x = sum rooms) ∧
        (∃ slots : List (Fin 8), slots.Nodup ∧ onlineSlots s = slots.length ∧
          ∀ i, i ∈ slots ↔ (s.slot i).state ≠ .offline ∧ (s.slot i).offlinePending = false) ∧
          ∃ slots : List (Fin 8), slots.Nodup ∧ committedSlots s = slots.length ∧
            ∀ i, i ∈ slots ↔ (s.slot i).role = .carry ∨ (s.slot i).heldForRouter = true ∨
              ((s.slot i).role = .survey ∧ (s.slot i).adoptionPending = true)

/-- R131, R129: a switch completes at a switch point, for every SWITCHING channel of the port whose pending feed is the slot,
and at the expiry of a channel's switch timer: where the feeding service still selects the pending carrier and it streams on
that slot, the feed slot is the pending one, the pending feed absent, the timer stopped, and the route HELD for a service
that is HOLDING or PENDING for a failover and LIVE otherwise. A channel that does not await it is left alone,
and the expiry of a timer with time left has no effect (log entry 11). -/
def Obligations.SwitchesComplete : Prop :=
  ∀ s : State, s.clock.inReset = false → SlotLaw s.slots →
    let ready (r : Fin 48) (j : Fin 8) (v : Service) : Prop :=
      ∃ x, (s.room r).pendingFeed = some (j, x) ∧ s.feedingService (s.room r) = some v ∧ v.selection = some x ∧
        (s.slot j).role = .carry ∧ (s.slot j).state = .locked ∧ (s.slot j).carrier = some x ∧
          decideFeeding s (s.room r) = (s.room r).feeding
    let completed (r : Fin 48) (j : Fin 8) (v : Service) : Room :=
      { s.room r with
        feedSlot := some j, pendingFeed := none, timer := none,
        route :=
          if v.state = .holding ∨ (v.state = .pending ∧ v.pendingKind = some .failover) then .held else .live }
    let done (e : Instr) (p : State → Prop) : Prop :=
      ∃ u, exec e s = .next (settle u) ∧ u.slots = s.slots ∧ u.carriers = s.carriers ∧ u.services = s.services ∧ p u
    let awaits (port : Fin 4) (j : Fin 8) (r : Fin 48) : Prop :=
      r.val / 12 = port.val ∧ (s.room r).route = .switching ∧ ∃ x, (s.room r).pendingFeed = some (j, x)
    (∀ r j v, (s.room r).route = .switching → (s.room r).timer = some 0 → ready r j v →
      done (.switchTimeout r) fun u => u.room r = completed r j v ∧ ∀ n, n ≠ r → u.room n = s.room n) ∧
      (∀ r, ¬ ((s.room r).route = .switching ∧ (s.room r).timer = some 0) → exec (.switchTimeout r) s = .next s) ∧
        (∀ port j, (∃ r, awaits port j r) →
          done (.switchPoint port j) fun u =>
            (∀ r v, awaits port j r → ready r j v → u.room r = completed r j v) ∧
              ∀ r, ¬ awaits port j r → u.room r = s.room r) ∧
          ∀ port j, (∀ r, ¬ awaits port j r) → exec (.switchPoint port j) s = .next s

/-- R128, R129, R130: what a recompute makes of a channel whose feeding is decided: UNBOUND without bindings; SLATE without a
wanted carrier or without its stream; LIVE or HELD on the feed slot that carries it; otherwise SWITCHING to the slot that
does, with the request time now and 1500 ms, an old feed kept while its stream lasts, and a pending feed that is already
that one left running. A commit gives a channel its binding: with other keys feeding starts from PRIMARY if the primary is
bound and from FALLBACK otherwise; a channel whose binding stays, priority and all, is left alone, and any other is
recomputed (a new priority alone: log entry 24). -/
def Obligations.RoutesAreRecomputed : Prop :=
  (∀ (s : State) (p : Plan) (r : Fin 48),
    let b := p.bindings[r]
    let x := s.room r
    let bound : Room := { x with primary := b.primary, fallback := b.fallback, priority := b.priority }
    let y : Room :=
      if x.primary = b.primary ∧ x.fallback = b.fallback then bound
      else { bound with feeding := if b.primary ≠ none then .primary else .fallback }
    (y = x → rebindRoom p s r = s) ∧
      (y ≠ x → (rebindRoom p s r).room r = routeRoom s { y with feeding := decideFeeding s y } ∧
        ∀ n, n ≠ r → (rebindRoom p s r).room n = s.room n)) ∧
  ∀ (s : State) (x : Room),
    let stateOf (k : ServiceKey) : Option ServiceState := ((serviceIndex s.services k).bind s.service).map (·.state)
    let wanted : Option Nat := (s.feedingService x).bind (·.selection)
    let after := routeRoom s x
    let kept : Option (Fin 8) := x.feedSlot.bind fun j =>
      if (s.slot j).role = .carry ∧ (s.slot j).state = .locked then some j else none
    (x.fallback = none → x.primary ≠ none → decideFeeding s x = .primary) ∧
      (x.primary = none → x.fallback ≠ none → decideFeeding s x = .fallback) ∧
        (∀ p f, x.primary = some p → x.fallback = some f →
          (x.feeding = .primary →
            (decideFeeding s x = .fallback ↔
              (stateOf p = none ∨ stateOf p = some .unavailable) ∧ stateOf f = some .served)) ∧
            (x.feeding = .fallback → (decideFeeding s x = .primary ↔ stateOf p = some .served))) ∧
          (x.primary = none → x.fallback = none →
            after =
              { x with route := .unbound, feedSlot := none, pendingFeed := none, requestTime := none, timer := none }) ∧
            (x.primary ≠ none ∨ x.fallback ≠ none →
              (wanted = none ∨ (∃ c, wanted = some c ∧ s.streamSlot c = none) →
                after = { x with route := .slate, feedSlot := none, pendingFeed := none, timer := none }) ∧
                ∀ v c i, s.feedingService x = some v → v.selection = some c → s.streamSlot c = some i →
                  (x.feedSlot = some i →
                    after =
                      { x with
                        pendingFeed := none, timer := none,
                        route :=
                          if v.state = .holding ∨ (v.state = .pending ∧ v.pendingKind = some .failover) then .held
                          else .live }) ∧
                    (x.feedSlot ≠ some i → x.route = .switching → x.pendingFeed = some (i, c) →
                      after = { x with feedSlot := kept }) ∧
                      (x.feedSlot ≠ some i → ¬ (x.route = .switching ∧ x.pendingFeed = some (i, c)) →
                        after =
                          { x with
                            route := .switching, feedSlot := kept, pendingFeed := some (i, c),
                            requestTime := some s.clock.now, timer := some 1500 }))

/-- R121: a failed grant ends PENDING: VOLUNTARY returns to SERVED when its selection is eligible and carried; otherwise failover
starts from the old selection, and of kind FIRST step 3 leads to UNAVAILABLE; constrained is as it stood before the request.
R122: when the second count has reached the hold-until of a BOUND service in a failover hold and no request of it waits,
a last failover runs: with no eligible reception the service becomes UNAVAILABLE; with one, a failover grant of the best is
asked for, and the service stands unchanged while the request waits (DEDUCED, log entry 17). An unbound service, which asks
for nothing, has its selection cleared (DEDUCED, log entry 20). A service made UNAVAILABLE has every lead count 0 (R115); that
its candidates stand until the next rebuild is log entry 30. Otherwise the event has no effect (log entry 11). -/
def Obligations.HoldUntilReached : Prop :=
  let unavailable (v : Service) : Service :=
    { v with
      state := .unavailable, selection := none, target := none, pendingKind := none, holdUntil := none,
      cands := v.cands.map fun k => { k with lead := 0 } }
  (∀ (s : State) (i x : Nat) (v : Service), s.service i = some v → v.bound = true → v.state = .pending →
    v.target = some x → (∀ q ∈ s.router.requests, q.service ≠ i) →
      let t := grantFailedService x s i
      let returns : Prop := v.pendingKind = some .voluntary ∧ ∃ y c h, v.selection = some y ∧ s.carrier y = some c ∧
        eligibleFor s.plan.committed.params v.key c = true ∧ c.hold = some h ∧ h.carry = true
      let ended : Service := { v with target := none, pendingKind := none, constrained := v.constrainedBefore }
      let limit := v.holdUntil.getD (timeAfter s.clock.now s.plan.committed.params.holdLimit)
      let lost : Prop := v.pendingKind = some .first ∨ v.selection = none ∨ limit ≤ s.clock.now
      (returns → t.service i = some { ended with state := .served } ∧ t.router.requests = s.router.requests) ∧
        (¬ returns →
          (∀ b rest, s.eligibleRanked v.key = b :: rest →
            t.service i = some { ended with state := .holding } ∧
              t.router.requests = s.router.requests ++
                [{ service := i, carrier := b.carrier, failover := true, purpose := .best,
                   first := decide (v.pendingKind = some .first) }]) ∧
            (s.eligibleRanked v.key = [] → t.router.requests = s.router.requests ∧
              (lost → t.service i = some (unavailable ended)) ∧
                (¬ lost → t.service i = some { ended with state := .holding, holdUntil := some limit })))) ∧
  ∀ (s : State) (i : Fin 256), s.clock.inReset = false →
    let asked : Prop := ∃ q ∈ s.router.requests, q.service = i.val
    ((∀ v h, s.service i.val = some v → v.state = .holding → v.holdUntil = some h → s.clock.now < h ∨ asked) →
      exec (.holdUntilReached i) s = .next s) ∧
      (∀ v h, s.service i.val = some v → v.state = .holding → v.holdUntil = some h → h ≤ s.clock.now → ¬ asked →
        v.bound = false → ServiceLaw s.services → ∃ u, exec (.holdUntilReached i) s = .next (settle u) ∧ u.slots = s.slots ∧
          u.carriers = s.carriers ∧ u.router.requests = s.router.requests ∧
            (v.seen = false → u.service i.val = none) ∧
              (v.seen = true → u.service i.val = some (unavailable v))) ∧
      ∀ v h, s.service i.val = some v → v.state = .holding → v.holdUntil = some h → h ≤ s.clock.now → ¬ asked →
        v.bound = true →
          let ranked := s.eligibleRanked v.key
          ∃ u, exec (.holdUntilReached i) s = .next (settle u) ∧ u.slots = s.slots ∧ u.carriers = s.carriers ∧
            ((∀ e ∈ s.carriers, eligibleFor s.plan.committed.params v.key e.2 = false) →
              u.service i.val = some (unavailable v) ∧ u.router.requests = s.router.requests) ∧
              ∀ b rest, ranked = b :: rest →
                u.service i.val = some v ∧
                  u.router.requests = s.router.requests ++
                    [{ service := i.val, carrier := b.carrier, failover := true, purpose := .best, first := false }]

/-! ## Frames and laws -/

/-- What commands and events leave alone. An event of the slots, the router or the watch unit's timer touches no waiting
command, clock, plan, mode or command path (`BlocksOnly`). A host command carried out at once leaves the waiting commands,
the clock, the receiver and the transmitter alone, each of the plan, the modes, the mask and the view changes only by the
commands made for it, and a query changes nothing but the link. -/
def Obligations.NothingElseChanges : Prop :=
  (∀ (c : Instr) (s t : State), ofBlocks c = true → exec c s = .next t → BlocksOnly s t) ∧
    ∀ (c : HostCommand) (s t : State), c.wf = true → Ready s → exec (rowOf c) s = .next t →
      let code := (fieldsOf c).1
      (t.pending = s.pending ∧ t.clock = s.clock ∧ t.link.rx = s.link.rx ∧ t.link.gap = s.link.gap ∧
        t.link.buffer = s.link.buffer ∧ t.link.sending = s.link.sending) ∧
        (c ≠ .commitPlan → t.plan.committed = s.plan.committed ∧ t.plan.last = s.plan.last) ∧
          (code < 0x40 ∨ 0x49 < code → t.plan = s.plan) ∧ (code ≠ 0x31 → t.sched.mode = s.sched.mode) ∧
            (code ≠ 0x53 → t.watches.mode = s.watches.mode) ∧ (code ≠ 0x13 → t.link.mask = s.link.mask) ∧
              (code ≠ 0x14 → code ≠ 0x15 → t.link.frozen = s.link.frozen) ∧
                (code ≠ 0x12 → t.link.restart = s.link.restart) ∧
                  (code < 0x30 → t = s.setLink t.link) ∧
                    (0x40 ≤ code → code ≤ 0x47 → t = (s.setPlan t.plan).setLink t.link) ∧
                      (0x50 ≤ code → t = (s.setWatches t.watches).setLink t.link)

/-- Right after reset the ten laws of the device hold (R26, R42, R71, R83, R108, R114, R117, R129, R170; R167 is a law of
steps, see LawsKeptByEveryStep), and with them the laws of Safety.lean that the manual states of other records: the receive
buffer (R166), the urgent list (R93), requests in flight (R116), lead counts at 0 without a selection (R115), carry records
(unique by section 7.3's table), and the minimum interval at or below the maximum age (R151). -/
def Obligations.LawsHoldAtReset : Prop :=
  let s := State.reset
  NoticeLaw s.link ∧ BufferLaw s.link ∧ CarrierLaw s.carriers ∧ ServiceLaw s.services ∧ SelectionLaw s.services ∧
    UrgentLaw s.sched ∧ RequestLaw s.router ∧ RecordLaw s.router ∧ SlotLaw s.slots ∧
      ReferenceLaw s.slots s.reference ∧ CandidateLaw s.services ∧ IntervalLaw s.plan ∧ DueLaw s ∧ RouteLaw s

/-- Every step, whatever the command, keeps the ten laws of the device and the laws of Safety.lean on other records, in every
state: R26, R42, R71, R93, R108, R116, R117, R151, R166, R170 and the uniqueness of carry records (section 7.3's table) each
by itself; R114 with the lead counts of R115 together with R71, R83 with R151 (while next-due times fit the second count, log entry 4), R129 with R26 and
R108; and R167, the order of answers, holds of the step. -/
def Obligations.LawsKeptByEveryStep : Prop :=
  ∀ s t : State, step s = .next t →
    (NoticeLaw s.link → NoticeLaw t.link) ∧ (BufferLaw s.link → BufferLaw t.link) ∧
      (CarrierLaw s.carriers → CarrierLaw t.carriers) ∧ (ServiceLaw s.services → ServiceLaw t.services) ∧
        (SelectionLaw s.services → SelectionLaw t.services) ∧ (UrgentLaw s.sched → UrgentLaw t.sched) ∧
          (RequestLaw s.router → RequestLaw t.router) ∧ (RecordLaw s.router → RecordLaw t.router) ∧
            (SlotLaw s.slots → SlotLaw t.slots) ∧
              (ReferenceLaw s.slots s.reference → ReferenceLaw t.slots t.reference) ∧
                (CarrierLaw s.carriers → CandidateLaw s.services → CandidateLaw t.services) ∧
                  (IntervalLaw s.plan → IntervalLaw t.plan) ∧ (IntervalLaw s.plan → DueLaw s → DueLaw t) ∧
                    (SlotLaw s.slots → ServiceLaw s.services → RouteLaw s → RouteLaw t) ∧ AnswersInOrder s t
end

