-- ==== Sys2Proof/Tests/Slice0.lean ====
section
/-! SUPPORT. The model's own tests: ill-formed terms are refused, the worked cases of the manual, one step of the
commands and events on small states, and for each statement a state and operands that meet its hypotheses. -/

namespace Sys2Proof.Tests

open Sys2Proof.Machine

set_option maxRecDepth 10000

/-! ## Small states -/

/-- The next state of a command, or the state itself when it stops. -/
def after (c : Instr) (s : State) : State :=
  match exec c s with
  | .next t => t
  | .fault _ => s
  | .refused _ => s

/-- The part after reset. -/
def s0 : State := State.reset

/-- A slot on carrier 0 of input A, in a state and a role. -/
def worker (st : SlotState) (role : Role) : Slot :=
  { Slot.reset with
    state := st, role := role, carrier := some 0, input := some .a, power := .on, roleTime := some 0,
    lockTimeout := some 800, modulation := some .qpsk, codeRate := some .r3_4, symRate := some 27500,
    meas := { k := some 13, active := decide (st = .locked), symbols := 0, acc := 0, overflow := 0, u := 0 } }

/-- A slot whose channel is in a stage. -/
def staged (r : Slot) (st : Stage) : Slot := { r with chan := { r.chan with stage := st, timer := some 0 } }

/-- The carrier of the worked case, in a state and under a hold. -/
def entry (st : CarrierState) (hold : Option Hold) : Carrier :=
  { input := .a, freq := 1362000, symRate := 27500, profile := 0, planned := true, discovered := false, lister := none,
    added := 0, expected := none, observed := some { origin := 1210, transport := 7, listAnnounced := true }, state := st,
    stateBefore := none, failCause := none, failCount := 0, meas := none, history := [], nextDue := 0, hold := hold,
    removalPending := false, services := [{ origin := 1210, number := 305 }], listStatus := .valid,
    listTruncated := false, carrierList := .none }

/-- The active hold of slot 0. -/
def holdOf (carry : Bool) : Hold := { slot := 0, carry := carry, ending := false }

/-- Slot 0 as `r`, holding carrier 0. -/
def working (r : Slot) (st : CarrierState) : State :=
  (putSlot 0 r s0).setCarriers [(0, entry st (some (holdOf (decide (r.role = .carry)))))]

/-- A measured and scored carrier. -/
def scored (score : Nat) (c : Carrier) : Carrier :=
  { c with
    meas := some
      { time := 0, mer := 199, u := 0, overflow := 0, level := some 612, saturated := false, uncalibrated := false,
        margin := 144, score := some score } }

def key305 : ServiceKey := { origin := 1210, number := 305 }

/-- The service of the worked cases, bound, in a state with a selection. -/
def svc (st : ServiceState) (sel : Option Nat) : Service :=
  { newService key305 true true with state := st, selection := sel }

/-- A waiting request of service 0 for carrier 0. -/
def req (failover : Bool) : GrantReq :=
  { service := 0, carrier := 0, failover := failover, purpose := if failover then .best else .voluntary, first := false }

/-- A state in which service 0 asks for carrier 0. -/
def asking (failover : Bool) (s : State) : State :=
  (s.setServices [(0, svc .served (some 1))]).setRouter { s.router with requests := [req failover] }

/-- A planned carrier of the worked case. -/
def planned0 : Planned := { input := .a, freq := 1362000, symRate := 27500, profile := 0, expected := none, excluded := false }

/-- A state with a staged plan. -/
def staging (p : Plan) : State := s0.setPlan { s0.plan with staged := some p }

def fields0 : CarrierFields := { symRate := 27500, profile := 0, idPresent := 0, origin := 0, transport := 0, excluded := 0 }

def input0 : InputEdit :=
  { input := 0, cls := 2, bias := 10, discovery := 1, windowPresent := 1, winMin := 500, winMax := 850 }

def bind0 : BindEdit :=
  { room := 3, primaryPresent := 1, primaryOrigin := 1210, primaryNumber := 305, fallbackPresent := 0,
    fallbackOrigin := 0, fallbackNumber := 0, priority := 0 }

def profile0 : ProfileEdit := { profile := 0, modulation := 0, codeRate := 3, reqMer := 55, lockTimeout := 800, k := 13 }

/-- Watch 2 of the manual's worked sequence. -/
def watch0 : WatchEdit :=
  { watch := 2, kind := 0, subject := 9, action := 1, statePresent := 0, state := 0, marginPresent := 1, margin := 40,
    scorePresent := 0, score := 0, selectionChanged := 0, routePresent := 0, route := 0 }

def carrierName0 : CarrierName := { form := 0, target := 0, freq := 1362000 }

/-! ## Terms that fit no field -/

theorem test_wf_inputEdit :
    [{ input0 with input := 256 }, { input0 with cls := 256 }, { input0 with bias := 128 }, { input0 with bias := -129 },
      { input0 with discovery := 256 }, { input0 with windowPresent := 256 }, { input0 with winMin := 65536 },
      { input0 with winMax := 65536 }].all (fun e => !e.wf) = true := by decide

theorem test_wf_profileEdit :
    [{ profile0 with profile := 256 }, { profile0 with modulation := 256 }, { profile0 with codeRate := 256 },
      { profile0 with reqMer := 65536 }, { profile0 with lockTimeout := 65536 }, { profile0 with k := 256 }].all
        (fun e => !e.wf) = true := by decide

theorem test_wf_carrierFields :
    [{ fields0 with symRate := 65536 }, { fields0 with profile := 256 }, { fields0 with idPresent := 256 },
      { fields0 with origin := 65536 }, { fields0 with transport := 65536 }, { fields0 with excluded := 256 }].all
        (fun f => !f.wf) = true := by decide

theorem test_wf_carrierName :
    [{ carrierName0 with form := 256 }, { carrierName0 with target := 256 },
      { carrierName0 with freq := 4294967296 }].all (fun n => !n.wf) = true := by decide

theorem test_wf_bindEdit :
    [{ bind0 with room := 256 }, { bind0 with primaryPresent := 256 }, { bind0 with primaryOrigin := 65536 },
      { bind0 with primaryNumber := 65536 }, { bind0 with fallbackPresent := 256 }, { bind0 with fallbackOrigin := 65536 },
      { bind0 with fallbackNumber := 65536 }, { bind0 with priority := 256 }].all (fun e => !e.wf) = true := by decide

theorem test_wf_watchEdit :
    [{ watch0 with watch := 256 }, { watch0 with kind := 256 }, { watch0 with subject := 65536 },
      { watch0 with action := 256 }, { watch0 with statePresent := 256 }, { watch0 with state := 256 },
      { watch0 with marginPresent := 256 }, { watch0 with margin := 32768 }, { watch0 with margin := -32769 },
      { watch0 with scorePresent := 256 }, { watch0 with score := 65536 }, { watch0 with selectionChanged := 256 },
      { watch0 with routePresent := 256 }, { watch0 with route := 256 }].all (fun e => !e.wf) = true := by decide

theorem test_wf_commands :
    [HostCommand.setNotices 256, .getCarrier 256, .listCarriers 256, .getService 256, .listServices 256, .getRoom 256,
      .getSlot 256, .surveyNow 256, .setSurveyMode 256, .slotOffline 256, .slotOnline 256,
      .setInput { input0 with input := 256 }, .setProfile { profile0 with profile := 256 }, .addCarrier 256 0 fields0,
      .addCarrier 0 4294967296 fields0, .dropCarrier { carrierName0 with form := 256 },
      .setCarrier { carrierName0 with form := 256 } fields0, .setCarrier carrierName0 { fields0 with profile := 256 },
      .bindRoom { bind0 with room := 256 }, .unbindRoom 256, .setParams 256 0, .setParams 0 65536,
      .setWatch { watch0 with watch := 256 }, .clearWatch 256, .ackWatch 256, .setAlertMode 256].all
        (fun c => !c.wf && !(rowOf c).wf) = true := by decide

theorem test_wf_sections :
    [SectionBody.identity { origin := 65536, transport := 0, listAnnounced := false },
      .identity { origin := 0, transport := 65536, listAnnounced := false }, .serviceList 0 0 [65536],
      .carrierList 0 0 [{ cls := some .disabled, freq := 0, symRate := 0, hint := none }]].all
        (fun b => !b.wf && !(Instr.sectionReceived 0 { passed := true, body := b }).wf) = true := by decide

theorem test_wf_symbol : (Instr.symbolDelivered 0 1048576).wf = false := by decide

theorem test_ill_formed_refused : exec (.symbolDelivered 0 1048576) s0 = .refused .illFormed := rfl

theorem test_ill_formed_command_refused : exec (.getSlot 256) s0 = .refused .illFormed := rfl

/-! ## The manual's worked cases (chapter 1) -/

/-- A satellite carrier at 19.9 dB: ACC 163,840 with k = 13 gives Q 1638, L 106 and MER 199. -/
theorem test_mer_satellite : quotientQ 12 163840 = 1638 ∧ logL 1638 = 106 ∧ merOf 13 163840 = 199 := by decide

/-- A weak terrestrial carrier: ACC 4,194,304 with k = 14 gives Q 64, L 32 and MER 60. -/
theorem test_mer_terrestrial : quotientQ 12 4194304 = 64 ∧ logL 64 = 32 ∧ merOf 14 4194304 = 60 := by decide

/-- The spot values of R11's table. -/
theorem test_mer_spots : [16, 32, 160, 1600, 16000, 65535, 17, 0].map merOfQ = [0, 30, 100, 199, 299, 359, 2, 0] := by decide

def history190 : List HistoryPoint :=
  [{ time := 100, margin := 160 }, { time := 130, margin := 150 }, { time := 160, margin := 150 },
    { time := 190, margin := 144 }]

def inputA : InputCfg := { cls := .satellite, bias := 10, winMin := 500, winMax := 850, discovery := true }

/-- The satellite case: slope −10, score 788, interval 600. -/
theorem test_score_satellite :
    slopeOf history190 = -10 ∧ scoreOf 144 0 (some 612) history190 inputA = 788
      ∧ intervalOf Params.reset 144 (fallOf history190) = 600 := by decide

/-- The terrestrial case: margin −70, 20 blocks, no level: score 60, interval 10. -/
theorem test_score_terrestrial :
    scoreOf (marginOf 60 130) 20 none [{ time := 0, margin := -70 }]
        { cls := .terrestrial, bias := 0, winMin := 450, winMax := 800, discovery := false } = 60
      ∧ intervalOf Params.reset (-70) 0 = 10 := by decide

/-- R23's table of delays with the default parameters. -/
theorem test_backoff : [1, 2, 3, 4, 5, 6, 7].map (backoffOf Params.reset) = [20, 40, 80, 160, 320, 600, 600] := by decide

/-! ## Frames (R163, R165, R173), written out byte by byte -/

/-- The READY notice of a power-on reset: KIND 3, CODE 0x80, six bytes of payload. -/
theorem test_ready_frame :
    (after .transmitStart s0).link.sending =
      some [0xC5#8, 0x03#8, 0x80#8, 0x06#8, 0x00#8, 0x00#8, 0x16#8, 0x08#8, 0x01#8, 0x00#8, 0x58#8] := by decide

/-- IDENTIFY as bytes: the sum of bytes 1 to 4 is 0 modulo 256. -/
theorem test_identify_bytes :
    ([0xC5#8, 0x01#8, 0x10#8, 0x00#8, 0xEF#8].foldl (fun s b => after (.byteReceived b) s) s0).link.buffer =
      [{ code := 0x10, payload := [] }] := by decide

/-- ADD_CARRIER on input B at 1,362,000 kHz, 27,500 kSym/s, profile 1, no identity, not excluded. -/
theorem test_add_carrier_frame :
    parseCommand
        { code := 0x42,
          payload := [0x01#8, 0x50#8, 0xC8#8, 0x14#8, 0x00#8, 0x6C#8, 0x6B#8, 0x01#8, 0x00#8, 0#8, 0#8, 0#8, 0#8, 0#8] } =
      .ok (.addCarrier 1 1362000 { fields0 with profile := 1 }) := by decide

/-- SET_INPUT with a bias of −50, coded as two's complement. -/
theorem test_set_input_frame :
    parseCommand { code := 0x40, payload := [0#8, 2#8, 0xCE#8, 1#8, 0#8, 0#8, 0#8, 0#8, 0#8] } =
      .ok (.setInput { input := 0, cls := 2, bias := -50, discovery := 1, windowPresent := 0, winMin := 0, winMax := 0 }) := by
  decide

theorem test_bad_length : parseCommand { code := 0x20, payload := [] } = .error .badLength := by decide

theorem test_unknown_command : parseCommand { code := 0x16, payload := [] } = .error .unknownCommand := by decide

/-- A byte 0xC5 inside a frame is data, and a wrong check byte discards the frame with CHECK_FAILED. -/
theorem test_check_failed :
    let l := ([0xC5#8, 0x01#8, 0x20#8, 0x01#8, 0xC5#8, 0x00#8].foldl (fun s b => after (.byteReceived b) s) s0).link
    l.buffer = [] ∧ l.rx = .hunt ∧ l.flags.checkFailed = true := by decide

/-! ## One step of commands and events -/

theorem test_identify :
    (after .identify s0).link.reply =
      some
        { code := 0x10,
          payload :=
            [0#8, 0#8, 0x16#8, 0x08#8, 1#8, 0#8, 0#8, 0#8, 0#8, 0#8, 0x00#8, 0xC2#8, 0x01#8] } := by decide

theorem test_get_carrier_absent : (after (.getCarrier 3) s0).link.reply = some { code := 0x20, payload := [5#8, 0#8] } := by
  decide

theorem test_slot_offline : ((after (.slotOffline 7) s0).slot 7).state = .offline := by decide

theorem test_slot_online_no_change :
    (after (.slotOnline 7) s0).link.reply = some { code := 0x34, payload := [2#8, 0#8] } := by decide

theorem test_set_input_clamps :
    (((after (.setInput { input0 with bias := -60 }) s0).plan.staged.map fun p => (p.inputs[0]).bias) = some (-50))
      ∧ ((after (.setInput { input0 with bias := -60 }) s0).link.reply.map (·.payload)) = some [1#8, 0#8] := by decide

theorem test_add_carrier_out_of_band :
    (after (.addCarrier 0 1362000 fields0) s0).link.reply = some { code := 0x42, payload := [7#8, 0#8] } := by decide

theorem test_set_params_lowers_interval :
    ((after (.setParams 5 60) (staging { Plan.reset with params := { Params.reset with minInterval := 300 } })).plan.staged.map
      fun p => (p.params.maxAge, p.params.minInterval)) = some (60, 60) := by decide

theorem test_discard_without_staging :
    (after .discardPlan s0).link.reply = some { code := 0x49, payload := [2#8, 0#8] } := by decide

/-- A window of k = 13 takes q = 41 as 20 (the worked case). -/
theorem test_symbol_shifted :
    ((after (.symbolDelivered 0 41) (working (worker .locked .survey) .verified)).slot 0).meas.acc = 20 := by decide

theorem test_block_counts :
    ((after (.blockReport 0) (working (worker .locked .survey) .verified)).slot 0).meas.u = 1 := by decide

theorem test_lock_gained :
    ((after (.lockGained 0) (working (staged (worker .tuning .carry) .lockWait) .acquiring)).slot 0).state = .acquiring := by
  decide

theorem test_lock_timeout_fails :
    ((after (.lockTimeout 0) (working (staged (worker .tuning .carry) .lockWait) .acquiring)).carrier 0).map
        (fun c => (c.state, c.failCause, c.failCount, c.nextDue, c.hold)) =
      some (.failed, some .noLock, 1, 20, none) := by decide

theorem test_carried_lock_loss :
    let t := after (.lockLoss 0) (working (worker .locked .carry) .verified)
    ((t.slot 0).state, (t.slot 0).retune, (t.carrier 0).map (·.state)) = (.tuning, 1, some .lost) := by decide

theorem test_pulse_end :
    (after .pulseTimerEnd (s0.setWatches { s0.watches with alert := true, pulseTimer := some 0 })).watches.alert = false := by
  decide

/-- R173: READY goes before a reply that waits. -/
theorem test_ready_before_reply :
    (after .transmitStart (s0.setLink { s0.link with reply := some { code := 0x10, payload := [] } })).link.sending =
      (after .transmitStart s0).link.sending := by decide

/-- R160: a pulse extended to a full 250 ms outlasts an end that was due before. -/
theorem test_pulse_extended :
    (after .pulseTimerEnd (s0.setWatches { s0.watches with alert := true, pulseTimer := some 250 })).watches.alert = true := by
  decide

/-- R44: an end that was due before the reference was granted on ends no calibration. -/
theorem test_calibration_granted_on :
    let s := s0.setReference { holder := some 0, queue := [], timer := some 40 }
    (after .calibrationEnd s).reference = s.reference := by decide

/-- R118's worked step: a request answered PENDING on a free slot tunes S0. -/
theorem test_grant_tunes :
    let t := after (.grantRequest 0)
      (asking false (s0.setCarriers [(0, scored 690 (entry .verified none)), (1, scored 600 (entry .verified none))]))
    ((t.slot 0).role, (t.service 0).map (·.target)) = (.carry, some (some 0)) := by decide

/-! ## Witnesses: for each statement, states and operands that meet its hypotheses -/

theorem ready_s0 : Ready s0 := ⟨rfl, rfl, rfl, rfl⟩

/-- A state with one change of the link. -/
def linked (f : Link → Link) : State := s0.setLink (f s0.link)

def replied : State := linked fun l => { l with reply := some { code := 0x10, payload := [] } }

def restartDue : State := linked fun l => { l with restart := .due }

def inReset : State := after .powerOn s0

theorem witness_StepTakesTheFront : (s0.setPending [.thaw]).pending = .thaw :: [] := rfl

theorem witness_IdleStepIsATick :
    (s0.pending = [] ∧ s0.clock.inReset = false) ∧ (inReset.pending = [] ∧ inReset.clock.inReset = true) := by decide

def atSecond (n : Nat) : State := s0.setClock { s0.clock with now := n }

theorem witness_SecondCountAdvances :
    (atSecond 4294967294).clock.inReset = false ∧ (atSecond 4294967294).clock.now < 4294967295
      ∧ (atSecond 4294967295).clock.now = 4294967295 := by decide

theorem witness_ResetsEnd :
    inReset.clock.inReset = true ∧ (restartDue.clock.inReset = false ∧ restartDue.link.restart = .due)
      ∧ (s0.clock.inReset = false ∧ s0.link.restart ≠ .due) := by decide

theorem witness_ResetEnds : ResetEnds inReset (after (.resetRelease false) inReset) := ⟨false, .inl ⟨rfl, rfl⟩⟩

theorem witness_BlocksAfterReset : ResetEnds inReset (after (.resetRelease true) inReset) := ⟨true, .inl ⟨rfl, rfl⟩⟩

theorem witness_RoomsAndWatchesAfterReset : ResetEnds restartDue (after (.restartTakesEffect true) restartDue) :=
  ⟨true, .inr ⟨rfl, rfl, rfl⟩⟩

theorem witness_NothingHappensInReset :
    inReset.clock.inReset = true ∧ Instr.thaw.wf = true ∧ Instr.thaw ≠ .powerOn ∧ Instr.thaw ≠ .resetAssert
      ∧ ∀ b : Bool, Instr.thaw ≠ .resetRelease b := by decide

theorem witness_CommandFramesRoundTrip :
    (HostCommand.setParams 255 65535).wf = true ∧ (HostCommand.setInput { input0 with bias := -128 }).wf = true := by decide

theorem witness_FrameBytesArriveAsTheFrame :
    s0.link.rx = .hunt ∧ (List.replicate 240 0#8).length ≤ 240 ∧ ([] : List Byte).length ≤ 240 := by decide

def receiving (p : RxPhase) (gap : Option Nat) : State := linked fun l => { l with rx := p, gap := gap }

theorem witness_ReceiverPhases :
    (s0.clock.inReset = false ∧ s0.link.rx = .hunt ∧ ∀ g, s0.link.gap = some g → g ≤ 50)
      ∧ ((receiving .headerKind (some 50)).link.rx = .headerKind ∧ (receiving .headerKind (some 50)).link.gap = some 50)
      ∧ (receiving (.headerCode 1#8) (some 0)).link.rx = .headerCode 1#8
      ∧ (receiving (.headerLength 1#8 0x20#8) (some 0)).link.rx = .headerLength 1#8 0x20#8
      ∧ (240 < (241#8 : Byte).toNat ∧ (0#8 : Byte).toNat = 0 ∧ 1 ≤ (1#8 : Byte).toNat ∧ (240#8 : Byte).toNat ≤ 240)
      ∧ (receiving (.payload 1#8 0x13#8 2 []) (some 0)).link.rx = .payload 1#8 0x13#8 2 []
      ∧ (([] : List Byte).length + 1 < 2 ∧ 1 ≤ ([] : List Byte).length + 1)
      ∧ (receiving (.check 1#8 0x10#8 0 []) (some 0)).link.rx = .check 1#8 0x10#8 0 []
      ∧ (1#8 + 0x10#8 + 0#8) + 0xEF#8 = 0#8 ∧ ((receiving .headerKind (some 51)).link.gap = some 51 ∧ 50 < 51) := by
  refine ⟨⟨rfl, rfl, fun g h => by cases h⟩, ?_⟩
  decide

def frame0 : Frame := { code := 0x10, payload := [] }

def buffered (fs : List Frame) : State := linked fun l => { l with buffer := fs }

theorem witness_ReceiveBufferTakesTwoFrames :
    (buffered [frame0]).link.buffer.length < 2 ∧ 2 ≤ (buffered [frame0, frame0]).link.buffer.length
      ∧ (buffered [frame0, frame0]).link.buffer.length ≤ 2
      ∧ step (buffered [frame0, frame0]) = .next (tick (buffered [frame0, frame0]))
      ∧ (buffered [frame0]).clock.inReset = false ∧ (buffered [frame0]).link.reply = none
      ∧ (buffered [frame0]).link.restart = .none ∧ (buffered [frame0]).link.buffer = frame0 :: [] :=
  ⟨by decide, by decide, by decide, rfl, rfl, rfl, rfl, rfl⟩

theorem witness_CommandUnitAnswersTheOldestFrame :
    ((buffered [frame0]).clock.inReset = false ∧ (buffered [frame0]).link.buffer = [frame0]
      ∧ (buffered [frame0]).link.reply = none ∧ (buffered [frame0]).link.restart = .none
      ∧ parseCommand frame0 = .ok .identify)
      ∧ layoutOf 0x16 = none ∧ (layoutOf 0x20 = some [1] ∧ ([] : List Byte).length ≠ [1].sum)
      ∧ s0.link.buffer = [] ∧ replied.link.reply ≠ none ∧ restartDue.link.restart ≠ .none ∧ HostCommand.thaw.wf = true
      ∧ Ready s0 := by
  unfold Ready
  decide

def sending : State := linked fun l => { l with sending := some [] }

def slotNotice (i : Nat) : Notice := { kind := .slot, subject := i, content := [] }

/-- A reply waits, and a notice that is not READY. -/
def answering : State :=
  linked fun l => { l with reply := some { code := 0x10, payload := [] }, notices := [slotNotice 0] }

theorem witness_TransmitterSendsTheReplyFirst :
    s0.clock.inReset = false
      ∧ (replied.link.sending = none ∧ replied.link.restart ≠ .due ∧ replied.link.reply.isSome = true
        ∧ replied.link.notices.map (·.kind) = [.ready])
      ∧ (answering.link.reply.isSome = true ∧ answering.link.sending = none ∧ answering.link.restart ≠ .due
        ∧ answering.link.notices.map (·.kind) = [.slot])
      ∧ (s0.link.sending = none ∧ s0.link.restart ≠ .due ∧ s0.link.reply = none ∧ s0.link.notices ≠ [])
      ∧ sending.link.sending ≠ none := by decide

def queued (n : Nat) : State := linked fun l => { l with notices := (List.range n).map slotNotice }

theorem witness_NoticeQueue :
    (linked fun l => { l with mask := 0#8 }).link.mask.getLsbD 6 = false
      ∧ (s0.link.mask.getLsbD 6 = true ∧ (queued 1).link.notices = [] ++ slotNotice 0 :: []
        ∧ ∀ x ∈ ([] : List Notice) ++ [], ¬ (x.kind = .slot ∧ x.subject = 0))
      ∧ (32 ≤ (queued 32).link.notices.length ∧ ∀ x ∈ (queued 32).link.notices, ¬ (x.kind = .slot ∧ x.subject = 32))
      ∧ ((queued 31).link.notices.length < 32 ∧ ∀ x ∈ (queued 31).link.notices, ¬ (x.kind = .slot ∧ x.subject = 32)) := by
  decide

theorem witness_NoticeLaw : NoticeLaw (queued 32).link := by unfold NoticeLaw; decide

theorem witness_HostRowsGoThroughTheLink :
    HostCommand.thaw.wf = true ∧ s0.clock.inReset = false ∧ replied.link.reply ≠ none ∧ replied.link.buffer.length < 2
      ∧ (buffered [frame0, frame0]).link.buffer ≠ [] ∧ 2 ≤ (buffered [frame0, frame0]).link.buffer.length := by decide

theorem witness_EveryCommandCompletes : Instr.thaw.wf = true ∧ (Instr.getSlot 256).wf = false := by decide

theorem witness_IdentityStatusAndRestart : Ready s0 := ready_s0

theorem witness_FreezeAndThaw :
    Ready (after .freeze s0 |>.setLink { (after .freeze s0).link with reply := none })
      ∧ (after .freeze s0).link.frozen ≠ none ∧ s0.link.frozen = none := ⟨⟨rfl, rfl, rfl, rfl⟩, by decide, rfl⟩

/-- Carriers at both ends of the table. -/
def twoCarriers : Table Carrier :=
  [(0, entry .verified none), (95, { entry .verified none with freq := 1400000, planned := false, discovered := true })]

def tabled : State := s0.setCarriers twoCarriers

theorem ready_tabled : Ready tabled := ⟨rfl, rfl, rfl, rfl⟩

theorem carrierLaw_tabled : CarrierLaw tabled.carriers := by unfold CarrierLaw; decide

theorem witness_GetCarrierLayout :
    (95 < 96 ∧ tabGet tabled.carriers 94 = none ∧ tabGet tabled.carriers 95 ≠ none ∧ 95 ≤ 95)
      ∧ history190.length ≤ 4 := by decide

theorem witness_ServiceAndListQueries :
    96 < 256 ∧ 95 < 96 ∧ 95 ≤ 95
      ∧ (tabGet (s0.setServices [(255, svc .unavailable none)]).services 254 = none
        ∧ tabGet (s0.setServices [(255, svc .unavailable none)]).services 255 ≠ none) := by decide

theorem witness_GetRoomAnswersTheRecord : 47 < 48 ∧ 48 < 256 ∧ 47 < 48 := by decide

theorem witness_GetSlotAnswersTheRecord : 7 < 8 ∧ 8 < 256 ∧ 7 < 8 := by decide

def urgent (n : Nat) : State := tabled.setSched { tabled.sched with urgent := (List.range n).map (· + 1) }

theorem witness_SurveyNowAndModes :
    (95 < 96 ∧ tabGet tabled.carriers 1 = none)
      ∧ (tabGet (working (worker .locked .carry) .excluded).carriers 0).map (·.state) = some .excluded
      ∧ (tabGet (working (worker .locked .carry) .verified).carriers 0).bind (·.hold) = some (holdOf true)
      ∧ ((tabGet (urgent 8).carriers 0).map (·.state) = some .verified ∧ 0 ∉ (urgent 8).sched.urgent
        ∧ 8 ≤ (urgent 8).sched.urgent.length)
      ∧ ((urgent 7).sched.urgent.length < 8 ∧ 0 ∉ (urgent 7).sched.urgent ∧ 7 ∈ (urgent 7).sched.urgent)
      ∧ s0.sched.mode = .run ∧ (s0.setSched { s0.sched with mode := .hold }).sched.mode = .hold ∧ 2 < 256 := by decide

theorem witness_ClearSurveyClearsWhatIsNotCarried :
    (twoCarriers.map fun e => (e.2.hold, e.2.planned, e.2.removalPending)) = [(none, true, false), (none, false, false)]
      ∧ ((working (worker .locked .carry) .verified).carrier 0).bind (·.hold) = some (holdOf true)
      ∧ (working (worker .locked .carry) .verified).sched.surveys[0] = none := by decide

def slotIn (st : SlotState) : State := putSlot 0 { Slot.reset with state := st } s0

theorem witness_SlotsGoOfflineAndOnline :
    8 < 256 ∧ (slotIn .offline).slot 0 = { Slot.reset with state := .offline } ∧ (s0.slot 0).state = .parked
      ∧ ((slotIn .idle).slot 0).state = .idle ∧ ((slotIn .releasing).slot 0).state = .releasing
      ∧ ([SlotState.tuning, .acquiring, .locked].map fun st =>
          ((working (worker st .carry) .verified).slot 0).state) = [.tuning, .acquiring, .locked] := by decide

theorem witness_EditsTouchOnlyTheStagedPlan :
    (HostCommand.setParams 9 5).wf = true ∧ 0x40 ≤ (fieldsOf (.setParams 9 5)).1 ∧ (fieldsOf (.setParams 9 5)).1 ≤ 0x47 := by
  decide

/-- A plan with the worked case's carrier on input A. -/
def plan0 : Plan := { Plan.reset with inputs := Plan.reset.inputs.set 0 inputA, carriers := [planned0] }

theorem witness_InputAndProfileEdits :
    input0.wf = true ∧ { input0 with input := 4 }.wf = true ∧ { input0 with cls := 4 }.wf = true
      ∧ inputOf 0 = some .a ∧ classOf 1 = some .terrestrial ∧ classOf 2 = some .satellite
      ∧ (∃ q ∈ plan0.carriers, q.input = .a ∧ ¬ (174000 ≤ q.freq ∧ q.freq ≤ 862000))
      ∧ (∀ q ∈ plan0.carriers, q.input = .a → 950000 ≤ q.freq ∧ q.freq ≤ 2150000)
      ∧ profile0.wf = true ∧ { profile0 with profile := 8 }.wf = true ∧ { profile0 with modulation := 7 }.wf = true
      ∧ { profile0 with codeRate := 10 }.wf = true ∧ modulationOf 6 = some .ofdm64 ∧ codeRateOf 9 = some .noRate := by
  decide

theorem witness_PlannedCarrierEdits :
    fields0.wf = true ∧ carrierName0.wf = true
      ∧ inBand (plan0.inputs[inputCode .a]).cls 2310000 = false ∧ inBand (plan0.inputs[inputCode .a]).cls 2150000 = true
      ∧ (∃ q ∈ plan0.carriers, q.input = .a ∧ q.freq = 1362000) ∧ (¬ ∃ q ∈ plan0.carriers, q.input = .a ∧ q.freq = 950000)
      ∧ 96 ≤ (List.replicate 96 planned0).length ∧ plan0.carriers.length < 96
      ∧ (carrierName0.form = 0 ∧ inputOf carrierName0.target = some .a)
      ∧ (3 < { carrierName0 with target := 4 }.target ∧ 95 < 96 ∧ tabGet tabled.carriers 1 = none)
      ∧ (tabGet tabled.carriers 95).map (·.freq) = some 1400000 := by decide

theorem witness_BindingAndParameterEdits :
    bind0.wf = true ∧ bind0.room ≤ 47 ∧ { bind0 with room := 48 }.wf = true
      ∧ flagOf bind0.primaryPresent = true ∧ flagOf bind0.fallbackPresent = false
      ∧ { bind0 with primaryPresent := 0 }.wf = true
      ∧ ((plan0.bindings[(47 : Fin 48)]).primary = none ∧ (plan0.bindings[(47 : Fin 48)]).fallback = none)
      ∧ (plan0.bindings.set 47 { primary := some key305, fallback := none, priority := 0 })[(47 : Fin 48)].primary ≠ none
      ∧ 48 < 256 ∧ 10 < 256 ∧ 9 < 10 := by decide

theorem ready_staging (p : Plan) : Ready (staging p) := ⟨rfl, rfl, rfl, rfl⟩

/-- 96 unheld carriers planned beside the one held. -/
def fullPlan : Plan := { plan0 with carriers := (List.range 96).map fun n => { planned0 with freq := 1400000 + n } }

theorem witness_CommitAndDiscard :
    s0.plan.staged = none ∧ (staging plan0).plan.staged = some plan0 ∧ (staging Plan.reset).plan.committed = Plan.reset
      ∧ plan0 ≠ (staging plan0).plan.committed ∧ evictions plan0 (staging plan0).carriers = some []
      ∧ evictions fullPlan (working (worker .locked .carry) .verified).carriers = none
      ∧ evictions fullPlan [(0, { entry .verified (some (holdOf true)) with planned := false, discovered := true })] = none := by
  decide

theorem witness_CapacityAtCommit :
    evictions fullPlan [(95, { entry .verified none with planned := false, discovered := true })] = some [95] := by decide

/-! ### Watches -/

/-- An alert watch on the state of any carrier, latched or not. -/
def stateWatch (latched : Bool) : Watch :=
  { Watch.reset with stateEq := some (.carrier .failed), alert := true, latched := latched }

/-- The part with that watch at place 0, in a mode. -/
def watching (mode : AlertMode) (latched : Bool) : State :=
  s0.setWatches { s0.watches with mode := mode, entries := s0.watches.entries.set 0 (stateWatch latched) }

theorem ready_watching (mode : AlertMode) (latched : Bool) : Ready (watching mode latched) := ⟨rfl, rfl, rfl, rfl⟩

theorem witness_SetWatchReplacesTheEntry :
    watch0.wf = true ∧ 15 < { watch0 with watch := 16 }.watch ∧ { watch0 with watch := 16 }.wf = true
      ∧ { watch0 with subject := 96 }.wf = true ∧ { watch0 with subject := 0xFFFF }.wf = true
      ∧ { watch0 with kind := 4 }.wf = true ∧ { watch0 with action := 2 }.wf = true
      ∧ (flagOf watch0.marginPresent = true ∧ watch0.kind = 0 ∧ flagOf watch0.statePresent = false)
      ∧ subjectKindOf watch0.kind = some .carrier ∧ 359 < { watch0 with margin := 360 }.margin
      ∧ ¬ (watch0.margin < -350 ∨ 359 < watch0.margin)
      ∧ (watching .pulse true).watches.mode = .pulse ∧ (watching .pulse true).watches.entries[0].latched = true
      ∧ (watching .pulse false).watches.entries[0].latched = false ∧ s0.watches.mode = .level := by decide

theorem witness_ClearAndAckWatch :
    (15 < 16 ∧ 16 ≠ 255 ∧ 254 < 256 ∧ 255 < 256)
      ∧ ((watching .level true).watches.mode = .level ∧ (watching .pulse true).watches.mode = .pulse)
      ∧ (watching .pulse true).watches.entries[0].latched = true
      ∧ (watching .pulse true).watches.entries[0].alert = true ∧ (watching .pulse true).watches.entries[0].active = true
      ∧ (∀ j : Fin 16, s0.watches.entries[j].latched = false ∧ s0.watches.entries[j].active = false) := by decide

theorem witness_AlertModes :
    s0.watches.mode = .level ∧ (watching .pulse true).watches.mode = .pulse ∧ 255 < 256
      ∧ (s0.setWatches { s0.watches with pulseTimer := some 0 }).watches.pulseTimer = some 0
      ∧ (s0.setWatches { s0.watches with pulseTimer := some 250 }).watches.pulseTimer ≠ some 0
      ∧ s0.watches.pulseTimer ≠ some 0 := by decide

/-- A carrier that was VERIFIED is FAILED: the watch of `watching` fires and its notice is queued. -/
theorem witness_WatchFires :
    let view (st : CarrierState) : View := carrierView (entry st none)
    let t := handPair .carrier 95 (some (view .verified)) (some (view .failed)) (watching .pulse false)
    t.watches.entries[0].latched = true ∧ t.watches.alert = true ∧ t.watches.pulseTimer = some 250
      ∧ (watching .pulse false).link.mask.getLsbD 5 = true ∧ (watching .pulse false).link.notices.length ≤ 16 := by decide

/-! ### Slots -/

/-- The part with slot 0 as `r`. -/
def withSlot (r : Slot) : State := putSlot 0 r s0

/-- Slot 0 RELEASING, kept for the arbiter or not. -/
def freed (held : Bool) : Slot := { Slot.reset with state := .releasing, power := .on, heldForRouter := held, releaseTimer := some 0 }

/-- A carry record waits for slot 0. -/
def awaited : State :=
  ((withSlot (freed true)).setCarriers [(0, entry .verified none)]).setRouter
    { s0.router with records := [{ carrier := 0, slot := 0, phase := .waitingSlot }] }

theorem witness_SlotTimersEnd :
    let unparking := withSlot { worker .tuning .carry with power := .unparking, unparkTimer := some 0 }
    let idle := withSlot { Slot.reset with state := .idle, parkTimer := some 0 }
    ((unparking.slot 0).state = .tuning ∧ (unparking.slot 0).power = .unparking ∧ (unparking.slot 0).unparkTimer = some 0
      ∧ (unparking.slot 0).lockTimeout = some 800)
      ∧ ((withSlot { freed false with offlinePending := true }).slot 0).offlinePending = true
      ∧ (((withSlot (freed false)).slot 0).heldForRouter = false ∧ ((withSlot (freed false)).slot 0).releaseTimer = some 0)
      ∧ (((withSlot (freed true)).slot 0).heldForRouter = true ∧ (withSlot (freed true)).router.records = [])
      ∧ (awaited.router.records = [{ carrier := 0, slot := 0, phase := .waitingSlot }]
        ∧ (awaited.carrier 0).isSome = true ∧ ∀ j, (awaited.slot j).carrier ≠ some 0)
      ∧ ((idle.slot 0).state = .idle ∧ (idle.slot 0).parkTimer = some 0) ∧ (s0.slot 0).state ≠ .releasing := by decide

theorem holds_working (r : Slot) (st : CarrierState) (h : r.carrier = some 0) :
    ActivelyHolds (working r st) 0 0 (entry st (some (holdOf (decide (r.role = .carry))))) :=
  ⟨h, rfl, decide (r.role = .carry), rfl⟩

/-- Slot 0 on a re-tune attempt. -/
def retuning (n : Nat) (role : Role) : Slot := { worker .tuning role with retune := n, retuneTimer := some 0 }

theorem witness_LockGained :
    ((working (staged (worker .tuning .carry) .lockWait) .acquiring).slot 0).chan.stage = .lockWait
      ∧ ActivelyHolds (working (retuning 1 .carry) .lost) 0 0 (entry .lost (some (holdOf true)))
      ∧ 0 < ((working (retuning 1 .carry) .lost).slot 0).retune ∧ (s0.slot 0).state ≠ .tuning :=
  ⟨by decide, holds_working _ _ rfl, by decide, by decide⟩

theorem reference_working (r : Slot) (st : CarrierState) : ReferenceLaw (working r st).slots (working r st).reference := by
  refine ⟨List.nodup_nil, fun i h => ?_, fun i h => ?_⟩
  · cases h
  · rcases h with h | h <;> cases h

/-- Each of the ways to fail, on slot 0 with the carrier of the worked case. -/
theorem witness_FailuresReleaseTheSlot :
    let other : Identity := { origin := 1211, transport := 7, listAnnounced := false }
    let expects (r : Slot) (st : CarrierState) : State :=
      (working r st).setCarriers
        [(0, { entry st (some (holdOf false)) with expected := some { origin := 1210, transport := 7 } })]
    FailsWith (working (staged (worker .tuning .carry) .lockWait) .acquiring) 0 (.lockTimeout 0) .noLock
      ∧ FailsWith (working (retuning 3 .carry) .lost) 0 (.retuneTimeout 0) .noLock
      ∧ FailsWith (working (worker .acquiring .carry) .acquiring) 0 (.lockLoss 0) .noLock
      ∧ FailsWith (working (worker .locked .survey) .verified) 0 (.lockLoss 0) .noLock
      ∧ FailsWith (working (staged (worker .acquiring .survey) .idWait) .acquiring) 0 (.idTimeout 0) .noId
      ∧ FailsWith (working (staged (worker .acquiring .survey) .svcWait) .acquiring) 0 (.svcTimeout 0) .noServices
      ∧ FailsWith (working (staged (worker .locked .carry) .recheckId) .verified) 0 (.recheckIdTimeout 0) .noId
      ∧ FailsWith (working (staged (worker .locked .carry) .recheckSvc) .verified) 0 (.recheckSvcTimeout 0) .noServices
      ∧ FailsWith (expects (staged (worker .acquiring .survey) .idWait) .acquiring) 0
          (.sectionReceived 0 { passed := true, body := .identity other }) .idMismatch
      ∧ FailsWith (expects (staged (worker .locked .survey) .recheckId) .verified) 0
          (.sectionReceived 0 { passed := true, body := .identity other }) .idMismatch
      ∧ ActivelyHolds (working (retuning 3 .carry) .excluded) 0 0 (entry .excluded (some (holdOf true))) := by
  refine ⟨⟨rfl, rfl, by decide, rfl⟩, ⟨rfl, rfl, rfl, rfl, rfl⟩, ⟨rfl, rfl, .inl rfl⟩, ⟨rfl, rfl, .inr ⟨rfl, rfl⟩⟩,
    ⟨rfl, rfl, by decide⟩, ⟨rfl, rfl, by decide⟩, ⟨rfl, rfl, by decide⟩, ⟨rfl, rfl, by decide⟩, ?_, ?_,
    holds_working _ _ rfl⟩
  · exact ⟨rfl, rfl, rfl, rfl, .inl ⟨rfl, rfl⟩, 0, _, { origin := 1210, transport := 7 }, _, rfl, rfl, rfl, rfl, by decide⟩
  · exact ⟨rfl, rfl, rfl, rfl, .inr ⟨rfl, rfl⟩, 0, _, { origin := 1210, transport := 7 }, _, rfl, rfl, rfl, rfl, by decide⟩

theorem witness_CarriedLockLossRetunes :
    (((working (worker .locked .carry) .verified).slot 0).lockTimeout = some 800
      ∧ ((working (worker .locked .carry) .verified).slot 0).role = .carry)
      ∧ ActivelyHolds (working (worker .locked .carry) .verified) 0 0 (entry .verified (some (holdOf true)))
      ∧ (((withSlot (retuning 1 .carry)).slot 0).retune = 1 ∧ ((withSlot (retuning 2 .carry)).slot 0).retune = 2
        ∧ ((withSlot (retuning 2 .carry)).slot 0).lockTimeout = some 800
        ∧ ((withSlot (retuning 2 .carry)).slot 0).retuneTimer = some 0)
      ∧ (s0.slot 0).state ≠ .acquiring ∧ (s0.slot 0).state ≠ .locked :=
  ⟨by decide, holds_working _ _ rfl, by decide, by decide⟩

/-! ### Sections -/

def ident : Identity := { origin := 1210, transport := 7, listAnnounced := true }

/-- Slot 0 ACQUIRING in a stage, with an identity held and a service list formed. -/
def reading (st : Stage) : Slot :=
  let r := worker .acquiring .survey
  { r with chan := { r.chan with
      stage := st, timer := some 0, held := some ident,
      formed := some { keys := [key305], truncated := false } } }

/-- `working` with discovery enabled on input A. -/
def discovering (r : Slot) (st : CarrierState) : State :=
  let s := working r st
  s.setPlan { s.plan with
    committed := { s.plan.committed with inputs := s.plan.committed.inputs.set 0 inputA } }

theorem witness_SectionsTakenByTheStage :
    (SectionBody.identity ident).wf = true ∧ (SectionBody.serviceList 0 3 [305]).wf = true
      ∧ (SectionBody.carrierList 3 3 []).wf = true ∧ (SectionBody.serviceList 1 0 []).wf = true
      ∧ ((s0.slot 0).state ≠ .acquiring ∧ (s0.slot 0).state ≠ .locked)
      ∧ (((working (reading .idWait) .acquiring).slot 0).chan.stage = .idWait
        ∧ ((working (reading .idWait) .acquiring).carrier 0).map (·.expected) = some none)
      ∧ assemblyComplete (takePart 0 1 [305] (reading .svcWait).chan.services) = false
      ∧ assemblyComplete (takePart 0 0 [305] (reading .svcWait).chan.services) = true
      ∧ assemblyComplete (takePart 3 3 [] (reading .listWait).chan.listing) = false
      ∧ ((discovering (reading .svcWait) .acquiring).plan.committed.inputs[inputCode .a]).discovery = true
      ∧ ((discovering (reading .svcWait) .acquiring).slot 0).input = some .a ∧ ident.listAnnounced = true := by decide

theorem witness_AssembliesFormLists :
    let a : Assembly Nat := { last := some 3, parts := [(0, [305])] }
    (a.last = some 3 ∧ (∃ p ∈ a.parts, p.1 = 0) ∧ (∀ p ∈ a.parts, p.1 ≠ 3)) ∧ a.last ≠ some 2 := by decide

/-- The three ways to VERIFIED on slot 0. -/
theorem witness_VerificationLocksTheSlot :
    (((working (reading .listWait) .acquiring).slot 0).chan.stage = .listWait
      ∧ ((working (reading .listWait) .acquiring).slot 0).chan.formed = some { keys := [key305], truncated := false })
      ∧ (assemblyComplete (takePart 0 0 [305] (reading .svcWait).chan.services) = true
        ∧ (∀ n ∈ [305], n < 65536)
        ∧ ((working (reading .svcWait) .acquiring).plan.committed.inputs[inputCode .a]).discovery = false)
      ∧ assemblyComplete (takePart 0 0 [] (reading .listWait).chan.listing) = true
      ∧ (((working (reading .listWait) .acquiring).slot 0).chan.held = some ident
        ∧ ((working (reading .listWait) .acquiring).slot 0).role ≠ .none
        ∧ ((working (reading .listWait) .acquiring).slot 0).chan.timer = some 0)
      ∧ ActivelyHolds (working (reading .listWait) .acquiring) 0 0 (entry .acquiring (some (holdOf false)))
      ∧ CarrierLaw (working (reading .listWait) .acquiring).carriers :=
  ⟨by decide, by decide, by decide, by decide, holds_working _ _ rfl, by unfold CarrierLaw; decide⟩

/-- An entry of a carrier list, and a full table. -/
def listed (freq : Nat) (hint : Option Modulation) : ListEntry :=
  { cls := some .satellite, freq := freq, symRate := 27500, hint := hint }

def fullTable : Table Carrier := (List.range 96).map fun n => (n, { entry .verified none with freq := 1362000 + n })

theorem witness_DiscoveryAddsAndPrunes :
    CarrierLaw twoCarriers
      ∧ ((plan0.inputs[inputCode .a]).cls = .satellite ∧ inBand .satellite 2150000 = true ∧ inBand .satellite 949999 = false)
      ∧ (tabGet twoCarriers 0).map (fun c => (c.input, c.freq)) = some (.a, 1362000)
      ∧ (∀ q ∈ twoCarriers, ¬ (q.2.input = .a ∧ q.2.freq = 2150000))
      ∧ ((plan0.profiles[(1 : Fin 8)]).modulation = .psk8 ∧ (plan0.profiles[(0 : Fin 8)]).modulation ≠ .psk8)
      ∧ (listed 2150000 none).hint = none
      ∧ (tabGet twoCarriers 1 = none ∧ tabGet twoCarriers 0 ≠ none) ∧ tabWf 96 fullTable = true
      ∧ ∀ k ∈ List.range 96, (tabGet fullTable k).isSome = true := by
  refine ⟨carrierLaw_tabled, ?_⟩
  decide

/-- A lister that is held, with an entry it listed. -/
theorem witness_DiscoveryPrunes :
    let heard (planned : Bool) : Table Carrier :=
      [(0, entry .verified (some (holdOf true))),
        (1, { entry .verified none with freq := 1400000, planned := planned, discovered := true, lister := some 0 })]
    CarrierLaw (heard true) ∧ CarrierLaw (heard false) ∧ (∀ p, ∀ l, tabGet (heard p) 0 = some l → l.hold ≠ none)
      ∧ (tabGet (heard true) 1).map (fun c => (c.lister, c.discovered, c.planned)) = some (some 0, true, true) := by
  refine ⟨by unfold CarrierLaw; decide, by unfold CarrierLaw; decide, fun p l h => by cases p <;> cases h <;> decide, ?_⟩
  decide

/-- Slot 0 LOCKED in a stage of a re-check. -/
def rechecking (st : Stage) : Slot :=
  let r := worker .locked .carry
  { r with chan := { r.chan with stage := st, timer := some 1, held := some ident, recheckDue := decide (st = .none) } }

theorem witness_IdentityRecheck :
    (((working (rechecking .none) .verified).slot 0).chan.recheckDue = true
      ∧ ((working (rechecking .none) .verified).slot 0).state = .locked)
      ∧ ActivelyHolds (working (rechecking .recheckId) .verified) 0 0 (entry .verified (some (holdOf true)))
      ∧ ((rechecking .recheckId).chan.stage = .recheckId ∧ (rechecking .recheckSvc).chan.stage = .recheckSvc
        ∧ (rechecking .recheckSvc).chan.held = some ident)
      ∧ ((entry .verified none).expected = none ∧ (entry .verified none).observed = some ident)
      ∧ assemblyComplete (takePart 0 0 [305] (rechecking .recheckSvc).chan.services) = true ∧ 65535 < 65536 :=
  ⟨by decide, holds_working _ _ rfl, by decide, by decide, by decide, by decide⟩

/-! ### Measuring -/

/-- Slot 0 LOCKED with its window at `n` of 8192 symbols. -/
def measuring (n : Nat) (role : Role) : Slot :=
  let r := worker .locked role
  { r with meas := { r.meas with symbols := n, acc := 163840 } }

theorem witness_SymbolsAndBlocks :
    (1048575 ≤ 1048575 ∧ (s0.slot 0).meas.active = false)
      ∧ (((withSlot (measuring 8191 .carry)).slot 0).meas.active = true
        ∧ ((withSlot (measuring 8191 .carry)).slot 0).meas.k = some 13
        ∧ ((withSlot (measuring 8191 .carry)).slot 0).meas.symbols ≠ 2 ^ 13)
      ∧ ((withSlot (measuring 8192 .carry)).slot 0).meas.symbols = 2 ^ 13
      ∧ (163840 + 1048575 / 2 ^ (max 12 13 - 12) ≤ 4294967295 ∧ 4294967295 < 4294967295 + 1048575 / 2 ^ (max 12 13 - 12)) := by
  decide

/-- The last window of a survey, and one more of a carried carrier. -/
theorem witness_WindowCompletes :
    let record : SurveyRecord :=
      { carrier := 0, start := 0, wanted := 2, taken := 1, phase := .measuring, fromUrgent := false, askedByTable := false }
    let s := working (measuring 8192 .survey) .verified
    let last := s.setSched { s.sched with surveys := s.sched.surveys.set 0 (some record) }
    (last.sched.surveys[(0 : Fin 8)] = some record ∧ record.taken + 1 = record.wanted)
      ∧ ((last.slot 0).meas.symbols = 2 ^ 13 ∧ (last.slot 0).role = .survey ∧ (last.slot 0).adoptionPending = false
        ∧ (last.slot 0).state = .locked ∧ last.pending.head? ≠ some (.lockLoss 0))
      ∧ ActivelyHolds s 0 0 (entry .verified (some (holdOf false)))
      ∧ ActivelyHolds (working (measuring 8192 .carry) .verified) 0 0 (entry .verified (some (holdOf true)))
      ∧ ((working (measuring 8192 .carry) .verified).slot 0).role ≠ .survey :=
  ⟨by decide, by decide, holds_working _ _ rfl, holds_working _ _ rfl, by decide⟩

theorem witness_MerArithmetic :
    (0 ≤ 12 ∧ 1 ≤ 1 ∧ 1 ≤ 2 ^ 0 ∧ 2 ^ 12 < 2 ^ 12 + 1 ∧ 2 ^ (16 + 12) < 2 ^ (16 + 12) + 1)
      ∧ (2 ^ 15 ≤ 65535 ∧ 65535 < 2 ^ (15 + 1)) ∧ (2 ^ 0 ≤ 1 ∧ 1 < 2 ^ (0 + 1)) ∧ (logL 16 ≤ 0 ∧ 0 < logL 17) := by decide

theorem witness_ScoreArithmetic :
    (0 < 1 ∧ 1 ≤ 1 ∧ 1 < 2) ∧ (12 ≤ 12)
      ∧ ({ time := 0, margin := -350 : HistoryPoint }.time ≠ { time := 600, margin := 359 : HistoryPoint }.time)
      ∧ (Params.reset.minInterval ≤ Params.reset.maxAge ∧ (30 : Int) ≤ Params.reset.guardMargin
        ∧ (Params.reset.guardMargin : Int) < 31)
      ∧ (([] : List HistoryPoint).length ≤ 3 ∧ (history190.take 3).length ≤ 3 ∧ 0 + 30 ≤ 30 ∧ 29 < 0 + 30) := by decide

/-- Slot 0 calibrates and slot 7 waits. -/
def calibrating : State :=
  (putSlot 7 { worker .locked .survey with carrier := some 1, calStatus := .waiting }
    (working { worker .locked .carry with calStatus := .active } .verified)).setReference
    { holder := some 0, queue := [7], timer := some 0 }

theorem witness_CalibrationEnds :
    calibrating.reference.holder = some 0 ∧ calibrating.reference.timer = some 0 ∧ (calibrating.slot 0).state = .locked ∧ (calibrating.slot 0).input = some .a
      ∧ ReferenceLaw calibrating.slots calibrating.reference ∧ calibrating.reference.queue = 7 :: []
      ∧ s0.reference.holder = none := by
  refine ⟨rfl, rfl, rfl, rfl, ?_, rfl, rfl⟩
  unfold ReferenceLaw
  decide

/-! ### Ranking and routing -/

theorem witness_CandidateListRebuilt :
    (CarrierLaw (asking false tabled).carriers ∧ (asking false tabled).service 0 = some (svc .served (some 1)))
      ∧ (ServiceLaw (asking false tabled).services
        ∧ ((rankRemoval 1 [] (asking false tabled)).service 0).isSome = true)
      ∧ (asking false tabled).carrier 94 = none ∧ (svc .served (some 94)).selection = some 94 :=
  ⟨⟨carrierLaw_tabled, rfl⟩, ⟨by unfold ServiceLaw; decide, by decide⟩, by decide⟩

theorem witness_AnswersToRequests :
    (asking false s0).service (req false).service = some (svc .served (some 1))
      ∧ ((req false).purpose = .voluntary ∧ (req true).purpose = .best)
      ∧ ({ req true with purpose := .carried }.purpose = .carried)
      ∧ (svc .unavailable none).selection = none ∧ ¬ ((req true).first = true ∨ (svc .served (some 1)).selection = none)
      ∧ (20 ≤ 20 ∧ 19 < 20) := by decide

/-- Carriers 0 and 1, both scored. -/
def rankable : Table Carrier :=
  [(0, scored 690 (entry .verified none)), (1, { scored 600 (entry .verified none) with freq := 1400000 })]

/-- Every slot as `r`, each on its own carrier from 10 up where `r` is assigned one. -/
def allSlots (r : Slot) : State :=
  (s0.setSlots (.ofFn fun i => { r with carrier := r.carrier.map fun _ => 10 + i.val })).setCarriers rankable

/-- Room 0 is fed from service 0, with priority 0. -/
def urgentRoom (s : State) : State :=
  s.setRouter { s.router with
    rooms := s.router.rooms.set 0 { Room.reset with primary := some key305, priority := 0, route := .slate } }

def grantLaws (s : State) : Prop := RequestLaw s.router ∧ RecordLaw s.router ∧ SlotLaw s.slots ∧ ReferenceLaw s.slots s.reference

/-- What the clauses of the grant have in common. -/
theorem witness_GrantSteps :
    let s := asking false (s0.setCarriers rankable)
    (grantLaws s ∧ ServiceLaw s.services) ∧ req false ∈ s.router.requests ∧ s.service 0 = some (svc .served (some 1))
      ∧ (svc .served (some 1)).bound = true ∧ (svc .served (some 1)).deferred = { rebuilt := false, carryLost := none }
      ∧ s0.router.requests = [] := by
  refine ⟨⟨?_, by unfold ServiceLaw; decide⟩, by decide⟩
  unfold grantLaws RequestLaw RecordLaw SlotLaw SlotOk ReferenceLaw
  decide

/-- Sharing a LIVE record, and adopting a LOCKED survey. -/
theorem witness_GrantShares :
    let live := asking false ((s0.setCarriers rankable).setRouter
      { s0.router with records := [{ carrier := 0, slot := 0, phase := .live }] })
    let surveyed := asking false (working (worker .locked .survey) .verified)
    ((∃ r ∈ live.router.records, r.carrier = 0 ∧ r.phase = .live)
      ∧ ∃ c, live.carrier 0 = some c ∧ eligibleFor live.plan.committed.params key305 c = true)
      ∧ grantLaws live
      ∧ ((surveyed.slot 0).role = .survey ∧ (surveyed.slot 0).carrier = some 0 ∧ (surveyed.slot 0).state = .locked)
      ∧ grantLaws surveyed := by
  refine ⟨⟨by decide, ⟨_, rfl, by decide⟩⟩, ?_, by decide, ?_⟩
  · unfold grantLaws RequestLaw RecordLaw SlotLaw SlotOk ReferenceLaw
    decide
  · unfold grantLaws RequestLaw RecordLaw SlotLaw SlotOk ReferenceLaw
    decide

/-- A free slot in reserve, PARKED or IDLE, and none left but the reserve. -/
theorem witness_GrantTunes :
    let parked := asking false (s0.setCarriers rankable)
    let idle := asking false ((slotIn .idle).setCarriers rankable)
    let busy := asking false (allSlots (worker .locked .carry))
    let spare (s : State) : Bool := decide (committedSlots s + s.plan.committed.params.reserve < onlineSlots s)
    let free (s : State) (j : Fin 8) : Bool :=
      decide (((s.slot j).state = .idle ∨ (s.slot j).state = .parked) ∧ (s.slot j).heldForRouter = false)
    (spare parked = true ∧ (∀ k, (parked.slot k).state = .parked) ∧ ∀ j, (parked.slot j).carrier ≠ some 0)
      ∧ (spare idle = true ∧ (idle.slot 0).state = .idle ∧ ∀ k, k < 0 → free idle k = true → (idle.slot k).state = .parked)
      ∧ (spare busy = false ∧ (∀ j, free busy j = false) ∧ ∀ r ∈ busy.router.records, r.carrier ≠ 0) := by decide

/-- A failover request with every slot on a survey, and with every slot carrying. -/
theorem witness_GrantPreempts :
    let surveys := asking true (allSlots (worker .locked .survey))
    let carries := asking true (urgentRoom (allSlots (worker .locked .carry)))
    let free (s : State) (j : Fin 8) : Bool :=
      decide (((s.slot j).state = .idle ∨ (s.slot j).state = .parked) ∧ (s.slot j).heldForRouter = false)
    (req true).failover = true
      ∧ ((∀ k, free surveys k = false) ∧ (∀ k, (surveys.slot k).role = .survey ∧ (surveys.slot k).roleTime = some 0)
        ∧ ∀ k, (surveys.slot k).adoptionPending = false ∧ k ≤ 7)
      ∧ ((∀ k, free carries k = false) ∧ (∀ k, (carries.slot k).role = .carry ∧ (carries.slot k).state = .locked)
        ∧ (carries.slot 7).carrier = some 17 ∧ carriedDemand carries 17 < requestedDemand carries key305 0)
      ∧ grantLaws surveys ∧ grantLaws carries := by
  refine ⟨by decide, by decide, by decide, ?_, ?_⟩
  · unfold grantLaws RequestLaw RecordLaw SlotLaw SlotOk ReferenceLaw
    decide
  · unfold grantLaws RequestLaw RecordLaw SlotLaw SlotOk ReferenceLaw
    decide

/-- A failover request with one free slot left in the reserve, and one that finds no slot and no carrier of lower demand; step
2 then finds another carried carrier, or none, with the hold's limit ahead or reached. -/
theorem witness_GrantReserveAndRefusal :
    let last := asking true (urgentRoom ((allSlots (worker .locked .carry)).setSlots
      ((allSlots (worker .locked .carry)).slots.set 7 Slot.reset)))
    let full := asking true (allSlots (worker .locked .carry))
    let carriedOne := full.setCarriers [(0, (rankable.map Prod.snd).headD (entry .verified none)),
      (1, { scored 600 (entry .verified (some (holdOf true))) with freq := 1400000 })]
    let best (s : State) := (s.eligibleRanked key305).find? fun k => s.carriedAt k.carrier && decide (k.carrier ≠ 0)
    ((req true).failover = true ∧ ¬ (committedSlots last + last.plan.committed.params.reserve < onlineSlots last)
      ∧ (last.slot 7).state = .parked ∧ (last.slot 7).heldForRouter = false ∧ (last.carrier 0).isSome = true
      ∧ (∀ j, (last.slot j).carrier ≠ some 0) ∧ ∀ j, j ≠ 7 → (last.slot j).state = .locked)
      ∧ ((∀ j, (full.slot j).role = .carry ∧ (full.slot j).state = .locked)
        ∧ requestedDemand full key305 0 = 0)
      ∧ ((req true).purpose = .best ∧ best full = none ∧ (best carriedOne).isSome = true)
      ∧ (0 < timeAfter full.clock.now full.plan.committed.params.holdLimit
        ∧ { svc .served (some 1) with holdUntil := some 0 }.holdUntil.getD 1 ≤ full.clock.now)
      ∧ grantLaws last ∧ grantLaws full := by
  refine ⟨by decide, by decide, by decide, by decide, ?_, ?_⟩
  · unfold grantLaws RequestLaw RecordLaw SlotLaw SlotOk ReferenceLaw
    decide
  · unfold grantLaws RequestLaw RecordLaw SlotLaw SlotOk ReferenceLaw
    decide

/-- Room 0 SWITCHING to slot 0, which carries carrier 0 for service 0. -/
def switchingRoom (route : RouteState) (pending : Option (Fin 8 × Nat)) : Room :=
  { Room.reset with primary := some key305, route := route, pendingFeed := pending, timer := some 0 }

def switching : State :=
  let s := working (worker .locked .carry) .verified
  (s.setServices [(0, svc .served (some 0))]).setRouter
    { s.router with
      rooms := s.router.rooms.set 0 (switchingRoom .switching (some (0, 0))),
      records := [{ carrier := 0, slot := 0, phase := .live }] }

theorem witness_SwitchesComplete :
    ((switching.room 0).route = .switching ∧ (switching.room 0).pendingFeed = some (0, 0)
      ∧ switching.feedingService (switching.room 0) = some (svc .served (some 0))
      ∧ ((switching.slot 0).role = .carry ∧ (switching.slot 0).state = .locked ∧ (switching.slot 0).carrier = some 0)
      ∧ decideFeeding switching (switching.room 0) = (switching.room 0).feeding)
      ∧ (switching.room 47).route ≠ .switching ∧ (0 : Fin 48).val / 12 = (0 : Fin 4).val
      ∧ SlotLaw switching.slots := by
  refine ⟨by decide, by decide, rfl, ?_⟩
  unfold SlotLaw SlotOk
  decide

theorem witness_RoutesAreRecomputed :
    let key306 : ServiceKey := { origin := 1210, number := 306 }
    let both (f : Feeding) : Room := { switchingRoom .live none with fallback := some key306, feeding := f }
    ((switchingRoom .live none).fallback = none ∧ (switchingRoom .live none).primary ≠ none)
      ∧ ((both .primary).fallback = some key306 ∧ (both .fallback).feeding = .fallback)
      ∧ (switching.feedingService (switchingRoom .live none) = some (svc .served (some 0))
        ∧ switching.streamSlot 0 = some 0 ∧ s0.streamSlot 0 = none)
      ∧ ({ switchingRoom .live none with feedSlot := some 0 }.feedSlot = some 0)
      ∧ (switchingRoom .switching (some (0, 0))).feedSlot ≠ some 0 := by decide

/-- Service 0 in a failover hold whose limit is now, with an eligible carrier or none. -/
def holding (limit : Nat) : State := s0.setServices [(0, { svc .holding (some 1) with holdUntil := some limit })]

theorem witness_HoldUntilReached :
    (((holding 1).service 0).bind (·.holdUntil) = some 1 ∧ (holding 1).clock.now < 1)
      ∧ (((holding 0).service 0).bind (·.holdUntil) = some 0 ∧ 0 ≤ (holding 0).clock.now
        ∧ (holding 0).router.requests = [] ∧ (svc .holding (some 1)).bound = true)
      ∧ ServiceLaw (holding 0).services
      ∧ (∀ e ∈ (holding 0).carriers, eligibleFor (holding 0).plan.committed.params key305 e.2 = false)
      ∧ (((holding 0).setCarriers rankable).eligibleRanked key305).map (·.carrier) = [0, 1] := by
  unfold ServiceLaw
  decide

/-- The worked carrier is measured at 0 and the maximum age is 600 s: it turns stale as 600 ends. -/
theorem witness_SecondCountAdvancesReports :
    let t := (atSecond 600).setCarriers rankable
    let locked := withSlot (worker .locked .carry)
    CarrierLaw t.carriers
      ∧ ((t.carrier 0).bind (·.meas)).map (fun m => decide (m.time + 600 = t.clock.now)) = some true
      ∧ ((locked.slot 0).state = .locked ∧ (locked.slot 0).calStatus = .none ∧ (locked.slot 0).lastCal = none
        ∧ locked.reference.queue = [] ∧ locked.reference.holder = none)
      ∧ calibrating.reference.holder ≠ none := by
  refine ⟨by unfold CarrierLaw; decide, ?_⟩
  decide

theorem witness_NoticesOfCarriersAndServices :
    let b := entry .verified none
    tabled.carrier 0 = some b
      ∧ ({ b with nextDue := 5 } ≠ b ∧ { b with nextDue := 5 }.state = b.state)
      ∧ ({ b with failCause := some .noLock }.failCause ≠ b.failCause ∧ b.meas = none)
      ∧ ({ b with state := .lost }.state ≠ b.state)
      ∧ (asking false tabled).service 0 = some (svc .served (some 1))
      ∧ ((svc .holding (some 1)).state ≠ (svc .served (some 1)).state)
      ∧ ({ svc .served (some 1) with constrained := true }.constrained ≠ (svc .served (some 1)).constrained) := by decide

theorem witness_NoticesOfRoomsAndSlots :
    let slot := (s0.slot 0)
    (Room.reset.feeding = (s0.room 47).feeding ∧ { Room.reset with route := .slate }.route ≠ (s0.room 47).route)
      ∧ ({ slot with retune := 1 }.state = slot.state ∧ { slot with state := .idle }.state ≠ slot.state) := by decide

/-! ### What settles -/

/-- A carry record of carrier 0 on slot 0, which no channel and no service claims. -/
def unclaimed (r : Slot) (ph : CarryPhase) : State :=
  (working r .verified).setRouter { s0.router with records := [{ carrier := 0, slot := 0, phase := ph }] }

theorem witness_ClaimsExamined :
    let idle (held : Bool) : State := unclaimed { Slot.reset with state := .idle, heldForRouter := held } .waitingSlot
    let live := unclaimed (worker .locked .carry) .live
    ((∀ q ∈ switching.router.records, ∃ r i, (switching.room r).pendingFeed = some (i, q.carrier))
      ∧ switching.sched.setShrunk = false ∧ switching.sched.searchDue = false)
      ∧ (live.services = [] ∧ (∀ r, (live.room r).feedSlot = none ∧ (live.room r).pendingFeed = none)
        ∧ (live.slot 0).role = .carry ∧ (live.slot 0).carrier = some 0 ∧ (live.slot 0).state = .locked)
      ∧ (((idle true).slot 0).heldForRouter = true ∧ ((idle true).slot 0).state = .idle)
      ∧ ((idle false).slot 0).heldForRouter = false
      ∧ (((unclaimed (freed true) .waitingSlot).slot 0).heldForRouter = true
        ∧ ((unclaimed (freed true) .waitingSlot).slot 0).state ≠ .idle) := by decide

/-- The two carriers may be surveyed, those of `l` listed. -/
def searching (l : List Nat) (s : State) : State :=
  ((s.setCarriers twoCarriers).setPlan { s.plan with committed := plan0 }).setSched { s.sched with urgent := l }

theorem witness_SearchTurns :
    let parked := searching [1, 95] s0
    let idle := searching [] (putSlot 7 { Slot.reset with state := .idle } s0)
    CarrierLaw parked.carriers
      ∧ (parked.sched.urgent = [1] ++ 95 :: [] ∧ parked.carrier 1 = none
        ∧ (parked.carrier 95).map (fun c => (c.state, c.hold)) = some (.verified, none)
        ∧ (parked.plan.committed.inputs[inputCode .a]).cls = .satellite)
      ∧ (∀ k, (parked.slot k).state = .parked ∧ (parked.slot k).role = .none ∧ (parked.slot k).heldForRouter = false
        ∧ (parked.slot k).carrier = none)
      ∧ (idle.sched.urgent = [] ∧ (∀ e ∈ idle.carriers, e.2.nextDue = 0) ∧ (idle.carriers.map Prod.fst) = [0, 95]
        ∧ (idle.slot 7).state = .idle ∧ ∀ k, k < 7 → (idle.slot k).state = .parked)
      ∧ ((∀ i, ((searching [95] (allSlots (worker .locked .carry))).slot i).state = .locked) ∧ s0.carriers = []) := by
  refine ⟨carrierLaw_tabled, ?_⟩
  decide

/-- Carrier 0 under a running survey of slot 0. -/
def surveying (st : SlotState) (c : Carrier) : State :=
  let s := (putSlot 0 (worker st .survey) s0).setCarriers [(0, { c with hold := some (holdOf false) })]
  let record : SurveyRecord :=
    { carrier := 0, start := 0, wanted := 2, taken := 0, phase := .measuring, fromUrgent := false, askedByTable := false }
  s.setSched { s.sched with surveys := s.sched.surveys.set 0 (some record) }

theorem witness_SurveyCleared :
    let c := entry .verified none
    let s := surveying .locked c
    let gone := surveying .tuning { c with planned := false, discovered := true }
    CarrierLaw s.carriers ∧ CarrierLaw gone.carriers ∧ Ready s
      ∧ (((s.carrier 0).bind (·.hold) = some (holdOf false) ∧ (s.sched.surveys[(0 : Fin 8)]).map (·.phase) = some .measuring)
        ∧ (s.slot 0).role = .survey ∧ (s.slot 0).carrier = some 0 ∧ (s.slot 0).state = .locked)
      ∧ ((gone.carrier 0).map (fun c => (c.planned, c.removalPending)) = some (false, false)
        ∧ (gone.slot 0).state = .tuning)
      ∧ (s0.sched.pass.outcome = .open ∧ (s0.setSched { s0.sched with setShrunk := true }).sched.outstanding = []
        ∧ s0.sched.setShrunk = false
        ∧ { s0.sched.pass with outcome := .complete }.outcome ≠ .open) := by
  refine ⟨by unfold CarrierLaw; decide, by unfold CarrierLaw; decide, ⟨rfl, rfl, rfl, rfl⟩, ?_⟩
  decide

/-- A lister that stays in the table and one that leaves it. -/
theorem witness_ListerKept :
    let c := entry .verified none
    let t : Table Carrier :=
      [(0, { c with hold := some (holdOf true), discovered := true }),
        (1, { c with freq := 1400000, planned := false, discovered := true, lister := some 0 }),
        (2, { c with freq := 1500000, lister := some 1 })]
    CarrierLaw t ∧ (∀ l, tabGet t 0 = some l → l.hold ≠ none)
      ∧ ((tabGet t 1).map (·.lister) = some (some 0) ∧ (tabGet t 2).map (·.lister) = some (some 1))
      ∧ (tabGet (pruneTable 0 [1400000] t) 1).isSome = true ∧ tabGet (pruneTable 0 [1500000] t) 1 = none := by
  refine ⟨by unfold CarrierLaw; decide, fun l h => by cases h; decide, ?_⟩
  decide

theorem witness_SlotsReleased :
    ActivelyHolds (working (worker .tuning .carry) .acquiring) 0 0 (entry .acquiring (some (holdOf true)))
      ∧ ActivelyHolds (working (worker .acquiring .survey) .acquiring) 0 0 (entry .acquiring (some (holdOf false)))
      ∧ ActivelyHolds (working (worker .locked .survey) .verified) 0 0 (entry .verified (some (holdOf false))) :=
  ⟨holds_working _ _ rfl, holds_working _ _ rfl, holds_working _ _ rfl⟩

/-! ### Commits -/

/-- Plan 0 with its carrier excluded. -/
def excluding : Plan := { plan0 with carriers := [{ planned0 with excluded := true }] }

/-- A commit that adds a carrier, and one that excludes the carrier under survey. -/
theorem witness_CommitApplied :
    let s := (surveying .locked (entry .verified none)).setPlan { s0.plan with staged := some excluding }
    let r := commitTable s excluding []
    (Ready (staging plan0) ∧ CarrierLaw (staging plan0).carriers ∧ ServiceLaw (staging plan0).services)
      ∧ (Ready s ∧ CarrierLaw s.carriers ∧ ServiceLaw s.services)
      ∧ ((staging plan0).plan.staged = some plan0 ∧ plan0 ≠ (staging plan0).plan.committed
        ∧ evictions plan0 (staging plan0).carriers = some [] ∧ (commitTable (staging plan0) plan0 []).added = [0])
      ∧ (s.plan.staged = some excluding ∧ excluding ≠ s.plan.committed ∧ evictions excluding s.carriers = some []
        ∧ r.added = [] ∧ s.sched.pass.outcome = .open)
      ∧ (r.table.map fun e => (e.1, e.2.hold, e.2.state)) =
          [(0, some { slot := 0, carry := false, ending := true }, .excluded)] := by
  refine ⟨⟨ready_staging _, by unfold CarrierLaw; decide, by unfold ServiceLaw; decide⟩,
    ⟨⟨rfl, rfl, rfl, rfl⟩, by unfold CarrierLaw; decide, by unfold ServiceLaw; decide⟩, ?_⟩
  decide

/-- An entry the plan names, one it no longer names of either origin, one whose removal is pending, and an addition. -/
theorem witness_CommitOfTheTable :
    let c := entry .verified none
    let t : Table Carrier :=
      [(0, scored 690 c), (1, { c with freq := 1400000, state := .excluded, discovered := true, lister := some 2 }),
        (2, { c with freq := 1410000 }),
        (3, { c with freq := 1420000, hold := some (holdOf true) }),
        (4, { c with freq := 1430000, hold := some { slot := 1, carry := false, ending := true }, removalPending := true })]
    let p : Plan := { excluding with carriers := excluding.carriers ++ [{ planned0 with freq := 1500000 }] }
    let s := s0.setCarriers t
    CarrierLaw t ∧ evictions p t = some [] ∧ p.carriers.Pairwise (fun a b => a.input ≠ b.input ∨ a.freq ≠ b.freq)
      ∧ (commitTable s p []).removed = [2] ∧ (commitTable s p []).added = [2] ∧ (commitTable s p []).rescored = [0] := by
  refine ⟨by unfold CarrierLaw; decide, ?_⟩
  decide

/-! ### Services -/

/-- A state in which service 0 is `v`, with the two scored carriers, the second carried or not. -/
def serving (v : Service) (carried : Bool) : State :=
  (s0.setServices [(0, v)]).setCarriers
    [(0, scored 690 (entry .verified none)),
      (1, { scored 600 (entry .verified (if carried then some (holdOf true) else none)) with freq := 1400000 })]

/-- Carrier 1's list is PENDING. -/
def abeyant (v : Service) : State :=
  let s := serving v false
  s.setCarriers (s.carriers.map fun e => if e.1 = 1 then (1, { e.2 with listStatus := .pending }) else e)

theorem witness_AnswersActedOn :
    let s := serving (svc .served (some 1)) false
    let best (s : State) := (s.eligibleRanked key305).find? fun k => s.carriedAt k.carrier && decide (k.carrier ≠ 0)
    ((s.carrier 0).map (eligibleFor s.plan.committed.params key305) = some true
      ∧ best s = none ∧ (best (serving (svc .served (some 1)) true)).isSome = true ∧ s.router.requests = [])
      ∧ (¬ ((svc .served (some 1)).selection = none) ∧ (svc .served (some 1)).selection ≠ some 0
        ∧ (svc .served (some 0)).selection = some 0) := by decide

/-- What a service does after a rebuild: the voluntary switch, nothing, the list hold and its end, failover. -/
theorem witness_ServiceActs :
    let top : Candidate := { carrier := 0, score := some 690, stale := false, eligible := true, lead := 2 }
    let leading := { svc .served (some 1) with cands := [top] }
    let eligibleOn (s : State) := (s.carrier 1).map (eligibleFor s.plan.committed.params key305)
    (eligibleOn (serving leading false) = some true ∧ leading.cands.find? (·.eligible) = some top
      ∧ ((serving leading false).plan.committed.params.leadCount ≤ top.lead ∧ leading.settleUntil ≤ 0))
      ∧ (eligibleOn (serving (svc .served (some 1)) false) = some true ∧ (svc .served (some 1)).cands = [])
      ∧ (((abeyant (svc .served (some 1))).carrier 1).map
          (fun c => (c.state, c.listStatus, c.services, c.meas.bind (·.score))) = some (.verified, .pending, [key305], some 600)
        ∧ (abeyant (svc .served (some 1))).plan.committed.params.floor ≤ 600
        ∧ (svc .holding (some 1)).holdUntil = none)
      ∧ ((serving (svc .served (some 95)) false).carrier 95 = none
        ∧ ((serving (svc .served (some 95)) false).eligibleRanked key305).map (·.carrier) = [0, 1]
        ∧ ((s0.setServices [(0, svc .served (some 95))]).eligibleRanked key305) = [])
      ∧ ((svc .unavailable none).state = .unavailable ∧ (svc .pending (some 1)).state = .pending)
      ∧ (∃ q ∈ (asking true (abeyant (svc .served (some 1)))).router.requests, q.service = 0) := by decide

theorem witness_MarksOfAKey :
    let s := serving (svc .served (some 1)) true
    let other : ServiceKey := { origin := 1210, number := 306 }
    let full : Table Service := (List.range 256).map fun n =>
      (n, newService { origin := 1, number := n } true false)
    (ServiceLaw s.services ∧ ServiceLaw full)
      ∧ (s.service 0 = some (svc .served (some 1)) ∧ (svc .served (some 1)).key = key305
        ∧ ∃ e ∈ s.carriers, e.2.listStatus ≠ .absent ∧ key305 ∈ e.2.services)
      ∧ (¬ ∃ e ∈ s.carriers, e.2.listStatus ≠ .absent ∧ other ∈ e.2.services)
      ∧ full.length = 256 ∧ (∀ e ∈ full, e.2.key ≠ key305)
      ∧ ((s.carrier 1).bind (·.hold)).map (·.carry) = some true
      ∧ ({ svc .pending (some 1) with target := some 1, pendingKind := some .first }.selection = some 1)
      ∧ ((serving (svc .served (some 1)) false).carrier 1).bind (·.hold) = none := by
  refine ⟨⟨by unfold ServiceLaw; decide, ?_⟩, by decide⟩
  unfold ServiceLaw
  decide +revert

/-- A key given BOUND: a free place, and full tables in which each preference of R110 chooses the entry evicted. -/
theorem witness_KeyGivenBound :
    let full (v : Service) : Table Service := (List.range 256).map fun n =>
      (n, if n = 0 then v else newService { origin := 1, number := n } true false)
    let empty : Service := { newService { origin := 1, number := 0 } false true with bound := false }
    let listed : Service := { empty with
      cands := [{ carrier := 0, score := some 690, stale := false, eligible := true, lead := 0 }] }
    let selecting : Service := { empty with state := .served, selection := some 1 }
    let one (v : Service) : Prop := (full v).length = 256 ∧ (∀ e ∈ full v, e.2.key ≠ key305)
      ∧ tabGet (full v) 0 = some v ∧ v.bound = false ∧ ∀ e ∈ full v, e.1 ≠ 0 → e.2.bound = true
    ((s0.service 0 = none ∧ ∀ e ∈ s0.services, e.2.key ≠ key305)
      ∧ (empty.selection = none ∧ empty.cands = []) ∧ (listed.selection = none ∧ listed.cands ≠ [])
      ∧ selecting.selection = some 1) ∧ one empty ∧ one listed ∧ one selecting := by
  intro full empty listed selecting one
  refine ⟨by decide, ?_, ?_, ?_⟩ <;> (unfold one; decide +revert)

theorem witness_RoomsRebound :
    let p : Plan := { plan0 with bindings := plan0.bindings.set 0 { primary := some key305, fallback := none, priority := 0 } }
    p.bindings[(0 : Fin 48)].primary ≠ (s0.room 0).primary
      ∧ (p.bindings[(47 : Fin 48)].primary = (s0.room 47).primary ∧ p.bindings[(47 : Fin 48)].fallback = (s0.room 47).fallback
        ∧ p.bindings[(47 : Fin 48)].priority = (s0.room 47).priority) := by decide

/-- Service 0 PENDING on carrier 0 in a kind. -/
def awaiting (kind : PendingKind) (holdUntil : Option Nat) : Service :=
  { svc .pending (some 1) with target := some 0, pendingKind := some kind, holdUntil := holdUntil }

theorem witness_GrantFails :
    let returns := serving (awaiting .voluntary none) true
    (returns.service 0 = some (awaiting .voluntary none) ∧ (awaiting .voluntary none).target = some 0
      ∧ returns.router.requests = [] ∧ (returns.carrier 1).map (eligibleFor returns.plan.committed.params key305) = some true
      ∧ ((returns.carrier 1).bind (·.hold)).map (·.carry) = some true)
      ∧ ((serving (awaiting .first none) false).eligibleRanked key305).map (·.carrier) = [0, 1]
      ∧ (s0.eligibleRanked key305 = [] ∧ (awaiting .failover (some 0)).holdUntil = some 0 ∧ 0 ≤ s0.clock.now
        ∧ s0.clock.now < 20)
      ∧ ({ svc .holding (some 1) with bound := false, holdUntil := some 0 }.bound = false) := by decide

/-- A record that is not LIVE, and a survey of the requested carrier that still acquires. -/
theorem witness_GrantWaits :
    let shared := asking false ((s0.setCarriers rankable).setRouter
      { s0.router with records := [{ carrier := 0, slot := 0, phase := .retuning }] })
    let surveyed := asking false (working (worker .tuning .survey) .acquiring)
    ((∃ r ∈ shared.router.records, r.carrier = 0 ∧ r.phase ≠ .live) ∧ grantLaws shared)
      ∧ ((surveyed.slot 0).role = .survey ∧ (surveyed.slot 0).carrier = some 0 ∧ (surveyed.slot 0).state = .tuning
        ∧ surveyed.router.records = []) ∧ grantLaws surveyed := by
  refine ⟨⟨by decide, ?_⟩, by decide, ?_⟩
  · unfold grantLaws RequestLaw RecordLaw SlotLaw SlotOk ReferenceLaw
    decide
  · unfold grantLaws RequestLaw RecordLaw SlotLaw SlotOk ReferenceLaw
    decide

/-- R85: the list that a cancelled removal left ABSENT stays ABSENT through a re-check. -/
theorem test_absent_list_outlasts_recheck :
    let s := (working (rechecking .recheckSvc) .verified).setCarriers
      [(0, { entry .verified (some (holdOf true)) with listStatus := .absent, services := [] })]
    ((tableReread 0 0 { keys := [key305], truncated := false } (tableIdChanged 0 0
      { origin := 7, transport := 7, listAnnounced := false } s)).carrier 0).map
        (fun c => (c.listStatus, c.services, c.observed.map (·.origin))) = some (.absent, [], some 7) := by decide

/-- R83: the re-clamp lowers a next-due time to the bound and leaves one within it. -/
theorem test_reclamp :
    (reclamp 60 { entry .verified none with nextDue := 61 }).nextDue = 60
      ∧ (reclamp (4294967295 + 60) { entry .verified none with nextDue := 4294967295 }).nextDue = 4294967295 := by decide

/-- R111: a service of kind FIRST that loses BOUND keeps the selection that is carried, without its target. -/
theorem test_unbound_first_keeps_selection :
    let v := { svc .pending (some 1) with target := some 1, pendingKind := some .first }
    let w (s : State) := (((loseBound s 0).service 0).map fun v => (v.bound, v.state, v.selection, v.target))
    w (serving v true) = some (false, .served, some 1, none)
      ∧ w (serving v false) = some (false, .unavailable, none, none) := by decide

/-- R85: a service that no longer selects a carrier still lists it until the carrier is removed. -/
theorem test_removal_drops_candidate :
    let c (x : Nat) : Candidate := { carrier := x, score := some 690, stale := false, eligible := false, lead := 0 }
    ((rankRemoval 1 [] (s0.setServices [(0, { svc .unavailable none with cands := [c 1, c 2] })])).service 0).map
      (fun v => v.cands.map (·.carrier)) = some [2] := by decide

/-- R115: a service whose selection is cleared has every lead count at 0. -/
theorem test_no_selection_no_leads :
    ((clearSelection 0 (s0.setServices [(0, { svc .served (some 1) with
        cands := [{ carrier := 0, score := some 690, stale := false, eligible := true, lead := 2 }] })])).service 0).map
      (fun v => (v.selection, v.cands.map (·.lead))) = some (none, [0]) := by decide

theorem witness_ListOfServicesRead :
    listPending ((working (rechecking .recheckId) .verified).setCarriers
        [(0, { entry .verified (some (holdOf true)) with listStatus := .pending })]) 0 = true
      ∧ (entry .verified none).listStatus ≠ .pending := by decide

/-! ### Frames and laws -/

theorem witness_NothingElseChanges :
    ofBlocks .calibrationEnd = true ∧ exec .calibrationEnd s0 = .next s0 ∧ HostCommand.freeze.wf = true
      ∧ ∃ t, exec (rowOf .freeze) s0 = .next t := ⟨by decide, rfl, by decide, ⟨_, rfl⟩⟩

/-- Room 0 LIVE on slot 0, with service 0's candidate list formed. -/
def lawful : State :=
  let s := working (worker .locked .carry) .verified
  let top : Candidate := { carrier := 0, score := none, stale := false, eligible := false, lead := 0 }
  let live : Room := { switchingRoom .live none with feedSlot := some 0, timer := none }
  (s.setServices [(0, { svc .served (some 0) with cands := [top] })]).setRouter
    { s.router with rooms := s.router.rooms.set 0 live, records := [{ carrier := 0, slot := 0, phase := .live }] }

/-- A step on a state under every law. -/
theorem witness_LawsKeptByEveryStep :
    (step (lawful.setPending [.lockLoss 0]) = .next (after (.lockLoss 0) lawful)) ∧ grantLaws lawful
      ∧ CarrierLaw lawful.carriers ∧ SelectionLaw lawful.services ∧ ServiceLaw lawful.services
      ∧ UrgentLaw lawful.sched ∧ NoticeLaw lawful.link ∧ BufferLaw lawful.link ∧ CandidateLaw lawful.services
      ∧ IntervalLaw lawful.plan ∧ DueLaw lawful ∧ RouteLaw lawful := by
  have routes : RouteLaw lawful := by
    intro r h
    by_cases hr : r = 0
    · subst hr
      exact ⟨_, 0, 0, rfl, rfl, rfl, rfl, rfl⟩
    · exfalso
      revert r
      decide
  refine ⟨rfl, ?_, ?_, ?_, ?_, ?_, ?_, ?_, ?_, ?_, ?_, routes⟩
  · unfold grantLaws RequestLaw RecordLaw SlotLaw SlotOk ReferenceLaw
    decide
  · unfold CarrierLaw
    decide
  · unfold SelectionLaw
    decide
  · unfold ServiceLaw
    decide
  · unfold UrgentLaw
    decide
  · unfold NoticeLaw
    decide
  · unfold BufferLaw
    decide
  · intro e he
    obtain rfl := List.mem_singleton.mp he
    unfold CandidatesOk
    exact ⟨by decide, by decide, by decide, fun x hx => ⟨_, List.mem_singleton.mpr rfl, by cases hx; rfl⟩,
      fun h => nomatch h⟩
  · exact ⟨by decide, fun q hq => by cases hq⟩
  · intro _ e he
    obtain rfl := List.mem_singleton.mp he
    decide

end Sys2Proof.Tests
end

/-! The family "Measuring": the symbols and blocks of a window (R3, R4), the chain from ACC to MER (R9 to R11), margin,
score, interval and history (R12 to R23, R79), and the completion of a window (R5, R66, R78, R98). -/

namespace Sys2Proof.Machine

/-! ## Clamps -/

theorem clampInt_eq_max_min {lo hi : Int} (h : lo ≤ hi) (x : Int) : clampInt x lo hi = max lo (min hi x) := by
  unfold clampInt
  omega

theorem clampInt_toNat {hi : Int} (h : 0 ≤ hi) (x : Int) : ((clampInt x 0 hi).toNat : Int) = max 0 (min hi x) := by
  rw [clampInt_eq_max_min h, Int.toNat_of_nonneg (le_max_left ..)]

theorem clampNat_toNat_cast {lo hi : Nat} (h : lo ≤ hi) {x : Int} (hx : 0 ≤ x) :
    (clampNat x.toNat lo hi : Int) = max (lo : Int) (min (hi : Int) x) := by
  unfold clampNat
  omega

/-! ## Symbols and blocks of a window (R3, R4) -/

theorem windowFull_iff {m : MeasUnit} :
    windowFull m = true ↔ m.active = true ∧ ∃ k, m.k = some k ∧ m.symbols = 2 ^ k := by
  unfold windowFull windowLength
  cases m.k <;> simp

theorem windowFull_eq_false {m : MeasUnit} {k : Nat} (hk : m.k = some k) (h : m.symbols ≠ 2 ^ k) :
    windowFull m = false := by
  rw [← Bool.not_eq_true, windowFull_iff]
  rintro ⟨-, j, hj, hs⟩
  cases hk.symm.trans hj
  exact h hs

theorem windowShift_eq (k : Nat) : windowShift k = max 12 k - 12 := by
  unfold windowShift
  omega

theorem addSymbol_within {m : MeasUnit} {k q : Nat} (hk : m.k = some k)
    (h : m.acc + q / 2 ^ (max 12 k - 12) ≤ 4294967295) :
    addSymbol q m = { m with acc := m.acc + q / 2 ^ (max 12 k - 12), symbols := m.symbols + 1 } := by
  simp only [addSymbol, addToAcc, maxAcc, hk, Option.getD_some, windowShift_eq, if_pos h]

theorem addSymbol_past {m : MeasUnit} {k q : Nat} (hk : m.k = some k)
    (h : 4294967295 < m.acc + q / 2 ^ (max 12 k - 12)) :
    addSymbol q m =
      { m with acc := 4294967295, overflow := min 65535 (m.overflow + 1), symbols := m.symbols + 1 } := by
  simp only [addSymbol, addToAcc, maxAcc, maxCount, hk, Option.getD_some, windowShift_eq, if_neg (Nat.not_le.mpr h)]

theorem deliverSymbol_inactive {i : Fin 8} {s : State} (q : Nat) (h : (s.slot i).meas.active = false) :
    deliverSymbol i q s = s := by
  simp [deliverSymbol, h]

theorem deliverSymbol_full {i : Fin 8} {s : State} (q : Nat) (h : windowFull (s.slot i).meas = true) :
    deliverSymbol i q s = s := by
  simp [deliverSymbol, h]

theorem deliverSymbol_open {i : Fin 8} {s : State} (q : Nat) (ha : (s.slot i).meas.active = true)
    (hf : windowFull (s.slot i).meas = false) :
    deliverSymbol i q s = modSlot i (fun r => { r with meas := addSymbol q r.meas }) s := by
  simp [deliverSymbol, ha, hf]

theorem reportBlock_inactive {i : Fin 8} {s : State} (h : (s.slot i).meas.active = false) : reportBlock i s = s := by
  simp [reportBlock, h]

theorem reportBlock_active {i : Fin 8} {s : State} (h : (s.slot i).meas.active = true) :
    reportBlock i s = modSlot i (fun r => { r with meas := addBlock r.meas }) s := by
  simp [reportBlock, h]

theorem exec_symbolDelivered {i : Fin 8} {q : Nat} {s : State} (hr : s.clock.inReset = false) (hq : q ≤ 1048575) :
    exec (.symbolDelivered i q) s = .next (deliverSymbol i q s) := by
  have arm : exec (.symbolDelivered i q) s = execSymbolDelivered i q s := rfl
  simp only [arm, execSymbolDelivered, maxErrorPower, if_pos hq, whileRunning, hr, Bool.false_eq_true, if_false]

theorem exec_blockReport {i : Fin 8} {s : State} (hr : s.clock.inReset = false) :
    exec (.blockReport i) s = .next (reportBlock i s) := by
  have arm : exec (.blockReport i) s = execBlockReport i s := rfl
  simp only [arm, execBlockReport, whileRunning, hr, Bool.false_eq_true, if_false]

/-- Settles O46: inactive, full and open windows, and for an open one the two sides of the limit of ACC. -/
theorem symbolsAndBlocks : Obligations.SymbolsAndBlocks := by
  unfold Obligations.SymbolsAndBlocks
  intro s i q hr hq
  dsimp only
  rw [exec_symbolDelivered hr hq, exec_blockReport hr]
  refine ⟨fun ha => ?_, fun ha => ⟨?_, fun k hk => ⟨fun hfull => ?_, fun hopen => ?_⟩⟩⟩
  · rw [deliverSymbol_inactive q ha, reportBlock_inactive ha]
    exact ⟨rfl, rfl⟩
  · rw [reportBlock_active ha]
    rfl
  · rw [deliverSymbol_full q (windowFull_iff.mpr ⟨ha, k, hk, hfull⟩)]
  · rw [deliverSymbol_open q ha (windowFull_eq_false hk hopen)]
    refine ⟨fun hle => ?_, fun hlt => ?_⟩
    · rw [← addSymbol_within hk hle]
      rfl
    · rw [← addSymbol_past hk hlt]
      rfl

/-! ## From accumulator to MER (R9 to R11) -/

theorem two_pow_fraction (d : Nat) : 2 ^ (16 + d) = 65536 * 2 ^ d := by
  rw [pow_add]
  rfl

/-- R9: a mean error power of at most 1 reads the largest ratio. -/
theorem quotientQ_of_le {d acc : Nat} (h : acc ≤ 2 ^ d) : quotientQ d acc = 65535 := by
  unfold quotientQ
  split
  · rfl
  · next h0 =>
    have : 65535 ≤ 2 ^ (16 + d) / acc := by
      rw [Nat.le_div_iff_mul_le (Nat.pos_of_ne_zero h0), two_pow_fraction]
      omega
    exact min_eq_left this

/-- R9: past it the ratio is not clamped. -/
theorem quotientQ_of_lt {d acc : Nat} (h : 2 ^ d < acc) : quotientQ d acc = 2 ^ (16 + d) / acc := by
  have hlt : 2 ^ (16 + d) / acc < 65536 := by
    rw [Nat.div_lt_iff_lt_mul (Nat.zero_lt_of_lt h), two_pow_fraction]
    omega
  rw [quotientQ, if_neg (Nat.ne_of_gt (Nat.zero_lt_of_lt h)), min_eq_right (Nat.le_of_lt_succ hlt)]

theorem quotientQ_eq_zero {d acc : Nat} (h : 2 ^ (16 + d) < acc) : quotientQ d acc = 0 := by
  have hd : 2 ^ d < acc := (Nat.pow_le_pow_right (by decide) (Nat.le_add_left d 16)).trans_lt h
  rw [quotientQ_of_lt hd, Nat.div_eq_of_lt h]

theorem fractionTable_le (f : Nat) : fractionTable.getD f 0 ≤ 15 := by
  by_cases h : f < fractionTable.length
  · have all : ∀ x ∈ fractionTable, x ≤ 15 := by decide
    rw [List.getD_eq_getElem _ _ h]
    exact all _ (List.getElem_mem h)
  · rw [List.getD_eq_default _ _ (Nat.le_of_not_lt h)]
    decide

/-- The four bits that follow the highest set bit are at most 15. -/
theorem fraction_le {q p : Nat} (h : q < 2 ^ (p + 1)) : q * 16 / 2 ^ p - 16 ≤ 15 := by
  have : q * 16 / 2 ^ p < 32 := by
    rw [Nat.div_lt_iff_lt_mul (Nat.two_pow_pos p)]
    rw [pow_succ] at h
    omega
  omega

/-- R10: L by the position `p` of the highest set bit. -/
theorem logL_of_highest_bit {q p : Nat} (hp : 2 ^ p ≤ q) (hq : q < 2 ^ (p + 1)) :
    logL q = 16 * ((p : Int) - 4) + (fractionTable.getD (q * 16 / 2 ^ p - 16) 0 : Nat) := by
  have hlog : Nat.log2 q = p := (Nat.log2_eq_iff (Nat.ne_of_gt ((Nat.two_pow_pos p).trans_le hp))).mpr ⟨hp, hq⟩
  rw [logL, hlog]

/-- R10: L is −64 to 191. -/
theorem logL_bounds {q : Nat} (h0 : 1 ≤ q) (hq : q ≤ 65535) : -64 ≤ logL q ∧ logL q ≤ 191 := by
  have hne : q ≠ 0 := Nat.ne_of_gt h0
  have hp : q.log2 < 16 := (Nat.log2_lt hne).mpr (by omega)
  have ht := fractionTable_le (q * 16 / 2 ^ q.log2 - 16)
  rw [logL_of_highest_bit (Nat.log2_self_le hne) Nat.lt_log2_self]
  omega

theorem merOfQ_zero : merOfQ 0 = 0 := rfl

theorem merOfQ_of_logL_nonpos {q : Nat} (h : logL q ≤ 0) : merOfQ q = 0 := by
  simp [merOfQ, h]

theorem merOfQ_of_logL_pos {q : Nat} (h0 : 1 ≤ q) (h : 0 < logL q) :
    (merOfQ q : Int) = (logL q * 1927 + 512) / 1024 := by
  rw [merOfQ, if_neg (Nat.ne_of_gt h0), if_neg (Int.not_le.mpr h)]
  omega

/-- R11: the MER is at most 359 cB. -/
theorem merOfQ_le {q : Nat} (hq : q ≤ 65535) : merOfQ q ≤ 359 := by
  by_cases h0 : q = 0
  · rw [h0, merOfQ_zero]
    decide
  · have h1 : 1 ≤ q := Nat.pos_of_ne_zero h0
    obtain hL | hL := le_or_gt (logL q) 0
    · rw [merOfQ_of_logL_nonpos hL]
      decide
    · have := merOfQ_of_logL_pos h1 hL
      have := (logL_bounds h1 hq).2
      omega

/-- Settles O48, by the ranges of ACC for Q, the highest set bit of Q for L, and the sign of L for the MER. -/
theorem merArithmetic : Obligations.MerArithmetic := by
  unfold Obligations.MerArithmetic
  refine ⟨fun d acc _ => ⟨fun h => ?_, fun _ h => quotientQ_of_le h, fun h => quotientQ_of_lt h,
    fun h => quotientQ_eq_zero h⟩, fun q p h0 hq hp hp1 => ?_, fun q hq => ⟨?_, fun h0 h => merOfQ_of_logL_pos h0 h,
    merOfQ_le hq⟩, fun _ _ => rfl⟩
  · exact quotientQ_of_le (h ▸ Nat.zero_le _)
  · refine ⟨fraction_le hp1, ?_, logL_bounds h0 hq⟩
    rw [logL_of_highest_bit hp hp1, List.getD_eq_getElem?_getD]
    rfl
  · rintro (rfl | h)
    · exact merOfQ_zero
    · exact merOfQ_of_logL_nonpos h

/-! ## Margin, score, interval and history (R12 to R23, R79) -/

theorem levelPenalty_inside {l lo hi : Nat} (h1 : lo ≤ l) (h2 : l ≤ hi) : levelPenalty (some l) lo hi = 0 :=
  if_neg (by omega)

theorem levelPenalty_outside {l lo hi : Nat} (h : l < lo ∨ hi < l) : levelPenalty (some l) lo hi = 60 := if_pos h

theorem slopeOf_ends (o n : HistoryPoint) (mid : List HistoryPoint) :
    slopeOf (o :: mid ++ [n]) =
      if o.time = n.time then 0
      else max (-200) (min 200 (((n.margin - o.margin) * 60).tdiv ((n.time : Int) - o.time))) := by
  have hfirst : (o :: mid ++ [n]).head? = some o := rfl
  have hlast : (o :: mid ++ [n]).getLast? = some n := List.getLast?_concat
  simp only [slopeOf, hfirst, hlast, clampInt_eq_max_min (show (-200 : Int) ≤ 200 by decide)]

theorem slopeOf_single (o : HistoryPoint) : slopeOf [o] = 0 := if_pos rfl

theorem fallOf_cast (h : List HistoryPoint) : (fallOf h : Int) = max 0 (-(slopeOf h)) := by
  unfold fallOf
  omega

theorem fadePenalty_eq (h : List HistoryPoint) : fadePenalty h = min 100 (fallOf h : Int) := by
  simp [fadePenalty]

theorem scoreOf_cast (margin : Int) (u : Nat) (level : Option Nat) (h : List HistoryPoint) (cfg : InputCfg) :
    (scoreOf margin u level h cfg : Int) =
      max 0 (min 1000 (500 + 2 * max (-200) (min 200 margin) + cfg.bias - blockTerm u - fadePenalty h
        - levelPenalty level cfg.winMin cfg.winMax)) := by
  simp only [scoreOf, clampInt_toNat (show (0 : Int) ≤ 1000 by decide),
    clampInt_eq_max_min (show (-200 : Int) ≤ 200 by decide)]

theorem intervalOf_at_guard {p : Params} {margin : Int} (fall : Nat) (h : margin ≤ p.guardMargin) :
    intervalOf p margin fall = p.minInterval := if_pos h

theorem intervalOf_above_guard {p : Params} {margin : Int} (fall : Nat) (hp : p.minInterval ≤ p.maxAge)
    (h : (p.guardMargin : Int) < margin) :
    (intervalOf p margin fall : Int) =
      max (p.minInterval : Int) (min (p.maxAge : Int) ((margin - p.guardMargin) * 60 / (max fall 1 : Nat))) := by
  rw [intervalOf, if_neg (Int.not_le.mpr h)]
  exact clampNat_toNat_cast hp (Int.ediv_nonneg (by omega) (Int.natCast_nonneg _))

/-- R79: a point at least 30 s after the newest is admitted, and of five points the oldest is removed. -/
theorem offerPoint_admitted {q n : HistoryPoint} {h : List HistoryPoint} (hl : h.length ≤ 3)
    (ht : n.time + 30 ≤ q.time) : offerPoint q (h ++ [n]) = (h ++ [n, q]).drop (h.length - 2) := by
  have happ : h ++ [n] ++ [q] = h ++ [n, q] := by simp
  rw [offerPoint, List.getLast?_concat]
  simp only [historyGap, historyPlaces, ht, if_true, happ, List.length_append, List.length_cons, List.length_nil]
  split
  · next h4 => rw [show h.length - 2 = 1 by omega]
  · next h4 => rw [show h.length - 2 = 0 by omega, List.drop_zero]

theorem offerPoint_refused {q n : HistoryPoint} (h : List HistoryPoint) (ht : q.time < n.time + 30) :
    offerPoint q (h ++ [n]) = h ++ [n] := by
  rw [offerPoint, List.getLast?_concat]
  exact if_neg (Nat.not_le.mpr ht)

/-- Settles O49, one lemma per rule. -/
theorem scoreArithmetic : Obligations.ScoreArithmetic := by
  unfold Obligations.ScoreArithmetic
  refine ⟨fun _ _ => rfl, fun l lo hi => ⟨rfl, levelPenalty_inside, levelPenalty_outside⟩, fun u => ?blocks,
    fun o n mid => ⟨rfl, slopeOf_single o, fun h => ?_, fun h => ?_⟩, fun h => ⟨fallOf_cast h, fadePenalty_eq h⟩,
    scoreOf_cast, fun p margin fall hp => ⟨intervalOf_at_guard fall, intervalOf_above_guard fall hp⟩, fun _ _ => rfl,
    fun q h n hl => ⟨rfl, offerPoint_admitted hl, offerPoint_refused h⟩⟩
  case blocks =>
    unfold blockTerm
    omega
  · rw [slopeOf_ends, if_pos h]
  · rw [slopeOf_ends, if_neg h]

/-! ## The survey records -/

theorem putSurvey_survey (i : Fin 8) (x : Option SurveyRecord) (s : State) :
    (putSurvey i x s).sched.surveys[i] = x := by
  simp [putSurvey]

theorem returnUrgent_surveys (x : Nat) (s : State) : (returnUrgent x s).sched.surveys = s.sched.surveys := by
  unfold returnUrgent
  split <;> rfl

theorem leaveSet_surveys (x : Nat) (s : State) : (leaveSet x s).sched.surveys = s.sched.surveys := by
  unfold leaveSet
  split <;> rfl

/-- R100: the end of slot `i`'s survey role leaves it no survey record. -/
theorem endSurvey_survey (i : Fin 8) (reason : EndReason) (s : State) :
    (endSurvey i reason s).sched.surveys[i] = none := by
  unfold endSurvey
  split
  · next h => exact h
  · dsimp only
    split
    · simpa only [returnUrgent_surveys] using putSurvey_survey i none s
    · exact putSurvey_survey i none s

/-! ## A window record taken into the entry (R13, R20, R78) -/

theorem levelAt_eq (r : Slot) (reading : Int) :
    levelAt r reading =
      r.lastCal.bind fun l => if r.input = some l.1 then some (max 0 (min 1200 reading)).toNat else none := by
  unfold levelAt levelOf
  rw [clampInt_eq_max_min (show (0 : Int) ≤ 1200 by decide)]
  cases r.lastCal <;> rfl

theorem carried_eq (c : Carrier) : c.carried = (c.hold.map (·.carry)).getD false := by
  unfold Carrier.carried
  cases c.hold <;> rfl

theorem ActivelyHolds.activeHold {s : State} {i : Fin 8} {x : Nat} {c : Carrier} (h : ActivelyHolds s i x c) :
    activeHold s x i = true := by
  obtain ⟨-, hc, carry, hh⟩ := h
  simp [Machine.activeHold, hc, hh]

theorem Tells.putCarrier {s t : State} (h : Tells s t) (x : Nat) (c : Carrier) :
    Tells (putCarrier x c s) (putCarrier x c t) :=
  ⟨h.slots, h.reference, congrArg (tabPut · x c) h.carriers, h.clock, h.plan⟩

/-- R78: in phase ACTIVE the record is taken into the entry; beyond that the table only tells. -/
theorem tableRecord_tells {s : State} {i : Fin 8} {x : Nat} {c : Carrier} (rec : WindowRecord)
    (h : ActivelyHolds s i x c) : Tells (putCarrier x (recordedEntry s rec c) s) (tableRecord x i rec s) := by
  have hleft : Tells s (if s.carriedAt x then leaveSet x s else s) := by
    split
    · exact tells_leaveSet ..
    · exact .refl s
  rw [tableRecord, if_pos h.activeHold]
  obtain ⟨-, hc, -⟩ := h
  exact (hleft.putCarrier ..).trans (changeCarrier_tells ((hleft.carrier x).trans hc))

theorem changeCarrier_sched (x : Nat) (f : Carrier → Carrier) (s : State) : (changeCarrier x f s).sched = s.sched := by
  unfold changeCarrier
  split
  · rfl
  · exact (ranks_reportCarrier ..).sameSched

theorem tableRecord_surveys (x : Nat) (i : Fin 8) (rec : WindowRecord) (s : State) :
    (tableRecord x i rec s).sched.surveys = s.sched.surveys := by
  unfold tableRecord
  split
  · dsimp only
    rw [changeCarrier_sched]
    split
    · exact leaveSet_surveys ..
    · rfl
  · rfl

theorem dueAfterInterval_congr {s t : State} (hclock : t.clock = s.clock) (hplan : t.plan = s.plan) (c : Carrier) :
    dueAfterInterval t c = dueAfterInterval s c := by
  simp only [dueAfterInterval, State.now, State.params, hclock, hplan]

/-- The entry once the record of slot `r`'s completed window is taken, its fields written out (R5, R12, R13, R20, R21,
R78, R79). -/
theorem recordedEntry_window {r : Slot} {k : Nat} (hk : r.meas.k = some k) (reading : Int) (s : State) (c : Carrier) :
    recordedEntry s (windowRecord s.now r reading) c =
      let level := levelAt r reading
      let margin := marginOf (merOf k r.meas.acc) (s.committed.profile c.profile).reqMer
      let history := offerPoint { time := s.now, margin := margin } c.history
      { c with
        meas := some
          { time := s.now, mer := merOf k r.meas.acc, u := r.meas.u, overflow := r.meas.overflow, level := level,
            saturated := decide (0 < r.meas.overflow), uncalibrated := level.isNone, margin := margin,
            score :=
              if c.state = .verified then
                some (scoreOf margin r.meas.u level history (s.committed.inputCfg c.input))
              else none }
        history := history
        nextDue :=
          if c.carried then c.nextDue else timeAfter s.now (intervalOf s.params margin (fallOf history)) } := by
  unfold recordedEntry windowRecord
  simp only [hk, Option.getD_some]
  cases c.carried <;> rfl

/-- R21, R78: the record of a carrier that is not carried sets its next-due time. -/
theorem recordedEntry_nextDue {c : Carrier} (h : c.carried = false) (rec : WindowRecord) (s : State) :
    (recordedEntry s rec c).nextDue = dueAfterInterval s (recordedEntry s rec c) := by
  simp only [recordedEntry, h, Bool.false_eq_true, if_false]
  rfl

theorem recordedEntry_hold (s : State) (rec : WindowRecord) (c : Carrier) : (recordedEntry s rec c).hold = c.hold := by
  unfold recordedEntry
  dsimp only
  split <;> rfl

/-! ## A window counted for the re-check (R66) -/

/-- The channel once a window completion is counted. -/
def countedChannel (c : Channel) : Channel :=
  if c.stage = .none ∧ c.recheckDue = false then
    (if c.windows = 255 then { c with windows := 0, recheckDue := true } else { c with windows := c.windows + 1 })
  else c

theorem putSlot_self (i : Fin 8) (s : State) : putSlot i (s.slot i) s = s := by
  have : s.slots.set i (s.slot i) = s.slots := Vector.set_getElem_self _
  rw [putSlot, this]
  rfl

theorem modChan_congr {i : Fin 8} {s : State} {f g : Channel → Channel}
    (h : f (s.slot i).chan = g (s.slot i).chan) : modChan i f s = modChan i g s := by
  simp only [modChan, modSlot, h]

theorem countRecheckWindow_eq (i : Fin 8) (s : State) : countRecheckWindow i s = modChan i countedChannel s := by
  have limit (n : Nat) : n + 1 = recheckWindows ↔ n = 255 := by
    unfold recheckWindows
    omega
  unfold countRecheckWindow
  dsimp only
  by_cases hcounts : (s.slot i).chan.stage = .none ∧ (s.slot i).chan.recheckDue = false
  · rw [if_pos hcounts]
    by_cases hw : (s.slot i).chan.windows = 255
    · rw [if_pos ((limit _).mpr hw)]
      exact modChan_congr (by simp [countedChannel, hcounts, hw])
    · rw [if_neg (mt (limit _).mp hw)]
      exact modChan_congr (by simp [countedChannel, hcounts, hw])
  · have hsame : countedChannel (s.slot i).chan = (s.slot i).chan := if_neg hcounts
    rw [if_neg hcounts, modChan, modSlot, hsame]
    exact (putSlot_self i s).symm

/-! ## A window counted for the survey (R98) -/

theorem countSurveyWindow_idle {i : Fin 8} {s : State}
    (h : ∀ q, s.sched.surveys[i] = some q → ¬(q.phase = .measuring ∧ (s.slot i).role = .survey)) :
    countSurveyWindow i s = s := by
  unfold countSurveyWindow
  split
  · rfl
  · next q hq => exact if_neg (h q hq)

theorem countSurveyWindow_counts {i : Fin 8} {s : State} {q : SurveyRecord} (hq : s.sched.surveys[i] = some q)
    (hcounts : q.phase = .measuring ∧ (s.slot i).role = .survey) (hmore : q.taken + 1 ≠ q.wanted) :
    countSurveyWindow i s = putSurvey i (some { q with taken := q.taken + 1 }) s := by
  simp [countSurveyWindow, hq, hcounts, hmore]

/-- Short of the survey's last window the slots, the reference and the carrier table are left alone, and a survey in
MEASURING counts one window. -/
theorem countSurveyWindow_continues {i : Fin 8} {s : State}
    (h : (s.slot i).role = .survey →
      ∀ q, s.sched.surveys[i] = some q → q.phase = .measuring → q.taken + 1 ≠ q.wanted) :
    Tells s (countSurveyWindow i s) ∧
      ∀ q, s.sched.surveys[i] = some q →
        (countSurveyWindow i s).sched.surveys[i] =
          some (if q.phase = .measuring ∧ (s.slot i).role = .survey then { q with taken := q.taken + 1 } else q) := by
  by_cases hcounts : ∃ q, s.sched.surveys[i] = some q ∧ q.phase = .measuring ∧ (s.slot i).role = .survey
  · obtain ⟨q, hq, hphase, hrole⟩ := hcounts
    rw [countSurveyWindow_counts hq ⟨hphase, hrole⟩ (h hrole q hq hphase)]
    refine ⟨tells_putSurvey .., fun p hp => ?_⟩
    obtain rfl : p = q := Option.some.inj (hp.symm.trans hq)
    rw [if_pos ⟨hphase, hrole⟩]
    exact putSurvey_survey ..
  · have hidle : ∀ q, s.sched.surveys[i] = some q → ¬(q.phase = .measuring ∧ (s.slot i).role = .survey) :=
      fun q hq hc => hcounts ⟨q, hq, hc⟩
    rw [countSurveyWindow_idle hidle]
    refine ⟨.refl s, fun p hp => ?_⟩
    rw [if_neg (hidle p hp)]
    exact hp

theorem releaseSlot_scheduler_locked {i : Fin 8} {s : State} (hold : Bool) (hrole : (s.slot i).role = .survey)
    (hstate : (s.slot i).state = .locked) :
    (releaseSlot .scheduler hold i s).1 = releaseWork i hold false .released false s := by
  simp [releaseSlot, hrole, hstate]

/-- The survey's last wanted window, with no lock loss next, releases the slot from LOCKED. -/
theorem countSurveyWindow_last {i : Fin 8} {s : State} {q : SurveyRecord} (hq : s.sched.surveys[i] = some q)
    (hphase : q.phase = .measuring) (hrole : (s.slot i).role = .survey) (hlast : q.taken + 1 = q.wanted)
    (hstate : (s.slot i).state = .locked) (hloss : s.pending.head? ≠ some (.lockLoss i)) :
    countSurveyWindow i s = releaseWork i false false .released false
      (putSurvey i (some { q with taken := q.taken + 1, phase := .ending }) s) := by
  have hfinish : countSurveyWindow i s = finishSurvey i q s := by
    simp [countSurveyWindow, hq, hphase, hrole, hlast]
  have halone : lossTogether i s = false := decide_eq_false hloss
  simp only [hfinish, finishSurvey, halone, Bool.false_eq_true, if_false]
  exact releaseSlot_scheduler_locked false hrole hstate

/-! ## The release of a survey's slot (R30, R80, R100) -/

/-- The release in LOCKED of a slot in role SURVEY, no adoption pending: the slot is freed, its survey record closed, and
its entry unheld with the next-due time of R80. -/
theorem releaseWork_survey {s : State} {i : Fin 8} {x : Nat} {c : Carrier} (hold offline asked : Bool)
    (h : ActivelyHolds s i x c) (hrole : (s.slot i).role = .survey) (hstate : (s.slot i).state = .locked)
    (hadopt : (s.slot i).adoptionPending = false) (href : s.reference.holder = some i → i ∉ s.reference.queue) :
    let u := releaseWork i hold offline .released asked s
    u.slot i = freedSlot hold offline (s.slot i) ∧ u.sched.surveys[i] = none ∧
      u.carrier x = some { c with nextDue := dueAfterInterval s c, hold := none } := by
  obtain ⟨hx, hc, carry, hh⟩ := h
  have hwork : releaseWork i hold offline .released asked s =
      endSurvey i .released (tableReleased x i (enterReleasing i hold offline s)) := by
    simp [releaseWork, reportEnd, hx, hrole, hstate, hadopt]
  obtain ⟨hfreed, -, hentries⟩ := leaveLocked_slot (f := freedSlot hold offline) (by simp [freedSlot]) href
  obtain ⟨hclock, hplan⟩ := leaveLocked_clock i (freedSlot hold offline) s
  have hdue : dueAfterInterval (enterReleasing i hold offline s) c = dueAfterInterval s c :=
    dueAfterInterval_congr hclock hplan c
  have hc' : (enterReleasing i hold offline s).carrier x = some c := (congrArg (tabGet · x) hentries).trans hc
  dsimp only
  rw [hwork]
  refine ⟨?slot, endSurvey_survey .., ?entry⟩
  case slot =>
    have hslots : (tableReleased x i (enterReleasing i hold offline s)).slots = (enterReleasing i hold offline s).slots :=
      (endHold_slots ..).1
    exact (tells_endSurvey ..).slot i |>.trans ((congrArg (·[i]) hslots).trans hfreed)
  case entry =>
    rw [(tells_endSurvey ..).carrier, tableReleased, endHold_active hc' hh rfl rfl, if_pos rfl, hdue]

/-! ## The completion of a window (R2, R5) -/

/-- The state in which a completed window of slot `i` on carrier `x` is handed to the survey: the next window has started,
the entry has its record, and the re-check has its count. -/
def takeWindow (i : Fin 8) (x : Nat) (reading : Int) (s : State) : State :=
  countRecheckWindow i
    (tableRecord x i (windowRecord s.now (s.slot i) reading) (modSlot i (fun r => { r with meas := startWindow r.meas }) s))

theorem completeWindow_eq {i : Fin 8} {x : Nat} {s : State} (reading : Int) (hf : windowFull (s.slot i).meas = true)
    (hx : (s.slot i).carrier = some x) : completeWindow i reading s = countSurveyWindow i (takeWindow i x reading s) := by
  simp [completeWindow, takeWindow, hf, hx]

/-- What `takeWindow` makes of the slots and the entries, `c` being the entry of the carrier, and what it leaves alone. -/
structure WindowTaken (i : Fin 8) (x : Nat) (reading : Int) (c : Carrier) (s t : State) : Prop where
  slot : t.slot i =
    { s.slot i with meas := startWindow (s.slot i).meas, chan := countedChannel (s.slot i).chan }
  others : ∀ j, j ≠ i → t.slot j = s.slot j
  entry : t.carrier x = some (recordedEntry s (windowRecord s.now (s.slot i) reading) c)
  entries : ∀ y, y ≠ x → t.carrier y = s.carrier y
  reference : t.reference = s.reference
  clock : t.clock = s.clock
  plan : t.plan = s.plan
  pending : t.pending = s.pending
  surveys : t.sched.surveys = s.sched.surveys

theorem takeWindow_taken {i : Fin 8} {x : Nat} {c : Carrier} {s : State} (reading : Int) (h : ActivelyHolds s i x c) :
    WindowTaken i x reading c s (takeWindow i x reading s) := by
  let s1 := modSlot i (fun r => { r with meas := startWindow r.meas }) s
  let taken := windowRecord s.now (s.slot i) reading
  have hs1 (j : Fin 8) : s1.slot j = if j = i then { s.slot i with meas := startWindow (s.slot i).meas } else s.slot j :=
    modSlot_slot ..
  have hheld : ActivelyHolds s1 i x c := ⟨by rw [hs1, if_pos rfl]; exact h.1, h.2⟩
  have ht : Tells (putCarrier x (recordedEntry s taken c) s1) (tableRecord x i taken s1) := tableRecord_tells taken hheld
  have htake : takeWindow i x reading s = modChan i countedChannel (tableRecord x i taken s1) := countRecheckWindow_eq ..
  have hslot (j : Fin 8) : (takeWindow i x reading s).slot j =
      if j = i then { s1.slot i with chan := countedChannel (s1.slot i).chan } else s1.slot j := by
    rw [htake, modChan, modSlot_slot, ht.slot, ht.slot]
    rfl
  have hentry (y : Nat) : (takeWindow i x reading s).carrier y =
      if y = x then some (recordedEntry s taken c) else s.carrier y := by
    rw [htake]
    exact (ht.carrier y).trans (carrier_putCarrier ..)
  refine ⟨?_, fun j hj => ?_, ?_, fun y hy => ?_, ?_, ?_, ?_, ?_, ?_⟩
  · rw [hslot, if_pos rfl, hs1, if_pos rfl]
  · rw [hslot, if_neg hj, hs1, if_neg hj]
  · rw [hentry, if_pos rfl]
  · rw [hentry, if_neg hy]
  · rw [htake]
    exact ht.reference
  · rw [htake]
    exact ht.clock
  · rw [htake]
    exact ht.plan
  · rw [htake]
    exact (evolves_tableRecord ..).pending
  · rw [htake]
    exact tableRecord_surveys ..

/-- R98: the survey's last wanted window: the entry has its record, then slot `i` is released. -/
theorem takeWindow_last {i : Fin 8} {x : Nat} {c : Carrier} {s : State} {q : SurveyRecord} (reading : Int)
    (hheld : ActivelyHolds s i x c) (hq : s.sched.surveys[i] = some q) (hrole : (s.slot i).role = .survey)
    (hphase : q.phase = .measuring) (hlast : q.taken + 1 = q.wanted) (hstate : (s.slot i).state = .locked)
    (hadopt : (s.slot i).adoptionPending = false) (href : s.reference.holder = some i → i ∉ s.reference.queue)
    (hcarried : c.carried = false) (hloss : s.pending.head? ≠ some (.lockLoss i)) :
    let u := countSurveyWindow i (takeWindow i x reading s)
    (u.slot i).state = .releasing ∧ (u.slot i).carrier = none ∧ u.sched.surveys[i] = none ∧
      u.carrier x = some { recordedEntry s (windowRecord s.now (s.slot i) reading) c with hold := none } := by
  have ht := takeWindow_taken reading hheld
  obtain ⟨hx, -, hhold⟩ := hheld
  let s1 := putSurvey i (some { q with taken := q.taken + 1, phase := .ending }) (takeWindow i x reading s)
  let taken := recordedEntry s (windowRecord s.now (s.slot i) reading) c
  have hslot : s1.slot i =
      { s.slot i with meas := startWindow (s.slot i).meas, chan := countedChannel (s.slot i).chan } := ht.slot
  have hheld1 : ActivelyHolds s1 i x taken :=
    ⟨by rw [hslot]; exact hx, ht.entry, by rw [recordedEntry_hold]; exact hhold⟩
  have hdue : dueAfterInterval s1 taken = taken.nextDue :=
    (dueAfterInterval_congr ht.clock ht.plan taken).trans (recordedEntry_nextDue hcarried ..).symm
  have href1 : s1.reference.holder = some i → i ∉ s1.reference.queue := by
    have same : s1.reference = s.reference := ht.reference
    rwa [same]
  have hlastWindow : countSurveyWindow i (takeWindow i x reading s) = releaseWork i false false .released false s1 := by
    refine countSurveyWindow_last ((congrArg (·[i]) ht.surveys).trans hq) hphase ?_ hlast ?_ ?_
    · rw [ht.slot]
      exact hrole
    · rw [ht.slot]
      exact hstate
    · rw [ht.pending]
      exact hloss
  obtain ⟨hfreed, hclosed, hentry⟩ := releaseWork_survey false false false hheld1 (by rw [hslot]; exact hrole)
    (by rw [hslot]; exact hstate) (by rw [hslot]; exact hadopt) href1
  dsimp only
  rw [hlastWindow]
  refine ⟨by rw [hfreed]; rfl, by rw [hfreed]; rfl, hclosed, ?_⟩
  rw [hentry, hdue]

theorem startWindow_of_k {m : MeasUnit} {k : Nat} (hk : m.k = some k) :
    startWindow m = { k := some k, active := true, symbols := 0, acc := 0, overflow := 0, u := 0 } := by
  simp [startWindow, hk]

theorem exec_windowComplete (i : Fin 8) (reading : Int) (s : State) :
    exec (.windowComplete i reading) s =
      blockEvent (fun s => windowFull (s.slot i).meas) (completeWindow i reading) s := rfl

theorem exec_windowComplete_idle {i : Fin 8} {s : State} (reading : Int) (h : windowFull (s.slot i).meas = false) :
    exec (.windowComplete i reading) s = .next s := by
  rw [exec_windowComplete]
  exact blockEvent_idle h

theorem exec_windowComplete_full {i : Fin 8} {x : Nat} {s : State} (reading : Int) (hr : s.clock.inReset = false)
    (hf : windowFull (s.slot i).meas = true) (hx : (s.slot i).carrier = some x) :
    exec (.windowComplete i reading) s = .next (settle (countSurveyWindow i (takeWindow i x reading s))) := by
  rw [exec_windowComplete, ← completeWindow_eq reading hf hx]
  exact blockEvent_done hr hf

/-- Settles O47: a window that is not full has no effect; of a full one `takeWindow` hands the record to the entry and
counts it for the re-check, and the survey then either releases the slot (`takeWindow_last`) or goes on
(`countSurveyWindow_continues`). -/
theorem windowCompletes : Obligations.WindowCompletes := by
  unfold Obligations.WindowCompletes
  intro s i reading hr r full
  refine ⟨fun hopen => exec_windowComplete_idle reading (by rwa [← Bool.not_eq_true, windowFull_iff]), ?_⟩
  intro x c k hfull hk hheld p level margin history score record due carried taken
  have htaken : recordedEntry s (windowRecord s.now r reading) c = taken := by
    rw [recordedEntry_window hk, levelAt_eq, carried_eq]
    rfl
  have hexec := exec_windowComplete_full reading hr (windowFull_iff.mpr hfull) hheld.1
  constructor
  case left =>
    intro q hq hrole hphase hlast hstate hadopt href hcarried hloss
    obtain ⟨-, hheldOut, -⟩ := href
    have hu := takeWindow_last reading hheld hq hrole hphase hlast hstate hadopt (hheldOut i)
      ((carried_eq c).trans hcarried) hloss
    rw [htaken] at hu
    exact ⟨_, hexec, hu⟩
  case right =>
    intro hmore
    have ht := takeWindow_taken reading hheld
    have hrole : ((takeWindow i x reading s).slot i).role = r.role := by rw [ht.slot]
    obtain ⟨htells, hcount⟩ := countSurveyWindow_continues (i := i) (s := takeWindow i x reading s)
      (by rw [hrole, ht.surveys]; exact hmore)
    refine ⟨_, hexec, ?slot, fun j hj => ?others, ?entry, fun y hy => ?entries, fun q hq => ?survey⟩
    case slot =>
      rw [htells.slot, ht.slot, startWindow_of_k hk]
      rfl
    case others => rw [htells.slot, ht.others j hj]
    case entry => rw [htells.carrier, ht.entry, htaken]
    case entries => rw [htells.carrier, ht.entries y hy]
    case survey =>
      rw [hcount q (by rw [ht.surveys]; exact hq), hrole]

end Sys2Proof.Machine

/-! The family "Receive slots": the laws of the device through every step (R26, R42, R71, R83, R108, R114, R117, R129, R167,
R170) and at reset; the slots' requests, timers, locks, failures and verifications (R25 to R48), and the level reference. -/

namespace Sys2Proof.Machine

/-! ## The events of the blocks -/

theorem exec_holdUntilReached (v : Fin 256) (s : State) :
    exec (.holdUntilReached v) s = blockEvent (holdEnds v.val) (endHoldOf v.val) s := rfl

theorem exec_unparkTimeEnd (i : Fin 8) (s : State) :
    exec (.unparkTimeEnd i) s = blockEvent (unparkOver i) (modSlot i unparkedSlot) s := rfl

theorem exec_releaseTimeEnd (i : Fin 8) (s : State) :
    exec (.releaseTimeEnd i) s =
      blockEvent (fun s => decide ((s.slot i).state = .releasing) && timerOut (s.slot i).releaseTimer) (endRelease i) s :=
  rfl

theorem exec_park (i : Fin 8) (s : State) :
    exec (.park i) s =
      blockEvent (fun s => decide ((s.slot i).state = .idle) && timerOut (s.slot i).parkTimer)
        (fun s => searchDue (changeSlot i parkedSlot s)) s := rfl

theorem exec_lockGained (i : Fin 8) (s : State) :
    exec (.lockGained i) s = blockEvent (seekingLock i) (gainLock i) s := rfl

theorem exec_lockTimeout (i : Fin 8) (s : State) :
    exec (.lockTimeout i) s =
      blockEvent (fun s => stageOver s i .lockWait && decide ((s.slot i).retune = 0)) (lockTimeoutEnds i) s := rfl

theorem exec_retuneTimeout (i : Fin 8) (s : State) :
    exec (.retuneTimeout i) s =
      blockEvent
        (fun s => decide ((s.slot i).state = .tuning) && decide (0 < (s.slot i).retune) && timerOut (s.slot i).retuneTimer)
        (retuneTimeoutEnds i) s := rfl

theorem exec_lockLoss (i : Fin 8) (s : State) : exec (.lockLoss i) s = blockEvent (usingLock i) (loseLock i) s := rfl

theorem exec_sectionReceived {sec : Section} (h : sec.body.wf = true) (i : Fin 8) (s : State) :
    exec (.sectionReceived i sec) s = blockEvent (fun s => sec.passed && usingLock i s) (takeSection i sec) s := by
  have arm : exec (.sectionReceived i sec) s = execSectionReceived i sec s := rfl
  rw [arm, execSectionReceived, if_pos h]

theorem exec_sectionReceived_refused {sec : Section} (h : ¬sec.body.wf = true) (i : Fin 8) (s : State) :
    exec (.sectionReceived i sec) s = .refused .illFormed := by
  have arm : exec (.sectionReceived i sec) s = execSectionReceived i sec s := rfl
  rw [arm, execSectionReceived, if_neg h]

theorem exec_idTimeout (i : Fin 8) (s : State) :
    exec (.idTimeout i) s = blockEvent (fun s => stageOver s i .idWait) (failSlot i .noId) s := rfl

theorem exec_svcTimeout (i : Fin 8) (s : State) :
    exec (.svcTimeout i) s = blockEvent (fun s => stageOver s i .svcWait) (failSlot i .noServices) s := rfl

theorem exec_listTimeout (i : Fin 8) (s : State) :
    exec (.listTimeout i) s = blockEvent (fun s => stageOver s i .listWait) (verifyWith i .missed []) s := rfl

theorem exec_recheckStart (i : Fin 8) (s : State) :
    exec (.recheckStart i) s = whileRunning (fun s => if recheckWaits i s then modChan i recheckChannel s else s) s := rfl

theorem exec_recheckIdTimeout (i : Fin 8) (s : State) :
    exec (.recheckIdTimeout i) s = blockEvent (fun s => stageOver s i .recheckId) (failSlot i .noId) s := rfl

theorem exec_recheckSvcTimeout (i : Fin 8) (s : State) :
    exec (.recheckSvcTimeout i) s = blockEvent (fun s => stageOver s i .recheckSvc) (failSlot i .noServices) s := rfl

theorem exec_grantRequest (v : Fin 256) (s : State) :
    exec (.grantRequest v) s = blockEvent (fun s => (requestOf v.val s).isSome) (takeRequestOf v.val) s := rfl

theorem exec_switchPoint (p : Fin 4) (i : Fin 8) (s : State) :
    exec (.switchPoint p i) s =
      blockEvent (fun s => allRooms.any (awaitsPoint p i s))
        (fun s => (allRooms.filter (awaitsPoint p i s)).foldl completeSwitching s) s := rfl

theorem exec_switchTimeout (r : Fin 48) (s : State) :
    exec (.switchTimeout r) s =
      blockEvent (fun s => decide ((s.room r).route = .switching) && timerOut (s.room r).timer)
        (fun s => completeSwitching s r) s := rfl

theorem exec_calibrationEnd (s : State) :
    exec .calibrationEnd s =
      blockEvent (fun s => s.reference.holder.isSome && timerOut s.reference.timer) endCalibration s := rfl

theorem exec_secondCountAdvance (s : State) :
    exec .secondCountAdvance s = blockEvent (fun s => decide (s.now < maxSecond)) advanceSecond s := rfl

theorem exec_symbolDelivered_refused {q : Nat} (h : ¬q ≤ maxErrorPower) (i : Fin 8) (s : State) :
    exec (.symbolDelivered i q) s = .refused .illFormed := by
  have arm : exec (.symbolDelivered i q) s = execSymbolDelivered i q s := rfl
  rw [arm, execSymbolDelivered, if_neg h]

/-- `blockEvent_evolves` with the event first, which names its condition and its effect. -/
theorem evolves_of_blockEvent {p : State → Bool} {f : State → State} {s t : State} (h : blockEvent p f s = .next t)
    (hf : p s = true → Evolves s (f s)) : Evolves s t :=
  blockEvent_evolves hf h

/-- The events of the slots, the router and the watch unit's timer do no more than the blocks may. -/
theorem exec_evolves {c : Instr} {s t : State} (hc : ofBlocks c = true) (h : exec c s = .next t) : Evolves s t := by
  cases c with
  | holdUntilReached v =>
    exact evolves_of_blockEvent ((exec_holdUntilReached v s).symm.trans h) fun _ => (ranks_endHoldOf ..).toEvolves
  | unparkTimeEnd i => exact evolves_of_blockEvent ((exec_unparkTimeEnd i s).symm.trans h) fun _ => evolves_unparked ..
  | releaseTimeEnd i =>
    refine evolves_of_blockEvent ((exec_releaseTimeEnd i s).symm.trans h) fun hp => ?_
    exact evolves_endRelease (of_decide_eq_true (Bool.and_eq_true_iff.mp hp).1)
  | park i =>
    refine evolves_of_blockEvent ((exec_park i s).symm.trans h) fun hp => ?_
    exact (evolves_park (of_decide_eq_true (Bool.and_eq_true_iff.mp hp).1)).trans (evolves_searchDue _)
  | lockGained i => exact evolves_of_blockEvent ((exec_lockGained i s).symm.trans h) fun _ => evolves_gainLock ..
  | lockTimeout i => exact evolves_of_blockEvent ((exec_lockTimeout i s).symm.trans h) fun _ => evolves_lockTimeoutEnds ..
  | retuneTimeout i =>
    exact evolves_of_blockEvent ((exec_retuneTimeout i s).symm.trans h) fun _ => evolves_retuneTimeoutEnds ..
  | lockLoss i => exact evolves_of_blockEvent ((exec_lockLoss i s).symm.trans h) fun _ => evolves_loseLock ..
  | sectionReceived i sec =>
    by_cases hwf : sec.body.wf = true
    · exact evolves_of_blockEvent ((exec_sectionReceived hwf i s).symm.trans h) fun _ => evolves_takeSection ..
    · cases (exec_sectionReceived_refused hwf i s).symm.trans h
  | idTimeout i => exact evolves_of_blockEvent ((exec_idTimeout i s).symm.trans h) fun _ => evolves_failSlot ..
  | svcTimeout i => exact evolves_of_blockEvent ((exec_svcTimeout i s).symm.trans h) fun _ => evolves_failSlot ..
  | listTimeout i => exact evolves_of_blockEvent ((exec_listTimeout i s).symm.trans h) fun _ => evolves_verifyWith ..
  | recheckStart i =>
    refine whileRunning_evolves ?_ ((exec_recheckStart i s).symm.trans h)
    split
    · exact evolves_modChan ..
    · exact .refl s
  | recheckIdTimeout i =>
    exact evolves_of_blockEvent ((exec_recheckIdTimeout i s).symm.trans h) fun _ => evolves_failSlot ..
  | recheckSvcTimeout i =>
    exact evolves_of_blockEvent ((exec_recheckSvcTimeout i s).symm.trans h) fun _ => evolves_failSlot ..
  | symbolDelivered i q =>
    by_cases hq : q ≤ maxErrorPower
    · have arm : exec (.symbolDelivered i q) s = whileRunning (deliverSymbol i q) s := if_pos hq
      exact whileRunning_evolves (evolves_deliverSymbol ..) (arm.symm.trans h)
    · cases (exec_symbolDelivered_refused hq i s).symm.trans h
  | blockReport i => exact whileRunning_evolves (evolves_reportBlock i s) h
  | windowComplete i reading =>
    exact evolves_of_blockEvent ((exec_windowComplete i reading s).symm.trans h) fun _ => evolves_completeWindow ..
  | grantRequest v =>
    exact evolves_of_blockEvent ((exec_grantRequest v s).symm.trans h) fun _ => evolves_takeRequestOf ..
  | switchPoint p i =>
    exact evolves_of_blockEvent ((exec_switchPoint p i s).symm.trans h) fun _ => evolves_foldl evolves_completeSwitching _ s
  | switchTimeout r =>
    exact evolves_of_blockEvent ((exec_switchTimeout r s).symm.trans h) fun _ => evolves_completeSwitching ..
  | calibrationEnd =>
    exact evolves_of_blockEvent ((exec_calibrationEnd s).symm.trans h) fun _ => evolves_endCalibration s
  | pulseTimerEnd => exact whileRunning_evolves (evolves_endPulse s) h
  | _ => cases hc

/-! ## The ninth law (R167) -/

/-- The receive buffer and the reply place are as they were. -/
def SameAnswers (s t : State) : Prop := t.link.reply = s.link.reply ∧ t.link.buffer = s.link.buffer

theorem SameAnswers.inOrder {s t : State} (h : SameAnswers s t) : AnswersInOrder s t := .inl ⟨h.1, .inl h.2⟩

theorem SameAnswers.trans {s t u : State} (h : SameAnswers s t) (k : SameAnswers t u) : SameAnswers s u :=
  ⟨k.1.trans h.1, k.2.trans h.2⟩

theorem Evolves.sameAnswers {s t : State} (h : Evolves s t) : SameAnswers s t := ⟨h.link.reply, h.link.buffer⟩

theorem applyCommit_sameAnswers (p : Plan) (ev : List Nat) (s : State) : SameAnswers s (applyCommit p ev s) :=
  (evolves_applyCommit p ev s).sameAnswers

/-- What a command does leaves the receive buffer alone. -/
theorem carryOut_buffer (c : HostCommand) (s : State) : (carryOut c s).state.link.buffer = s.link.buffer := by
  cases c with
  | identify | readStatus | restart | setNotices | freeze | listServices => rfl
  | setInput | setProfile | addCarrier | dropCarrier | setCarrier | bindRoom | unbindRoom | setParams => rfl
  | thaw => simp only [carryOut, doThaw]; split <;> rfl
  | getCarrier i =>
    simp only [carryOut, doGetCarrier]
    split
    · split <;> rfl
    · rfl
  | listCarriers i => simp only [carryOut, doListCarriers]; split <;> rfl
  | getService i => simp only [carryOut, doGetService]; split <;> rfl
  | getRoom r => simp only [carryOut, doGetRoom]; split <;> rfl
  | getSlot i => simp only [carryOut, doGetSlot]; split <;> rfl
  | surveyNow i =>
    simp only [carryOut, doSurveyNow]
    split
    · split
      · rfl
      · split
        · rfl
        · split
          · rfl
          · split
            · rfl
            · split
              · rfl
              · exact (evolves_settle _).link.buffer
    · rfl
  | setSurveyMode m =>
    simp only [carryOut, doSetSurveyMode]
    split
    · rfl
    · exact (evolves_settle _).link.buffer
    · rfl
    · rfl
    · rfl
  | clearSurvey => exact ((evolves_clearSurvey s).trans (evolves_settle _)).link.buffer
  | slotOffline i =>
    simp only [carryOut, doSlotOffline]
    split
    · next hi =>
      have h1 := evolves_slotGoOffline ⟨i, hi⟩ s
      split
      · next s1 he =>
        rw [he] at h1
        exact (h1.trans (evolves_settle s1)).link.buffer
      · next s1 he =>
        rw [he] at h1
        exact h1.link.buffer
    · rfl
  | slotOnline i =>
    simp only [carryOut, doSlotOnline]
    split
    · next hi =>
      have h1 := evolves_slotGoOnline ⟨i, hi⟩ s
      split
      · next s1 he =>
        rw [he] at h1
        exact (h1.trans (evolves_settle s1)).link.buffer
      · next s1 he =>
        rw [he] at h1
        exact h1.link.buffer
    · rfl
  | commitPlan =>
    simp only [carryOut, doCommitPlan]
    split
    · rfl
    · split
      · rfl
      · split
        · rfl
        · next ev _ => exact ((applyCommit_sameAnswers _ ev s).trans (evolves_settle _).sameAnswers).2
  | discardPlan => simp only [carryOut, doDiscardPlan]; split <;> rfl
  | setWatch e =>
    simp only [carryOut, doSetWatch]
    split
    · split
      · split
        · rfl
        · split <;> rfl
      · rfl
    · rfl
  | clearWatch w => simp only [carryOut, doClearWatch]; split <;> rfl
  | ackWatch w => simp only [carryOut, doAckWatch]; split <;> rfl
  | setAlertMode m => simp only [carryOut, doSetAlertMode]; split <;> rfl

theorem clearAfter_answers (c : HostCommand) (s : State) : SameAnswers s (clearAfter c s) := by
  unfold clearAfter
  split <;> exact ⟨rfl, rfl⟩

/-- R167: a command answered: the buffer is as it was, and the reply place holds a reply with the command's code. -/
theorem answerCommand_answers (c : HostCommand) (s : State) :
    (answerCommand c s).link.buffer = s.link.buffer ∧
      ∃ r, (answerCommand c s).link.reply = some r ∧ r.code = (fieldsOf c).1 := by
  unfold answerCommand
  obtain ⟨hreply, hbuffer⟩ := clearAfter_answers c
    (formReply (fieldsOf c).1 (carryOut c s).code (carryOut c s).content (carryOut c s).state)
  exact ⟨hbuffer.trans (carryOut_buffer c s), _, hreply, rfl⟩

/-- R165: the fields of a payload of the table's length spell a command of the frame's code. -/
theorem commandOf_readFields {n : Nat} {ws : List Nat} (h : layoutOf n = some ws) (bs : List Byte) :
    ∃ c, commandOf n (readFields ws bs) = some c ∧ (fieldsOf c).1 = n := by
  unfold layoutOf at h
  split at h
  all_goals cases h
  all_goals exact ⟨_, rfl, rfl⟩

theorem parseCommand_code {f : Frame} {c : HostCommand} (h : parseCommand f = .ok c) : (fieldsOf c).1 = f.code := by
  unfold parseCommand at h
  split at h
  · cases h
  · next ws hws =>
    obtain ⟨d, hd, hcode⟩ := commandOf_readFields hws f.payload
    rw [hd] at h
    split at h
    · cases h
      exact hcode
    · cases h

theorem answerFrame_answers (f : Frame) (s : State) :
    (answerFrame f s).link.buffer = s.link.buffer ∧
      ∃ r, (answerFrame f s).link.reply = some r ∧ r.code = f.code := by
  unfold answerFrame
  split
  · exact ⟨rfl, _, rfl, rfl⟩
  · next c hc =>
    rw [← parseCommand_code hc]
    exact answerCommand_answers c s

theorem reply_none_of_unitFree {s : State} (h : unitFree s = true) : s.link.reply = none := by
  unfold unitFree at h
  simpa using (Bool.and_eq_true_iff.mp h).1

theorem takeFrame_inOrder {s : State} (h : unitFree s = true) : AnswersInOrder s (takeFrame s) := by
  unfold takeFrame
  split
  · exact SameAnswers.inOrder ⟨rfl, rfl⟩
  · next f rest hb =>
    obtain ⟨hbuffer, r, hr, hcode⟩ := answerFrame_answers f (modLink (fun l => { l with buffer := rest }) s)
    exact .inr (.inl ⟨reply_none_of_unitFree h, f, r, by rw [hb, hbuffer]; rfl, hr, hcode⟩)

theorem acceptFrame_answers (f : Frame) (l : Link) :
    (acceptFrame f l).reply = l.reply ∧ ((acceptFrame f l).buffer = l.buffer ∨ (acceptFrame f l).buffer = l.buffer ++ [f]) := by
  unfold acceptFrame
  split
  · exact ⟨rfl, .inr rfl⟩
  · exact ⟨rfl, .inl rfl⟩

theorem hostCommand_inOrder (c : HostCommand) (s : State) : AnswersInOrder s (hostCommand c s) := by
  unfold hostCommand
  split
  · next h =>
    obtain ⟨hfree, hempty⟩ := Bool.and_eq_true_iff.mp h
    have hb : s.link.buffer = [] := List.isEmpty_iff.mp hempty
    obtain ⟨hbuffer, r, hr, -⟩ := answerCommand_answers c s
    exact .inr (.inr (.inl ⟨reply_none_of_unitFree hfree, hb, hbuffer.trans hb, r, hr⟩))
  · obtain ⟨hreply, hbuffer⟩ := acceptFrame_answers (encodeCommand c) s.link
    exact .inl ⟨hreply, hbuffer.imp_right fun h => ⟨_, h⟩⟩

theorem dropPartial_reply (l : Link) : (dropPartial l).reply = l.reply := by
  unfold dropPartial
  split <;> rfl

theorem endFrame_answers (k c b : Byte) (n : Nat) (got : List Byte) (l : Link) :
    (endFrame k c b n got l).reply = l.reply ∧
      ((endFrame k c b n got l).buffer = l.buffer ∨ ∃ f, (endFrame k c b n got l).buffer = l.buffer ++ [f]) := by
  unfold endFrame
  split
  · obtain ⟨hreply, hbuffer⟩ := acceptFrame_answers { code := c.toNat, payload := got } (toHunt l)
    exact ⟨hreply, hbuffer.imp_right fun h => ⟨_, h⟩⟩
  · exact ⟨rfl, .inl rfl⟩

/-- R164, R166: a byte received accepts a frame at most. -/
theorem receive_answers (b : Byte) (l : Link) :
    (receive b l).reply = l.reply ∧ ((receive b l).buffer = l.buffer ∨ ∃ f, (receive b l).buffer = l.buffer ++ [f]) := by
  unfold receive
  split
  · split <;> exact ⟨rfl, .inl rfl⟩
  · exact ⟨rfl, .inl rfl⟩
  · exact ⟨rfl, .inl rfl⟩
  · split
    · exact ⟨rfl, .inl rfl⟩
    · split <;> exact ⟨rfl, .inl rfl⟩
  · split <;> exact ⟨rfl, .inl rfl⟩
  · exact endFrame_answers ..

theorem startFrame_inOrder (s : State) : AnswersInOrder s (modLink startFrame s) := by
  have reply {r : Reply} (hr : s.link.reply = some r) : AnswersInOrder s (modLink (startReply r) s) :=
    .inr (.inr (.inr (.inl ⟨r, hr, rfl, rfl, rfl⟩)))
  unfold modLink startFrame
  split
  · exact SameAnswers.inOrder ⟨rfl, rfl⟩
  · split
    · next hr _ => exact reply hr
    · next hr _ =>
      split
      · exact SameAnswers.inOrder ⟨rfl, rfl⟩
      · exact reply hr
    · exact SameAnswers.inOrder ⟨rfl, rfl⟩
    · exact SameAnswers.inOrder ⟨rfl, rfl⟩

theorem endSending_sameAnswers (s : State) : SameAnswers s (modLink endSending s) := by
  unfold modLink endSending
  split <;> exact ⟨rfl, rfl⟩

/-! ## Every law through every step -/

/-- What a step owes the laws: it keeps each, and answers in order. -/
def Lawful (s t : State) : Prop := Keeps s t ∧ AnswersInOrder s t

theorem Lawful.refl (s : State) : Lawful s s := ⟨.refl s, SameAnswers.inOrder ⟨rfl, rfl⟩⟩

theorem Evolves.lawful {s t : State} (h : Evolves s t) : Lawful s t := ⟨h.keeps, h.sameAnswers.inOrder⟩

theorem whileRunning_lawful {f : State → State} {s t : State} (h : whileRunning f s = .next t) (hf : Lawful s (f s)) :
    Lawful s t := by
  cases h
  split
  · exact .refl s
  · exact hf

theorem hostRow_lawful {c : HostCommand} {s t : State} (h : hostRow c s = .next t) : Lawful s t := by
  unfold hostRow at h
  split at h
  · exact whileRunning_lawful h ⟨keeps_hostCommand c s, hostCommand_inOrder c s⟩
  · cases h

theorem exec_rowOf (c : HostCommand) (s : State) : exec (rowOf c) s = hostRow c s := by
  cases c <;> rfl

theorem row_lawful (c : HostCommand) {s t : State} (h : exec (rowOf c) s = .next t) : Lawful s t :=
  hostRow_lawful ((exec_rowOf c s).symm.trans h)

theorem advanceSecond_sameAnswers (s : State) : SameAnswers s (advanceSecond s) := by
  have hclock : SameAnswers s (modClock (fun c => { c with now := c.now + 1 }) s) := ⟨rfl, rfl⟩
  unfold advanceSecond
  dsimp only
  refine hclock.trans (Evolves.sameAnswers ?_)
  exact ((evolves_reportChanges ..).trans (evolves_evaluateNeeds _)).trans (evolves_searchDue _)

theorem advanceSecond_lawful (s : State) : Lawful s (settle (advanceSecond s)) :=
  ⟨(keeps_advanceSecond s).trans (evolves_settle _).keeps,
    ((advanceSecond_sameAnswers s).trans (evolves_settle _).sameAnswers).inOrder⟩

theorem tick_sameAnswers (s : State) : SameAnswers s (tick s) := by
  unfold tick drawOrder
  split
  · exact ⟨rfl, rfl⟩
  · dsimp only
    split <;> exact ⟨rfl, rfl⟩

/-- Every command and event keeps the laws: those of the blocks by what the blocks may do, the others one by one. -/
theorem exec_lawful {c : Instr} {s t : State} (h : exec c s = .next t) : Lawful s t := by
  by_cases hc : ofBlocks c = true
  · exact (exec_evolves hc h).lawful
  cases c with
  | byteReceived b =>
    refine whileRunning_lawful h ⟨keeps_receive b s, ?_⟩
    obtain ⟨hreply, hbuffer⟩ := receive_answers b (dropPartial s.link)
    rw [dropPartial_reply] at hreply
    rw [dropPartial_buffer] at hbuffer
    exact .inl ⟨hreply, hbuffer⟩
  | byteGapTimeout =>
    exact whileRunning_lawful h
      ⟨keeps_modLink dropPartial_notices dropPartial_buffer,
        SameAnswers.inOrder ⟨dropPartial_reply _, dropPartial_buffer _⟩⟩
  | commandTaken =>
    refine whileRunning_lawful h ?_
    split
    · next hfree => exact ⟨keeps_takeFrame s, takeFrame_inOrder hfree⟩
    · exact .refl s
  | transmitStart => exact whileRunning_lawful h ⟨keeps_startFrame s, startFrame_inOrder s⟩
  | frameSent => exact whileRunning_lawful h ⟨keeps_endSending s, (endSending_sameAnswers s).inOrder⟩
  | restartTakesEffect strap =>
    refine whileRunning_lawful h ?_
    split
    · exact ⟨keeps_afterReset .., .inr (.inr (.inr (.inr ⟨_, _, _, _, .inr rfl⟩)))⟩
    · exact .refl s
  | powerOn =>
    cases h
    exact ⟨keeps_atReset .., .inr (.inr (.inr (.inr ⟨_, _, _, _, .inl rfl⟩)))⟩
  | resetAssert =>
    cases h
    exact ⟨keeps_atReset .., .inr (.inr (.inr (.inr ⟨_, _, _, _, .inl rfl⟩)))⟩
  | resetRelease strap =>
    cases h
    split
    · exact ⟨keeps_afterReset .., .inr (.inr (.inr (.inr ⟨_, _, _, _, .inr rfl⟩)))⟩
    · exact .refl s
  | secondCountAdvance =>
    rw [exec_secondCountAdvance] at h
    refine whileRunning_lawful h ?_
    split
    · exact advanceSecond_lawful s
    · exact .refl s
  | identify => exact row_lawful .identify h
  | readStatus => exact row_lawful .readStatus h
  | restart => exact row_lawful .restart h
  | setNotices m => exact row_lawful (.setNotices m) h
  | freeze => exact row_lawful .freeze h
  | thaw => exact row_lawful .thaw h
  | getCarrier i => exact row_lawful (.getCarrier i) h
  | listCarriers i => exact row_lawful (.listCarriers i) h
  | getService i => exact row_lawful (.getService i) h
  | listServices i => exact row_lawful (.listServices i) h
  | getRoom r => exact row_lawful (.getRoom r) h
  | getSlot i => exact row_lawful (.getSlot i) h
  | surveyNow i => exact row_lawful (.surveyNow i) h
  | setSurveyMode m => exact row_lawful (.setSurveyMode m) h
  | clearSurvey => exact row_lawful .clearSurvey h
  | slotOffline i => exact row_lawful (.slotOffline i) h
  | slotOnline i => exact row_lawful (.slotOnline i) h
  | setInput e => exact row_lawful (.setInput e) h
  | setProfile e => exact row_lawful (.setProfile e) h
  | addCarrier i f c => exact row_lawful (.addCarrier i f c) h
  | dropCarrier n => exact row_lawful (.dropCarrier n) h
  | setCarrier n f => exact row_lawful (.setCarrier n f) h
  | bindRoom e => exact row_lawful (.bindRoom e) h
  | unbindRoom r => exact row_lawful (.unbindRoom r) h
  | setParams n v => exact row_lawful (.setParams n v) h
  | commitPlan => exact row_lawful .commitPlan h
  | discardPlan => exact row_lawful .discardPlan h
  | setWatch e => exact row_lawful (.setWatch e) h
  | clearWatch w => exact row_lawful (.clearWatch w) h
  | ackWatch w => exact row_lawful (.ackWatch w) h
  | setAlertMode m => exact row_lawful (.setAlertMode m) h
  | _ => exact absurd rfl hc

theorem step_lawful {s t : State} (h : step s = .next t) : Lawful s t := by
  unfold step at h
  split at h
  · cases h
    exact ⟨keeps_tick s, (tick_sameAnswers s).inOrder⟩
  · obtain ⟨hkeeps, horder⟩ := exec_lawful h
    exact ⟨(keeps_setPending _ s).trans hkeeps, horder⟩

/-- Settles O60, by what each command may do within its step (`exec_lawful`). -/
theorem lawsKeptByEveryStep : Obligations.LawsKeptByEveryStep := by
  unfold Obligations.LawsKeptByEveryStep
  intro s t h
  obtain ⟨hkeeps, horder⟩ := step_lawful h
  exact ⟨hkeeps.notices, hkeeps.buffer, hkeeps.carriers, hkeeps.services, hkeeps.selections, hkeeps.urgent,
    hkeeps.requests, hkeeps.records, hkeeps.slots, hkeeps.reference, hkeeps.candidates, hkeeps.intervals, hkeeps.due,
    hkeeps.routes, horder⟩

/-! ## Right after a reset -/

/-- Settles O59: after a reset the tables and queues are empty, every slot is as `Slot.reset` and every channel
UNBOUND. -/
theorem lawsHoldAtReset : Obligations.LawsHoldAtReset := by
  unfold Obligations.LawsHoldAtReset
  have slot (i : Fin 8) : State.reset.slots[i] = Slot.reset := by simp [State.reset, State.afterReset, State.atReset]
  have room (r : Fin 48) : State.reset.room r = Room.reset := by
    simp [State.reset, State.afterReset, State.atReset, State.room, Router.reset]
  refine ⟨⟨by decide, List.pairwise_singleton ..⟩, Nat.zero_le _, ⟨rfl, .nil⟩, ⟨rfl, .nil⟩, ?selections,
    ⟨.nil, Nat.zero_le _⟩, .nil, .nil, ⟨fun i => ?slotOk, fun i j _ hne => ?carriers⟩, ⟨.nil, ?free, ?locked⟩, ?candidates,
    ⟨by decide, fun q hq => ?staged⟩, ?due, fun r hr => ?routes⟩
  case selections => exact fun e he => nomatch he
  case candidates => exact fun e he => nomatch he
  case due => exact fun _ e he => nomatch he
  case staged => exact nomatch hq
  case free => exact fun i hi => nomatch hi
  case locked => exact fun i hi => hi.elim (fun h => nomatch h) (fun h => nomatch h)
  case slotOk =>
    rw [slot]
    simp [SlotOk, Slot.reset, MeasUnit.reset]
  case carriers => exact absurd (congrArg Slot.carrier (slot i)) hne
  case routes =>
    rw [room] at hr
    exact hr.elim (fun h => nomatch h) (fun h => nomatch h)

/-- R173: what stands when a reset has ended. -/
theorem ResetEnds.afterReset {s t : State} (h : ResetEnds s t) :
    ∃ cause strap draws pending, t = State.afterReset cause strap draws pending := by
  obtain ⟨strap, ⟨hr, h⟩ | ⟨hr, hdue, h⟩⟩ := h
  · have arm : exec (.resetRelease strap) s = execResetRelease strap s := rfl
    rw [arm, execResetRelease, if_pos hr] at h
    cases h
    exact ⟨_, _, _, _, rfl⟩
  · have arm : exec (.restartTakesEffect strap) s = execRestartTakesEffect strap s := rfl
    rw [arm, execRestartTakesEffect, whileRunning, hr, if_neg Bool.false_ne_true, if_pos hdue] at h
    cases h
    exact ⟨_, _, _, _, rfl⟩

/-- Settles O6: each record is the one `State.afterReset` names. -/
theorem blocksAfterReset : Obligations.BlocksAfterReset := by
  unfold Obligations.BlocksAfterReset
  refine ⟨fun s t h => ?_, fun s t h => ?_⟩
  all_goals obtain ⟨cause, strap, draws, pending, rfl⟩ := h.afterReset
  · refine ⟨fun i => ?_, rfl, rfl, rfl, rfl, rfl, fun i => ?_, rfl, rfl, fun n hn => ?_⟩
    · exact Vector.getElem_replicate ..
    · exact Vector.getElem_replicate ..
    · obtain rfl := List.mem_singleton.mp hn
      rfl
  · refine ⟨rfl, rfl, fun i => ?_, rfl, rfl, fun r => ?_, rfl⟩
    · exact Vector.getElem_replicate ..
    · exact Vector.getElem_replicate ..

/-! ## A command carried out at once (R167) -/

/-- R167: with the command unit free and nothing waiting before it, a command is answered in its step. -/
theorem exec_rowOf_ready {c : HostCommand} {s : State} (hs : Ready s) (hc : c.wf = true) :
    exec (rowOf c) s = .next (answerCommand c s) := by
  obtain ⟨hr, hreply, hbuffer, hrestart⟩ := hs
  simp [exec_rowOf, hostRow, hc, whileRunning, hr, hostCommand, unitFree, hreply, hbuffer, hrestart]

/-! ## The record of a slot (R46, R47) -/

theorem boolByte_eq (b : Bool) : boolByte b = [if b then 1#8 else 0#8] := by
  cases b <;> rfl

theorem append_boolBytes (l : List Byte) (a b c : Bool) :
    l ++ boolByte a ++ boolByte b ++ boolByte c =
      l ++ [if a then 1#8 else 0#8, if b then 1#8 else 0#8, if c then 1#8 else 0#8] := by
  simp only [boolByte_eq, List.append_assoc, List.cons_append, List.nil_append]

theorem le_slotStateCode (x : SlotState) :
    le 1 (slotStateCode x) =
      [match x with
        | .offline => 0#8 | .parked => 1#8 | .idle => 2#8 | .tuning => 3#8 | .acquiring => 4#8 | .locked => 5#8
        | .releasing => 6#8] := by
  cases x <;> rfl

theorem le_roleCode (x : Role) :
    le 1 (roleCode x) = [match x with | .none => 0#8 | .survey => 1#8 | .carry => 2#8] := by
  cases x <;> rfl

theorem le_powerCode (x : TunerPower) :
    le 1 (powerCode x) = [match x with | .off => 0#8 | .unparking => 1#8 | .on => 2#8] := by
  cases x <;> rfl

theorem le_calStatusCode (x : CalStatus) :
    le 1 (calStatusCode x) = [match x with | .none => 0#8 | .waiting => 1#8 | .active => 2#8 | .done => 3#8] := by
  cases x <;> rfl

theorem le_stageCode (x : Stage) :
    le 1 (stageCode x) =
      [match x with
        | .none => 0#8 | .lockWait => 1#8 | .idWait => 2#8 | .idCheck => 3#8 | .svcWait => 4#8 | .listWait => 5#8
        | .recheckId => 6#8 | .recheckSvc => 7#8] := by
  cases x <;> rfl

/-- R47: the stage of a slot that is not in TUNING, ACQUIRING or LOCKED reads none. -/
theorem le_reportedStage (r : Slot) :
    le 1 (stageCode (reportedStage r)) =
      [if r.state = .tuning ∨ r.state = .acquiring ∨ r.state = .locked then
          match r.chan.stage with
          | .none => 0#8 | .lockWait => 1#8 | .idWait => 2#8 | .idCheck => 3#8 | .svcWait => 4#8 | .listWait => 5#8
          | .recheckId => 6#8 | .recheckSvc => 7#8
        else 0#8] := by
  unfold reportedStage
  split
  · exact le_stageCode _
  · rfl

theorem inputCode_val (x : RfInput) : (inputCode x).val = match x with | .a => 0 | .b => 1 | .c => 2 | .d => 3 := by
  cases x <;> rfl

theorem optLe_eq (k : Nat) (x : Option Nat) :
    optLe k x = match x with | none => 0#8 :: le k 0 | some n => 1#8 :: le k n := by
  cases x <;> rfl

theorem lastCalBytes_eq (x : Option (RfInput × Nat)) :
    lastCalBytes x = match x with | none => 0#8 :: le 5 0 | some p => 1#8 :: (le 1 (inputCode p.1).val ++ le 4 p.2) := by
  cases x <;> rfl

theorem doGetSlot_above {i : Nat} (h : 7 < i) (s : State) : doGetSlot i s = answered .badIndex s :=
  dif_neg (by omega)

theorem doGetSlot_record {i : Nat} (h : i < 8) (s : State) :
    doGetSlot i s =
      { state := s, code := .ok, content := slotBytes s.reference.queue ⟨i, h⟩ (s.slot ⟨i, h⟩) } := dif_pos h

theorem exec_getSlot {s : State} {i : Nat} (hs : Ready s) (hi : i < 256) :
    exec (.getSlot i) s =
      .next (formReply 0x25 (doGetSlot i s).code (doGetSlot i s).content (doGetSlot i s).state) :=
  exec_rowOf_ready (c := .getSlot i) hs (decide_eq_true hi)

theorem slotChanged_iff {b a : Slot} :
    slotChanged b a = true ↔ b.state ≠ a.state ∨ b.role ≠ a.role ∨ b.calStatus ≠ a.calStatus := by
  simp [slotChanged, or_assoc]

theorem changeSlot_noticed {i : Fin 8} {f : Slot → Slot} {s : State} (h : slotChanged (s.slot i) (f (s.slot i)) = true) :
    changeSlot i f s =
      handPair .slot i.val (some (slotView (s.slot i))) (some (slotView (f (s.slot i))))
        (offer .slot i.val (slotBytes s.reference.queue i (f (s.slot i))) (putSlot i (f (s.slot i)) s)) := if_pos h

theorem changeSlot_silent {i : Fin 8} {f : Slot → Slot} {s : State} (h : ¬slotChanged (s.slot i) (f (s.slot i)) = true) :
    changeSlot i f s = putSlot i (f (s.slot i)) s := if_neg h

/-- Settles O23: the record field by field, then the reply that holds it and the notice that does. -/
theorem getSlotAnswersTheRecord : Obligations.GetSlotAnswersTheRecord := by
  unfold Obligations.GetSlotAnswersTheRecord
  intro yes optional input record
  have hrecord (q : List (Fin 8)) (i : Fin 8) (r : Slot) : slotBytes q i r = record q i r := by
    have hinput : (fun x => (inputCode x).val) = input := funext inputCode_val
    have hinput' (x : RfInput) : (inputCode x).val = input x := congrFun hinput x
    rw [slotBytes, append_boolBytes, le_slotStateCode, le_roleCode, le_powerCode, le_reportedStage, le_calStatusCode,
      hinput, lastCalBytes_eq]
    simp only [hinput', optLe_eq, queuePosition]
    rfl
  refine ⟨fun s i hi hs => ⟨fun habove => ?_, fun h => ?_⟩, fun s i f => ⟨fun hn => ?_, fun hn => ?_⟩⟩
  · rw [exec_getSlot hs hi, doGetSlot_above habove]
    rfl
  · rw [exec_getSlot hs hi, doGetSlot_record h, hrecord]
  · rw [changeSlot_silent (mt slotChanged_iff.mp hn)]
    rfl
  · rw [changeSlot_noticed (slotChanged_iff.mpr hn), hrecord]
    rfl

/-! ## Reports, the surveys and the carry records among what they leave alone -/

/-- What a report may not touch, the surveys and the carry records included. -/
structure Reports (s t : State) : Prop extends Tells s t where
  surveys : t.sched.surveys = s.sched.surveys
  records : t.router.records = s.router.records

theorem Reports.refl (s : State) : Reports s s := ⟨.refl s, rfl, rfl⟩

theorem Reports.trans {s t u : State} (h : Reports s t) (k : Reports t u) : Reports s u :=
  ⟨h.toTells.trans k.toTells, k.surveys.trans h.surveys, k.records.trans h.records⟩

theorem Ranks.reports {s t : State} (h : Ranks s t) : Reports s t :=
  ⟨h.tells, congrArg Scheduler.surveys h.sameSched, h.sameRecords⟩

theorem reports_modSched {f : Scheduler → Scheduler} {s : State} (h : (f s.sched).surveys = s.sched.surveys) :
    Reports s (modSched f s) := ⟨tells_modSched .., h, rfl⟩

theorem reports_foldl {β : Type} {f : State → β → State} (h : ∀ s b, Reports s (f s b)) (l : List β) (s : State) :
    Reports s (l.foldl f s) := by
  induction l generalizing s with
  | nil => exact .refl s
  | cons b l ih => exact (h s b).trans (ih (f s b))

theorem reports_searchDue (s : State) : Reports s (searchDue s) := reports_modSched rfl

theorem reports_dropUrgent (x : Nat) (s : State) : Reports s (dropUrgent x s) := reports_modSched rfl

theorem reports_leaveSet (x : Nat) (s : State) : Reports s (leaveSet x s) := by
  unfold leaveSet
  split
  · exact reports_modSched rfl
  · exact .refl s

theorem reports_joinSet (x : Nat) (s : State) : Reports s (joinSet x s) := by
  unfold joinSet
  split
  · exact reports_modSched rfl
  · exact .refl s

theorem reports_reportRemoval (s : State) (e : Nat × Carrier) : Reports s (reportRemoval s e) :=
  ((reports_dropUrgent ..).trans (reports_leaveSet ..)).trans
    (((ranks_offer ..).trans (ranks_handPair ..)).trans (ranks_rankRemoval ..)).reports

theorem reports_reportAddition (s : State) (x : Nat) : Reports s (reportAddition s x) := by
  unfold reportAddition
  split
  · exact .refl s
  · exact ((ranks_offer ..).trans (ranks_handPair ..)).reports.trans (reports_searchDue _)

theorem reports_reportChanges (old : Table Carrier) (removed added : List Nat) (forced : Nat → Bool)
    (counts : Nat → Option DiscoveryCounts) (wasStale : Carrier → Bool) (s : State) :
    Reports s (reportChanges old removed added forced counts wasStale s) :=
  ((reports_foldl reports_reportRemoval ..).trans
    (ranks_foldl (fun _ _ => ranks_reportCarrier ..) _ _).reports).trans (reports_foldl reports_reportAddition ..)

theorem Reports.putCarrier {s t : State} (h : Reports s t) (x : Nat) (c : Carrier) :
    Reports (putCarrier x c s) (putCarrier x c t) :=
  ⟨h.toTells.putCarrier .., h.surveys, h.records⟩

theorem changeCarrier_reports {x : Nat} {f : Carrier → Carrier} {s : State} {c : Carrier} (h : s.carrier x = some c) :
    Reports (putCarrier x (f c) s) (changeCarrier x f s) := by
  unfold changeCarrier
  simp only [h]
  exact (ranks_reportCarrier ..).reports

theorem changeSlot_ranks (i : Fin 8) (f : Slot → Slot) (s : State) :
    Ranks (putSlot i (f (s.slot i)) s) (changeSlot i f s) := by
  unfold changeSlot
  dsimp only
  split
  · exact (ranks_offer ..).trans (ranks_handPair ..)
  · exact .refl _

theorem changeSlot_surveys (i : Fin 8) (f : Slot → Slot) (s : State) :
    (changeSlot i f s).sched.surveys = s.sched.surveys := (changeSlot_ranks i f s).reports.surveys

theorem changeSlot_records (i : Fin 8) (f : Slot → Slot) (s : State) :
    (changeSlot i f s).router.records = s.router.records := (changeSlot_ranks i f s).sameRecords

/-! ## The level reference (R42 to R45) -/

/-- What the level reference may make of a slot: another calibration status, and its window abandoned. -/
def Referred (b a : Slot) : Prop :=
  ∃ st m, a = { b with calStatus := st, meas := m } ∧ (m = b.meas ∨ m = dropWindow b.meas)

theorem Referred.refl (r : Slot) : Referred r r := ⟨r.calStatus, r.meas, rfl, .inl rfl⟩

theorem Referred.trans {a b c : Slot} (h : Referred a b) (k : Referred b c) : Referred a c := by
  obtain ⟨s1, m1, rfl, h1⟩ := h
  obtain ⟨s2, m2, rfl, h2⟩ := k
  refine ⟨s2, m2, rfl, ?_⟩
  obtain rfl | rfl := h2
  · exact h1
  · exact .inr (by obtain rfl | rfl := h1 <;> rfl)

/-- What an operation on the level reference does: it leaves the carrier table, the clock, the plan, the surveys and the
carry records alone. A slot that needs no calibration and is out of the reference's hands stays as it is; so does the slot
that calibrates, and the queue grows at its tail; a window is abandoned on the slot that holds the reference alone. -/
structure Refers (s t : State) : Prop where
  carriers : t.carriers = s.carriers
  clock : t.clock = s.clock
  plan : t.plan = s.plan
  surveys : t.sched.surveys = s.sched.surveys
  records : t.router.records = s.router.records
  slots : ∀ j, Referred (s.slot j) (t.slot j)
  rests : ∀ i, needsCalibration s.now (s.slot i) = false → i ∉ s.reference.queue → s.reference.holder ≠ some i →
    t.slot i = s.slot i ∧ i ∉ t.reference.queue ∧ t.reference.holder ≠ some i
  busy : ∀ i, s.reference.holder = some i →
    t.slot i = s.slot i ∧ t.reference.holder = some i ∧ t.reference.timer = s.reference.timer ∧
      s.reference.queue <+: t.reference.queue
  windows : ∀ i, (t.slot i).meas = (s.slot i).meas ∨ t.reference.holder = some i

theorem Reports.refers {s t : State} (h : Reports s t) : Refers s t := by
  refine ⟨h.carriers, h.clock, h.plan, h.surveys, h.records, fun j => ?_, fun i _ hq hh => ?_, fun i hi => ?_, fun i => ?_⟩
  · rw [h.slot]
    exact .refl _
  · rw [h.reference]
    exact ⟨h.slot i, hq, hh⟩
  · rw [h.reference]
    exact ⟨h.slot i, hi, rfl, List.prefix_refl _⟩
  · exact .inl (congrArg Slot.meas (h.slot i))

theorem Refers.refl (s : State) : Refers s s := (Reports.refl s).refers

theorem Refers.trans {s t u : State} (h : Refers s t) (k : Refers t u) : Refers s u := by
  refine ⟨k.carriers.trans h.carriers, k.clock.trans h.clock, k.plan.trans h.plan, k.surveys.trans h.surveys,
    k.records.trans h.records, fun j => (h.slots j).trans (k.slots j), fun i hn hq hh => ?_, fun i hi => ?_, fun i => ?_⟩
  · obtain ⟨hslot, hq1, hh1⟩ := h.rests i hn hq hh
    have hnow : t.now = s.now := congrArg Clock.now h.clock
    obtain ⟨kslot, kq, kh⟩ := k.rests i (by rw [hslot, hnow]; exact hn) hq1 hh1
    exact ⟨kslot.trans hslot, kq, kh⟩
  · obtain ⟨hslot, hh, ht, hq⟩ := h.busy i hi
    obtain ⟨kslot, kh, kt, kq⟩ := k.busy i hh
    exact ⟨kslot.trans hslot, kh, kt.trans ht, hq.trans kq⟩
  · obtain hm | hm := h.windows i
    · exact (k.windows i).imp_left fun km => km.trans hm
    · exact .inr (k.busy i hm).2.1

theorem refers_foldl {β : Type} {f : State → β → State} (h : ∀ s b, Refers s (f s b)) (l : List β) (s : State) :
    Refers s (l.foldl f s) := by
  induction l generalizing s with
  | nil => exact .refl s
  | cons b l ih => exact (h s b).trans (ih (f s b))

theorem refers_grantReference (s : State) : Refers s (grantReference s) := by
  unfold grantReference
  split
  · next h rest hfree hqueue =>
    let s1 := s.setReference { holder := some h, queue := rest, timer := some calibrationMs }
    let granted (r : Slot) : Slot := { r with calStatus := .active, meas := dropWindow r.meas }
    have hslot (j : Fin 8) : (changeSlot h granted s1).slot j = if j = h then granted (s.slot h) else s.slot j :=
      changeSlot_slot ..
    have href : (changeSlot h granted s1).reference = s1.reference := changeSlot_reference ..
    refine ⟨changeSlot_carriers .., (changeSlot_tells ..).clock, (changeSlot_tells ..).plan, changeSlot_surveys ..,
      changeSlot_records .., fun j => ?_, fun i _ hq _ => ?_, fun i hi => ?_, fun i => ?_⟩
    · rw [hslot]
      split
      · next e => exact e ▸ ⟨_, _, rfl, .inr rfl⟩
      · exact .refl _
    · rw [hqueue, List.mem_cons, not_or] at hq
      rw [hslot, if_neg hq.1, href]
      exact ⟨rfl, hq.2, fun e => hq.1 (Option.some.inj e).symm⟩
    · cases hfree.symm.trans hi
    · rw [hslot, href]
      split
      · next e => exact .inr (congrArg some e.symm)
      · exact .inl rfl
  · exact .refl s

theorem mayJoin_iff {s : State} {i : Fin 8} :
    mayJoin s i = true ↔ needsCalibration s.now (s.slot i) = true ∧ (s.slot i).calStatus ≠ .waiting ∧
      (s.slot i).calStatus ≠ .active ∧ i ∉ s.reference.queue ∧ s.reference.holder ≠ some i := by
  simp [mayJoin, and_assoc]

theorem refers_joinReference (s : State) (i : Fin 8) : Refers s (joinReference s i) := by
  unfold joinReference
  split
  · next hjoin =>
    obtain ⟨hneeds, -, -, -, hholder⟩ := mayJoin_iff.mp hjoin
    let s1 := s.setReference { s.reference with queue := s.reference.queue ++ [i] }
    let waiting (r : Slot) : Slot := { r with calStatus := .waiting }
    have hslot (j : Fin 8) : (changeSlot i waiting s1).slot j = if j = i then waiting (s.slot i) else s.slot j :=
      changeSlot_slot ..
    have href : (changeSlot i waiting s1).reference = s1.reference := changeSlot_reference ..
    refine Refers.trans (t := changeSlot i waiting s1) ?_ (refers_grantReference _)
    refine ⟨changeSlot_carriers .., (changeSlot_tells ..).clock, (changeSlot_tells ..).plan, changeSlot_surveys ..,
      changeSlot_records .., fun j => ?_, fun j hn hq hh => ?_, fun j hj => ?_, fun j => ?_⟩
    · rw [hslot]
      split
      · next e => exact e ▸ ⟨_, _, rfl, .inl rfl⟩
      · exact .refl _
    · have hne : j ≠ i := by
        rintro rfl
        cases hn.symm.trans hneeds
      rw [hslot, if_neg hne, href]
      exact ⟨rfl, by simp [s1, hq, hne], hh⟩
    · have hne : j ≠ i := by
        rintro rfl
        exact hholder hj
      rw [hslot, if_neg hne, href]
      exact ⟨rfl, hj, rfl, List.prefix_append ..⟩
    · rw [hslot]
      split
      · next e => exact .inl (by rw [e])
      · exact .inl rfl
  · exact .refl s

theorem reports_drawOrder {α : Type} (l : List α) (s : State) : Reports s (drawOrder l s).2 := by
  unfold drawOrder
  dsimp only
  split
  · exact .refl s
  · exact ⟨⟨rfl, rfl, rfl, rfl, rfl⟩, rfl, rfl⟩

theorem refers_evaluateNeeds (s : State) : Refers s (evaluateNeeds s) :=
  (reports_drawOrder ..).refers.trans (refers_foldl refers_joinReference ..)

theorem refers_passReference (s : State) : Refers s (passReference s) :=
  (refers_grantReference s).trans (refers_evaluateNeeds _)

theorem needsCalibration_of_not_locked {r : Slot} (h : r.state ≠ .locked) (now : Nat) : needsCalibration now r = false := by
  simp [needsCalibration, h]

theorem needsCalibration_of_fresh {r : Slot} {x : RfInput} {now : Nat} (hin : r.input = some x)
    (hcal : r.lastCal = some (x, now)) : needsCalibration now r = false := by
  simp [needsCalibration, hin, hcal, calibrationPeriod]

/-- R44: what is beneath a slot's departure from LOCKED. -/
theorem refers_leaveLocked (i : Fin 8) (f : Slot → Slot) (s : State) :
    Refers (putSlot i (f (s.slot i)) (s.setReference (quitReference i s.reference))) (leaveLocked i f s) := by
  have hchange := (changeSlot_ranks i f (s.setReference (quitReference i s.reference))).reports.refers
  unfold leaveLocked
  dsimp only
  split
  · exact hchange.trans (refers_passReference _)
  · exact hchange

theorem Referred.state {b a : Slot} (h : Referred b a) : a.state = b.state := by
  obtain ⟨_, _, rfl, -⟩ := h
  rfl

theorem Referred.carrier {b a : Slot} (h : Referred b a) : a.carrier = b.carrier := by
  obtain ⟨_, _, rfl, -⟩ := h
  rfl

theorem Referred.inactive {b a : Slot} (h : Referred b a) (hb : b.meas.active = false) : a.meas.active = false := by
  obtain ⟨_, m, rfl, rfl | rfl⟩ := h
  · exact hb
  · rfl

/-! ## The end of a calibration (R42, R43, R45) -/

/-- R43: the head of the queue is granted a free reference. -/
theorem grantReference_head {s : State} {h : Fin 8} {rest : List (Fin 8)} (hfree : s.reference.holder = none)
    (hqueue : s.reference.queue = h :: rest) :
    (grantReference s).reference = { holder := some h, queue := rest, timer := some calibrationMs } ∧
      (grantReference s).slot h = { s.slot h with calStatus := .active, meas := dropWindow (s.slot h).meas } := by
  unfold grantReference
  rw [hfree, hqueue]
  exact ⟨changeSlot_reference .., (changeSlot_slot ..).trans (if_pos rfl)⟩

theorem passReference_head {s : State} {h : Fin 8} {rest : List (Fin 8)} (hfree : s.reference.holder = none)
    (hqueue : s.reference.queue = h :: rest) :
    (passReference s).reference.holder = some h ∧ (passReference s).reference.timer = some calibrationMs ∧
      rest <+: (passReference s).reference.queue ∧
        (passReference s).slot h = { s.slot h with calStatus := .active, meas := dropWindow (s.slot h).meas } := by
  obtain ⟨href, hslot⟩ := grantReference_head hfree hqueue
  obtain ⟨kslot, kholder, ktimer, kqueue⟩ :=
    (refers_evaluateNeeds (grantReference s)).busy h (congrArg Reference.holder href)
  rw [href] at ktimer kqueue
  exact ⟨kholder, ktimer, kqueue, kslot.trans hslot⟩

/-- What the end of slot `i`'s calibration hands to the level reference. -/
def calibrated (i : Fin 8) (s : State) : State :=
  changeSlot i (calibratedSlot s.now) (s.setReference (idleReference s.reference))

theorem calibrated_slot (i j : Fin 8) (s : State) :
    (calibrated i s).slot j = if j = i then calibratedSlot s.now (s.slot i) else s.slot j := changeSlot_slot ..

theorem calibrated_reference (i : Fin 8) (s : State) : (calibrated i s).reference = idleReference s.reference :=
  changeSlot_reference ..

theorem calibrated_now (i : Fin 8) (s : State) : (calibrated i s).now = s.now :=
  congrArg Clock.now (changeSlot_tells ..).clock

theorem endCalibration_locked {s : State} {i : Fin 8} (hi : s.reference.holder = some i)
    (hl : (s.slot i).state = .locked) : endCalibration s = startWindowAfter i (passReference (calibrated i s)) := by
  simp only [endCalibration, hi, hl, if_true]
  rfl

/-- R42, R43: the slot that has calibrated keeps out of the reference's hands as it is granted on. -/
theorem passReference_calibrated {s : State} {i : Fin 8} {x : RfInput} (hin : (s.slot i).input = some x)
    (hq : i ∉ s.reference.queue) :
    (passReference (calibrated i s)).slot i = calibratedSlot s.now (s.slot i) ∧
      (passReference (calibrated i s)).reference.holder ≠ some i := by
  have hslot : (calibrated i s).slot i = calibratedSlot s.now (s.slot i) := (calibrated_slot ..).trans (if_pos rfl)
  have hcal : (calibratedSlot s.now (s.slot i)).lastCal = some (x, s.now) := by simp [calibratedSlot, hin]
  have hneeds : needsCalibration (calibrated i s).now ((calibrated i s).slot i) = false := by
    rw [calibrated_now, hslot]
    exact needsCalibration_of_fresh hin hcal
  obtain ⟨h1, -, h3⟩ := (refers_passReference (calibrated i s)).rests i hneeds
    (by rw [calibrated_reference]; exact hq) (by rw [calibrated_reference]; exact fun h => nomatch h)
  exact ⟨h1.trans hslot, h3⟩

theorem startWindowAfter_slot {s : State} {i : Fin 8} (hl : (s.slot i).state = .locked) (hh : s.reference.holder ≠ some i)
    (j : Fin 8) :
    (startWindowAfter i s).slot j = if j = i then { s.slot i with meas := startWindow (s.slot i).meas } else s.slot j := by
  rw [startWindowAfter, if_pos ⟨hl, hh⟩, modSlot_slot]

theorem startWindowAfter_reference (i : Fin 8) (s : State) : (startWindowAfter i s).reference = s.reference := by
  unfold startWindowAfter
  split <;> rfl

theorem startWindowAfter_carriers (i : Fin 8) (s : State) : (startWindowAfter i s).carriers = s.carriers := by
  unfold startWindowAfter
  split <;> rfl

theorem timerOut_iff {t : Option Nat} : timerOut t = true ↔ t = some 0 := decide_eq_true_iff

/-- Settles O50: the slot that has calibrated needs no calibration (`passReference_calibrated`), and the head of the queue
holds the reference from its grant on (`passReference_head`). -/
theorem calibrationEnds : Obligations.CalibrationEnds := by
  unfold Obligations.CalibrationEnds
  intro s hr
  rw [exec_calibrationEnd]
  refine ⟨fun hidle => blockEvent_idle ?idle, fun i x hholder htimer hlocked hin href => ?_⟩
  case idle =>
    rw [← Bool.not_eq_true, Bool.and_eq_true, timerOut_iff]
    obtain hnone | htimer := hidle
    · simp [hnone]
    · exact fun h => htimer h.2
  obtain ⟨-, hout, -⟩ := href
  obtain ⟨hslot, hkeeps⟩ := passReference_calibrated hin (hout i hholder)
  have hlocked' : ((passReference (calibrated i s)).slot i).state = .locked := by
    rw [hslot]
    exact hlocked
  have hu := endCalibration_locked hholder hlocked
  have huslot := startWindowAfter_slot hlocked' hkeeps
  rw [← hu] at huslot
  have hself : (endCalibration s).slot i =
      { calibratedSlot s.now (s.slot i) with meas := startWindow (s.slot i).meas } := by
    rw [huslot, if_pos rfl, hslot]
    rfl
  refine ⟨_, blockEvent_done hr (by simp [hholder, htimer, timerOut]), ?self, fun j => ?others, ?carriers,
    fun h rest hqueue => ?next⟩
  case self =>
    rw [hself]
    exact ⟨hlocked, rfl, by simp [calibratedSlot, hin, State.now], rfl, rfl, rfl⟩
  case others =>
    by_cases hj : j = i
    · rw [hj, hself]
      exact ⟨rfl, rfl⟩
    · have hpass := (refers_passReference (calibrated i s)).slots j
      rw [calibrated_slot, if_neg hj] at hpass
      rw [huslot, if_neg hj]
      exact ⟨hpass.state, hpass.carrier⟩
  case carriers =>
    rw [hu, startWindowAfter_carriers, (refers_passReference _).carriers]
    exact changeSlot_carriers ..
  case next =>
    have hne : h ≠ i := by
      rintro rfl
      exact hout h hholder (by rw [hqueue]; exact List.mem_cons_self)
    obtain ⟨hgranted, htime, hrest, hhead⟩ := passReference_head (s := calibrated i s) (h := h) (rest := rest)
      (by rw [calibrated_reference]; rfl) (by rw [calibrated_reference]; exact hqueue)
    rw [huslot, if_neg hne, hhead, hu, startWindowAfter_reference]
    exact ⟨hgranted, htime, rfl, rfl, hrest⟩

/-! ## The ends of a slot's timers (R28, R33, R34, R139) -/

theorem and_timerOut_iff {p : Prop} [Decidable p] {t : Option Nat} :
    (decide p && timerOut t) = true ↔ p ∧ t = some 0 := by
  rw [Bool.and_eq_true, decide_eq_true_iff, timerOut_iff]

/-- Nothing but slot `i` changes in what a change of it with its notice leaves. -/
theorem changeSlot_alone (i : Fin 8) (f : Slot → Slot) (s : State) :
    ((∀ j, j ≠ i → (changeSlot i f s).slot j = s.slot j) ∧ (changeSlot i f s).carriers = s.carriers ∧
      (changeSlot i f s).router.records = s.router.records) ∧ (changeSlot i f s).slot i = f (s.slot i) :=
  ⟨⟨fun _ hj => (changeSlot_slot ..).trans (if_neg hj), changeSlot_carriers .., changeSlot_records ..⟩,
    (changeSlot_slot ..).trans (if_pos rfl)⟩

theorem unparkOver_iff {i : Fin 8} {s : State} :
    unparkOver i s = true ↔
      (s.slot i).state = .tuning ∧ (s.slot i).power = .unparking ∧ (s.slot i).unparkTimer = some 0 := by
  simp [unparkOver, timerOut, and_assoc]

theorem endRelease_offline {i : Fin 8} {s : State} (h : (s.slot i).offlinePending = true) :
    endRelease i s = changeSlot i releasedOffline s := by
  simp [endRelease, h]

theorem endRelease_free {i : Fin 8} {s : State} (h : (s.slot i).offlinePending = false)
    (hheld : (s.slot i).heldForRouter = false) : endRelease i s = searchDue (changeSlot i releasedIdle s) := by
  simp [endRelease, h, hheld]

theorem endRelease_held {i : Fin 8} {s : State} (h : (s.slot i).offlinePending = false)
    (hheld : (s.slot i).heldForRouter = true) : endRelease i s = heldSlotFree i (changeSlot i releasedIdle s) := by
  simp [endRelease, h, hheld]

theorem waitingRecord_none {i : Fin 8} {s : State} (h : ∀ q ∈ s.router.records, ¬(q.slot = i ∧ q.phase = .waitingSlot)) :
    waitingRecord i s = none := by
  rw [waitingRecord, List.find?_eq_none]
  intro q hq
  simpa using h q hq

theorem waitingRecord_some {i : Fin 8} {s : State} {q : CarryRecord} (hq : q ∈ s.router.records)
    (h : ∀ p ∈ s.router.records, p.slot = i ∧ p.phase = .waitingSlot ↔ p = q) : waitingRecord i s = some q := by
  cases hfind : waitingRecord i s with
  | none =>
    have := List.find?_eq_none.mp hfind q hq
    simp [(h q hq).mpr rfl] at this
  | some p =>
    have hp := List.find?_some hfind
    exact congrArg some ((h p (List.mem_of_find?_eq_some hfind)).mp (by simpa using hp))

theorem slotOn_eq_none {s : State} {x : Nat} (h : ∀ j, (s.slot j).carrier ≠ some x) : s.slotOn x = none := by
  rw [State.slotOn, List.find?_eq_none]
  intro j _
  simpa using h j

/-- R27, R29: a TUNE of a slot in IDLE that the refusals let through. -/
theorem tuneSlot_idle {x : Nat} {i : Fin 8} {s : State} {c : Carrier} {carry : Bool} (hidle : (s.slot i).state = .idle)
    (hheld : (s.slot i).heldForRouter = true → carry = true) (hfree : ∀ j, (s.slot j).carrier ≠ some x)
    (hc : s.carrier x = some c) :
    tuneSlot carry x i s =
      (tableTuned x i carry (changeSlot i (tunedSlot s.now x carry c (s.committed.profile c.profile)) s), .accepted) := by
  have hrefuse : tuneRefusal carry x i s = none := by
    have hnot : ¬((s.slot i).heldForRouter = true ∧ carry = false) := by
      rintro ⟨hh, rfl⟩
      cases hheld hh
    simp [tuneRefusal, hidle, hnot, slotOn_eq_none hfree, hc]
  simp [tuneSlot, hrefuse, hc]

theorem tableTuned_reports {x : Nat} {s : State} {c : Carrier} (i : Fin 8) (carry : Bool) (hc : s.carrier x = some c) :
    Reports (putCarrier x (tunedEntry i carry c) s) (tableTuned x i carry s) := by
  unfold tableTuned
  dsimp only
  split
  · exact (changeCarrier_reports hc).trans (reports_dropUrgent ..)
  · exact changeCarrier_reports hc

theorem heldSlotFree_none {i : Fin 8} {s : State} (h : waitingRecord i s = none) : heldSlotFree i s = s := by
  simp [heldSlotFree, h]

theorem heldSlotFree_tuned {i : Fin 8} {s t : State} {q : CarryRecord} (h : waitingRecord i s = some q)
    (ht : tuneSlot true q.carrier i s = (t, .accepted)) : heldSlotFree i s = setPhase q.carrier i .acquiring t := by
  simp [heldSlotFree, h, ht]

/-- R133: the records of carrier `x` after its phase is set. -/
theorem setPhase_records {x : Nat} {i : Fin 8} {ph : CarryPhase} {s : State} :
    ∀ q ∈ (setPhase x i ph s).router.records, q.carrier = x → q.slot = i ∧ q.phase = ph := by
  intro q hq hx
  simp only [setPhase, modRouter_router, List.mem_map] at hq
  obtain ⟨p, -, rfl⟩ := hq
  by_cases hp : p.carrier = x
  · rw [if_pos hp]
    exact ⟨rfl, rfl⟩
  · rw [if_neg hp] at hx
    exact absurd hx hp

theorem tunedEntry_hold (i : Fin 8) (carry : Bool) (c : Carrier) :
    (tunedEntry i carry c).hold = some { slot := i, carry := carry, ending := false } := by
  unfold tunedEntry
  dsimp only
  split <;> rfl

theorem tunedEntry_state (i : Fin 8) (carry : Bool) (c : Carrier) :
    (tunedEntry i carry c).state = if c.state = .excluded then .excluded else .acquiring := by
  unfold tunedEntry
  dsimp only
  split
  · next h => exact h
  · rfl

/-- R139: the held slot, free, is tuned to the carrier of the record that waits for it. -/
theorem heldSlotFree_tunes {i : Fin 8} {s : State} {q : CarryRecord} {c : Carrier} (hidle : (s.slot i).state = .idle)
    (hwait : waitingRecord i s = some q) (hc : s.carrier q.carrier = some c)
    (hfree : ∀ j, (s.slot j).carrier ≠ some q.carrier) :
    (heldSlotFree i s).slot i = tunedSlot s.now q.carrier true c (s.committed.profile c.profile) (s.slot i) ∧
      (heldSlotFree i s).carrier q.carrier = some (tunedEntry i true c) ∧
        ∀ p ∈ (heldSlotFree i s).router.records, p.carrier = q.carrier → p.slot = i ∧ p.phase = .acquiring := by
  rw [heldSlotFree_tuned hwait (tuneSlot_idle hidle (fun _ => rfl) hfree hc)]
  let tuned := tunedSlot s.now q.carrier true c (s.committed.profile c.profile)
  have htable := tableTuned_reports i true (s := changeSlot i tuned s)
    ((congrArg (tabGet · q.carrier) (changeSlot_carriers ..)).trans hc)
  refine ⟨(htable.slot i).trans (changeSlot_alone i tuned s).2, ?_, setPhase_records⟩
  exact (htable.carrier _).trans ((carrier_putCarrier ..).trans (if_pos rfl))

/-- Settles O37: each timer's end by the state of the slot; the held slot is tuned by `tuneSlot_idle`. -/
theorem slotTimersEnd : Obligations.SlotTimersEnd := by
  unfold Obligations.SlotTimersEnd
  intro s i hr r ends alone waits released idle
  have hreleased : released → (decide ((s.slot i).state = .releasing) && timerOut (s.slot i).releaseTimer) = true :=
    and_timerOut_iff.mpr
  refine ⟨fun h1 h2 h3 bound hb => ?unpark, fun hn => ?unparkIdle, fun hrel hoff => ?offline,
    fun hrel hoff hheld => ?free, fun hrel hoff hheld hnone => ?unclaimed,
    fun hrel hoff hheld q c hq hmem hc hfree => ?tuned, fun hn => ?releaseIdle, fun h1 h2 => ?park, fun hn => ?parkIdle⟩
  case unpark =>
    refine ⟨_, (exec_unparkTimeEnd i s).trans (blockEvent_done hr (unparkOver_iff.mpr ⟨h1, h2, h3⟩)), ?_⟩
    have hslot : unparkedSlot r = { r with
        power := .on, unparkTimer := none, chan := lockWaitChannel bound r.chan } := by
      rw [unparkedSlot, hb, Option.getD_some]
    rw [modSlot, hslot]
    rfl
  case unparkIdle =>
    exact (exec_unparkTimeEnd i s).trans (blockEvent_idle (by rwa [← Bool.not_eq_true, unparkOver_iff]))
  case offline =>
    refine ⟨_, (exec_releaseTimeEnd i s).trans (blockEvent_done hr (hreleased hrel)), ?_⟩
    rw [endRelease_offline hoff]
    exact changeSlot_alone i releasedOffline s
  case free =>
    refine ⟨_, (exec_releaseTimeEnd i s).trans (blockEvent_done hr (hreleased hrel)), ?_⟩
    rw [endRelease_free hoff hheld]
    obtain ⟨halone, hself⟩ := changeSlot_alone i releasedIdle s
    refine ⟨halone, hself.trans ?_, rfl⟩
    simp [releasedIdle, hheld, idle, r, parkMs]
  case unclaimed =>
    refine ⟨_, (exec_releaseTimeEnd i s).trans (blockEvent_done hr (hreleased hrel)), ?_⟩
    obtain ⟨halone, hself⟩ := changeSlot_alone i releasedIdle s
    rw [endRelease_held hoff hheld, heldSlotFree_none (waitingRecord_none (by rw [halone.2.2]; exact hnone))]
    refine ⟨halone, hself.trans ?_⟩
    simp [releasedIdle, hheld, idle, r]
  case tuned =>
    refine ⟨_, (exec_releaseTimeEnd i s).trans (blockEvent_done hr (hreleased hrel)), ?_⟩
    let s1 := changeSlot i releasedIdle s
    obtain ⟨⟨hothers, hcarriers, hrecords⟩, hself⟩ := changeSlot_alone i releasedIdle s
    have hwait : waitingRecord i s1 = some q :=
      waitingRecord_some (by rw [hrecords]; exact hmem) (by rw [hrecords]; exact hq)
    have hc1 : s1.carrier q.carrier = some c := (congrArg (tabGet · q.carrier) hcarriers).trans hc
    have hfree1 (j : Fin 8) : (s1.slot j).carrier ≠ some q.carrier := by
      by_cases hj : j = i
      · rw [hj, hself]
        exact hfree i
      · rw [hothers j hj]
        exact hfree j
    have hidle1 : (s1.slot i).state = .idle := by rw [hself]; rfl
    obtain ⟨hslot, hentry, hphase⟩ := heldSlotFree_tunes hidle1 hwait hc1 hfree1
    have hclock : s1.now = s.clock.now := congrArg Clock.now (changeSlot_tells ..).clock
    have hplan : s1.committed.profile c.profile = s.plan.committed.profiles[c.profile] :=
      congrArg (fun p : PlanStore => p.committed.profile c.profile) (changeSlot_tells ..).plan
    rw [hself, hclock, hplan] at hslot
    rw [endRelease_held hoff hheld]
    dsimp only
    rw [hslot]
    exact ⟨rfl, rfl, rfl, rfl, rfl, rfl, rfl, rfl, rfl, rfl, rfl, rfl, rfl, hphase, _, hentry, tunedEntry_hold ..,
      tunedEntry_state ..⟩
  case releaseIdle =>
    exact (exec_releaseTimeEnd i s).trans (blockEvent_idle (by rwa [← Bool.not_eq_true, and_timerOut_iff]))
  case park =>
    refine ⟨_, (exec_park i s).trans (blockEvent_done hr (and_timerOut_iff.mpr ⟨h1, h2⟩)), ?_⟩
    obtain ⟨halone, hself⟩ := changeSlot_alone i parkedSlot s
    exact ⟨halone, rfl, hself⟩
  case parkIdle =>
    exact (exec_park i s).trans (blockEvent_idle (by rwa [← Bool.not_eq_true, and_timerOut_iff]))

/-! ## Lock gained and lost (R37, R40, R51, R69, R77, R132) -/

theorem ActivelyHolds.congr {s t : State} {i : Fin 8} {x : Nat} {c : Carrier} (h : ActivelyHolds s i x c)
    (hslot : (t.slot i).carrier = (s.slot i).carrier) (hcarriers : t.carriers = s.carriers) : ActivelyHolds t i x c := by
  obtain ⟨hx, hc, hhold⟩ := h
  exact ⟨hslot.trans hx, (congrArg (tabGet · x) hcarriers).trans hc, hhold⟩

/-- R73: a report under an ACTIVE hold changes the entry as `f` says. -/
theorem tableReport_reports {s : State} {i : Fin 8} {x : Nat} {c : Carrier} (f : Carrier → Carrier)
    (h : ActivelyHolds s i x c) : Reports (putCarrier x (f c) s) (tableReport x i f s) := by
  rw [tableReport, if_pos h.activeHold]
  exact changeCarrier_reports h.2.1

theorem streamPresent_reports (i : Fin 8) (x : Nat) (s : State) :
    Reports (setPhase x i .live s) (streamPresent i x s) :=
  (ranks_targetsInEffect ..).reports.trans (ranks_recomputeRooms _).reports

theorem streamLost_reports (i : Fin 8) (x : Nat) (s : State) :
    Reports (setPhase x i .retuning s) (streamLost i x s) := (ranks_recomputeRooms _).reports

theorem seekingLock_iff {i : Fin 8} {s : State} :
    seekingLock i s = true ↔
      (s.slot i).state = .tuning ∧ (0 < (s.slot i).retune ∨ (s.slot i).chan.stage = .lockWait) := by
  simp [seekingLock, inStage]

theorem gainLock_acquires {i : Fin 8} {s : State} (hs : (s.slot i).state = .tuning) (hn : (s.slot i).retune = 0)
    (hstage : (s.slot i).chan.stage = .lockWait) : gainLock i s = changeSlot i acquiringSlot s := by
  simp [gainLock, hs, hn, hstage]

theorem gainLock_relocks {i : Fin 8} {s : State} (hs : (s.slot i).state = .tuning) (hn : 0 < (s.slot i).retune) :
    gainLock i s = relockSlot i s := by
  simp [gainLock, hs, hn]

theorem listPending_eq {s : State} {x : Nat} {c : Carrier} (h : s.carrier x = some c) :
    listPending s x = decide (c.listStatus = .pending) := by
  simp [listPending, h]

/-- What a slot that enters LOCKED on a stream leaves, `u`, before the level reference: slot, entry and records. -/
theorem relockSlot_leaves {i : Fin 8} {x : Nat} {c : Carrier} {s : State} (h : ActivelyHolds s i x c) :
    ∃ w, relockSlot i s = joinReference w i ∧ w.slot i = relockedSlot (decide (c.listStatus = .pending)) (s.slot i) ∧
      (∀ y, w.carrier y =
        if y = x then some (if c.state = .lost then { c with state := .verified } else c) else s.carrier y) ∧
        ∀ q ∈ w.router.records, q.carrier = x → q.slot = i ∧ q.phase = .live := by
  obtain ⟨hx, hc, -⟩ := id h
  let s1 := changeSlot i (relockedSlot (listPending s x)) s
  have hslot1 : s1.slot i = relockedSlot (listPending s x) (s.slot i) := (changeSlot_alone ..).2
  have hheld : ActivelyHolds s1 i x c := h.congr (by rw [hslot1]; rfl) (changeSlot_carriers ..)
  have htable := tableReport_reports (fun c => if c.state = .lost then { c with state := .verified } else c) hheld
  have hstream := streamPresent_reports i x (tableReacquired x i s1)
  refine ⟨streamPresent i x (tableReacquired x i s1), by simp [relockSlot, hx, s1], ?_, fun y => ?_, ?_⟩
  · rw [← listPending_eq hc, ← hslot1]
    exact (hstream.slot i).trans (htable.slot i)
  · refine (hstream.carrier y).trans ((htable.carrier y).trans ((carrier_putCarrier ..).trans ?_))
    exact if_congr Iff.rfl rfl (congrArg (tabGet · y) (changeSlot_carriers ..))
  · rw [hstream.records]
    exact setPhase_records

/-- Settles O38: in LOCK_WAIT the slot alone changes; in a re-tune attempt `relockSlot_leaves` and what the level reference
may make of it. -/
theorem lockGained : Obligations.LockGained := by
  unfold Obligations.LockGained
  intro s i hr r
  rw [exec_lockGained]
  refine ⟨fun hs hn hstage => ?acquires, fun x c hs hn hheld => ?relocks, fun hout => blockEvent_idle ?idle⟩
  case idle =>
    rw [← Bool.not_eq_true, seekingLock_iff]
    rintro ⟨hs, hseeks⟩
    obtain hne | ⟨hn, hstage⟩ := hout
    · exact hne hs
    · exact hseeks.elim (fun hpos => Nat.ne_of_gt hpos hn) hstage
  case acquires =>
    refine ⟨_, blockEvent_done hr (seekingLock_iff.mpr ⟨hs, .inr hstage⟩), ?_⟩
    rw [gainLock_acquires hs hn hstage]
    obtain ⟨⟨hothers, hcarriers, -⟩, hself⟩ := changeSlot_alone i acquiringSlot s
    exact ⟨hcarriers, hothers, hself⟩
  case relocks =>
    refine ⟨_, blockEvent_done hr (seekingLock_iff.mpr ⟨hs, .inl hn⟩), ?_⟩
    rw [gainLock_relocks hs hn]
    obtain ⟨w, hw, hslot, hentries, hrecords⟩ := relockSlot_leaves hheld
    have hjoin := refers_joinReference w i
    rw [← hw] at hjoin
    obtain ⟨st, m, hself, -⟩ := hjoin.slots i
    have hmeas := hjoin.windows i
    rw [hslot] at hself hmeas
    have hcarrier (y : Nat) : (relockSlot i s).carrier y = w.carrier y := congrArg (tabGet · y) hjoin.carriers
    have hchan : (relockedSlot (decide (c.listStatus = .pending)) r).chan =
        if c.listStatus = .pending then { Channel.reset with stage := .recheckId, timer := some 2000 }
        else Channel.reset := by
      simp [relockedSlot, idWaitMs]
    rw [hself] at hmeas ⊢
    refine ⟨rfl, rfl, rfl, rfl, hheld.1, hmeas.imp_left fun e => ?window, ?stage, ?timer, ?windows,
      by rw [hjoin.records]; exact hrecords, ?entry, fun y hy => ?entries⟩
    case window =>
      rw [e]
      exact ⟨rfl, rfl, rfl⟩
    case stage =>
      dsimp only
      rw [hchan]
      split <;> rfl
    case timer =>
      dsimp only
      rw [hchan]
      split <;> rfl
    case windows =>
      dsimp only
      rw [hchan]
      split <;> rfl
    case entry =>
      rw [hcarrier, hentries, if_pos rfl]
      split <;> rfl
    case entries => rw [hcarrier, hentries, if_neg hy]

/-! ## A carrying slot that loses lock (R40, R77, R132, R133) -/

theorem usingLock_iff {i : Fin 8} {s : State} :
    usingLock i s = true ↔ (s.slot i).state = .acquiring ∨ (s.slot i).state = .locked := by
  simp [usingLock]

theorem loseLock_carried {i : Fin 8} {s : State} (hs : (s.slot i).state = .locked) (hrole : (s.slot i).role = .carry) :
    loseLock i s = loseCarriedLock i s := by
  simp [loseLock, hs, hrole]

theorem loseCarriedLock_leaves {i : Fin 8} {x : Nat} {c : Carrier} {s : State} (h : ActivelyHolds s i x c)
    (href : ReferenceLaw s.slots s.reference) :
    (loseCarriedLock i s).slot i = retuningSlot (s.slot i) ∧
      (∀ y, (loseCarriedLock i s).carrier y =
        if y = x then some (if c.state = .verified then { c with state := .lost } else c) else s.carrier y) ∧
        ∀ q ∈ (loseCarriedLock i s).router.records, q.carrier = x → q.slot = i ∧ q.phase = .retuning := by
  obtain ⟨-, hout, -⟩ := href
  obtain ⟨hslot, -, hcarriers⟩ := leaveLocked_slot (f := retuningSlot) (by simp [retuningSlot]) (hout i)
  have hheld : ActivelyHolds (leaveLocked i retuningSlot s) i x c := h.congr (by rw [hslot]; rfl) hcarriers
  have htable := tableReport_reports (fun c => if c.state = .verified then { c with state := .lost } else c) hheld
  have hstream := streamLost_reports i x (tableLost x i (leaveLocked i retuningSlot s))
  have hu : loseCarriedLock i s = streamLost i x (tableLost x i (leaveLocked i retuningSlot s)) := by
    simp [loseCarriedLock, h.1]
  rw [hu]
  refine ⟨((hstream.slot i).trans (htable.slot i)).trans hslot, fun y => ?_, ?_⟩
  · refine (hstream.carrier y).trans ((htable.carrier y).trans ((carrier_putCarrier ..).trans ?_))
    exact if_congr Iff.rfl rfl (congrArg (tabGet · y) hcarriers)
  · rw [hstream.records]
    exact setPhase_records

theorem retuning_and_timerOut_iff {p q : Prop} [Decidable p] [Decidable q] {t : Option Nat} :
    (decide p && decide q && timerOut t) = true ↔ p ∧ q ∧ t = some 0 := by
  simp only [Bool.and_eq_true, decide_eq_true_iff, timerOut_iff, and_assoc]

theorem retuneTimeoutEnds_again {i : Fin 8} {s : State} {bound : Nat} (hs : (s.slot i).state = .tuning)
    (hn : (s.slot i).retune = 1 ∨ (s.slot i).retune = 2) (hb : (s.slot i).lockTimeout = some bound) :
    retuneTimeoutEnds i s =
      putSlot i { s.slot i with retune := (s.slot i).retune + 1, retuneTimer := some bound } s := by
  have hpos : 0 < (s.slot i).retune := by omega
  have hmore : (s.slot i).retune < retuneAttempts := by unfold retuneAttempts; omega
  simp [retuneTimeoutEnds, hs, hpos, hmore, modSlot, hb]

/-- Settles O40. -/
theorem carriedLockLossRetunes : Obligations.CarriedLockLossRetunes := by
  unfold Obligations.CarriedLockLossRetunes
  intro s i hr r
  rw [exec_lockLoss, exec_retuneTimeout]
  refine ⟨fun x c bound hs hrole hb href hheld => ?retunes, fun bound hs hn ht hb => ?again,
    fun hout => blockEvent_idle ?idle, fun h1 h2 => blockEvent_idle ?unused⟩
  case retunes =>
    refine ⟨_, blockEvent_done hr (usingLock_iff.mpr (.inr hs)), ?_⟩
    rw [loseLock_carried hs hrole]
    obtain ⟨hslot, hentries, hrecords⟩ := loseCarriedLock_leaves hheld href
    refine ⟨hslot.trans ?_, ?_, fun y hy => ?_, hrecords⟩
    · rw [retuningSlot, hb]
      rfl
    · rw [hentries, if_pos rfl]
      split <;> rfl
    · rw [hentries, if_neg hy]
  case again =>
    have hpos : 0 < r.retune := by omega
    refine (blockEvent_done hr (retuning_and_timerOut_iff.mpr ⟨hs, hpos, ht⟩)).trans ?_
    rw [retuneTimeoutEnds_again hs hn hb]
    rfl
  case idle => rwa [← Bool.not_eq_true, retuning_and_timerOut_iff]
  case unused =>
    rw [← Bool.not_eq_true, usingLock_iff]
    exact fun h => h.elim h1 h2

/-! ## The end of a slot's role (R30, R31, R37, R100, R140) -/

theorem endHold_reports {x : Nat} {i : Fin 8} {g : Carrier → Carrier} {s : State} {c : Carrier} {carry : Bool}
    (hc : s.carrier x = some c) (hhold : c.hold = some { slot := i, carry := carry, ending := false }) :
    Reports (putCarrier x { g c with hold := none } s) (endHold x i g s) := by
  unfold endHold
  simp only [hc, hhold, ne_eq, not_true_eq_false, if_false, Bool.false_eq_true]
  exact (changeCarrier_reports (f := fun c => { g c with hold := none }) hc).trans (reports_searchDue _)

theorem endCarry_reports (x : Nat) (s : State) : Reports (closeRecord x s) (endCarry x false s) := by
  rw [endCarry, if_neg Bool.false_ne_true]
  exact ((ranks_recomputeRooms _).trans ((ranks_carryLost ..).trans (ranks_grantFailed ..))).reports

/-- R133: the record of carrier `x` is gone. -/
theorem closeRecord_records (x : Nat) (s : State) : ∀ q ∈ (closeRecord x s).router.records, q.carrier ≠ x := by
  intro q hq
  simp only [closeRecord, modRouter_router, List.mem_filter, decide_eq_true_eq] at hq
  exact hq.2

theorem endCarry_records (x : Nat) (s : State) : ∀ q ∈ (endCarry x false s).router.records, q.carrier ≠ x := by
  rw [(endCarry_reports x s).records]
  exact closeRecord_records x s

theorem endCarry_surveys (x : Nat) (s : State) : (endCarry x false s).sched.surveys = s.sched.surveys :=
  (endCarry_reports x s).surveys

theorem reportEnd_survey {b : Slot} (hrole : b.role = .survey) (i : Fin 8) (x : Nat) (reason : EndReason) (s : State) :
    (reportEnd b i x reason false s).sched.surveys[i] = none := by
  simp only [reportEnd, hrole]
  split
  · exact (congrArg (·[i]) (endCarry_surveys x _)).trans (endSurvey_survey ..)
  · exact endSurvey_survey ..

theorem reportEnd_records {b : Slot} (h : b.role = .carry ∨ (b.role = .survey ∧ b.adoptionPending = true)) (i : Fin 8)
    (x : Nat) (reason : EndReason) (s : State) :
    ∀ q ∈ (reportEnd b i x reason false s).router.records, q.carrier ≠ x := by
  obtain hrole | ⟨hrole, hadopt⟩ := h
  · simp only [reportEnd, hrole]
    exact endCarry_records x _
  · simp only [reportEnd, hrole, hadopt, if_true]
    exact endCarry_records x _

/-- What the end of slot `i`'s role on carrier `x`, not asked for by the router, leaves: the slot freed, the entry `d`, the
survey or the carry record closed; and the slot out of the reference's hands where the second law held. -/
structure RoleEnded (i : Fin 8) (x : Nat) (d : Carrier) (hold offline : Bool) (s u : State) : Prop where
  slot : Referred (freedSlot hold offline (s.slot i)) (u.slot i)
  others : ∀ j, j ≠ i → Referred (s.slot j) (u.slot j)
  entry : u.carrier x = some d
  entries : ∀ y, y ≠ x → u.carrier y = s.carrier y
  survey : (s.slot i).role = .survey → u.sched.surveys[i] = none
  records : (s.slot i).role = .carry ∨ ((s.slot i).role = .survey ∧ (s.slot i).adoptionPending = true) →
    ∀ q ∈ u.router.records, q.carrier ≠ x
  unreferred : ReferenceLaw s.slots s.reference → i ∉ u.reference.queue ∧ u.reference.holder ≠ some i

theorem enterReleasing_carriers (i : Fin 8) (hold offline : Bool) (s : State) :
    (enterReleasing i hold offline s).carriers = s.carriers := (refers_leaveLocked ..).carriers

theorem enterReleasing_clock (i : Fin 8) (hold offline : Bool) (s : State) :
    (enterReleasing i hold offline s).clock = s.clock := (refers_leaveLocked ..).clock

theorem enterReleasing_plan (i : Fin 8) (hold offline : Bool) (s : State) :
    (enterReleasing i hold offline s).plan = s.plan := (refers_leaveLocked ..).plan

/-- R44, R26: a slot that enters RELEASING, and the slots beside it. -/
theorem enterReleasing_slots (i : Fin 8) (hold offline : Bool) (s : State) (j : Fin 8) :
    Referred (if j = i then freedSlot hold offline (s.slot i) else s.slot j) ((enterReleasing i hold offline s).slot j) := by
  have h := (refers_leaveLocked i (freedSlot hold offline) s).slots j
  rw [slot_putSlot] at h
  simp only [eq_comm (a := i)] at h
  exact h

theorem enterReleasing_unreferred {i : Fin 8} {s : State} (hold offline : Bool) (h : ReferenceLaw s.slots s.reference) :
    i ∉ (enterReleasing i hold offline s).reference.queue ∧
      (enterReleasing i hold offline s).reference.holder ≠ some i := by
  obtain ⟨hqueue, hholder⟩ := quitReference_out i h
  refine ((refers_leaveLocked i (freedSlot hold offline) s).rests i ?_ hqueue hholder).2
  rw [slot_putSlot, if_pos rfl]
  exact needsCalibration_of_not_locked (by simp [freedSlot]) _

/-- A slot enters RELEASING, the table makes its entry `d`, and the end of the role is reported. -/
theorem roleEnded {i : Fin 8} {x : Nat} {d : Carrier} {hold offline : Bool} {reason : EndReason} {s t : State}
    (h : Reports (putCarrier x d (enterReleasing i hold offline s)) t) :
    RoleEnded i x d hold offline s (reportEnd (s.slot i) i x reason false t) := by
  have htells := tells_reportEnd (s.slot i) i x reason false t
  have hslot (j : Fin 8) : (reportEnd (s.slot i) i x reason false t).slot j = (enterReleasing i hold offline s).slot j :=
    (htells.slot j).trans (h.slot j)
  have hentry (y : Nat) : (reportEnd (s.slot i) i x reason false t).carrier y = if y = x then some d else s.carrier y := by
    refine (htells.carrier y).trans ((h.carrier y).trans ((carrier_putCarrier ..).trans (if_congr Iff.rfl rfl ?_)))
    exact congrArg (tabGet · y) (enterReleasing_carriers ..)
  have hreference : (reportEnd (s.slot i) i x reason false t).reference = (enterReleasing i hold offline s).reference :=
    htells.reference.trans h.reference
  refine ⟨?_, fun j hj => ?_, ?_, fun y hy => ?_, fun hrole => reportEnd_survey hrole ..,
    fun hrole => reportEnd_records hrole i x reason t, fun href => ?_⟩
  · have hfreed := enterReleasing_slots i hold offline s i
    rw [if_pos rfl] at hfreed
    rwa [hslot]
  · have hbeside := enterReleasing_slots i hold offline s j
    rw [if_neg hj] at hbeside
    rwa [hslot]
  · rw [hentry, if_pos rfl]
  · rw [hentry, if_neg hy]
  · rw [hreference]
    exact enterReleasing_unreferred hold offline href

/-! ## Failures (R37, R39, R40, R75, R140) -/

theorem failedEntry_congr {s t : State} (hclock : t.clock = s.clock) (hplan : t.plan = s.plan) (cause : FailCause) :
    failedEntry t cause = failedEntry s cause := by
  funext c
  simp only [failedEntry, State.now, State.params, hclock, hplan]

theorem activeHold_of {x : Nat} {i : Fin 8} {s : State} {c : Carrier} {carry : Bool} (hc : s.carrier x = some c)
    (hhold : c.hold = some { slot := i, carry := carry, ending := false }) : activeHold s x i = true := by
  simp [activeHold, hc, hhold]

theorem tableFailed_reports {x : Nat} {i : Fin 8} {s : State} {c : Carrier} {carry : Bool} (cause : FailCause)
    (hc : s.carrier x = some c) (hhold : c.hold = some { slot := i, carry := carry, ending := false }) :
    Reports (putCarrier x { failedEntry s cause c with hold := none } s) (tableFailed x i cause s) := by
  have hleft := reports_leaveSet x s
  rw [tableFailed, if_pos (activeHold_of hc hhold)]
  exact (hleft.putCarrier ..).trans (endHold_reports ((hleft.carrier x).trans hc) hhold)

theorem failSlot_leaves {s : State} {i : Fin 8} {x : Nat} {c : Carrier} (cause : FailCause) (h : ActivelyHolds s i x c) :
    RoleEnded i x { failedEntry s cause c with hold := none } false false s (failSlot i cause s) := by
  obtain ⟨hx, hc, carry, hhold⟩ := h
  have hfail : failSlot i cause s =
      reportEnd (s.slot i) i x (.failed cause) false (tableFailed x i cause (enterReleasing i false false s)) := by
    simp [failSlot, hx]
  have hc1 : (enterReleasing i false false s).carrier x = some c :=
    (congrArg (tabGet · x) (enterReleasing_carriers ..)).trans hc
  have htable := tableFailed_reports cause hc1 hhold
  rw [failedEntry_congr (enterReleasing_clock ..) (enterReleasing_plan ..)] at htable
  rw [hfail]
  exact roleEnded htable

theorem stageOver_iff {s : State} {i : Fin 8} {st : Stage} :
    stageOver s i st = true ↔ (s.slot i).chan.stage = st ∧ (s.slot i).chan.timer = some 0 := by
  rw [stageOver, inStage, and_timerOut_iff]

theorem expectedOf_eq {s : State} {i : Fin 8} {x : Nat} {c : Carrier} (hx : (s.slot i).carrier = some x)
    (hc : s.carrier x = some c) : expectedOf s i = c.expected := by
  simp [expectedOf, hx, hc]

/-- R53, R66: an identity that differs from the expected one fails the slot, in ID_WAIT and in RECHECK_ID. -/
theorem takeSection_mismatch {s : State} {i : Fin 8} {x : Nat} {c : Carrier} {sec : Section} {id : Identity}
    {want : ExpectedId} (hpass : sec.passed = true)
    (hs : ((s.slot i).state = .acquiring ∧ (s.slot i).chan.stage = .idWait)
      ∨ ((s.slot i).state = .locked ∧ (s.slot i).chan.stage = .recheckId))
    (hbody : sec.body = .identity id) (hx : (s.slot i).carrier = some x) (hc : s.carrier x = some c)
    (hwant : c.expected = some want) (hdiffer : ¬(want.origin = id.origin ∧ want.transport = id.transport)) :
    takeSection i sec s = failSlot i .idMismatch s := by
  have hexpected : expectedOf s i = some want := (expectedOf_eq hx hc).trans hwant
  have hfits : ¬identityFits (some want) id = true := by simpa [identityFits] using hdiffer
  obtain ⟨hstate, hstage⟩ | ⟨hstate, hstage⟩ := hs
  · rw [takeSection, if_pos ⟨hpass, .inl hstate⟩, hbody]
    simp only [takeBody, hstage, takeIdentity, hexpected, if_neg hfits]
  · rw [takeSection, if_pos ⟨hpass, .inr hstate⟩, hbody]
    simp only [takeBody, hstage, recheckIdentity, hx, hexpected, if_neg hfits]

/-- Each of the events that fail a slot does so, and what follows settles. -/
theorem exec_of_failsWith {s : State} {i : Fin 8} {x : Nat} {c : Carrier} {e : Instr} {cause : FailCause}
    (hr : s.clock.inReset = false) (hfails : FailsWith s i e cause) (h : ActivelyHolds s i x c) :
    exec e s = .next (settle (failSlot i cause s)) := by
  cases e with
  | lockTimeout j =>
    obtain ⟨rfl, rfl, hover, hn⟩ := hfails
    obtain ⟨hstage, -⟩ := stageOver_iff.mp hover
    have hend : lockTimeoutEnds j s = failSlot j .noLock s := by simp [lockTimeoutEnds, inStage, hstage, hn]
    rw [exec_lockTimeout, ← hend]
    exact blockEvent_done hr (by simp [hover, hn])
  | retuneTimeout j =>
    obtain ⟨rfl, rfl, hs, hn, ht⟩ := hfails
    have hend : retuneTimeoutEnds j s = failSlot j .noLock s := by simp [retuneTimeoutEnds, hs, hn, retuneAttempts]
    rw [exec_retuneTimeout, ← hend]
    exact blockEvent_done hr (retuning_and_timerOut_iff.mpr ⟨hs, by omega, ht⟩)
  | lockLoss j =>
    obtain ⟨rfl, rfl, hs⟩ := hfails
    have hend : loseLock j s = failSlot j .noLock s := by
      obtain hs | ⟨hs, hrole⟩ := hs
      · simp [loseLock, hs]
      · simp [loseLock, hs, hrole]
    rw [exec_lockLoss, ← hend]
    exact blockEvent_done hr (usingLock_iff.mpr (hs.imp_right And.left))
  | sectionReceived j sec =>
    obtain ⟨rfl, rfl, hpass, hwf, hs, y, d, want, id, hbody, hy, hd, hwant, hdiffer⟩ := hfails
    rw [exec_sectionReceived hwf, ← takeSection_mismatch hpass hs hbody hy hd hwant hdiffer]
    refine blockEvent_done hr (Bool.and_eq_true_iff.mpr ⟨hpass, usingLock_iff.mpr ?_⟩)
    exact hs.imp And.left And.left
  | idTimeout j =>
    obtain ⟨rfl, rfl, hover⟩ := hfails
    exact (exec_idTimeout j s).trans (blockEvent_done hr hover)
  | svcTimeout j =>
    obtain ⟨rfl, rfl, hover⟩ := hfails
    exact (exec_svcTimeout j s).trans (blockEvent_done hr hover)
  | recheckIdTimeout j =>
    obtain ⟨rfl, rfl, hover⟩ := hfails
    exact (exec_recheckIdTimeout j s).trans (blockEvent_done hr hover)
  | recheckSvcTimeout j =>
    obtain ⟨rfl, rfl, hover⟩ := hfails
    exact (exec_recheckSvcTimeout j s).trans (blockEvent_done hr hover)
  | _ => exact hfails.elim

theorem failedEntry_excluded {s : State} {c : Carrier} (h : c.state = .excluded) (cause : FailCause) :
    failedEntry s cause c = c := by
  simp [failedEntry, h]

theorem failedEntry_counted {s : State} {c : Carrier} (he : c.state ≠ .excluded) (hf : c.state ≠ .failed)
    (cause : FailCause) :
    failedEntry s cause c =
      { c with
        state := .failed, failCause := some cause, failCount := min 7 (c.failCount + 1), stateBefore := none,
        nextDue := timeAfter s.clock.now (backoffOf s.params (min 7 (c.failCount + 1))) } := by
  unfold failedEntry
  split
  · next h => exact absurd h he
  · next h => exact absurd h hf
  · rfl
  · rfl
  · rfl
  · rfl

/-- Settles O39: every cause ends in `failSlot` (`exec_of_failsWith`), whose effect is `failSlot_leaves`. -/
theorem failuresReleaseTheSlot : Obligations.FailuresReleaseTheSlot := by
  unfold Obligations.FailuresReleaseTheSlot
  intro s i e cause x c hr hfails href hheld r
  have hended := failSlot_leaves cause hheld
  obtain ⟨hqueue, hholder⟩ := hended.unreferred href
  refine ⟨_, exec_of_failsWith hr hfails hheld, ?slot, fun j hj => ?others, hqueue, hholder, fun he => ?excluded,
    fun he hf => ?failed, hended.entries, hended.survey, hended.records⟩
  case slot =>
    have hinactive := hended.slot.inactive rfl
    obtain ⟨_, _, hslot, -⟩ := hended.slot
    rw [hslot] at hinactive ⊢
    exact ⟨rfl, rfl, rfl, rfl, rfl, rfl, rfl, rfl, rfl, rfl, rfl, rfl, rfl, rfl, rfl, hinactive, rfl, rfl, rfl, rfl⟩
  case others => exact ⟨(hended.others j hj).state, (hended.others j hj).carrier⟩
  case excluded =>
    rw [hended.entry, failedEntry_excluded he]
  case failed =>
    rw [hended.entry, failedEntry_counted he hf]
    rfl

/-! ## SLOT_OFFLINE and SLOT_ONLINE (R30, R31, R35, R36, R73, R76, R80) -/

theorem endHold_slot (x : Nat) (i j : Fin 8) (g : Carrier → Carrier) (s : State) :
    (endHold x i g s).slot j = s.slot j := congrArg (·[j]) (endHold_slots x i g s).1

/-- R26, R35: whatever the table and the owner of the role are told, the slot released is freed. -/
theorem releaseWork_slot (i : Fin 8) (hold offline : Bool) (reason : EndReason) (asked : Bool) (s : State) :
    Referred (freedSlot hold offline (s.slot i)) ((releaseWork i hold offline reason asked s).slot i) := by
  have hfreed := enterReleasing_slots i hold offline s i
  rw [if_pos rfl] at hfreed
  unfold releaseWork
  dsimp only
  split
  · exact hfreed
  · rw [(tells_reportEnd ..).slot]
    split
    · rwa [tableReleased, endHold_slot]
    · rwa [tableAborted, endHold_slot]

/-- R80: a release in LOCKED. -/
theorem releaseWork_locked {s : State} {i : Fin 8} {x : Nat} {c : Carrier} (hold offline : Bool) (reason : EndReason)
    (h : ActivelyHolds s i x c) (hs : (s.slot i).state = .locked) :
    RoleEnded i x { c with nextDue := dueAfterInterval s c, hold := none } hold offline s
      (releaseWork i hold offline reason false s) := by
  obtain ⟨hx, hc, carry, hhold⟩ := h
  have hwork : releaseWork i hold offline reason false s =
      reportEnd (s.slot i) i x reason false (tableReleased x i (enterReleasing i hold offline s)) := by
    simp [releaseWork, hx, hs]
  have hc1 : (enterReleasing i hold offline s).carrier x = some c :=
    (congrArg (tabGet · x) (enterReleasing_carriers ..)).trans hc
  have htable := endHold_reports
    (g := fun c => { c with nextDue := dueAfterInterval (enterReleasing i hold offline s) c }) hc1 hhold
  rw [dueAfterInterval_congr (enterReleasing_clock ..) (enterReleasing_plan ..)] at htable
  rw [hwork]
  exact roleEnded htable

theorem abortedEntry_congr {s t : State} (hclock : t.clock = s.clock) (hplan : t.plan = s.plan) :
    abortedEntry t = abortedEntry s := by
  funext c
  simp only [abortedEntry, dueAfterInterval_congr hclock hplan]

/-- R76: a release of a slot that is not LOCKED is an abort. -/
theorem releaseWork_aborted {s : State} {i : Fin 8} {x : Nat} {c : Carrier} (hold offline : Bool) (reason : EndReason)
    (h : ActivelyHolds s i x c) (hs : (s.slot i).state ≠ .locked) :
    RoleEnded i x { abortedEntry s c with hold := none } hold offline s (releaseWork i hold offline reason false s) := by
  obtain ⟨hx, hc, carry, hhold⟩ := h
  have hwork : releaseWork i hold offline reason false s =
      reportEnd (s.slot i) i x reason false (tableAborted x i (enterReleasing i hold offline s)) := by
    simp [releaseWork, hx, hs]
  have hc1 : (enterReleasing i hold offline s).carrier x = some c :=
    (congrArg (tabGet · x) (enterReleasing_carriers ..)).trans hc
  have htable := endHold_reports (g := abortedEntry (enterReleasing i hold offline s)) hc1 hhold
  rw [hwork, ← abortedEntry_congr (enterReleasing_clock i hold offline s) (enterReleasing_plan i hold offline s)]
  exact roleEnded htable

theorem abortedEntry_eq (s : State) (c : Carrier) :
    abortedEntry s c =
      { c with
        state := if c.state = .acquiring then c.stateBefore.getD .unsurveyed else c.state,
        stateBefore := if c.state = .acquiring then none else c.stateBefore,
        nextDue := if c.carried then dueAfterInterval s c else c.nextDue } := by
  unfold abortedEntry
  by_cases hstate : c.state = .acquiring
  · cases hcarried : c.carried <;> simp [hstate]
  · cases hcarried : c.carried <;> simp [hstate]

theorem exec_slotOffline {s : State} {i : Fin 8} (hs : Ready s) :
    exec (.slotOffline i.val) s =
      .next (formReply 0x33 (doSlotOffline i.val s).code (doSlotOffline i.val s).content (doSlotOffline i.val s).state) :=
  exec_rowOf_ready (c := .slotOffline i.val) hs (decide_eq_true (i.isLt.trans (by decide)))

theorem exec_slotOnline {s : State} {i : Fin 8} (hs : Ready s) :
    exec (.slotOnline i.val) s =
      .next (formReply 0x34 (doSlotOnline i.val s).code (doSlotOnline i.val s).content (doSlotOnline i.val s).state) :=
  exec_rowOf_ready (c := .slotOnline i.val) hs (decide_eq_true (i.isLt.trans (by decide)))

/-- The answer of a request that takes slot `i` offline or online. -/
def slotAnswer (r : State × Bool) : Answer := if r.2 then answered .ok (settle r.1) else answered .noChange r.1

theorem doSlotOffline_eq (i : Fin 8) (s : State) : doSlotOffline i.val s = slotAnswer (slotGoOffline i s) := by
  rw [doSlotOffline, dif_pos i.isLt]
  obtain ⟨t, taken⟩ := slotGoOffline i s
  cases taken <;> rfl

theorem doSlotOnline_eq (i : Fin 8) (s : State) : doSlotOnline i.val s = slotAnswer (slotGoOnline i s) := by
  rw [doSlotOnline, dif_pos i.isLt]
  obtain ⟨t, taken⟩ := slotGoOnline i s
  cases taken <;> rfl

theorem slotOffline_taken {s t : State} {i : Fin 8} (hs : Ready s) (h : slotGoOffline i s = (t, true)) :
    exec (.slotOffline i.val) s = .next (formReply 0x33 .ok [] (settle t)) := by
  rw [exec_slotOffline hs, doSlotOffline_eq, h]
  rfl

theorem slotOffline_noChange {s t : State} {i : Fin 8} (hs : Ready s) (h : slotGoOffline i s = (t, false)) :
    exec (.slotOffline i.val) s = .next (formReply 0x33 .noChange [] t) := by
  rw [exec_slotOffline hs, doSlotOffline_eq, h]
  rfl

theorem slotOnline_taken {s t : State} {i : Fin 8} (hs : Ready s) (h : slotGoOnline i s = (t, true)) :
    exec (.slotOnline i.val) s = .next (formReply 0x34 .ok [] (settle t)) := by
  rw [exec_slotOnline hs, doSlotOnline_eq, h]
  rfl

theorem slotOnline_noChange {s t : State} {i : Fin 8} (hs : Ready s) (h : slotGoOnline i s = (t, false)) :
    exec (.slotOnline i.val) s = .next (formReply 0x34 .noChange [] t) := by
  rw [exec_slotOnline hs, doSlotOnline_eq, h]
  rfl

theorem slotGoOffline_working {i : Fin 8} {s : State}
    (h : (s.slot i).state = .tuning ∨ (s.slot i).state = .acquiring ∨ (s.slot i).state = .locked) :
    slotGoOffline i s = (releaseWork i false true .offline false s, true) := by
  obtain h | h | h := h <;> simp [slotGoOffline, h]

theorem slotGoOffline_idle {i : Fin 8} {s : State} (h : (s.slot i).state = .parked ∨ (s.slot i).state = .idle) :
    slotGoOffline i s =
      (if (s.slot i).heldForRouter then holdLost i (changeSlot i offlineSlot s) else changeSlot i offlineSlot s, true) := by
  obtain h | h := h <;> simp [slotGoOffline, h]

theorem tells_holdLost_if (b : Bool) (i : Fin 8) (s : State) : Tells s (if b then holdLost i s else s) := by
  split
  · exact tells_holdLost ..
  · exact .refl s

/-- Settles O26: a slot that works is released (`releaseWork_locked`, `releaseWork_aborted`); in the other states the slot
alone changes. -/
theorem slotsGoOfflineAndOnline : Obligations.SlotsGoOfflineAndOnline := by
  unfold Obligations.SlotsGoOfflineAndOnline
  intro s hs
  refine ⟨fun n h8 hn => ⟨?_, ?_⟩, fun i => ?_⟩
  · have hbad : doSlotOffline n s = answered .badIndex s := dif_neg (Nat.not_lt.mpr h8)
    have hexec := exec_rowOf_ready (c := .slotOffline n) hs (decide_eq_true hn)
    refine hexec.trans ?_
    simp only [answerCommand, carryOut, hbad]
    rfl
  · have hbad : doSlotOnline n s = answered .badIndex s := dif_neg (Nat.not_lt.mpr h8)
    have hexec := exec_rowOf_ready (c := .slotOnline n) hs (decide_eq_true hn)
    refine hexec.trans ?_
    simp only [answerCommand, carryOut, hbad]
    rfl
  intro r offline others
  refine ⟨fun hstate => slotOffline_noChange hs ?_, fun hstate => ?idle, fun hstate => ?working, fun hstate => ?releasing,
    fun hstate => ?online, fun hstate => slotOnline_noChange hs (if_neg hstate)⟩
  · simp only [slotGoOffline]
    rw [show (s.slot i).state = .offline from hstate]
  case idle =>
    refine ⟨_, slotOffline_taken hs (slotGoOffline_idle hstate), ?_⟩
    obtain ⟨⟨hothers, hcarriers, -⟩, hself⟩ := changeSlot_alone i offlineSlot s
    have htells := tells_holdLost_if r.heldForRouter i (changeSlot i offlineSlot s)
    exact ⟨⟨fun j hj => (htells.slot j).trans (hothers j hj), htells.carriers.trans hcarriers⟩,
      (htells.slot i).trans hself⟩
  case working =>
    refine ⟨_, slotOffline_taken hs (slotGoOffline_working hstate), ?_⟩
    have hfreed := releaseWork_slot i false true .offline false s
    have hinactive := hfreed.inactive rfl
    obtain ⟨_, _, hslot, -⟩ := hfreed
    beta_reduce
    rw [hslot] at hinactive ⊢
    refine ⟨rfl, rfl, rfl, rfl, rfl, rfl, rfl, hinactive, rfl, rfl, fun x c hheld => ?_⟩
    intro q due carried
    have hdue : dueAfterInterval s c = due := rfl
    have hcarried : c.carried = carried := carried_eq c
    by_cases hlocked : r.state = .locked
    · have hended := releaseWork_locked false true .offline hheld hlocked
      refine ⟨fun _ => ?_, fun hne => absurd hlocked hne, hended.entries, hended.survey, fun hrole =>
        hended.records (.inl hrole)⟩
      rw [hended.entry, hdue]
    · have hended := releaseWork_aborted false true .offline hheld hlocked
      refine ⟨fun he => absurd he hlocked, fun _ => ?_, hended.entries, hended.survey, fun hrole =>
        hended.records (.inl hrole)⟩
      rw [hended.entry, abortedEntry_eq, hdue, hcarried]
  case releasing =>
    let f (r : Slot) : Slot := { r with offlinePending := true, heldForRouter := false }
    have hgo : slotGoOffline i s = (if r.heldForRouter then holdLost i (modSlot i f s) else modSlot i f s, true) := by
      simp only [slotGoOffline]
      rw [show (s.slot i).state = .releasing from hstate]
    refine ⟨_, slotOffline_taken hs hgo, ?_⟩
    have htells := tells_holdLost_if r.heldForRouter i (modSlot i f s)
    refine ⟨⟨fun j hj => (htells.slot j).trans ?_, htells.carriers⟩, (htells.slot i).trans ?_⟩
    · rw [modSlot_slot, if_neg hj]
    · rw [modSlot_slot, if_pos rfl]
  case online =>
    refine ⟨_, slotOnline_taken hs (if_pos hstate), ?_⟩
    obtain ⟨⟨hothers, hcarriers, -⟩, hself⟩ := changeSlot_alone i
      (fun r => { r with state := .parked, power := .off, role := .none, calStatus := .none, lastCal := none }) s
    exact ⟨⟨hothers, hcarriers⟩, hself⟩

/-! ## The entry of a verified carrier through its own discovery (R62 to R65, R74) -/

/-- The entry but for the marks a carrier list gives: DISCOVERED and the lister. -/
def Relisted (b a : Carrier) : Prop := ∃ discovered lister, a = { b with discovered := discovered, lister := lister }

theorem Relisted.refl (c : Carrier) : Relisted c c := ⟨_, _, rfl⟩

theorem Relisted.trans {a b c : Carrier} (h : Relisted a b) (k : Relisted b c) : Relisted a c := by
  obtain ⟨_, _, rfl⟩ := h
  obtain ⟨d, l, rfl⟩ := k
  exact ⟨d, l, rfl⟩

/-- The table's entry at `x` is `b` but for the marks of a carrier list. -/
def RelistedAt (x : Nat) (b : Carrier) (t : Table Carrier) : Prop := ∃ a, tabGet t x = some a ∧ Relisted b a

theorem tabGet_map {α : Type} {f : Nat × α → Nat × α} (h : ∀ e, (f e).1 = e.1) (t : Table α) (x : Nat) :
    tabGet (t.map f) x = (tabGet t x).map fun a => (f (x, a)).2 := by
  induction t with
  | nil => rfl
  | cons e t ih =>
    have hfst : (f e).1 = e.1 := h e
    obtain ⟨j, a⟩ := e
    simp only [List.map_cons, tabGet]
    rw [show f (j, a) = (j, (f (j, a)).2) from Prod.ext hfst rfl]
    by_cases hx : x = j
    · subst hx
      simp
    · simp [hx, ih]

theorem RelistedAt.map {x : Nat} {b : Carrier} {t : Table Carrier} {f : Nat × Carrier → Nat × Carrier}
    (h : RelistedAt x b t) (hf : ∀ e, (f e).1 = e.1) (hr : ∀ e, Relisted e.2 (f e).2) : RelistedAt x b (t.map f) := by
  obtain ⟨a, ha, hb⟩ := h
  exact ⟨_, by rw [tabGet_map hf, ha]; rfl, hb.trans (hr (x, a))⟩

/-- R65: a removal of another entry takes its lister from the entry at most. -/
theorem RelistedAt.removeEntry {x y : Nat} {b : Carrier} {t : Table Carrier} (h : RelistedAt x b t) (hy : y ≠ x) :
    RelistedAt x b (removeEntry y t) := by
  have hdel : RelistedAt x b (tabDel t y) := by
    obtain ⟨a, ha, hb⟩ := h
    exact ⟨a, (tabGet_tabDel_ne t y x hy.symm).trans ha, hb⟩
  refine hdel.map (fun e => ?_) (fun e => ?_)
  · split <;> rfl
  · split
    · exact ⟨_, _, rfl⟩
    · exact .refl _

theorem RelistedAt.removeAll {x : Nat} {b : Carrier} (l : List Nat) {t : Table Carrier} (h : RelistedAt x b t)
    (hl : x ∉ l) : RelistedAt x b (l.foldl (fun t i => Machine.removeEntry i t) t) := by
  induction l generalizing t with
  | nil => exact h
  | cons y l ih =>
    obtain ⟨hy, hrest⟩ := not_or.mp (mt List.mem_cons.mpr hl)
    exact ih (h.removeEntry (Ne.symm hy)) hrest

theorem unlist_relisted (y : Nat) (freqs : List Nat) (c : Carrier) : Relisted c (unlist y freqs c) := by
  unfold unlist
  split
  · exact ⟨_, _, rfl⟩
  · exact .refl c

/-- R64: a held entry is not among those a pruning removes. -/
theorem not_mem_prunedPlaces {x y : Nat} {b : Carrier} {freqs : List Nat} {t : Table Carrier} (ht : CarrierLaw t)
    (h : RelistedAt x b t) (hhold : b.hold ≠ none) : x ∉ prunedPlaces y freqs t := by
  intro hmem
  obtain ⟨e, he, hx⟩ := List.mem_map.mp hmem
  obtain ⟨hentry, hprunes⟩ := List.mem_filter.mp he
  obtain ⟨a, ha, _, _, hmarks⟩ := h
  have hget := tabGet_of_mem (tabWf_iff.mp ht.1).1 hentry
  rw [hx, ha] at hget
  have hsame : a.hold = b.hold := by rw [hmarks]
  obtain ⟨-, hfree⟩ := Bool.and_eq_true_iff.mp hprunes
  rw [← Option.some.inj hget, hsame] at hfree
  exact hhold (Option.isNone_iff_eq_none.mp hfree)

theorem RelistedAt.pruneTable {x y : Nat} {b : Carrier} {freqs : List Nat} {t : Table Carrier} (h : RelistedAt x b t)
    (ht : CarrierLaw t) (hhold : b.hold ≠ none) : RelistedAt x b (pruneTable y freqs t) :=
  (h.removeAll _ (not_mem_prunedPlaces ht h hhold)).map (fun _ => rfl) (fun e => unlist_relisted y freqs e.2)

theorem knownEntry_relisted (y : Nat) (c : Carrier) : Relisted c (knownEntry y c) := by
  unfold knownEntry
  split
  · exact .refl c
  · exact ⟨_, _, rfl⟩

theorem RelistedAt.tabPut_known {x y i : Nat} {b c : Carrier} {t : Table Carrier} (h : RelistedAt x b t)
    (hc : tabGet t i = some c) : RelistedAt x b (tabPut t i (knownEntry y c)) := by
  obtain ⟨a, ha, hb⟩ := h
  by_cases hx : x = i
  · subst hx
    cases hc.symm.trans ha
    exact ⟨_, tabGet_tabPut .., hb.trans (knownEntry_relisted y c)⟩
  · exact ⟨a, (tabGet_tabPut_ne t i x _ hx).trans ha, hb⟩

theorem RelistedAt.tabPut_new {x : Nat} {b c : Carrier} {t : Table Carrier} (h : RelistedAt x b t) (ht : CarrierLaw t) :
    RelistedAt x b (tabPut t (tabFree t) c) := by
  obtain ⟨a, ha, hb⟩ := h
  obtain ⟨-, hfree, -⟩ := tabFree_spec (tabWf_iff.mp ht.1).1
  have hne : x ≠ tabFree t := fun e => hfree (e ▸ List.mem_map.mpr ⟨_, mem_of_tabGet ha, rfl⟩)
  exact ⟨a, (tabGet_tabPut_ne t _ x _ hne).trans ha, hb⟩

theorem RelistedAt.discoverOne {x y now : Nat} {b : Carrier} {p : Plan} {input : RfInput} {d : Discovery} (e : ListEntry)
    (h : RelistedAt x b d.table) (hd : CarrierLaw d.table) :
    RelistedAt x b (discoverOne p now y input d e).table := by
  unfold Machine.discoverOne
  dsimp only
  split
  · exact h
  · split
    · split
      · exact h
      · next hc => exact h.tabPut_known hc
    · split
      · exact h
      · split
        · exact h.tabPut_new hd
        · exact h

theorem RelistedAt.discover {x y now : Nat} {b : Carrier} {p : Plan} {input : RfInput} {t : Table Carrier}
    (es : List ListEntry) (h : RelistedAt x b t) (ht : CarrierLaw t) :
    RelistedAt x b (discover p now y input es t).table := by
  suffices ∀ (l : List ListEntry) (d : Discovery), RelistedAt x b d.table → CarrierLaw d.table →
      RelistedAt x b (l.foldl (Machine.discoverOne p now y input) d).table from this es _ h ht
  intro l
  induction l with
  | nil => exact fun _ h _ => h
  | cons e l ih => exact fun d h hd => ih _ (h.discoverOne e hd) (carrierLaw_discoverOne _ _ _ _ _ _ hd)

theorem RelistedAt.runDiscovery {x y : Nat} {b : Carrier} {s : State} {rep : VerifiedReport} {t : Table Carrier}
    (h : RelistedAt x b t) (ht : CarrierLaw t) (hhold : b.hold ≠ none) :
    RelistedAt x b (runDiscovery s y rep t).2.table := by
  have hprune : RelistedAt x b (if rep.status = .received then Machine.pruneTable y (rep.entries.map (·.freq)) t else t) ∧
      CarrierLaw (if rep.status = .received then Machine.pruneTable y (rep.entries.map (·.freq)) t else t) := by
    split
    · exact ⟨h.pruneTable ht hhold, carrierLaw_prune _ _ ht⟩
    · exact ⟨h, ht⟩
  unfold Machine.runDiscovery
  dsimp only
  split
  · exact hprune.1.discover _ hprune.2
  · exact hprune.1.discover _ hprune.2

/-- R74: the table after a VERIFIED report: the entry stored, but for its own carrier list's marks, and verified. -/
theorem tableVerified_leaves {x : Nat} {i : Fin 8} {c : Carrier} {carry : Bool} {s : State} (rep : VerifiedReport)
    (hc : s.carrier x = some c) (hhold : c.hold = some { slot := i, carry := carry, ending := false })
    (hlaw : CarrierLaw s.carriers) :
    ∃ t a, Relisted (storedEntry rep c) a ∧ tabGet t x = some (verifiedEntry a) ∧
      Reports (s.setCarriers t) (tableVerified x i rep s) := by
  let t1 := tabMod s.carriers x (storedEntry rep)
  let found := runDiscovery s x rep t1
  have hlaw1 : CarrierLaw t1 := carrierLaw_tabMod (fun _ => ⟨rfl, rfl⟩) hlaw
  have hstored : RelistedAt x (storedEntry rep c) t1 := by
    have ht1 : t1 = tabPut s.carriers x (storedEntry rep c) := by
      have hget : tabGet s.carriers x = some c := hc
      simp only [t1, tabMod, hget]
    exact ⟨_, by rw [ht1, tabGet_tabPut], .refl _⟩
  obtain ⟨a, ha, hlisted⟩ := hstored.runDiscovery (y := x) (s := s) (rep := rep) hlaw1 (by
    rw [show (storedEntry rep c).hold = c.hold from rfl, hhold]
    exact Option.some_ne_none _)
  refine ⟨tabMod found.2.table x verifiedEntry, a, hlisted, ?_, ?_⟩
  · have ha' : tabGet found.2.table x = some a := ha
    simp only [tabMod, ha', tabGet_tabPut]
  · rw [tableVerified, if_pos (activeHold_of hc hhold)]
    exact ((reports_leaveSet ..).trans (reports_reportChanges ..)).trans (reports_foldl (fun s n => reports_joinSet n s) _ _)

/-! ## What a verified slot reports (R37, R38, R59, R98, R132) -/

/-- R38: what the table makes of the entry of an adopted slot that is LOCKED. -/
theorem tableAdopted_reports {x : Nat} {i : Fin 8} {s : State} {c : Carrier} {carry : Bool} (hc : s.carrier x = some c)
    (hhold : c.hold = some { slot := i, carry := carry, ending := false }) (hs : (s.slot i).state = .locked) :
    Reports (putCarrier x { c with hold := some { slot := i, carry := true, ending := false } } s) (tableAdopted x s) := by
  have hentry : resumeAcquiring s (adoptedEntry c) = { c with hold := some { slot := i, carry := true, ending := false } } := by
    simp [adoptedEntry, resumeAcquiring, hhold, hs]
  rw [← hentry]
  exact (changeCarrier_reports (f := fun c => resumeAcquiring s (adoptedEntry c)) hc).trans (reports_dropUrgent ..)

theorem surveyRunning_survey {i : Fin 8} {s : State} {q : SurveyRecord} (h : s.sched.surveys[i] = some q) :
    (surveyRunning i s).sched.surveys[i] = some { q with phase := .measuring } := by
  unfold surveyRunning
  simp only [h]
  exact putSurvey_survey ..

/-- The entry of a verified carrier when its slot has adopted it or not. -/
def adoptedOr (adopted : Bool) (i : Fin 8) (c : Carrier) : Carrier :=
  if adopted then { c with hold := some { slot := i, carry := true, ending := false } } else c

/-- R37, R38, R59: what a verified slot reports to the scheduler and to the router, by its role before. -/
def verifiedReports (i : Fin 8) (x : Nat) (r : Slot) (s : State) : State :=
  match r.role with
  | .none => s
  | .carry => streamPresent i x s
  | .survey =>
    if r.adoptionPending then streamPresent i x (endSurvey i .adopted (tableAdopted x s)) else surveyRunning i s

theorem verifySlot_eq {i : Fin 8} {x : Nat} {s : State} (rep : VerifiedReport) (hx : (s.slot i).carrier = some x) :
    verifySlot i rep s =
      joinReference (verifiedReports i x (s.slot i) (tableVerified x i rep (changeSlot i (verifiedSlot s.now) s))) i := by
  simp only [verifySlot, hx]
  rfl

/-- A slot was to survey its carrier and has now adopted it. -/
def adopts (r : Slot) : Bool := decide (r.role = .survey) && r.adoptionPending

/-- What `verifiedReports` leaves of slot, entry, survey and carry records. -/
structure RoleReported (i : Fin 8) (x : Nat) (r : Slot) (c : Carrier) (s u : State) : Prop where
  slot : u.slot i = s.slot i
  entry : u.carrier x = some (adoptedOr (adopts r) i c)
  survey : r.role = .survey → ∀ q, s.sched.surveys[i] = some q →
    u.sched.surveys[i] = if adopts r then none else some { q with phase := .measuring }
  records : r.role = .carry ∨ adopts r = true → ∀ q ∈ u.router.records, q.carrier = x → q.slot = i ∧ q.phase = .live

theorem verifiedReports_leaves {i : Fin 8} {x : Nat} {r : Slot} {s : State} {c : Carrier} {carry : Bool}
    (hrole : r.role ≠ .none) (hc : s.carrier x = some c)
    (hhold : c.hold = some { slot := i, carry := carry, ending := false }) (hs : (s.slot i).state = .locked) :
    RoleReported i x r c s (verifiedReports i x r s) := by
  cases hr : r.role with
  | none => exact absurd hr hrole
  | carry =>
    have hstream := streamPresent_reports i x s
    have hnot : adopts r = false := by simp [adopts, hr]
    have hu : verifiedReports i x r s = streamPresent i x s := by simp only [verifiedReports, hr]
    rw [hu]
    refine ⟨hstream.slot i, ?_, fun h => absurd (hr.symm.trans h) (by decide), fun _ => ?_⟩
    · rw [hnot]
      exact (hstream.carrier x).trans hc
    · rw [hstream.records]
      exact setPhase_records
  | survey =>
    by_cases hadopt : r.adoptionPending = true
    · have hyes : adopts r = true := by simp [adopts, hr, hadopt]
      have htable := tableAdopted_reports hc hhold hs
      have hended := tells_endSurvey i .adopted (tableAdopted x s)
      have hstream := streamPresent_reports i x (endSurvey i .adopted (tableAdopted x s))
      have hu : verifiedReports i x r s = streamPresent i x (endSurvey i .adopted (tableAdopted x s)) := by
        simp only [verifiedReports, hr, hadopt, if_true]
      rw [hu]
      refine ⟨(hstream.slot i).trans ((hended.slot i).trans (htable.slot i)), ?_, fun _ q _ => ?_, fun _ => ?_⟩
      · rw [hyes]
        refine (hstream.carrier x).trans ((hended.carrier x).trans ((htable.carrier x).trans ?_))
        exact (carrier_putCarrier ..).trans (if_pos rfl)
      · rw [hyes]
        exact (congrArg (·[i]) hstream.surveys).trans (endSurvey_survey ..)
      · rw [hstream.records]
        exact setPhase_records
    · have hnot : adopts r = false := by simp [adopts, hadopt]
      have hrunning := tells_surveyRunning i s
      have hu : verifiedReports i x r s = surveyRunning i s := by
        simp only [verifiedReports, hr, hadopt, if_false, Bool.false_eq_true]
      rw [hu]
      refine ⟨hrunning.slot i, ?_, fun _ q hq => ?_, fun h => ?_⟩
      · rw [hnot]
        exact (hrunning.carrier x).trans hc
      · rw [hnot]
        exact surveyRunning_survey hq
      · exact h.elim (fun h => absurd (hr.symm.trans h) (by decide)) (fun h => absurd (hnot.symm.trans h) (by decide))

/-! ## Verification (R37, R38, R58, R59, R74) -/

/-- What the verification of slot `i`'s carrier `x` by report `rep` leaves of slot, entry, survey and carry records, where
`c` is the entry before. -/
structure Verifies (i : Fin 8) (x : Nat) (c : Carrier) (rep : VerifiedReport) (s u : State) : Prop where
  slot : Referred (verifiedSlot s.now (s.slot i)) (u.slot i)
  window : (u.slot i).meas = startWindow (s.slot i).meas ∨ u.reference.holder = some i
  entry : ∃ a, Relisted (storedEntry rep c) a ∧ u.carrier x = some (adoptedOr (adopts (s.slot i)) i (verifiedEntry a))
  survey : (s.slot i).role = .survey → ∀ q, s.sched.surveys[i] = some q →
    u.sched.surveys[i] = if adopts (s.slot i) then none else some { q with phase := .measuring }
  records : (s.slot i).role = .carry ∨ adopts (s.slot i) = true →
    ∀ q ∈ u.router.records, q.carrier = x → q.slot = i ∧ q.phase = .live

theorem verifiedSlot_state (now : Nat) (r : Slot) : (verifiedSlot now r).state = .locked := by
  unfold verifiedSlot
  dsimp only
  split <;> rfl

theorem verifiedSlot_meas (now : Nat) (r : Slot) : (verifiedSlot now r).meas = startWindow r.meas := by
  unfold verifiedSlot
  dsimp only
  split <;> rfl

theorem verifiedEntry_hold (c : Carrier) : (verifiedEntry c).hold = c.hold := by
  unfold verifiedEntry
  split <;> rfl

theorem Relisted.hold {b a : Carrier} (h : Relisted b a) : a.hold = b.hold := by
  obtain ⟨_, _, rfl⟩ := h
  rfl

theorem verifySlot_leaves {i : Fin 8} {x : Nat} {c : Carrier} {s : State} (rep : VerifiedReport)
    (hrole : (s.slot i).role ≠ .none) (h : ActivelyHolds s i x c) (hlaw : CarrierLaw s.carriers) :
    Verifies i x c rep s (verifySlot i rep s) := by
  obtain ⟨hx, hc, carry, hhold⟩ := h
  let s1 := changeSlot i (verifiedSlot s.now) s
  have hslot1 : s1.slot i = verifiedSlot s.now (s.slot i) := (changeSlot_alone ..).2
  have hcarriers1 : s1.carriers = s.carriers := changeSlot_carriers ..
  obtain ⟨t, a, hlisted, ha, htable⟩ :=
    tableVerified_leaves rep ((congrArg (tabGet · x) hcarriers1).trans hc) hhold (hcarriers1 ▸ hlaw)
  have hslot2 : (tableVerified x i rep s1).slot i = verifiedSlot s.now (s.slot i) := (htable.slot i).trans hslot1
  have hsurveys2 : (tableVerified x i rep s1).sched.surveys = s.sched.surveys :=
    htable.surveys.trans (changeSlot_surveys ..)
  have hreported := verifiedReports_leaves (r := s.slot i) hrole ((htable.carrier x).trans ha)
    ((verifiedEntry_hold a).trans (hlisted.hold.trans hhold)) (hslot2 ▸ verifiedSlot_state ..)
  have hjoin := refers_joinReference (verifiedReports i x (s.slot i) (tableVerified x i rep s1)) i
  have hslot := hjoin.slots i
  have hwindow := hjoin.windows i
  rw [hreported.slot, hslot2] at hslot hwindow
  rw [verifySlot_eq rep hx]
  refine ⟨hslot, hwindow.imp_left (·.trans (verifiedSlot_meas ..)), ⟨a, hlisted, ?_⟩, fun hs q hq => ?_, fun hr => ?_⟩
  · exact (congrArg (tabGet · x) hjoin.carriers).trans hreported.entry
  · exact (congrArg (·[i]) hjoin.surveys).trans (hreported.survey hs q ((congrArg (·[i]) hsurveys2).trans hq))
  · rw [hjoin.records]
    exact hreported.records hr

/-! ## The three ways to VERIFIED (R56 to R58) -/

theorem modChan_slot (i : Fin 8) (f : Channel → Channel) (s : State) :
    (modChan i f s).slot i = { s.slot i with chan := f (s.slot i).chan } := (slot_putSlot ..).trans (if_pos rfl)

theorem modChan_modChan (i : Fin 8) (f g : Channel → Channel) (s : State) :
    modChan i g (modChan i f s) = modChan i (fun c => g (f c)) s := by
  show putSlot i { (modChan i f s).slot i with chan := g ((modChan i f s).slot i).chan } (modChan i f s) = _
  rw [modChan_slot]
  show s.setSlots ((s.slots.set i _).set i _) = s.setSlots (s.slots.set i _)
  rw [Vector.set_set]

theorem modChan_id (i : Fin 8) (s : State) : modChan i (fun c => c) s = s := by
  show s.setSlots (s.slots.set i s.slots[i]) = s
  rw [Fin.getElem_fin, Vector.set_getElem_self]
  rfl

/-- The channel's own changes leave the verification as it is: it starts the channel afresh. -/
theorem verifyWith_leaves {i : Fin 8} {x : Nat} {c : Carrier} {s : State} {f : Channel → Channel} {id : Identity}
    {list : FormedList} (status : CarrierListStatus) (es : List ListEntry) (hheld : (f (s.slot i).chan).held = some id)
    (hformed : (f (s.slot i).chan).formed = some list) (hrole : (s.slot i).role ≠ .none) (h : ActivelyHolds s i x c)
    (hlaw : CarrierLaw s.carriers) :
    Verifies i x c { identity := id, list := list, status := status, entries := es } s
      (verifyWith i status es (modChan i f s)) := by
  have hslot := modChan_slot i f s
  have hcarrier : ((modChan i f s).slot i).carrier = (s.slot i).carrier := by rw [hslot]
  have hrole1 : ((modChan i f s).slot i).role ≠ .none := by rwa [hslot]
  have hverify : verifyWith i status es (modChan i f s) =
      verifySlot i { identity := id, list := list, status := status, entries := es } (modChan i f s) := by
    simp only [verifyWith, hslot, hheld, hformed]
  rw [hverify]
  obtain ⟨hself, hwindow, hentry, hsurvey, hrecords⟩ := verifySlot_leaves
    { identity := id, list := list, status := status, entries := es } hrole1 (h.congr hcarrier rfl) hlaw
  rw [hslot] at hself hwindow hentry hsurvey hrecords
  exact ⟨hself, hwindow, hentry, hsurvey, hrecords⟩

theorem discoveryEnabled_iff {s : State} {i : Fin 8} :
    discoveryEnabled s i = true ↔
      ∃ y, (s.slot i).input = some y ∧ (s.plan.committed.inputs[inputCode y]).discovery = true := by
  unfold discoveryEnabled
  split
  · next h => simp [h]
  · next y h => simp [h, Plan.inputCfg, State.committed]

theorem not_malformed {part last : Nat} (hp : part ≤ last) (hl : last ≤ 3) : ¬malformed part last = true := by
  rw [malformed, Bool.or_eq_true, decide_eq_true_iff, decide_eq_true_iff, maxLastPart]
  omega

/-- R50: a section that passed reaches the channel of a slot in ACQUIRING. -/
theorem exec_sectionReceived_acquiring {i : Fin 8} {s : State} {body : SectionBody} (hr : s.clock.inReset = false)
    (hwf : body.wf = true) (hs : (s.slot i).state = .acquiring) :
    exec (.sectionReceived i { passed := true, body := body }) s = .next (settle (takeBody i body s)) := by
  have htake : takeSection i { passed := true, body := body } s = takeBody i body s := if_pos ⟨rfl, .inl hs⟩
  rw [exec_sectionReceived hwf, ← htake]
  exact blockEvent_done hr (Bool.and_eq_true_iff.mpr ⟨rfl, usingLock_iff.mpr (.inl hs)⟩)

/-- R56: the part that completes the service list verifies the carrier where no carrier list is awaited. -/
theorem takeServices_verifies {i : Fin 8} {s : State} {part last : Nat} {ns : List Nat} {id : Identity}
    (hp : part ≤ last) (hl : last ≤ 3) (hheld : (s.slot i).chan.held = some id)
    (hall : assemblyComplete (takePart part last ns (s.slot i).chan.services) = true)
    (hunawaited : ¬(id.listAnnounced && discoveryEnabled s i) = true) :
    ∃ f, takeServices i part last ns s = verifyWith i .none [] (modChan i f s) ∧
      (f (s.slot i).chan).held = some id ∧
        (f (s.slot i).chan).formed = some (formServices id.origin (takePart part last ns (s.slot i).chan.services)) := by
  let a := takePart part last ns (s.slot i).chan.services
  let taken (c : Channel) : Channel := { c with services := a }
  let formed (c : Channel) : Channel := { c with formed := some (formServices id.origin a), timer := none }
  have hslot := modChan_slot i taken s
  have hdiscovery : discoveryEnabled (modChan i taken s) i = discoveryEnabled s i := by
    rw [discoveryEnabled, hslot]
    rfl
  refine ⟨fun c => formed (taken c), ?_, hheld, rfl⟩
  rw [← modChan_modChan]
  unfold takeServices
  simp only [not_malformed hp hl, if_false, hheld, hall, if_true, Bool.false_eq_true]
  rw [leaveSvcWait, hdiscovery, if_neg hunawaited]

/-- R57: the part that completes the carrier list verifies the carrier. -/
theorem takeEntries_verifies {i : Fin 8} {s : State} {part last : Nat} {es : List ListEntry} (hp : part ≤ last)
    (hl : last ≤ 3) (hall : assemblyComplete (takePart part last es (s.slot i).chan.listing) = true) :
    takeEntries i part last es s =
      verifyWith i (formEntries (takePart part last es (s.slot i).chan.listing)).2
        (formEntries (takePart part last es (s.slot i).chan.listing)).1
        (modChan i (fun c => { c with listing := takePart part last es (s.slot i).chan.listing }) s) := by
  simp [takeEntries, not_malformed hp hl, hall]

/-- The event `e` verifies the carrier of slot `i` by identity `id`, service list `list` and carrier-list status `status`
(R56 to R58). -/
def VerifiedBy (s : State) (i : Fin 8) (x : Nat) (c : Carrier) (e : Instr) (id : Identity) (list : FormedList)
    (status : CarrierListStatus) : Prop :=
  ∃ es u, exec e s = .next (settle u) ∧
    Verifies i x c { identity := id, list := list, status := status, entries := es } s u

section
variable {s : State} {i : Fin 8} {x : Nat} {c : Carrier} {id : Identity} {list : FormedList} {part last : Nat}

/-- R58: LIST_WAIT runs out. -/
theorem verifiedBy_listTimeout (hr : s.clock.inReset = false) (hlaw : CarrierLaw s.carriers)
    (hholds : ActivelyHolds s i x c) (hrole : (s.slot i).role ≠ .none) (hheld : (s.slot i).chan.held = some id)
    (hstage : (s.slot i).chan.stage = .listWait) (htimer : (s.slot i).chan.timer = some 0)
    (hformed : (s.slot i).chan.formed = some list) : VerifiedBy s i x c (.listTimeout i) id list .missed := by
  have hleaves := verifyWith_leaves (f := fun c => c) .missed [] hheld hformed hrole hholds hlaw
  rw [modChan_id] at hleaves
  exact ⟨_, _, (exec_listTimeout i s).trans (blockEvent_done hr (stageOver_iff.mpr ⟨hstage, htimer⟩)), hleaves⟩

/-- R56: the service list is complete and no carrier list is awaited. -/
theorem verifiedBy_serviceList {ns : List Nat} (hr : s.clock.inReset = false) (hlaw : CarrierLaw s.carriers)
    (hholds : ActivelyHolds s i x c) (hrole : (s.slot i).role ≠ .none) (hheld : (s.slot i).chan.held = some id)
    (hfits : ∀ n ∈ ns, n < 65536) (hs : (s.slot i).state = .acquiring) (hstage : (s.slot i).chan.stage = .svcWait)
    (hp : part ≤ last) (hl : last ≤ 3)
    (hall : assemblyComplete (takePart part last ns (s.slot i).chan.services) = true)
    (hunawaited : ¬(id.listAnnounced && discoveryEnabled s i) = true) :
    VerifiedBy s i x c (.sectionReceived i { passed := true, body := .serviceList part last ns }) id
      (formServices id.origin (takePart part last ns (s.slot i).chan.services)) .none := by
  have hwf : (SectionBody.serviceList part last ns).wf = true :=
    List.all_eq_true.mpr fun n hn => decide_eq_true (hfits n hn)
  have hbody : takeBody i (.serviceList part last ns) s = takeServices i part last ns s := by
    simp only [takeBody, hstage]
  obtain ⟨f, htake, hheldf, hformedf⟩ := takeServices_verifies hp hl hheld hall hunawaited
  refine ⟨[], _, exec_sectionReceived_acquiring hr hwf hs, ?_⟩
  rw [hbody, htake]
  exact verifyWith_leaves .none [] hheldf hformedf hrole hholds hlaw

/-- R57: the carrier list is complete. -/
theorem verifiedBy_carrierList {es : List ListEntry} (hr : s.clock.inReset = false) (hlaw : CarrierLaw s.carriers)
    (hholds : ActivelyHolds s i x c) (hrole : (s.slot i).role ≠ .none) (hheld : (s.slot i).chan.held = some id)
    (hcls : ∀ y ∈ es, y.cls ≠ some .disabled) (hs : (s.slot i).state = .acquiring)
    (hstage : (s.slot i).chan.stage = .listWait) (hp : part ≤ last) (hl : last ≤ 3)
    (hformed : (s.slot i).chan.formed = some list)
    (hall : assemblyComplete (takePart part last es (s.slot i).chan.listing) = true) :
    VerifiedBy s i x c (.sectionReceived i { passed := true, body := .carrierList part last es }) id list
      (formEntries (takePart part last es (s.slot i).chan.listing)).2 := by
  have hwf : (SectionBody.carrierList part last es).wf = true :=
    List.all_eq_true.mpr fun n hn => decide_eq_true (hcls n hn)
  have hbody : takeBody i (.carrierList part last es) s = takeEntries i part last es s := by
    simp only [takeBody, hstage]
  refine ⟨(formEntries (takePart part last es (s.slot i).chan.listing)).1, _,
    exec_sectionReceived_acquiring hr hwf hs, ?_⟩
  rw [hbody, takeEntries_verifies hp hl hall]
  exact verifyWith_leaves _ _ hheld hformed hrole hholds hlaw

end

theorem verifiedSlot_role {r : Slot} (hrole : r.role ≠ .none) (now : Nat) :
    (verifiedSlot now r).role = if adopts r = true ∨ r.role = .carry then .carry else .survey := by
  cases hr : r.role with
  | none => exact absurd hr hrole
  | carry => by_cases ha : r.adoptionPending <;> simp [verifiedSlot, ha, hr]
  | survey => by_cases ha : r.adoptionPending <;> simp [verifiedSlot, adopts, ha, hr]

theorem verifiedSlot_adoptionPending (now : Nat) (r : Slot) : (verifiedSlot now r).adoptionPending = false := by
  by_cases ha : r.adoptionPending <;> simp [verifiedSlot, ha]

theorem verifiedSlot_carrier (now : Nat) (r : Slot) : (verifiedSlot now r).carrier = r.carrier := by
  unfold verifiedSlot
  dsimp only
  split <;> rfl

theorem verifiedSlot_chan (now : Nat) (r : Slot) : (verifiedSlot now r).chan = { Channel.reset with windows := 0 } := by
  unfold verifiedSlot
  dsimp only
  split <;> rfl

/-- R74, R38: the fields of a verified entry, its slot's adoption included. -/
theorem Relisted.verified {id : Identity} {list : FormedList} {status : CarrierListStatus} {es : List ListEntry}
    {c a : Carrier} {i : Fin 8} {carry : Bool}
    (h : Relisted (storedEntry { identity := id, list := list, status := status, entries := es } c) a)
    (hhold : c.hold = some { slot := i, carry := carry, ending := false }) (adopted : Bool) :
    let d := adoptedOr adopted i (verifiedEntry a)
    d.observed = some id ∧ d.services = list.keys ∧ d.listStatus = .valid ∧ d.listTruncated = list.truncated ∧
      d.carrierList = status ∧ d.state = (if c.state = .acquiring then .verified else c.state) ∧
        (c.state = .acquiring → d.failCount = 0 ∧ d.failCause = none ∧ d.stateBefore = none) ∧
          d.meas = c.meas ∧ d.history = c.history ∧ d.nextDue = c.nextDue ∧ d.profile = c.profile ∧
            ∀ h, c.hold = some h → d.hold = some { h with carry := h.carry || adopted } := by
  obtain ⟨_, _, rfl⟩ := h
  by_cases hs : c.state = .acquiring
  · cases adopted <;> simp [adoptedOr, verifiedEntry, storedEntry, hs, hhold]
  · cases adopted <;> simp [adoptedOr, verifiedEntry, storedEntry, hs, hhold]

/-- Settles O43: each of the three ways (`verifiedBy_listTimeout`, `verifiedBy_serviceList`, `verifiedBy_carrierList`)
leaves what `Verifies` says. -/
theorem verificationLocksTheSlot : Obligations.VerificationLocksTheSlot := by
  unfold Obligations.VerificationLocksTheSlot
  intro s i e x c id list status hr hlaw hholds r awaited hheld hrole hway adopted
  have hverified : VerifiedBy s i x c e id list status := by
    obtain ⟨rfl, hstage, htimer, hformed, rfl⟩ | ⟨part, last, ns, rfl, hfits, hs, hstage, hp, hl, hall, rfl, hun, rfl⟩ |
      ⟨part, last, es, rfl, hcls, hs, hstage, hp, hl, hformed, hall, rfl⟩ := hway
    · exact verifiedBy_listTimeout hr hlaw hholds hrole hheld hstage htimer hformed
    · refine verifiedBy_serviceList hr hlaw hholds hrole hheld hfits hs hstage hp hl hall fun h => hun ?_
      exact (Bool.and_eq_true_iff.mp h).imp_right discoveryEnabled_iff.mp
    · exact verifiedBy_carrierList hr hlaw hholds hrole hheld hcls hs hstage hp hl hformed hall
  obtain ⟨es, u, hexec, hslot, hwindow, ⟨a, hlisted, hentry⟩, hsurvey, hrecords⟩ := hverified
  refine ⟨u, _, hexec, ?slot, ⟨hentry, ?entry⟩, fun q hs => hsurvey hs q, hrecords⟩
  case slot =>
    have hchan := verifiedSlot_chan s.now r
    obtain ⟨st, m, hself, -⟩ := hslot
    rw [hself] at hwindow ⊢
    dsimp only
    rw [hchan]
    exact ⟨verifiedSlot_state .., (verifiedSlot_carrier ..).trans hholds.1, verifiedSlot_adoptionPending .., rfl, rfl, rfl,
      rfl, hwindow.imp_left fun h => congrArg MeasUnit.active h, verifiedSlot_role hrole _⟩
  case entry =>
    obtain ⟨-, -, carry, hhold⟩ := hholds
    exact hlisted.verified hhold _

end Sys2Proof.Machine

/-! The family "Carrier acquisition": the part assemblies and the lists they form (R54, R55, R57), the sections each
stage takes (R50 to R57), the identity re-check (R66 to R69), and discovery with its pruning (R62 to R65). -/

namespace Sys2Proof.Machine

/-! ## Part assemblies (R54) -/

section
variable {α : Type} {part last : Nat} {xs : List α} {a : Assembly α}

theorem takePart_known (h : a.last = some last) (hp : ∃ p ∈ a.parts, p.1 = part) : takePart part last xs a = a := by
  have hany : (a.parts.any fun p => decide (p.1 = part)) = true := by simpa using hp
  rw [takePart, if_pos h, if_pos hany]

theorem takePart_new (h : a.last = some last) (hp : ∀ p ∈ a.parts, p.1 ≠ part) :
    takePart part last xs a = { last := some last, parts := a.parts ++ [(part, xs)] } := by
  have hany : ¬(a.parts.any fun p => decide (p.1 = part)) = true := fun hany =>
    have ⟨p, hmem, hpart⟩ := List.any_eq_true.mp hany
    hp p hmem (of_decide_eq_true hpart)
  rw [takePart, if_pos h, if_neg hany, ← h]

theorem takePart_anew (h : a.last ≠ some last) :
    takePart part last xs a = { last := some last, parts := [(part, xs)] } := if_neg h

theorem assemblyComplete_iff :
    assemblyComplete a = true ↔ ∃ l, a.last = some l ∧ ∀ n, n ≤ l → ∃ p ∈ a.parts, p.1 = n := by
  unfold assemblyComplete
  split
  · next h => simp [h]
  · next l h => simp [h]

/-- The content stored for part `n`, empty where the part has not come. -/
def storedPart (a : Assembly α) (n : Nat) : List α :=
  ((a.parts.find? fun p => decide (p.1 = n)).map Prod.snd).getD []

theorem assembled_eq (a : Assembly α) :
    assembled a = storedPart a 0 ++ storedPart a 1 ++ storedPart a 2 ++ storedPart a 3 := by
  have hparts : assembled a = (List.range (maxLastPart + 1)).flatMap (storedPart a) := by
    unfold assembled
    congr 1
    funext n
    unfold storedPart
    cases a.parts.find? fun p => decide (p.1 = n) <;> rfl
  rw [hparts, show List.range (maxLastPart + 1) = [0, 1, 2, 3] from rfl]
  simp only [List.flatMap_cons, List.flatMap_nil, List.append_nil, List.append_assoc]

end

/-! ## The lists formed (R55, R57) -/

/-- R55: keeping first occurrences one by one is the library's removal of duplicates. -/
theorem distinct_eq_eraseDups {α : Type} [DecidableEq α] (l : List α) : distinct l = l.eraseDups := by
  induction l using List.reverseRecOn with
  | nil => rfl
  | append_singleton l x ih =>
    have hlast : distinct (l ++ [x]) = if x ∈ distinct l then distinct l else distinct l ++ [x] := List.foldl_concat ..
    rw [hlast, ih, List.eraseDups_append]
    by_cases hx : x ∈ l
    · simp [hx, List.removeAll]
    · simp [hx, List.removeAll, List.eraseDups_cons]

/-- `kept` holds the first entry of each frequency of `all`, in their order (R57 step 2). -/
structure FirstOfEach (kept all : List ListEntry) : Prop where
  sublist : kept.Sublist all
  nodup : (kept.map (·.freq)).Nodup
  first : ∀ e ∈ kept, (all.find? fun x => decide (x.freq = e.freq)) = some e
  covers : ∀ e ∈ all, ∃ x ∈ kept, x.freq = e.freq

/-- A later entry of a frequency already kept is dropped. -/
theorem FirstOfEach.repeated {kept all : List ListEntry} (h : FirstOfEach kept all) {e : ListEntry}
    (he : ∃ x ∈ kept, x.freq = e.freq) : FirstOfEach kept (all ++ [e]) := by
  refine ⟨h.sublist.trans (List.sublist_append_left ..), h.nodup, fun x hx => ?_, fun y hy => ?_⟩
  · rw [List.find?_append, h.first x hx, Option.some_or]
  · obtain hy | hy := List.mem_append.mp hy
    · exact h.covers y hy
    · rwa [List.mem_singleton.mp hy]

/-- The first entry of a frequency is kept. -/
theorem FirstOfEach.concat {kept all : List ListEntry} (h : FirstOfEach kept all) {e : ListEntry}
    (he : ∀ x ∈ kept, x.freq ≠ e.freq) : FirstOfEach (kept ++ [e]) (all ++ [e]) := by
  have hfresh : (all.find? fun x => decide (x.freq = e.freq)) = none := by
    refine List.find?_eq_none.mpr fun y hy hfreq => ?_
    obtain ⟨x, hx, hxy⟩ := h.covers y hy
    exact he x hx (hxy.trans (of_decide_eq_true hfreq))
  refine ⟨h.sublist.append (.refl _), ?_, fun x hx => ?_, fun y hy => ?_⟩
  · rw [List.map_append, List.map_singleton, List.nodup_append_comm, List.singleton_append, List.nodup_cons,
      List.mem_map]
    exact ⟨fun ⟨x, hx, hxe⟩ => he x hx hxe, h.nodup⟩
  · obtain hx | hx := List.mem_append.mp hx
    · rw [List.find?_append, h.first x hx, Option.some_or]
    · rw [List.mem_singleton.mp hx, List.find?_append, hfresh]
      simp
  · obtain hy | hy := List.mem_append.mp hy
    · obtain ⟨x, hx, hxy⟩ := h.covers y hy
      exact ⟨x, List.mem_append_left _ hx, hxy⟩
    · exact ⟨e, by simp, by rw [List.mem_singleton.mp hy]⟩

theorem firstOfEach_distinctEntries (l : List ListEntry) : FirstOfEach (distinctEntries l) l := by
  induction l using List.reverseRecOn with
  | nil => exact ⟨.slnil, .nil, nofun, nofun⟩
  | append_singleton l e ih =>
    have hlast : distinctEntries (l ++ [e]) =
        if (distinctEntries l).any fun x => decide (x.freq = e.freq) then distinctEntries l
        else distinctEntries l ++ [e] := List.foldl_concat ..
    rw [hlast]
    split
    · next h => exact ih.repeated (by simpa using h)
    · next h => exact ih.concat (by simpa using h)

/-- Settles O42: `takePart` by what the assembly holds, `assemblyComplete_iff`, and the two lists formed of the stored
parts. -/
theorem assembliesFormLists : Obligations.AssembliesFormLists := by
  unfold Obligations.AssembliesFormLists
  refine ⟨fun part last ns a => ⟨takePart_known, takePart_new, takePart_anew, assemblyComplete_iff⟩,
    fun origin a => ?services, fun a => ⟨distinctEntries (assembled a), rfl, ?entries⟩⟩
  case services =>
    unfold formServices
    rw [distinct_eq_eraseDups, assembled_eq]
    rfl
  case entries =>
    obtain ⟨hsub, hnodup, hfirst, hcovers⟩ := firstOfEach_distinctEntries (assembled a)
    rw [assembled_eq] at hsub hnodup hfirst hcovers ⊢
    exact ⟨hsub, hnodup, hfirst, hcovers⟩

/-! ## Sections by stage (R50 to R57) -/

/-- R50: a section that passed reaches the channel of a slot in ACQUIRING or LOCKED. -/
theorem exec_sectionReceived_taken {i : Fin 8} {s : State} {body : SectionBody} (hr : s.clock.inReset = false)
    (hwf : body.wf = true) (hs : (s.slot i).state = .acquiring ∨ (s.slot i).state = .locked) :
    exec (.sectionReceived i { passed := true, body := body }) s = .next (settle (takeBody i body s)) := by
  have htake : takeSection i { passed := true, body := body } s = takeBody i body s := if_pos ⟨rfl, hs⟩
  rw [exec_sectionReceived hwf, ← htake]
  exact blockEvent_done hr (Bool.and_eq_true_iff.mpr ⟨rfl, usingLock_iff.mpr hs⟩)

/-- R50: a section that failed its check, and one that reaches a slot in another state, has no effect. -/
theorem exec_sectionReceived_idle {i : Fin 8} {s : State} {sec : Section} (hwf : sec.body.wf = true)
    (h : ¬(sec.passed = true ∧ ((s.slot i).state = .acquiring ∨ (s.slot i).state = .locked))) :
    exec (.sectionReceived i sec) s = .next s := by
  rw [exec_sectionReceived hwf]
  refine blockEvent_idle ?_
  rw [← Bool.not_eq_true, Bool.and_eq_true, usingLock_iff]
  exact h

theorem malformed_iff {part last : Nat} : malformed part last = true ↔ 3 < last ∨ last < part := by
  rw [malformed, Bool.or_eq_true, decide_eq_true_iff, decide_eq_true_iff, maxLastPart]

/-- R50: the stage does not await the section's kind, or its part numbers are malformed. -/
def Unawaited (st : Stage) : SectionBody → Prop
  | .identity _ => st ≠ .idWait ∧ st ≠ .recheckId
  | .serviceList part last _ => (st ≠ .svcWait ∧ st ≠ .recheckSvc) ∨ 3 < last ∨ last < part
  | .carrierList part last _ => st ≠ .listWait ∨ 3 < last ∨ last < part

section
variable {i : Fin 8} {s : State}

theorem takeBody_unawaited {body : SectionBody} (h : Unawaited (s.slot i).chan.stage body) : takeBody i body s = s := by
  unfold takeBody
  split
  · next hstage => exact absurd hstage h.1
  · next hstage => exact if_pos (malformed_iff.mpr (h.resolve_left fun hne => hne.1 hstage))
  · next hstage => exact if_pos (malformed_iff.mpr (h.resolve_left fun hne => hne hstage))
  · next hstage => exact absurd hstage h.2
  · next hstage => exact if_pos (malformed_iff.mpr (h.resolve_left fun hne => hne.2 hstage))
  · rfl

/-- R53: in ID_WAIT an identity that fits is held and SVC_WAIT starts. -/
theorem takeBody_identity {id : Identity} (hstage : (s.slot i).chan.stage = .idWait)
    (hfits : identityFits (expectedOf s i) id = true) :
    takeBody i (.identity id) s = modChan i (fun c => { enterStage .svcWait svcWaitMs c with held := some id }) s := by
  simp only [takeBody, hstage, takeIdentity, hfits, if_true]

theorem identityFits_iff {expected : Option ExpectedId} {id : Identity} :
    identityFits expected id = true ↔
      ∀ want, expected = some want → want.origin = id.origin ∧ want.transport = id.transport := by
  cases expected <;> simp [identityFits]

section
variable {part last : Nat} (hp : part ≤ last) (hl : last ≤ 3)
include hp hl

/-- R54: a part that leaves the service list incomplete joins the assembly, in SVC_WAIT and in RECHECK_SVC. -/
theorem takeBody_serviceList_partial {ns : List Nat}
    (hstage : (s.slot i).chan.stage = .svcWait ∨ (s.slot i).chan.stage = .recheckSvc)
    (hpart : assemblyComplete (takePart part last ns (s.slot i).chan.services) = false) :
    takeBody i (.serviceList part last ns) s =
      modChan i (fun c => { c with services := takePart part last ns (s.slot i).chan.services }) s := by
  obtain hstage | hstage := hstage
  · simp only [takeBody, hstage, takeServices, not_malformed hp hl, hpart, Bool.false_eq_true, if_false]
    split <;> rfl
  · simp only [takeBody, hstage, recheckServices, not_malformed hp hl, hpart, Bool.false_eq_true, if_false]
    split <;> rfl

/-- R57: a part that leaves the carrier list incomplete joins the assembly. -/
theorem takeBody_carrierList_partial {es : List ListEntry} (hstage : (s.slot i).chan.stage = .listWait)
    (hpart : assemblyComplete (takePart part last es (s.slot i).chan.listing) = false) :
    takeBody i (.carrierList part last es) s =
      modChan i (fun c => { c with listing := takePart part last es (s.slot i).chan.listing }) s := by
  simp only [takeBody, hstage, takeEntries, not_malformed hp hl, hpart, Bool.false_eq_true, if_false]

/-- R56: with the service list complete and a carrier list awaited LIST_WAIT starts. -/
theorem takeBody_serviceList_awaits {ns : List Nat} {id : Identity} (hstage : (s.slot i).chan.stage = .svcWait)
    (hheld : (s.slot i).chan.held = some id) (hannounced : id.listAnnounced = true)
    (hdiscovery : discoveryEnabled s i = true)
    (hall : assemblyComplete (takePart part last ns (s.slot i).chan.services) = true) :
    takeBody i (.serviceList part last ns) s =
      modChan i (fun c =>
        { enterStage .listWait listWaitMs c with
          services := takePart part last ns (s.slot i).chan.services,
          formed := some (formServices id.origin (takePart part last ns (s.slot i).chan.services)) }) s := by
  have hinput (f : Channel → Channel) : discoveryEnabled (modChan i f s) i = true := by
    rw [← hdiscovery, discoveryEnabled, modChan_slot]
    rfl
  simp only [takeBody, hstage, takeServices, not_malformed hp hl, Bool.false_eq_true, if_false, hheld, hall, if_true,
    leaveSvcWait, hannounced, hinput, Bool.and_self, modChan_modChan]
  rfl

end

end

/-- Settles O41: a section has no effect outside ACQUIRING and LOCKED, and there it does what `takeBody` says for the
present stage. -/
theorem sectionsTakenByTheStage : Obligations.SectionsTakenByTheStage := by
  unfold Obligations.SectionsTakenByTheStage
  intro s i body hr hwf r taken channel
  have htaken (hs : r.state = .acquiring ∨ r.state = .locked) {t : State} (h : takeBody i body s = t) :
      taken (settle t) := h ▸ exec_sectionReceived_taken hr hwf hs
  refine ⟨exec_sectionReceived_idle hwf fun h => Bool.false_ne_true h.1,
    fun h1 h2 => exec_sectionReceived_idle hwf fun h => h.2.elim h1 h2,
    fun hs => ⟨fun h => ?discarded, ?identity, ?services, ?awaits, ?entries⟩⟩
  case discarded =>
    refine htaken hs (takeBody_unawaited ?_)
    cases body <;> exact h
  case identity =>
    rintro id x c rfl hstage hx hc hfits
    exact htaken hs (takeBody_identity hstage (expectedOf_eq hx hc ▸ identityFits_iff.mpr hfits))
  case services =>
    rintro part last ns rfl hp hl hstage a hpart
    exact htaken hs (takeBody_serviceList_partial hp hl hstage hpart)
  case awaits =>
    rintro part last ns id y rfl hp hl hstage hheld hannounced hy hdiscovery a hall
    have henabled : discoveryEnabled s i = true := discoveryEnabled_iff.mpr ⟨y, hy, hdiscovery⟩
    exact htaken hs (takeBody_serviceList_awaits hp hl hstage hheld hannounced henabled hall)
  case entries =>
    rintro part last es rfl hp hl hstage a hpart
    exact htaken hs (takeBody_carrierList_partial hp hl hstage hpart)

/-! ## The identity re-check (R66 to R69) -/

theorem recheckWaits_iff {i : Fin 8} {s : State} :
    recheckWaits i s = true ↔ (s.slot i).state = .locked ∧ (s.slot i).chan.recheckDue = true := by
  rw [recheckWaits, Bool.and_eq_true, decide_eq_true_iff]

theorem whileRunning_running {f : State → State} {s : State} (hr : s.clock.inReset = false) :
    whileRunning f s = .next (f s) := by
  simp [whileRunning, hr]

theorem observedOf_eq {s : State} {i : Fin 8} {x : Nat} {c : Carrier} (hx : (s.slot i).carrier = some x)
    (hc : s.carrier x = some c) : observedOf s i = c.observed := by
  simp [observedOf, hx, hc]

theorem observedFits_iff {observed : Option Identity} {id : Identity} :
    observedFits observed id = true ↔
      ∃ o, observed = some o ∧ o.origin = id.origin ∧ o.transport = id.transport := by
  cases observed <;> simp [observedFits]

/-- `u` is `s` but for the channel of slot `i` and the entry of its carrier `x`: what a step of a re-check changes. -/
structure Rechecked (i : Fin 8) (x : Nat) (chan : Channel) (d : Carrier) (s u : State) : Prop where
  slot : u.slot i = { s.slot i with chan := chan }
  others : ∀ j, j ≠ i → u.slot j = s.slot j
  entry : u.carrier x = some d
  entries : ∀ y, y ≠ x → u.carrier y = s.carrier y

section
variable {i : Fin 8} {x : Nat} {c : Carrier} {s : State}

theorem rechecked_modChan (f : Channel → Channel) (h : ActivelyHolds s i x c) :
    Rechecked i x (f (s.slot i).chan) c s (modChan i f s) :=
  ⟨modChan_slot .., fun _ hj => (modSlot_slot ..).trans (if_neg hj), h.2.1, fun _ _ => rfl⟩

/-- R73: with the channel a report under the ACTIVE hold changes the entry, and nothing else. -/
theorem rechecked_tableReport (f : Channel → Channel) (g : Carrier → Carrier) (h : ActivelyHolds s i x c) :
    Rechecked i x (f (s.slot i).chan) (g c) s (tableReport x i g (modChan i f s)) := by
  obtain ⟨hslot, hothers, -, -⟩ := rechecked_modChan f h
  have hheld : ActivelyHolds (modChan i f s) i x c := h.congr (by rw [hslot]) rfl
  have htable := tableReport_reports g hheld
  refine ⟨(htable.slot i).trans hslot, fun j hj => (htable.slot j).trans (hothers j hj), ?_, fun y hy => ?_⟩
  · exact (htable.carrier x).trans ((carrier_putCarrier ..).trans (if_pos rfl))
  · exact (htable.carrier y).trans ((carrier_putCarrier ..).trans (if_neg hy))

/-- R67, R68: the channel that reads the services again under identity `id`. -/
def rereadChannel (id : Identity) (c : Channel) : Channel :=
  { enterStage .recheckSvc svcWaitMs c with held := some id }

/-- R66, R69: the channel when the same identity has come: the re-check ends, unless the list is still to be read
again. -/
def sameIdentityChannel (list : ListStatus) (id : Identity) (c : Channel) : Channel :=
  if list = .pending then rereadChannel id c else Channel.reset

/-- R66: the same identity is stored in the entry, where its fields differ, and ends the re-check or goes on to the
services. -/
theorem rechecked_sameIdentity (id : Identity) (h : ActivelyHolds s i x c) :
    Rechecked i x (sameIdentityChannel c.listStatus id (s.slot i).chan) { c with observed := some id } s
      (sameIdentity i x id s) := by
  have ⟨hx, hc, _⟩ := h
  have hchan : (if listPending s x then rereadServices i id s else endRecheck i s) =
      modChan i (sameIdentityChannel c.listStatus id) s := by
    unfold sameIdentityChannel
    by_cases hpending : c.listStatus = .pending
    · rw [listPending_eq hc, if_pos (decide_eq_true hpending)]
      simp only [if_pos hpending]
      rfl
    · rw [listPending_eq hc, if_neg (by simpa using hpending)]
      simp only [if_neg hpending]
      rfl
  unfold sameIdentity
  rw [hchan, observedOf_eq hx hc]
  split
  · next hsame =>
    have hstored : { c with observed := some id } = c := by rw [← hsame]
    rw [hstored]
    exact rechecked_modChan _ h
  · exact rechecked_tableReport _ (fun c => { c with observed := some id }) h

/-- R67: the entry of an identity that has changed: the list PENDING, but for one that is ABSENT (R85). -/
def identityChangedEntry (id : Identity) (c : Carrier) : Carrier :=
  { c with observed := some id, listStatus := if c.listStatus = .absent then .absent else .pending }

/-- R67: another identity is stored, and the services are read again. -/
theorem rechecked_identityChanged (id : Identity) (h : ActivelyHolds s i x c) :
    Rechecked i x (rereadChannel id (s.slot i).chan) (identityChangedEntry id c) s (identityChanged i x id s) :=
  rechecked_tableReport (rereadChannel id) (identityChangedEntry id) h

/-- R68: the entry whose list has been read again; one that is ABSENT stays so (R85). -/
def rereadEntry (l : FormedList) (c : Carrier) : Carrier :=
  if c.listStatus = .absent then c
  else { c with services := l.keys, listStatus := .valid, listTruncated := l.truncated }

/-- R68: the list read again is stored, and the channel starts afresh. -/
theorem rechecked_tableReread (l : FormedList) (h : ActivelyHolds s i x c) :
    Rechecked i x Channel.reset (rereadEntry l c) s (tableReread x i l (modChan i (fun _ => Channel.reset) s)) :=
  rechecked_tableReport (fun _ => Channel.reset) (rereadEntry l) h

section
variable {id : Identity} (hstage : (s.slot i).chan.stage = .recheckId) (h : ActivelyHolds s i x c)
include hstage h

/-- R66: with an expected identity that fits, or none and the observed ids, the outcome is the same identity. -/
theorem takeBody_sameIdentity
    (hsame : (∃ w, c.expected = some w ∧ w.origin = id.origin ∧ w.transport = id.transport) ∨
      (c.expected = none ∧ ∃ o, c.observed = some o ∧ o.origin = id.origin ∧ o.transport = id.transport)) :
    takeBody i (.identity id) s = sameIdentity i x id s := by
  obtain ⟨hx, hc, -⟩ := h
  simp only [takeBody, hstage, recheckIdentity, hx, expectedOf_eq hx hc, observedOf_eq hx hc]
  obtain ⟨w, hw, hids⟩ | ⟨hnone, hobserved⟩ := hsame
  · have hfits : identityFits (some w) id = true := identityFits_iff.mpr fun _ hv => Option.some.inj hv ▸ hids
    simp only [hw, hfits, if_true]
  · simp only [hnone, observedFits_iff.mpr hobserved, if_true]

/-- R67: with no expected identity, ids that differ from those observed are the outcome ID_CHANGED. -/
theorem takeBody_identityChanged (hnone : c.expected = none)
    (hdiffer : ¬∃ o, c.observed = some o ∧ o.origin = id.origin ∧ o.transport = id.transport) :
    takeBody i (.identity id) s = identityChanged i x id s := by
  obtain ⟨hx, hc, -⟩ := h
  have hobserved : ¬observedFits c.observed id = true := mt observedFits_iff.mp hdiffer
  simp only [takeBody, hstage, recheckIdentity, hx, expectedOf_eq hx hc, observedOf_eq hx hc, hnone, hobserved, if_false,
    Bool.false_eq_true]

end

/-- R68: the complete list replaces the old one, and the re-check ends. -/
theorem takeBody_reread {part last : Nat} {ns : List Nat} {id : Identity} (hp : part ≤ last) (hl : last ≤ 3)
    (hstage : (s.slot i).chan.stage = .recheckSvc) (hheld : (s.slot i).chan.held = some id)
    (hx : (s.slot i).carrier = some x)
    (hall : assemblyComplete (takePart part last ns (s.slot i).chan.services) = true) :
    takeBody i (.serviceList part last ns) s =
      tableReread x i (formServices id.origin (takePart part last ns (s.slot i).chan.services))
        (modChan i (fun _ => Channel.reset) s) := by
  simp only [takeBody, hstage, recheckServices, not_malformed hp hl, Bool.false_eq_true, if_false, hheld, hx, hall,
    if_true, endRecheck, modChan_modChan]

end

/-- Settles O45: the outcomes of the re-check are reports on the entry beside a change of the channel
(`rechecked_tableReport`). -/
theorem identityRecheck : Obligations.IdentityRecheck := by
  unfold Obligations.IdentityRecheck
  intro s i hr r ends quiet
  have hends {body : SectionBody} {x : Nat} {d : Carrier} {chan : Channel} {u : State} (hs : r.state = .locked)
      (hwf : body.wf = true) (htake : takeBody i body s = u) (h : Rechecked i x chan d s u) : ends body x d chan :=
    ⟨u, htake ▸ exec_sectionReceived_taken hr hwf (.inr hs), h.slot, h.others, h.entry, h.entries⟩
  rw [exec_recheckStart, whileRunning_running hr]
  refine ⟨fun hs hdue => ?starts, fun hnot => ?idle,
    fun x c hs hheld => ⟨fun id horigin htransport hstage => ?identity, ?reread⟩⟩
  case starts =>
    rw [if_pos (recheckWaits_iff.mpr ⟨hs, hdue⟩)]
    rfl
  case idle => rw [if_neg (mt recheckWaits_iff.mp hnot)]
  case identity =>
    have hwf : (SectionBody.identity id).wf = true := by simp [SectionBody.wf, fitsWord, horigin, htransport]
    refine ⟨fun hsame => ?same, fun hnone hdiffer => ?changed⟩
    case same => exact hends hs hwf (takeBody_sameIdentity hstage hheld hsame) (rechecked_sameIdentity id hheld)
    case changed =>
      exact hends hs hwf (takeBody_identityChanged hstage hheld hnone hdiffer) (rechecked_identityChanged id hheld)
  case reread =>
    intro part last ns id hfits hp hl hstage hid a l hall
    have hwf : (SectionBody.serviceList part last ns).wf = true :=
      List.all_eq_true.mpr fun n hn => decide_eq_true (hfits n hn)
    exact hends hs hwf (takeBody_reread hp hl hstage hid hheld.1 hall) (rechecked_tableReread _ hheld)

/-! ## The places of a table (R71) -/

theorem tabGet_eq_none_iff {α : Type} {t : Table α} {i : Nat} : tabGet t i = none ↔ i ∉ tabKeys t := by
  induction t with
  | nil => simp [tabGet, tabKeys]
  | cons e t ih =>
    by_cases h : i = e.1
    · simp [tabGet, tabKeys, h]
    · simpa [tabGet, tabKeys, h] using ih

/-- R71: the lowest free place is the one below which every place is taken. -/
theorem tabFree_eq {α : Type} {t : Table α} {k : Nat} (hs : (tabKeys t).Pairwise (· < ·)) (hk : tabGet t k = none)
    (hlow : ∀ j, j < k → tabGet t j ≠ none) : tabFree t = k := by
  obtain ⟨-, hfree, htaken⟩ := tabFree_spec hs
  have hge : ¬tabFree t < k := fun h => hlow _ h (tabGet_eq_none_iff.mpr hfree)
  have hle : ¬k < tabFree t := fun h => tabGet_eq_none_iff.mp hk (htaken k h)
  omega

theorem le_tabFree {α : Type} {t : Table α} {n : Nat} (hs : (tabKeys t).Pairwise (· < ·))
    (h : ∀ k, k < n → tabGet t k ≠ none) : n ≤ tabFree t := by
  obtain ⟨-, hfree, -⟩ := tabFree_spec hs
  by_contra hlt
  exact h _ (Nat.lt_of_not_le hlt) (tabGet_eq_none_iff.mpr hfree)

theorem tabGet_tabDel {α : Type} {t : Table α} (hs : (tabKeys t).Pairwise (· < ·)) (i : Nat) :
    tabGet (tabDel t i) i = none := by
  induction t with
  | nil => rfl
  | cons e t ih =>
    obtain ⟨hfirst, hrest⟩ := List.pairwise_cons.mp hs
    by_cases h : i = e.1
    · have hnot : i ∉ tabKeys t := fun hmem => Nat.lt_irrefl i (by simpa [← h] using hfirst i hmem)
      simpa only [tabDel, if_pos h] using tabGet_eq_none_iff.mpr hnot
    · simpa only [tabDel, if_neg h, tabGet] using ih hrest

/-- R71: keys are unique, so that an entry's key finds its place. -/
theorem carrierIndex_of_tabGet {t : Table Carrier} {i : Nat} {c : Carrier} (ht : CarrierLaw t)
    (hc : tabGet t i = some c) : carrierIndex t c.input c.freq = some i := by
  have hmem := mem_of_tabGet hc
  unfold carrierIndex
  split
  · next e he =>
    have hkey : e.2.input = c.input ∧ e.2.freq = c.freq := by simpa using List.find?_some he
    by_contra hne
    have hapart := pairwise_mem (fun _ _ h => h.imp Ne.symm Ne.symm) ht.2 (List.mem_of_find?_eq_some he) hmem
      fun h => hne (congrArg (fun e => some e.1) h)
    exact hapart.elim (· hkey.1) (· hkey.2)
  · next hnone => exact absurd (List.find?_eq_none.mp hnone _ hmem) (by simp)

theorem carrierIndex_absent {t : Table Carrier} {input : RfInput} {freq : Nat}
    (h : ∀ q ∈ t, ¬(q.2.input = input ∧ q.2.freq = freq)) : carrierIndex t input freq = none := by
  unfold carrierIndex
  split
  · next e he => exact absurd (by simpa using List.find?_some he) (h e (List.mem_of_find?_eq_some he))
  · rfl

/-! ## Discovery of one entry (R63) -/

/-- R63 step 4: the profile found has the hinted modulation, and no profile before it has. -/
theorem profileFor_eq_some_iff {p : Plan} {hint : Option Modulation} {n : Fin 8} :
    profileFor p hint = some n ↔
      (∃ m, hint = some m ∧ (p.profiles[n]).modulation = m) ∧
        ∀ j : Fin 8, j < n → hint ≠ some (p.profiles[j]).modulation := by
  cases hint with
  | none => simp [profileFor]
  | some m =>
    rw [profileFor, List.find?_eq_some_iff_getElem]
    constructor
    · rintro ⟨hn, k, hk, rfl, hbefore⟩
      refine ⟨⟨m, rfl, of_decide_eq_true hn⟩, fun j hj heq => ?_⟩
      have hnot := hbefore j (Fin.lt_def.mp (by simpa using hj))
      simp [Plan.profile, Option.some.inj heq] at hnot
    · rintro ⟨⟨_, hm, hn⟩, hbefore⟩
      refine ⟨decide_eq_true (hn.trans (Option.some.inj hm).symm), n, by simp, by simp, fun j hj => ?_⟩
      have hnot := hbefore ⟨j, hj.trans n.isLt⟩ hj
      rw [Bool.not_eq_true', decide_eq_false_iff_not, List.getElem_finRange]
      exact fun hsame => hnot (congrArg some hsame.symm)

theorem profileFor_eq_none {p : Plan} {hint : Option Modulation}
    (h : ∀ n : Fin 8, ¬((∃ m, hint = some m ∧ (p.profiles[n]).modulation = m) ∧
      ∀ j : Fin 8, j < n → hint ≠ some (p.profiles[j]).modulation)) : profileFor p hint = none :=
  Option.eq_none_iff_forall_ne_some.mpr fun n hn => h n (profileFor_eq_some_iff.mp hn)

/-- R63 steps 1 and 2: the entry is of the input's class and in its band. -/
def Matches (p : Plan) (input : RfInput) (e : ListEntry) : Prop :=
  (p.inputCfg input).cls ≠ .disabled ∧ e.cls = some (p.inputCfg input).cls ∧
    inBand (p.inputCfg input).cls e.freq = true

/-- An entry counted as unmatched. -/
def countUnmatched (d : Discovery) : Discovery :=
  { d with counts := { d.counts with unmatched := d.counts.unmatched + 1 } }

section
variable {p : Plan} {now x : Nat} {input : RfInput} {d : Discovery} {e : ListEntry}

theorem discoverOne_unmatched (h : ¬Matches p input e) : discoverOne p now x input d e = countUnmatched d := by
  refine if_pos ?_
  by_contra hnone
  simp only [not_or, ne_eq, not_not, Bool.not_eq_false] at hnone
  exact h hnone

theorem not_unmatched (h : Matches p input e) :
    ¬((p.inputCfg input).cls = .disabled ∨ e.cls ≠ some (p.inputCfg input).cls ∨
      inBand (p.inputCfg input).cls e.freq = false) := by
  obtain ⟨hcls, hsame, hband⟩ := h
  simp [hcls, hsame, hband]

theorem discoverOne_known {i : Nat} {c : Carrier} (h : Matches p input e) (hc : tabGet d.table i = some c)
    (hi : carrierIndex d.table input e.freq = some i) :
    discoverOne p now x input d e =
      { d with
        counts := { d.counts with known := d.counts.known + 1 }, table := tabPut d.table i (knownEntry x c) } := by
  simp only [discoverOne, if_neg (not_unmatched h), hi, hc]

theorem discoverOne_noProfile (h : Matches p input e) (hi : carrierIndex d.table input e.freq = none)
    (hprof : profileFor p e.hint = none) : discoverOne p now x input d e = countUnmatched d := by
  simp only [discoverOne, if_neg (not_unmatched h), hi, hprof]
  rfl

theorem discoverOne_added {n : Fin 8} (h : Matches p input e) (hi : carrierIndex d.table input e.freq = none)
    (hprof : profileFor p e.hint = some n) (hfree : tabFree d.table < carrierPlaces) :
    discoverOne p now x input d e =
      { table := tabPut d.table (tabFree d.table) (discoveredEntry now input e n x),
        counts := { d.counts with added := d.counts.added + 1 }, added := d.added ++ [tabFree d.table] } := by
  simp only [discoverOne, if_neg (not_unmatched h), hi, hprof, if_pos hfree]

theorem discoverOne_full {n : Fin 8} (h : Matches p input e) (hi : carrierIndex d.table input e.freq = none)
    (hprof : profileFor p e.hint = some n) (hfull : carrierPlaces ≤ tabFree d.table) :
    discoverOne p now x input d e = { d with counts := { d.counts with notAdded := d.counts.notAdded + 1 } } := by
  simp only [discoverOne, if_neg (not_unmatched h), hi, hprof, if_neg (Nat.not_lt.mpr hfull)]

end

theorem knownEntry_eq (x : Nat) (c : Carrier) :
    knownEntry x c =
      if c.removalPending then c else { c with discovered := true, lister := some (c.lister.getD x) } := by
  unfold knownEntry
  cases c.lister <;> rfl

theorem clampNat_eq_max_min {lo hi : Nat} (h : lo ≤ hi) (x : Nat) : clampNat x lo hi = max lo (min hi x) := by
  unfold clampNat
  omega

/-! ## The four counts (R62) -/

/-- The entries counted so far. -/
def DiscoveryCounts.total (n : DiscoveryCounts) : Nat := n.added + n.known + n.unmatched + n.notAdded

theorem discoverOne_total (p : Plan) (now x : Nat) (input : RfInput) (d : Discovery) (e : ListEntry) :
    (discoverOne p now x input d e).counts.total = d.counts.total + 1 := by
  unfold discoverOne DiscoveryCounts.total
  dsimp only
  repeat' split
  all_goals dsimp only; omega

theorem foldl_discoverOne_total (p : Plan) (now x : Nat) (input : RfInput) (es : List ListEntry) (d : Discovery) :
    (es.foldl (discoverOne p now x input) d).counts.total = d.counts.total + es.length := by
  induction es generalizing d with
  | nil => rfl
  | cons e es ih => rw [List.foldl_cons, ih, discoverOne_total, List.length_cons, Nat.add_assoc, Nat.add_comm 1]

/-! ## Pruning by a lister (R64, R65) -/

/-- R64: `x` listed the entry, and its list of frequencies `freqs` no longer does. -/
def Omitted (x : Nat) (freqs : List Nat) (c : Carrier) : Prop :=
  c.lister = some x ∧ c.freq ∉ freqs ∧ c.discovered = true

theorem prunes_iff {x : Nat} {freqs : List Nat} {c : Carrier} :
    prunes x freqs c = true ↔ Omitted x freqs c ∧ c.planned = false ∧ c.hold = none := by
  simp [prunes, Omitted, and_assoc]

theorem unlist_omitted {x : Nat} {freqs : List Nat} {c : Carrier} (h : Omitted x freqs c) (hp : c.planned = true) :
    unlist x freqs c = { c with discovered := false, lister := none } := by
  obtain ⟨hlister, hfreq, hdisc⟩ := h
  exact if_pos ⟨hlister, by simpa using hfreq, hdisc, hp⟩

theorem unlist_other {x : Nat} {freqs : List Nat} {c : Carrier} (h : ¬(Omitted x freqs c ∧ c.planned = true)) :
    unlist x freqs c = c := by
  refine if_neg fun ⟨hlister, hfreq, hdisc, hp⟩ => h ⟨⟨hlister, by simpa using hfreq, hdisc⟩, hp⟩

/-- R65: the entry without a lister that is among the places `l`. -/
def withoutListers (l : List Nat) (c : Carrier) : Carrier :=
  { c with lister := c.lister.filter fun y => decide (y ∉ l) }

theorem withoutListers_self {l : List Nat} {c : Carrier} (h : ∀ y, c.lister = some y → y ∉ l) :
    withoutListers l c = c := by
  have hlister : (c.lister.filter fun y => decide (y ∉ l)) = c.lister := by
    cases hl : c.lister with
    | none => rfl
    | some y => exact Option.filter_eq_some_iff.mpr ⟨rfl, decide_eq_true (h y hl)⟩
  rw [withoutListers, hlister]

theorem withoutListers_cons (x : Nat) (l : List Nat) (c : Carrier) :
    withoutListers l (withoutListers [x] c) = withoutListers (x :: l) c := by
  simp [withoutListers, Option.filter_filter, not_or]

/-- R85 steps 1 and 2, R65: a removal frees the place and takes its entry as lister from every other. -/
theorem tabGet_removeEntry {t : Table Carrier} (ht : CarrierLaw t) (x i : Nat) :
    tabGet (removeEntry x t) i = if i = x then none else (tabGet t i).map (withoutListers [x]) := by
  have hcleared : tabGet (removeEntry x t) i = (tabGet (tabDel t x) i).map (withoutListers [x]) := by
    refine (tabGet_map (fun e => ?_) _ _).trans (congrArg (Option.map · _) (funext fun c => ?_))
    · split <;> rfl
    · split
      · next h => simp [withoutListers, show c.lister = some x from h, Option.filter_some]
      · next h =>
        refine (withoutListers_self fun y hy hmem => h ?_).symm
        exact hy.trans (congrArg some (List.mem_singleton.mp hmem))
  rw [hcleared]
  by_cases hi : i = x
  · rw [if_pos hi, hi, tabGet_tabDel (tabWf_iff.mp ht.1).1]
    rfl
  · rw [if_neg hi, tabGet_tabDel_ne t x i hi]

theorem tabGet_removeAll {l : List Nat} {t : Table Carrier} (ht : CarrierLaw t) (i : Nat) :
    tabGet (l.foldl (fun t i => removeEntry i t) t) i =
      if i ∈ l then none else (tabGet t i).map (withoutListers l) := by
  induction l generalizing t with
  | nil =>
    have hid : withoutListers [] = fun c => c := funext fun c => withoutListers_self fun _ _ => List.not_mem_nil
    simp [hid]
  | cons x l ih =>
    rw [List.foldl_cons, ih (carrierLaw_removeEntry x ht), tabGet_removeEntry ht]
    by_cases hi : i = x
    · simp [hi]
    · simp only [hi, if_false, List.mem_cons, false_or, Option.map_map]
      congr 2
      funext c
      exact withoutListers_cons x l c

section
variable {x i : Nat} {freqs : List Nat} {t : Table Carrier} {c : Carrier}

theorem mem_prunedPlaces_iff (ht : CarrierLaw t) (hc : tabGet t i = some c) :
    i ∈ prunedPlaces x freqs t ↔ Omitted x freqs c ∧ c.planned = false ∧ c.hold = none := by
  rw [← prunes_iff, prunedPlaces, List.mem_map]
  constructor
  · rintro ⟨e, he, rfl⟩
    obtain ⟨hmem, hprunes⟩ := List.mem_filter.mp he
    have hsame := (tabGet_of_mem (tabWf_iff.mp ht.1).1 hmem).symm.trans hc
    exact Option.some.inj hsame ▸ hprunes
  · exact fun h => ⟨(i, c), List.mem_filter.mpr ⟨mem_of_tabGet hc, h⟩, rfl⟩

theorem tabGet_pruneTable (ht : CarrierLaw t) :
    tabGet (pruneTable x freqs t) i =
      if i ∈ prunedPlaces x freqs t then none
      else (tabGet t i).map fun c => unlist x freqs (withoutListers (prunedPlaces x freqs t) c) := by
  unfold pruneTable
  rw [tabGet_map (f := fun e => (e.1, unlist x freqs e.2)) (fun _ => rfl), tabGet_removeAll ht]
  split
  · rfl
  · rw [Option.map_map]
    rfl

/-- The lister that prunes is held, so that it does not leave. -/
theorem lister_not_pruned (ht : CarrierLaw t) (h : ∀ l, tabGet t x = some l → l.hold ≠ none) :
    x ∉ prunedPlaces x freqs t := by
  intro hmem
  cases hx : tabGet t x with
  | none =>
    have hkeys : x ∈ tabKeys t := (List.filter_sublist.map Prod.fst).subset hmem
    exact tabGet_eq_none_iff.mp hx hkeys
  | some l => exact not_mem_prunedPlaces ht ⟨l, hx, .refl l⟩ (h l hx) hmem

section
variable (ht : CarrierLaw t) (hc : tabGet t i = some c) (hx : ∀ l, tabGet t x = some l → l.hold ≠ none)
include ht hc

theorem pruneTable_removes (h : Omitted x freqs c) (hp : c.planned = false) (hh : c.hold = none) :
    tabGet (pruneTable x freqs t) i = none := by
  rw [tabGet_pruneTable ht, if_pos ((mem_prunedPlaces_iff ht hc).mpr ⟨h, hp, hh⟩)]

include hx

/-- An omitted entry that stays loses what `unlist` takes; its lister is in the table still. -/
theorem pruneTable_omitted (h : Omitted x freqs c) (hstays : ¬(c.planned = false ∧ c.hold = none)) :
    tabGet (pruneTable x freqs t) i = some (unlist x freqs c) := by
  have hnot : i ∉ prunedPlaces x freqs t := fun hmem => hstays ((mem_prunedPlaces_iff ht hc).mp hmem).2
  have hlister : withoutListers (prunedPlaces x freqs t) c = c :=
    withoutListers_self fun y hy => Option.some.inj (h.1.symm.trans hy) ▸ lister_not_pruned ht hx
  rw [tabGet_pruneTable ht, if_neg hnot, hc, Option.map_some, hlister]

omit hx in
/-- An entry that is not omitted loses a lister that leaves, and nothing else. -/
theorem pruneTable_other (h : ¬Omitted x freqs c) :
    tabGet (pruneTable x freqs t) i = some (withoutListers (prunedPlaces x freqs t) c) := by
  have hnot : i ∉ prunedPlaces x freqs t := fun hmem => h ((mem_prunedPlaces_iff ht hc).mp hmem).1
  have hother : ¬(Omitted x freqs (withoutListers (prunedPlaces x freqs t) c) ∧ c.planned = true) := by
    rintro ⟨⟨hlister, hfreq, hdisc⟩, -⟩
    exact h ⟨(Option.filter_eq_some_iff.mp hlister).1, hfreq, hdisc⟩
  rw [tabGet_pruneTable ht, if_neg hnot, hc, Option.map_some, unlist_other hother]

end

/-- R65: the lister of an entry that stays is the one it had, while that one is in the table. -/
theorem withoutListers_lister {y : Nat} (ht : CarrierLaw t) (h : c.lister = some y) :
    (tabGet (pruneTable x freqs t) y ≠ none → (withoutListers (prunedPlaces x freqs t) c).lister = some y) ∧
      (tabGet t y ≠ none → tabGet (pruneTable x freqs t) y = none →
        (withoutListers (prunedPlaces x freqs t) c).lister = none) := by
  rw [tabGet_pruneTable ht]
  by_cases hy : y ∈ prunedPlaces x freqs t
  · simp [withoutListers, h, hy]
  · simp [withoutListers, h, hy]

end

/-- Settles O44: `discoverOne` by what the table and the profiles hold, the counts by `discoverOne_total`, and the
pruning by what `tabGet_pruneTable` reads. -/
theorem discoveryAddsAndPrunes : Obligations.DiscoveryAddsAndPrunes := by
  unfold Obligations.DiscoveryAddsAndPrunes
  refine ⟨fun p now x input d e hd => ?one, fun p now x input es t => ?counts,
    fun x freqs t i c ht hc hx => ?prune⟩
  case one =>
    intro cls fits after absent profile unmatched
    have hs := (tabWf_iff.mp hd.1).1
    refine ⟨discoverOne_unmatched, fun i c hfits hc hinput hfreq => ?known,
      fun hfits habsent hnone => discoverOne_noProfile hfits (carrierIndex_absent habsent) (profileFor_eq_none hnone),
      fun n hfits habsent hn => ⟨fun k hk hfree hlow => ?added, fun hfull => ?full⟩⟩
    case known =>
      have hi : carrierIndex d.table input e.freq = some i := hinput ▸ hfreq ▸ carrierIndex_of_tabGet hd hc
      exact (discoverOne_known hfits hc hi).trans (by rw [knownEntry_eq])
    case added =>
      have hk' : tabFree d.table = k := tabFree_eq hs hfree hlow
      have hadded := discoverOne_added (now := now) (x := x) hfits (carrierIndex_absent habsent)
        (profileFor_eq_some_iff.mpr hn) (hk'.symm ▸ hk)
      rw [hk', discoveredEntry, clampNat_eq_max_min (by omega)] at hadded
      exact hadded
    case full =>
      exact discoverOne_full hfits (carrierIndex_absent habsent) (profileFor_eq_some_iff.mpr hn) (le_tabFree hs hfull)
  case counts => exact (foldl_discoverOne_total p now x input es _).trans (Nat.zero_add _)
  case prune =>
    intro left after
    refine ⟨pruneTable_removes ht hc, fun h hp => ?both, fun h hp hh => ?held, fun h => ?other⟩
    case both =>
      exact (pruneTable_omitted ht hc hx h (by simp [hp])).trans (congrArg some (unlist_omitted h hp))
    case held =>
      exact (pruneTable_omitted ht hc hx h (by simp [hh])).trans (congrArg some (unlist_other (by simp [hp])))
    case other =>
      exact ⟨_, pruneTable_other ht hc h, fun hnone => by simp [hnone], fun y hy => withoutListers_lister ht hy⟩

end Sys2Proof.Machine

/-! The family "The carrier table": the bytes of GET_CARRIER (R90, R171), what a commit makes of the table (R65, R71, R72,
R81 to R86), and CLEAR_SURVEY with the ends and starts of a pass (R65, R87, R101, R105, R106). -/

namespace Sys2Proof.Machine

/-! ## The bytes of GET_CARRIER (R90, R171) -/

theorem length_le (k n : Nat) : (le k n).length = k := by
  induction k generalizing n with
  | zero => rfl
  | succ k ih => simp [le, ih]

/-- A part of a field that stands at `n`. -/
theorem read_within {bytes b : List Byte} {n m : Nat} (h : (bytes.drop n).take m = b) {j w : Nat} (hw : j + w ≤ m) :
    (bytes.drop (n + j)).take w = (b.drop j).take w := by
  rw [← h, List.drop_take, List.take_take, List.drop_drop, Nat.min_eq_left (by omega)]

/-- A field of bytes laid out one field after another: what stands before it fixes its offset. -/
theorem read_flatten {fields : List (List Byte)} {widths : List Nat} (hw : fields.map List.length = widths) {k : Nat}
    {b : List Byte} (hb : fields[k]? = some b) : (fields.flatten.drop (widths.take k).sum).take b.length = b := by
  obtain ⟨hk, rfl⟩ := List.getElem?_eq_some_iff.mp hb
  have hsucc : ((fields.map List.length).take (k + 1)).sum =
      ((fields.map List.length).take k).sum + fields[k].length := by
    rw [List.take_succ_eq_append_getElem (by simpa using hk), List.sum_append]
    simp
  have hread := List.drop_take_succ_flatten_eq_getElem fields k hk
  rwa [hsucc, List.drop_take, Nat.add_sub_cancel_left, hw] at hread

/-- R90: one place of the history. -/
def historyPlace (h : List HistoryPoint) (j : Nat) : List Byte :=
  match h[j]? with
  | none => le 6 0
  | some p => le 4 p.time ++ leInt 2 p.margin

/-- R90: the fields of the reply before the service keys, in the order of the table. -/
def carrierFields (now maxAge i : Nat) (c : Carrier) : List (List Byte) :=
  [le 1 i, le 1 (inputCode c.input).val, le 4 c.freq, le 2 c.symRate, le 1 c.profile.val, le 1 (originByte c),
    le 1 (c.lister.getD 255), le 1 (carrierStateCode c.state), le 1 (failCauseCode c.failCause), le 1 c.failCount,
    le 4 c.added, expectedBytes c.expected, observedBytes c.observed, measBytes c.meas, boolByte (staleAt now maxAge c),
    leInt 2 (slopeOf c.history), le 4 c.nextDue, le 1 (holdSlotByte c), le 1 (holdRoleByte c),
    boolByte c.removalPending, le 1 c.history.length, historyPlace c.history 0, historyPlace c.history 1, historyPlace c.history 2,
    historyPlace c.history 3, le 1 (listStatusCode c.listStatus + if c.listTruncated then 128 else 0),
    le 1 (carrierListCode c.carrierList), le 1 c.services.length]

/-- The widths of those fields. -/
def carrierWidths : List Nat :=
  [1, 1, 4, 2, 1, 1, 1, 1, 1, 1, 4, 5, 6, 18, 1, 2, 4, 1, 1, 1, 1, 6, 6, 6, 6, 1, 1, 1]

theorem historyBytes_eq (h : List HistoryPoint) :
    historyBytes h = le 1 h.length ++ [0, 1, 2, 3].flatMap (historyPlace h) := rfl

theorem carrierBytes_eq (now maxAge i : Nat) (c : Carrier) :
    carrierBytes now maxAge i c = (carrierFields now maxAge i c ++ c.services.map keyBytes).flatten := by
  unfold carrierBytes carrierFields
  rw [historyBytes_eq, List.flatMap_def (f := keyBytes)]
  simp only [List.flatMap_cons, List.flatMap_nil, List.flatten_append, List.flatten_cons, List.flatten_nil,
    List.append_nil, List.append_assoc]

theorem length_historyPlace (h : List HistoryPoint) (j : Nat) : (historyPlace h j).length = 6 := by
  unfold historyPlace
  split <;> simp [length_le, leInt]

theorem length_expectedBytes (x : Option ExpectedId) : (expectedBytes x).length = 5 := by
  cases x <;> rfl

theorem length_observedBytes (x : Option Identity) : (observedBytes x).length = 6 := by
  cases x with
  | none => rfl
  | some o => simp [observedBytes, boolByte_eq, length_le]

theorem length_measBytes (x : Option WindowRecord) : (measBytes x).length = 18 := by
  cases x with
  | none => rfl
  | some m => simp [measBytes, scoreBytes, leInt, length_le]

theorem widths_carrierFields (now maxAge i : Nat) (c : Carrier) :
    (carrierFields now maxAge i c ++ c.services.map keyBytes).map List.length =
      carrierWidths ++ List.replicate c.services.length 4 := by
  have hkeys : (c.services.map keyBytes).map List.length = List.replicate c.services.length 4 := by
    rw [List.map_map, ← List.map_const']
    rfl
  rw [List.map_append, hkeys]
  simp only [carrierFields, carrierWidths, List.map_cons, List.map_nil, length_le, length_historyPlace,
    length_expectedBytes, length_observedBytes, length_measBytes, boolByte_eq, leInt, List.length_cons, List.length_nil]

theorem length_carrierBytes (now maxAge i : Nat) (c : Carrier) :
    (carrierBytes now maxAge i c).length = 85 + 4 * c.services.length := by
  rw [carrierBytes_eq, List.length_flatten, widths_carrierFields, List.sum_append, List.sum_replicate, smul_eq_mul,
    Nat.mul_comm]
  rfl

/-- R90: the `k`th field stands where the widths before it end. -/
theorem read_carrierField (now maxAge i : Nat) (c : Carrier) {k n w : Nat} {b : List Byte}
    (hb : (carrierFields now maxAge i c)[k]? = some b) (hw : carrierWidths[k]? = some w)
    (hn : (carrierWidths.take k).sum = n) : ((carrierBytes now maxAge i c).drop n).take w = b := by
  obtain ⟨hk, -⟩ := List.getElem?_eq_some_iff.mp hw
  have hb' : (carrierFields now maxAge i c ++ c.services.map keyBytes)[k]? = some b :=
    (List.getElem?_append_left (show k < (carrierFields now maxAge i c).length from hk)).trans hb
  have hlength : b.length = w := by
    have hwidth := congrArg (·[k]?) (widths_carrierFields now maxAge i c)
    simp only [List.getElem?_map, hb', Option.map_some, List.getElem?_append_left hk, hw] at hwidth
    exact Option.some.inj hwidth
  have hread := read_flatten (widths_carrierFields now maxAge i c) hb'
  rwa [← carrierBytes_eq, List.take_append_of_le_length (Nat.le_of_lt hk), hn, hlength] at hread

/-- R90: the service keys stand from offset 85, four bytes each. -/
theorem read_serviceKey (now maxAge i : Nat) (c : Carrier) {j : Nat} {k : ServiceKey} (hk : c.services[j]? = some k) :
    ((carrierBytes now maxAge i c).drop (85 + 4 * j)).take 4 = keyBytes k := by
  obtain ⟨hj, -⟩ := List.getElem?_eq_some_iff.mp hk
  have hkey : (carrierFields now maxAge i c ++ c.services.map keyBytes)[28 + j]? = some (keyBytes k) := by
    rw [List.getElem?_append_right (show (carrierFields now maxAge i c).length ≤ 28 + j from Nat.le_add_right 28 j)]
    simp [carrierFields, hk]
  have hoffset : ((carrierWidths ++ List.replicate c.services.length 4).take (28 + j)).sum = 85 + 4 * j := by
    rw [List.take_append, List.take_of_length_le (show carrierWidths.length ≤ 28 + j from Nat.le_add_right 28 j),
      show 28 + j - carrierWidths.length = j from Nat.add_sub_cancel_left 28 j, List.take_replicate,
      Nat.min_eq_left (Nat.le_of_lt hj), List.sum_append, List.sum_replicate, smul_eq_mul, Nat.mul_comm]
    rfl
  have hread := read_flatten (widths_carrierFields now maxAge i c) hkey
  rwa [← carrierBytes_eq, hoffset] at hread

theorem readView_eq (s : State) :
    (readView s).carriers = (s.link.frozen.map (·.carriers)).getD s.carriers ∧
      (readView s).now = (s.link.frozen.map (·.now)).getD s.clock.now := by
  unfold readView
  cases s.link.frozen <;> exact ⟨rfl, rfl⟩

theorem doGetCarrier_bad {s : State} {i : Nat} (h : 95 < i ∨ tabGet (readView s).carriers i = none) :
    doGetCarrier i s = answered .badIndex s := by
  unfold doGetCarrier
  split
  · next hi =>
    have hnone := h.resolve_left (by simpa [carrierPlaces] using Nat.le_of_lt_succ hi)
    simp only [hnone]
  · rfl

theorem doGetCarrier_entry {s : State} {i : Nat} {c : Carrier} (hi : i ≤ 95)
    (hc : tabGet (readView s).carriers i = some c) :
    doGetCarrier i s =
      { state := s, code := .ok, content := carrierBytes (readView s).now s.params.maxAge i c } := by
  unfold doGetCarrier
  rw [if_pos (show i < carrierPlaces from Nat.lt_succ_of_le hi), hc]

theorem exec_getCarrier {s : State} {i : Nat} (hs : Ready s) (hi : i < 256) :
    exec (.getCarrier i) s =
      .next (formReply 0x20 (doGetCarrier i s).code (doGetCarrier i s).content (doGetCarrier i s).state) :=
  exec_rowOf_ready (c := .getCarrier i) hs (decide_eq_true hi)

/-! ### The codes of the fields -/

theorem le_one_bool (b : Bool) : le 1 (if b then 1 else 0) = boolByte b := by
  cases b <;> rfl

theorem twoBits_eq (a b : Bool) :
    (if a then 1 else 0) + (if b then 2 else 0) = (if a then 1 else 0) + 2 * (if b then 1 else 0) := by
  cases b <;> rfl

theorem getD_eq_match (x : Option Nat) (n : Nat) : x.getD n = match x with | none => n | some y => y := by
  cases x <;> rfl

theorem carrierStateCode_eq (x : CarrierState) :
    carrierStateCode x =
      match x with
      | .unsurveyed => 0 | .acquiring => 1 | .verified => 2 | .lost => 3 | .failed => 4 | .excluded => 5 := by
  cases x <;> rfl

theorem failCauseCode_eq (x : Option FailCause) :
    failCauseCode x =
      match x with
      | none => 0 | some .noLock => 1 | some .noId => 2 | some .idMismatch => 3 | some .noServices => 4 := by
  rcases x with _ | x
  · rfl
  · cases x <;> rfl

theorem staleAt_eq (now maxAge : Nat) (c : Carrier) :
    (if staleAt now maxAge c then 1 else 0) =
      match c.meas with | none => 0 | some m => if m.time + maxAge < now then 1 else 0 := by
  unfold staleAt
  cases c.meas with
  | none => rfl
  | some m => simp

theorem holdSlotByte_eq (c : Carrier) :
    holdSlotByte c = match c.hold with | none => 255 | some h => h.slot.val := by
  unfold holdSlotByte
  cases c.hold <;> rfl

theorem holdRoleByte_eq (c : Carrier) :
    holdRoleByte c =
      match c.hold with | none => 0 | some h => (if h.carry then 2 else 1) + 128 * (if h.ending then 1 else 0) := by
  unfold holdRoleByte
  rcases c.hold with _ | ⟨slot, carry, ending⟩
  · rfl
  · cases ending <;> rfl

theorem listCode_eq (x : ListStatus) (truncated : Bool) :
    (listStatusCode x + if truncated then 128 else 0) =
      (match x with | .absent => 0 | .valid => 1 | .pending => 2) + 128 * (if truncated then 1 else 0) := by
  cases x <;> cases truncated <;> rfl

theorem carrierListCode_eq (x : CarrierListStatus) :
    carrierListCode x = match x with | .none => 0 | .received => 1 | .missed => 2 | .truncated => 3 := by
  cases x <;> rfl

theorem observedBytes_announced (o : Identity) :
    ((observedBytes (some o)).drop 5).take 1 = le 1 (if o.listAnnounced then 1 else 0) := by
  rw [le_one_bool, boolByte_eq, observedBytes, boolByte_eq]
  rfl

/-- Settles O20: the reply read as one field after another (`read_carrierField`), the optional fields by parts of their
own (`read_within`). -/
theorem getCarrierLayout : Obligations.GetCarrierLayout := by
  unfold Obligations.GetCarrierLayout
  refine ⟨fun s i hi hs => ?reply, fun now maxAge i c _ => ?layout⟩
  case reply =>
    obtain ⟨hcarriers, hnow⟩ := readView_eq s
    rw [← hcarriers, ← hnow]
    refine ⟨fun hbad => ?_, fun c hle hc => ?_⟩
    · rw [exec_getCarrier hs hi, doGetCarrier_bad hbad]
      rfl
    · rw [exec_getCarrier hs hi, doGetCarrier_entry hle hc]
      rfl
  case layout =>
    intro bytes field signed yes
    have stands {k n w : Nat} {b : List Byte} (hb : (carrierFields now maxAge i c)[k]? = some b)
        (hw : carrierWidths[k]? = some w) (hn : (carrierWidths.take k).sum = n) : (bytes.drop n).take w = b :=
      read_carrierField now maxAge i c hb hw hn
    have coded {k n w v : Nat} {b : List Byte} (hb : (carrierFields now maxAge i c)[k]? = some b)
        (hw : carrierWidths[k]? = some w) (hn : (carrierWidths.take k).sum = n) (hv : b = le w v) : field n w v :=
      (stands hb hw hn).trans hv
    have hexpected : (bytes.drop 18).take 5 = expectedBytes c.expected := stands (k := 11) rfl rfl rfl
    have hobserved : (bytes.drop 23).take 6 = observedBytes c.observed := stands (k := 12) rfl rfl rfl
    have hmeas : (bytes.drop 29).take 18 = measBytes c.meas := stands (k := 13) rfl rfl rfl
    refine ⟨length_carrierBytes .., stands (k := 0) rfl rfl rfl,
      coded (k := 1) rfl rfl rfl (congrArg (le 1) (inputCode_val _)), stands (k := 2) rfl rfl rfl,
      stands (k := 3) rfl rfl rfl, stands (k := 4) rfl rfl rfl,
      coded (k := 5) rfl rfl rfl (congrArg (le 1) (twoBits_eq ..)),
      coded (k := 6) rfl rfl rfl (congrArg (le 1) (getD_eq_match ..)),
      coded (k := 7) rfl rfl rfl (congrArg (le 1) (carrierStateCode_eq _)),
      coded (k := 8) rfl rfl rfl (congrArg (le 1) (failCauseCode_eq _)),
      stands (k := 9) rfl rfl rfl, stands (k := 10) rfl rfl rfl, ?expected, ?observed, ?measurement,
      coded (k := 14) rfl rfl rfl ((le_one_bool _).symm.trans (congrArg (le 1) (staleAt_eq ..))),
      stands (k := 15) rfl rfl rfl, stands (k := 16) rfl rfl rfl,
      coded (k := 17) rfl rfl rfl (congrArg (le 1) (holdSlotByte_eq c)),
      coded (k := 18) rfl rfl rfl (congrArg (le 1) (holdRoleByte_eq c)),
      coded (k := 19) rfl rfl rfl (le_one_bool _).symm, stands (k := 20) rfl rfl rfl, ?history,
      coded (k := 25) rfl rfl rfl (congrArg (le 1) (listCode_eq ..)),
      coded (k := 26) rfl rfl rfl (congrArg (le 1) (carrierListCode_eq _)), stands (k := 27) rfl rfl rfl, ?keys⟩
    case expected =>
      cases he : c.expected with
      | none =>
        rw [he] at hexpected
        exact ⟨read_within (j := 0) hexpected (by decide), read_within (j := 1) hexpected (by decide)⟩
      | some e =>
        rw [he] at hexpected
        exact ⟨read_within (j := 0) hexpected (by decide), read_within (j := 1) hexpected (by decide),
          read_within (j := 3) hexpected (by decide)⟩
    case observed =>
      cases ho : c.observed with
      | none =>
        rw [ho] at hobserved
        exact ⟨read_within (j := 0) hobserved (by decide), read_within (j := 1) hobserved (by decide),
          read_within (j := 5) hobserved (by decide)⟩
      | some o =>
        rw [ho] at hobserved
        exact ⟨read_within (j := 0) hobserved (by decide), read_within (j := 1) hobserved (by decide),
          read_within (j := 3) hobserved (by decide),
          (read_within (j := 5) (w := 1) hobserved (by decide)).trans (observedBytes_announced o)⟩
    case measurement =>
      cases hm : c.meas with
      | none =>
        rw [hm] at hmeas
        exact ⟨read_within (j := 0) hmeas (by decide), read_within (j := 1) hmeas (by decide),
          read_within (j := 5) hmeas (by decide), read_within (j := 7) hmeas (by decide),
          read_within (j := 9) hmeas (by decide), read_within (j := 11) hmeas (by decide),
          read_within (j := 13) hmeas (by decide), read_within (j := 15) hmeas (by decide),
          read_within (j := 16) hmeas (by decide)⟩
      | some m =>
        rw [hm] at hmeas
        exact ⟨read_within (j := 0) hmeas (by decide), read_within (j := 1) hmeas (by decide),
          read_within (j := 5) hmeas (by decide), read_within (j := 7) hmeas (by decide),
          read_within (j := 9) hmeas (by decide), read_within (j := 11) hmeas (by decide),
          (read_within (j := 13) hmeas (by decide)).trans (congrArg (le 2) (getD_eq_match ..)),
          (read_within (j := 15) hmeas (by decide)).trans (congrArg (le 1) (twoBits_eq ..)),
          (read_within (j := 16) hmeas (by decide)).trans (congrArg (le 2) (getD_eq_match ..))⟩
    case history =>
      intro j
      have hplace : (bytes.drop (58 + 6 * j.val)).take 6 = historyPlace c.history j.val := by
        match j with
        | 0 => exact stands (k := 21) rfl rfl rfl
        | 1 => exact stands (k := 22) rfl rfl rfl
        | 2 => exact stands (k := 23) rfl rfl rfl
        | 3 => exact stands (k := 24) rfl rfl rfl
      unfold historyPlace at hplace
      rw [show 62 + 6 * j.val = 58 + 6 * j.val + 4 by omega]
      cases hj : c.history[j.val]? with
      | none =>
        rw [hj] at hplace
        exact hplace
      | some p =>
        rw [hj] at hplace
        exact ⟨read_within (j := 0) hplace (by decide), read_within (j := 4) hplace (by decide)⟩
    case keys =>
      intro j k hk
      have hkey := read_serviceKey now maxAge i c hk
      rw [show 87 + 4 * j = 85 + 4 * j + 2 by omega]
      exact ⟨read_within (j := 0) hkey (by decide), read_within (j := 2) hkey (by decide)⟩

/-! ## The capacity check (R86) -/

/-- The places of the entries that `f` keeps. -/
theorem mem_places_iff {α : Type} {t : Table α} (hs : (tabKeys t).Pairwise (· < ·)) (f : Nat × α → Bool) (i : Nat) :
    i ∈ (t.filter f).map Prod.fst ↔ ∃ a, tabGet t i = some a ∧ f (i, a) = true := by
  constructor
  · intro hmem
    obtain ⟨e, he, rfl⟩ := List.mem_map.mp hmem
    obtain ⟨hentry, hf⟩ := List.mem_filter.mp he
    exact ⟨e.2, tabGet_of_mem hs hentry, hf⟩
  · rintro ⟨a, ha, hf⟩
    exact List.mem_map.mpr ⟨(i, a), List.mem_filter.mpr ⟨mem_of_tabGet ha, hf⟩, rfl⟩

theorem hasKey_iff {x : RfInput} {freq : Nat} {q : Planned} : hasKey x freq q = true ↔ q.input = x ∧ q.freq = freq := by
  simp [hasKey]

theorem planRecord_eq_none_iff {p : Plan} {c : Carrier} :
    planRecord p c = none ↔ ∀ q ∈ p.carriers, ¬(q.input = c.input ∧ q.freq = c.freq) := by
  simp only [planRecord, List.find?_eq_none, hasKey_iff]

/-- With no key planned twice, the record that names an entry is the one found for it. -/
theorem planRecord_eq_some {p : Plan} {c : Carrier} {q : Planned}
    (hp : p.carriers.Pairwise fun a b => a.input ≠ b.input ∨ a.freq ≠ b.freq) (hq : q ∈ p.carriers)
    (hkey : q.input = c.input ∧ q.freq = c.freq) : planRecord p c = some q := by
  cases hfound : planRecord p c with
  | none => exact absurd hkey (planRecord_eq_none_iff.mp hfound q hq)
  | some r =>
    have hr : r.input = c.input ∧ r.freq = c.freq := hasKey_iff.mp (List.find?_some hfound)
    by_contra hne
    have hapart := pairwise_mem (fun _ _ h => h.imp Ne.symm Ne.symm) hp (List.mem_of_find?_eq_some hfound) hq
      fun h => hne (congrArg some h)
    exact hapart.elim (· (hr.1.trans hkey.1.symm)) (· (hr.2.trans hkey.2.symm))

theorem discoveredAfter_iff {p : Plan} {c : Carrier} :
    discoveredAfter p c = true ↔ planRecord p c = none ∧ c.removalPending = false ∧ c.discovered = true := by
  simp [discoveredAfter, and_assoc]

theorem pendingAfter_iff {p : Plan} {c : Carrier} :
    pendingAfter p c = true ↔
      planRecord p c = none ∧ (c.removalPending = true ∨ (c.discovered = false ∧ c.hold ≠ none)) := by
  simp [pendingAfter, Option.isSome_iff_ne_none]

theorem losesLast_iff {p : Plan} {c : Carrier} :
    losesLast p c = true ↔ planRecord p c = none ∧ c.removalPending = false ∧ c.discovered = false := by
  simp [losesLast, and_assoc]

theorem evictedBefore_iff {a b : Nat × Carrier} :
    evictedBefore a b = true ↔ a.2.added < b.2.added ∨ (a.2.added = b.2.added ∧ a.1 < b.1) := by
  simp [evictedBefore]

/-- R86: the evictable entries, oldest addition first and then lowest index. -/
def evictableEntries (p : Plan) (t : Table Carrier) : Table Carrier :=
  sortBy evictedBefore (t.filter fun e => discoveredAfter p e.2 && e.2.hold.isNone)

theorem mem_evictable_iff {p : Plan} {t : Table Carrier} {e : Nat × Carrier} :
    e ∈ evictableEntries p t ↔ e ∈ t ∧ discoveredAfter p e.2 = true ∧ e.2.hold = none := by
  rw [evictableEntries, (sortBy_perm _ _).mem_iff, List.mem_filter]
  simp

theorem evictable_pairwise {p : Plan} {t : Table Carrier} (hs : (tabKeys t).Pairwise (· < ·)) :
    (evictableEntries p t).Pairwise fun a b => a.2.added < b.2.added ∨ (a.2.added = b.2.added ∧ a.1 < b.1) := by
  have hrising : t.Pairwise fun a b => a.1 < b.1 := List.pairwise_map.mp hs
  have hcompared : (t.filter fun e => discoveredAfter p e.2 && e.2.hold.isNone).Pairwise
      fun a b => evictedBefore a b = true ∨ evictedBefore b a = true := by
    refine (hrising.sublist List.filter_sublist).imp fun {a b} h => ?_
    rw [evictedBefore_iff, evictedBefore_iff]
    omega
  refine (sortBy_pairwise (fun a b c hab hbc => ?_) hcompared).imp evictedBefore_iff.mp
  rw [evictedBefore_iff] at *
  omega

/-- R86: what is over 96 is evicted, or the commit is refused. -/
theorem evictions_eq (p : Plan) (t : Table Carrier) :
    evictions p t =
      if capacityCount p t - 96 ≤ (evictableEntries p t).length then
        some (((evictableEntries p t).take (capacityCount p t - 96)).map Prod.fst)
      else none := by
  have horder : evictionOrder p t = (evictableEntries p t).map Prod.fst := rfl
  simp only [evictions, horder, List.length_map, List.map_take, carrierPlaces]

/-! ## What a commit makes of an entry (R72, R84, R85) -/

/-- The entry with the marks and values the plan gives it, its exclusion aside. -/
def replanned (p : Plan) (c : Carrier) : Carrier :=
  match planRecord p c with
  | some q => namedEntry q c
  | none =>
    if c.removalPending then c
    else if c.discovered then { c with planned := false, expected := if c.planned then none else c.expected }
    else pendingEntry c

/-- R84: whether the commit has the entry EXCLUDED. -/
def excludedAfter (p : Plan) (c : Carrier) : Bool :=
  match planRecord p c with
  | some q => q.excluded
  | none => decide (c.state = .excluded) && !(!c.removalPending && c.discovered && c.planned)

section
variable {p : Plan} {c : Carrier}

theorem replanned_named {q : Planned} (h : planRecord p c = some q) : replanned p c = namedEntry q c := by
  simp [replanned, h]

theorem replanned_pending (h : planRecord p c = none) (hp : c.removalPending = true) : replanned p c = c := by
  simp [replanned, h, hp]

theorem replanned_discovered (h : planRecord p c = none) (hp : c.removalPending = false) (hd : c.discovered = true) :
    replanned p c = { c with planned := false, expected := if c.planned then none else c.expected } := by
  simp [replanned, h, hp, hd]

theorem replanned_lost (h : planRecord p c = none) (hp : c.removalPending = false) (hd : c.discovered = false) :
    replanned p c = pendingEntry c := by
  simp [replanned, h, hp, hd]

theorem excludedAfter_named {q : Planned} (h : planRecord p c = some q) : excludedAfter p c = q.excluded := by
  simp [excludedAfter, h]

/-- An entry that the plan does not name stays as its state has it, but for one of origin both. -/
theorem excludedAfter_unnamed (h : planRecord p c = none)
    (hk : ¬(c.removalPending = false ∧ c.discovered = true ∧ c.planned = true)) :
    excludedAfter p c = decide (c.state = .excluded) := by
  have hother : (!c.removalPending && c.discovered && c.planned) = false :=
    Bool.eq_false_iff.mpr fun hboth => hk (by simpa [and_assoc] using hboth)
  simp [excludedAfter, h, hother]

theorem excludedAfter_both (h : planRecord p c = none) (hp : c.removalPending = false) (hd : c.discovered = true)
    (hl : c.planned = true) : excludedAfter p c = false := by
  simp [excludedAfter, h, hp, hd, hl]

end

theorem applyExclusion_self (s : State) (c : Carrier) : applyExclusion s (decide (c.state = .excluded)) c = c := by
  by_cases h : c.state = .excluded <;> simp [applyExclusion, h]

theorem committedEntry_eq (s : State) (p : Plan) (c : Carrier) :
    committedEntry s p c = applyExclusion s (excludedAfter p c) (replanned p c) := by
  cases h : planRecord p c with
  | some q => simp only [committedEntry, replanned, excludedAfter, h]
  | none =>
    by_cases hboth : c.removalPending = false ∧ c.discovered = true ∧ c.planned = true
    · obtain ⟨hp, hd, hl⟩ := hboth
      rw [excludedAfter_both h hp hd hl, replanned_discovered h hp hd]
      simp [committedEntry, h, hp, hd, hl]
    · rw [excludedAfter_unnamed h hboth]
      have hsame : committedEntry s p c = replanned p c := by
        simp only [committedEntry, replanned, h]
        split
        · rfl
        · next hp =>
          split
          · next hd =>
            have hl : c.planned = false := by simpa [hp, hd] using hboth
            obtain ⟨⟩ := c
            subst hl
            rfl
          · rfl
      have hstate : (replanned p c).state = c.state := by
        simp only [replanned, h]
        repeat' split
        all_goals rfl
      rw [hsame, ← hstate, applyExclusion_self]

/-! ## Exclusion (R84) -/

section
variable (s : State) (x : Bool) (d : Carrier)

/-- R84, R73: an entry un-excluded is UNSURVEYED, or held and ACQUIRING. -/
theorem unexcludedEntry_eq :
    ∃ st sb, unexcludedEntry s d = { d with state := st, stateBefore := sb, nextDue := s.now } ∧
      (st = .unsurveyed ∨ (d.hold ≠ none ∧ st = .acquiring)) := by
  unfold unexcludedEntry resumeAcquiring
  dsimp only
  split
  · exact ⟨_, _, rfl, .inl rfl⟩
  · next h hh =>
    split
    · exact ⟨_, _, rfl, .inr ⟨by simp [hh], rfl⟩⟩
    · exact ⟨_, _, rfl, .inl rfl⟩

/-- What the exclusion a plan marks makes of an entry: it becomes EXCLUDED, or is un-excluded, or stays. -/
theorem applyExclusion_cases :
    (x = true ∧ d.state ≠ .excluded ∧ applyExclusion s x d = excludedEntry d) ∨
      (x = false ∧ d.state = .excluded ∧ applyExclusion s x d = unexcludedEntry s d) ∨
        (x = decide (d.state = .excluded) ∧ applyExclusion s x d = d) := by
  unfold applyExclusion
  by_cases hd : d.state = .excluded <;> cases x <;> simp [hd]

theorem applyExclusion_frame :
    ∃ st sb m h n, applyExclusion s x d =
      { d with state := st, stateBefore := sb, meas := m, hold := h, nextDue := n } := by
  obtain ⟨-, -, he⟩ | ⟨-, -, he⟩ | ⟨-, he⟩ := applyExclusion_cases s x d
  · exact ⟨_, _, _, _, _, he⟩
  · obtain ⟨st, sb, hu, -⟩ := unexcludedEntry_eq s d
    exact ⟨_, _, _, _, _, he.trans hu⟩
  · exact ⟨_, _, _, _, _, he⟩

theorem applyExclusion_excluded : (applyExclusion s true d).state = .excluded := by
  obtain ⟨-, -, he⟩ | ⟨hx, -, -⟩ | ⟨hx, he⟩ := applyExclusion_cases s true d
  · rw [he]
    rfl
  · cases hx
  · rw [he]
    exact of_decide_eq_true hx.symm

theorem applyExclusion_stays (h : d.state ≠ .excluded) : applyExclusion s false d = d := by
  simpa [h] using applyExclusion_self s d

theorem applyExclusion_freed (h : d.state = .excluded) :
    (applyExclusion s false d).state = .unsurveyed ∨
      (d.hold ≠ none ∧ (applyExclusion s false d).state = .acquiring) := by
  obtain ⟨st, sb, hu, hst⟩ := unexcludedEntry_eq s d
  have he : applyExclusion s false d = unexcludedEntry s d := by simp [applyExclusion, h]
  rw [he, hu]
  exact hst

/-- R84, R73: the hold of an entry that becomes EXCLUDED turns to phase ENDING unless it is carried. -/
theorem applyExclusion_hold :
    (applyExclusion s x d).hold =
      d.hold.map fun h => { h with ending := h.ending || (x && decide (d.state ≠ .excluded) && !h.carry) } := by
  obtain ⟨rfl, hd, he⟩ | ⟨rfl, -, he⟩ | ⟨hx, he⟩ := applyExclusion_cases s x d
  · rw [he]
    rcases hh : d.hold with _ | ⟨slot, carry, ending⟩
    · simp [excludedEntry, endingHold, hh]
    · cases carry <;> simp [excludedEntry, endingHold, Carrier.carried, hh, hd]
  · obtain ⟨st, sb, hu, -⟩ := unexcludedEntry_eq s d
    rw [he, hu]
    simp
  · have hstays : (x && decide (d.state ≠ .excluded)) = false := by simp [hx]
    simp only [he, hstays, Bool.false_and, Bool.or_false, Option.map_id']

theorem applyExclusion_hold_same {s : State} {x : Bool} {d : Carrier}
    (h : (x && decide (d.state ≠ .excluded)) = false) : (applyExclusion s x d).hold = d.hold := by
  simp only [applyExclusion_hold, h, Bool.false_and, Bool.or_false, Option.map_id']

/-- R84: an entry that becomes EXCLUDED loses its score. -/
theorem applyExclusion_meas :
    (applyExclusion s x d).meas =
      if d.state ≠ .excluded ∧ (applyExclusion s x d).state = .excluded then unscored d.meas else d.meas := by
  obtain ⟨-, hd, he⟩ | ⟨-, hd, he⟩ | ⟨-, he⟩ := applyExclusion_cases s x d
  · rw [he]
    exact (if_pos ⟨hd, rfl⟩).symm
  · obtain ⟨st, sb, hu, -⟩ := unexcludedEntry_eq s d
    rw [he, hu]
    simp [hd]
  · rw [he]
    simp

/-- R84: an entry un-excluded is due now. -/
theorem applyExclusion_nextDue :
    (applyExclusion s x d).nextDue =
      if d.state = .excluded ∧ (applyExclusion s x d).state ≠ .excluded then s.now else d.nextDue := by
  obtain ⟨-, hd, he⟩ | ⟨-, hd, he⟩ | ⟨-, he⟩ := applyExclusion_cases s x d
  · rw [he]
    simp [hd, excludedEntry]
  · obtain ⟨st, sb, hu, hst⟩ := unexcludedEntry_eq s d
    rw [he, hu]
    refine (if_pos ⟨hd, ?_⟩).symm
    obtain rfl | ⟨-, rfl⟩ := hst
    · exact CarrierState.noConfusion
    · exact CarrierState.noConfusion
  · rw [he]
    simp

end

/-! ## Rescoring and the next-due bound (R81, R83) -/

/-- R81: the entry `a`, which was `b`, rescored if the change of plan affects it. -/
def rescoredFrom (old new : Plan) (b a : Carrier) : Carrier :=
  if rescores old new b a then
    rescoredEntry (new.inputCfg a.input) (((old.profile b.profile).reqMer : Int) - (new.profile a.profile).reqMer) a
  else a

theorem rescoreOne_eq {old new : Plan} {t : Table Carrier} {i : Nat} {b : Carrier} (h : tabGet t i = some b)
    (a : Carrier) : rescoreOne old new t (i, a) = (i, rescoredFrom old new b a) := by
  simp only [rescoreOne, h, rescoredFrom]
  split <;> rfl

/-- R81: the changes of a plan that affect an entry with a measurement. -/
theorem rescores_iff {old new : Plan} {b a : Carrier} :
    rescores old new b a = true ↔ a.meas ≠ none ∧
      ((old.profile a.profile).reqMer ≠ (new.profile a.profile).reqMer ∨ b.profile ≠ a.profile ∨
        (old.inputCfg a.input).bias ≠ (new.inputCfg a.input).bias ∨
          (old.inputCfg a.input).winMin ≠ (new.inputCfg a.input).winMin ∨
            (old.inputCfg a.input).winMax ≠ (new.inputCfg a.input).winMax) := by
  simp only [rescores, inputRescores, Bool.and_eq_true, Bool.or_eq_true, decide_eq_true_eq, Option.isSome_iff_ne_none,
    ne_eq]
  tauto

/-- An entry that stays, as the commit leaves it. -/
def keptEntry (s : State) (p : Plan) (c : Carrier) : Carrier :=
  let a := rescoredFrom s.committed p c (committedEntry s p c)
  if p.params.maxAge < s.committed.params.maxAge then reclamp (s.now + p.params.maxAge) a else a

section
variable (s : State) (p : Plan) (c : Carrier)

theorem rescoredFrom_frame (old new : Plan) (b a : Carrier) :
    ∃ h m, rescoredFrom old new b a = { a with history := h, meas := m } := by
  unfold rescoredFrom
  split
  · exact ⟨_, _, rfl⟩
  · exact ⟨_, _, rfl⟩

theorem keptEntry_eq :
    keptEntry s p c =
      { rescoredFrom s.committed p c (committedEntry s p c) with
        nextDue :=
          if p.params.maxAge < s.committed.params.maxAge then
            min (committedEntry s p c).nextDue (s.now + p.params.maxAge)
          else (committedEntry s p c).nextDue } := by
  obtain ⟨h, m, he⟩ := rescoredFrom_frame s.committed p c (committedEntry s p c)
  unfold keptEntry
  dsimp only
  split
  · rw [he]
    rfl
  · rw [he]

/-- R81, R83: rescoring and the next-due bound change the history, the measurement and the next-due time alone. -/
theorem keptEntry_frame :
    ∃ h m n, keptEntry s p c = { committedEntry s p c with history := h, meas := m, nextDue := n } := by
  obtain ⟨h, m, he⟩ := rescoredFrom_frame s.committed p c (committedEntry s p c)
  rw [keptEntry_eq, he]
  exact ⟨_, _, _, rfl⟩

theorem replanned_frame :
    ∃ pl sr pr ex rp hd sv ls lt, replanned p c =
      { c with
        planned := pl, symRate := sr, profile := pr, expected := ex, removalPending := rp, hold := hd, services := sv,
        listStatus := ls, listTruncated := lt } := by
  unfold replanned
  split
  · exact ⟨_, _, _, _, _, _, _, _, _, rfl⟩
  · repeat' split
    all_goals exact ⟨_, _, _, _, _, _, _, _, _, rfl⟩

/-- What a commit never changes of an entry that stays. -/
theorem keptEntry_keeps :
    ((keptEntry s p c).input = c.input ∧ (keptEntry s p c).freq = c.freq ∧ (keptEntry s p c).added = c.added ∧
      (keptEntry s p c).discovered = c.discovered ∧ (keptEntry s p c).observed = c.observed ∧
        (keptEntry s p c).failCause = c.failCause ∧ (keptEntry s p c).failCount = c.failCount ∧
          (keptEntry s p c).carrierList = c.carrierList) ∧ (keptEntry s p c).lister = c.lister := by
  obtain ⟨_, _, _, hkept⟩ := keptEntry_frame s p c
  obtain ⟨_, _, _, _, _, hexcl⟩ := applyExclusion_frame s (excludedAfter p c) (replanned p c)
  obtain ⟨_, _, _, _, _, _, _, _, _, hplan⟩ := replanned_frame p c
  rw [hkept, committedEntry_eq, hexcl, hplan]
  exact ⟨⟨rfl, rfl, rfl, rfl, rfl, rfl, rfl, rfl⟩, rfl⟩

/-- The marks the plan gives, which exclusion, rescoring and the next-due bound leave alone. -/
theorem keptEntry_marks :
    (keptEntry s p c).planned = (replanned p c).planned ∧ (keptEntry s p c).symRate = (replanned p c).symRate ∧
      (keptEntry s p c).profile = (replanned p c).profile ∧ (keptEntry s p c).expected = (replanned p c).expected ∧
        (keptEntry s p c).removalPending = (replanned p c).removalPending ∧
          (keptEntry s p c).services = (replanned p c).services ∧
            (keptEntry s p c).listStatus = (replanned p c).listStatus ∧
              (keptEntry s p c).listTruncated = (replanned p c).listTruncated := by
  obtain ⟨_, _, _, hkept⟩ := keptEntry_frame s p c
  obtain ⟨_, _, _, _, _, hexcl⟩ := applyExclusion_frame s (excludedAfter p c) (replanned p c)
  rw [hkept, committedEntry_eq, hexcl]
  exact ⟨rfl, rfl, rfl, rfl, rfl, rfl, rfl, rfl⟩

/-- The state and the hold are those that exclusion leaves. -/
theorem keptEntry_condition :
    (keptEntry s p c).state = (committedEntry s p c).state ∧
      (keptEntry s p c).stateBefore = (committedEntry s p c).stateBefore ∧
        (keptEntry s p c).hold = (committedEntry s p c).hold := by
  obtain ⟨_, _, _, hkept⟩ := keptEntry_frame s p c
  rw [hkept]
  exact ⟨rfl, rfl, rfl⟩

variable {c} {p}

/-- R72, R84, R85: an entry that the plan names by record `q`. -/
theorem keptEntry_named {q : Planned} (h : planRecord p c = some q) :
    ((keptEntry s p c).planned = true ∧ (keptEntry s p c).symRate = q.symRate ∧ (keptEntry s p c).profile = q.profile ∧
      (keptEntry s p c).expected = q.expected ∧ (keptEntry s p c).removalPending = false) ∧
    (q.excluded = true → (keptEntry s p c).state = .excluded) ∧
    (q.excluded = false → c.state ≠ .excluded →
      (keptEntry s p c).state = c.state ∧ (keptEntry s p c).stateBefore = c.stateBefore) ∧
    (q.excluded = false → c.state = .excluded →
      (keptEntry s p c).state = .unsurveyed ∨ (c.hold ≠ none ∧ (keptEntry s p c).state = .acquiring)) ∧
    ∀ h, c.hold = some h → ∃ e, (keptEntry s p c).hold = some { h with ending := e } ∧
      (q.excluded = true → c.state ≠ .excluded → h.carry = false → e = true) ∧
        (q.excluded = false ∨ c.state = .excluded ∨ h.carry = true → e = (h.ending && !c.removalPending)) := by
  obtain ⟨hplanned, hrate, hprofile, hexpected, hpending, -⟩ := keptEntry_marks s p c
  obtain ⟨hstate, hbefore, hhold⟩ := keptEntry_condition s p c
  rw [committedEntry_eq, excludedAfter_named h, replanned_named h] at hstate hbefore hhold
  rw [replanned_named h] at hplanned hrate hprofile hexpected hpending
  refine ⟨⟨hplanned, hrate, hprofile, hexpected, hpending⟩, fun hx => ?_, fun hx hne => ?_, fun hx he => ?_,
    fun g hg => ?_⟩
  · rw [hstate, hx]
    exact applyExclusion_excluded ..
  · rw [hstate, hbefore, hx, applyExclusion_stays s (namedEntry q c) hne]
    exact ⟨rfl, rfl⟩
  · rw [hstate, hx]
    refine (applyExclusion_freed s (namedEntry q c) he).imp_right fun ⟨hheld, hacq⟩ => ⟨fun hnone => hheld ?_, hacq⟩
    simp [namedEntry, activeAgain, hnone]
  · have hactive : (namedEntry q c).hold = some { g with ending := g.ending && !c.removalPending } := by
      cases hp : c.removalPending <;> simp [namedEntry, activeAgain, hg, hp]
    rw [applyExclusion_hold, hactive] at hhold
    refine ⟨_, hhold, fun hx hne hc => ?_, fun hor => ?_⟩
    · simp [hx, hc, namedEntry, hne]
    · obtain hx | he | hc := hor
      · simp [hx]
      · simp [namedEntry, he]
      · simp [hc]

/-- R85: an entry that the plan does not name. -/
theorem keptEntry_unnamed (h : planRecord p c = none) :
    (keptEntry s p c).symRate = c.symRate ∧ (keptEntry s p c).profile = c.profile ∧
      (c.removalPending = true →
        (keptEntry s p c).removalPending = true ∧ (keptEntry s p c).planned = c.planned ∧
          (keptEntry s p c).hold = c.hold ∧ (keptEntry s p c).state = c.state) ∧
      (c.removalPending = false → c.discovered = true →
        (keptEntry s p c).removalPending = false ∧ (keptEntry s p c).planned = false ∧
          (keptEntry s p c).hold = c.hold ∧
            (keptEntry s p c).expected = (if c.planned then none else c.expected) ∧
              (c.state ≠ .excluded → (keptEntry s p c).state = c.state) ∧
                (c.state = .excluded → c.planned = true →
                  (keptEntry s p c).state = .unsurveyed ∨
                    (c.hold ≠ none ∧ (keptEntry s p c).state = .acquiring))) ∧
      (c.removalPending = false → c.discovered = false →
        (keptEntry s p c).removalPending = true ∧ (keptEntry s p c).planned = false ∧
          (keptEntry s p c).state = c.state ∧ (keptEntry s p c).services = [] ∧
            (keptEntry s p c).listStatus = .absent ∧ (keptEntry s p c).listTruncated = false ∧
              ∀ h, c.hold = some h → (keptEntry s p c).hold = some { h with ending := true }) := by
  obtain ⟨hplanned, hrate, hprofile, hexpected, hpending, hservices, hstatus, htruncated⟩ := keptEntry_marks s p c
  obtain ⟨hstate, -, hhold⟩ := keptEntry_condition s p c
  refine ⟨?rate, ?profile, fun hp => ?pending, fun hp hd => ?discovered, fun hp hd => ?lost⟩
  case rate =>
    rw [hrate]
    simp only [replanned, h]
    repeat' split
    all_goals rfl
  case profile =>
    rw [hprofile]
    simp only [replanned, h]
    repeat' split
    all_goals rfl
  case pending =>
    have hsame : committedEntry s p c = c := by simp [committedEntry, h, hp]
    rw [replanned_pending h hp] at hplanned hpending
    rw [hsame] at hstate hhold
    exact ⟨hpending.trans hp, hplanned, hhold, hstate⟩
  case discovered =>
    rw [committedEntry_eq, replanned_discovered h hp hd] at hstate hhold
    rw [replanned_discovered h hp hd] at hplanned hpending hexpected
    have hnot : (excludedAfter p c && decide (c.state ≠ .excluded)) = false := by
      cases hl : c.planned with
      | true => simp [excludedAfter_both h hp hd hl]
      | false => simp [excludedAfter_unnamed h (by simp [hl])]
    refine ⟨hpending.trans hp, hplanned, ?_, hexpected, fun hne => ?_, fun he hl => ?_⟩
    · exact hhold.trans (applyExclusion_hold_same hnot)
    · have hx : excludedAfter p c = false := by simpa [hne] using hnot
      rw [hstate, hx, applyExclusion_stays]
      exact hne
    · rw [hstate, excludedAfter_both h hp hd hl]
      exact applyExclusion_freed s _ he
  case lost =>
    have hlost : committedEntry s p c = pendingEntry c := by simp [committedEntry, h, hp, hd]
    rw [replanned_lost h hp hd] at hplanned hpending hservices hstatus htruncated
    rw [hlost] at hstate hhold
    refine ⟨hpending, hplanned, hstate, hservices, hstatus, htruncated, fun g hg => ?_⟩
    rw [hhold]
    simp [pendingEntry, endingHold, hg]

/-- R85: only the entry that loses its last mark loses its services. -/
theorem keptEntry_services (h : ¬(planRecord p c = none ∧ c.removalPending = false ∧ c.discovered = false)) :
    (keptEntry s p c).services = c.services ∧ (keptEntry s p c).listStatus = c.listStatus ∧
      (keptEntry s p c).listTruncated = c.listTruncated := by
  obtain ⟨-, -, -, -, -, hservices, hstatus, htruncated⟩ := keptEntry_marks s p c
  have hsame : (replanned p c).services = c.services ∧ (replanned p c).listStatus = c.listStatus ∧
      (replanned p c).listTruncated = c.listTruncated := by
    cases hr : planRecord p c with
    | some q =>
      rw [replanned_named hr]
      exact ⟨rfl, rfl, rfl⟩
    | none =>
      cases hp : c.removalPending with
      | true =>
        rw [replanned_pending hr hp]
        exact ⟨rfl, rfl, rfl⟩
      | false =>
        have hd : c.discovered = true := by simpa [hr, hp] using h
        rw [replanned_discovered hr hp hd]
        exact ⟨rfl, rfl, rfl⟩
  rw [hservices, hstatus, htruncated]
  exact hsame

theorem keptEntry_unheld (h : c.hold = none) : (keptEntry s p c).hold = none := by
  have hplan : (replanned p c).hold = none := by
    unfold replanned
    repeat' split
    all_goals simp [namedEntry, pendingEntry, activeAgain, endingHold, h]
  rw [(keptEntry_condition s p c).2.2, committedEntry_eq, applyExclusion_hold, hplan]
  rfl

/-- What the plan's marks leave of the measured values. -/
theorem replanned_measured :
    (replanned p c).state = c.state ∧ (replanned p c).meas = c.meas ∧ (replanned p c).history = c.history ∧
      (replanned p c).nextDue = c.nextDue ∧ (replanned p c).input = c.input := by
  obtain ⟨_, _, _, _, _, _, _, _, _, hplan⟩ := replanned_frame p c
  rw [hplan]
  exact ⟨rfl, rfl, rfl, rfl, rfl⟩

variable (c p)

/-- R84: the measured values before rescoring. -/
theorem committedEntry_measured :
    (committedEntry s p c).history = c.history ∧ (committedEntry s p c).input = c.input ∧
      ((committedEntry s p c).meas =
        if c.state ≠ .excluded ∧ (committedEntry s p c).state = .excluded then unscored c.meas else c.meas) ∧
        (committedEntry s p c).nextDue =
          if c.state = .excluded ∧ (committedEntry s p c).state ≠ .excluded then s.now else c.nextDue := by
  obtain ⟨hstate, hmeas, hhistory, hdue, hinput⟩ := replanned_measured (p := p) (c := c)
  obtain ⟨_, _, _, _, _, hexcl⟩ := applyExclusion_frame s (excludedAfter p c) (replanned p c)
  refine ⟨?_, ?_, ?_, ?_⟩
  · rw [committedEntry_eq, hexcl]
    exact hhistory
  · rw [committedEntry_eq, hexcl]
    exact hinput
  · rw [committedEntry_eq, applyExclusion_meas, hstate, hmeas]
  · rw [committedEntry_eq, applyExclusion_nextDue, hstate, hdue]

/-- R81: the change of plan reaches the entry `a`, which was `c`. -/
def Affected (old new : Plan) (c a : Carrier) : Prop :=
  let here := inputCode c.input
  c.meas ≠ none ∧
    ((old.profiles[a.profile]).reqMer ≠ (new.profiles[a.profile]).reqMer ∨ c.profile ≠ a.profile ∨
      (old.inputs[here]).bias ≠ (new.inputs[here]).bias ∨ (old.inputs[here]).winMin ≠ (new.inputs[here]).winMin ∨
        (old.inputs[here]).winMax ≠ (new.inputs[here]).winMax)

theorem rescores_committedEntry :
    rescores s.committed p c (committedEntry s p c) = true ↔ Affected s.plan.committed p c (keptEntry s p c) := by
  obtain ⟨-, hinput, hmeas, -⟩ := committedEntry_measured s p c
  obtain ⟨_, _, _, hkept⟩ := keptEntry_frame s p c
  have hmeasured : (committedEntry s p c).meas = none ↔ c.meas = none := by
    rw [hmeas]
    split
    · simp [unscored]
    · rfl
  rw [rescores_iff, hinput, hkept, ne_eq, hmeasured]
  rfl

/-- R83, R84: the next-due time, lowered to the new maximum age. -/
theorem keptEntry_nextDue :
    (keptEntry s p c).nextDue =
      let due := if c.state = .excluded ∧ (keptEntry s p c).state ≠ .excluded then s.clock.now else c.nextDue
      if p.params.maxAge < s.plan.committed.params.maxAge then min due (s.clock.now + p.params.maxAge) else due := by
  obtain ⟨-, -, -, hdue⟩ := committedEntry_measured s p c
  rw [(keptEntry_condition s p c).1]
  refine Eq.trans ?_ (congrArg (fun due => if p.params.maxAge < s.plan.committed.params.maxAge then
    min due (s.clock.now + p.params.maxAge) else due) hdue)
  rw [keptEntry_eq]
  rfl

variable {c p}

/-- R81: an entry affected has every margin moved by the change of the requirement, and its score formed afresh. -/
theorem keptEntry_affected (h : Affected s.plan.committed p c (keptEntry s p c)) :
    let shift : Int := ((s.plan.committed.profiles[c.profile]).reqMer : Int) -
      (p.profiles[(keptEntry s p c).profile]).reqMer
    (keptEntry s p c).history = c.history.map (fun n => { n with margin := n.margin + shift }) ∧
      ∀ m, c.meas = some m → (keptEntry s p c).meas = some
        { m with
          margin := m.margin + shift,
          score := if (keptEntry s p c).state = .verified then
            some (scoreOf (m.margin + shift) m.u m.level (keptEntry s p c).history p.inputs[inputCode c.input])
            else none } := by
  intro shift
  obtain ⟨hhistory, hinput, hmeas, -⟩ := committedEntry_measured s p c
  obtain ⟨_, _, _, hframe⟩ := keptEntry_frame s p c
  have hprofile : (committedEntry s p c).profile = (keptEntry s p c).profile := by rw [hframe]
  have hstate : (committedEntry s p c).state = (keptEntry s p c).state := by rw [hframe]
  have hrescored : rescoredFrom s.committed p c (committedEntry s p c) =
      rescoredEntry (p.inputCfg c.input) shift (committedEntry s p c) := by
    rw [rescoredFrom, if_pos ((rescores_committedEntry s p c).mpr h), hinput, hprofile]
    rfl
  have hkept := keptEntry_eq s p c
  rw [hrescored] at hkept
  have hmargins : (keptEntry s p c).history = c.history.map fun n => { n with margin := n.margin + shift } := by
    rw [hkept]
    simp only [rescoredEntry, hhistory]
  refine ⟨hmargins, fun m hm => ?_⟩
  have hbefore : ∃ x, (committedEntry s p c).meas = some { m with score := x } := by
    rw [hmeas, hm]
    split
    · exact ⟨none, rfl⟩
    · exact ⟨m.score, rfl⟩
  obtain ⟨x, hx⟩ := hbefore
  rw [hmargins, ← hstate, hkept]
  simp only [rescoredEntry, hhistory, hx]
  rfl

theorem keptEntry_unaffected (h : ¬Affected s.plan.committed p c (keptEntry s p c)) :
    (keptEntry s p c).history = c.history ∧
      (c.state ≠ .excluded → (keptEntry s p c).state = .excluded →
        (keptEntry s p c).meas = c.meas.map fun m => { m with score := none }) ∧
        (c.state = .excluded ∨ (keptEntry s p c).state ≠ .excluded → (keptEntry s p c).meas = c.meas) := by
  obtain ⟨hhistory, -, hmeas, -⟩ := committedEntry_measured s p c
  have hsame : rescoredFrom s.committed p c (committedEntry s p c) = committedEntry s p c :=
    if_neg (mt (rescores_committedEntry s p c).mp h)
  rw [keptEntry_eq, hsame]
  refine ⟨hhistory, fun hne he => ?_, fun hor => ?_⟩
  · exact hmeas.trans (if_pos ⟨hne, he⟩)
  · exact hmeas.trans (if_neg fun ⟨hne, he⟩ => hor.elim hne fun hne' => hne' he)

end

/-! ## The entries that stay (R65, R84 to R86) -/

theorem tabKeys_map {f : Nat × Carrier → Nat × Carrier} (h : ∀ e, (f e).1 = e.1) (t : Table Carrier) :
    tabKeys (t.map f) = tabKeys t := by
  rw [tabKeys, List.map_map]
  exact List.map_congr_left fun e _ => h e

/-- The entries that stay, each with what the plan and its exclusion make of it. -/
def committedTable (s : State) (p : Plan) (ev : List Nat) : Table Carrier :=
  ((goneAt p ev s.carriers).foldl (fun t i => removeEntry i t) s.carriers).map fun e => (e.1, committedEntry s p e.2)

/-- The table of a commit before the plan's new carriers are added. -/
def keptTable (s : State) (p : Plan) (ev : List Nat) : Table Carrier :=
  let t := (committedTable s p ev).map (rescoreOne s.committed p s.carriers)
  if p.params.maxAge < s.committed.params.maxAge then t.map fun e => (e.1, reclamp (s.now + p.params.maxAge) e.2) else t

theorem commitTable_added (s : State) (p : Plan) (ev : List Nat) :
    ((commitTable s p ev).table, (commitTable s p ev).added) =
      p.carriers.foldl (addPlanned s.now) (keptTable s p ev, []) := rfl

theorem commitTable_removed (s : State) (p : Plan) (ev : List Nat) :
    (commitTable s p ev).removed = goneAt p ev s.carriers := rfl

section
variable {s : State} (ht : CarrierLaw s.carriers) (p : Plan) (ev : List Nat) (i : Nat)
include ht

theorem mem_goneAt_iff :
    i ∈ goneAt p ev s.carriers ↔ ∃ c, tabGet s.carriers i = some c ∧
      (i ∈ ev ∨ (planRecord p c = none ∧ c.removalPending = false ∧ c.discovered = false ∧ c.hold = none)) := by
  rw [goneAt, mem_places_iff (tabWf_iff.mp ht.1).1]
  simp [losesLast_iff, and_assoc]

theorem rising_committedTable : (tabKeys (committedTable s p ev)).Pairwise (· < ·) := by
  rw [committedTable, tabKeys_map (f := fun e => (e.1, committedEntry s p e.2)) fun _ => rfl]
  exact (tabWf_iff.mp (carrierLaw_removeAll (goneAt p ev s.carriers) ht).1).1

omit ht in
theorem tabKeys_keptTable : tabKeys (keptTable s p ev) = tabKeys (committedTable s p ev) := by
  have hrescored : tabKeys ((committedTable s p ev).map (rescoreOne s.committed p s.carriers)) =
      tabKeys (committedTable s p ev) := tabKeys_map (fun e => (rescoreOne_key _ _ _ e).1) _
  unfold keptTable
  dsimp only
  split
  · exact (tabKeys_map (f := fun e => (e.1, reclamp (s.now + p.params.maxAge) e.2)) (fun _ => rfl) _).trans hrescored
  · exact hrescored

theorem rising_keptTable : (tabKeys (keptTable s p ev)).Pairwise (· < ·) := by
  rw [tabKeys_keptTable]
  exact rising_committedTable ht p ev

/-- The entries that stay, without a lister that leaves. -/
theorem tabGet_committedTable :
    tabGet (committedTable s p ev) i =
      if i ∈ goneAt p ev s.carriers then none
      else (tabGet s.carriers i).map fun c => committedEntry s p (withoutListers (goneAt p ev s.carriers) c) := by
  rw [committedTable, tabGet_map (f := fun e => (e.1, committedEntry s p e.2)) (fun _ => rfl), tabGet_removeAll ht]
  split
  · rfl
  · rw [Option.map_map]
    rfl

theorem tabGet_keptTable :
    tabGet (keptTable s p ev) i =
      if i ∈ goneAt p ev s.carriers then none
      else (tabGet s.carriers i).map fun c => keptEntry s p (withoutListers (goneAt p ev s.carriers) c) := by
  have hrescored : tabGet ((committedTable s p ev).map (rescoreOne s.committed p s.carriers)) i =
      if i ∈ goneAt p ev s.carriers then none
      else (tabGet s.carriers i).map fun c =>
        rescoredFrom s.committed p c (committedEntry s p (withoutListers (goneAt p ev s.carriers) c)) := by
    rw [tabGet_map fun e => (rescoreOne_key _ _ _ e).1, tabGet_committedTable ht]
    split
    · rfl
    · cases hc : tabGet s.carriers i with
      | none => rfl
      | some c => simp only [Option.map_some, rescoreOne_eq hc]
  unfold keptTable keptEntry
  dsimp only
  split
  · rw [tabGet_map (f := fun e => (e.1, reclamp (s.now + p.params.maxAge) e.2)) (fun _ => rfl), hrescored]
    split
    · rfl
    · rw [Option.map_map]
      rfl
  · exact hrescored

theorem mem_rescored_iff {c : Carrier} (hc : tabGet s.carriers i = some c) (hstays : i ∉ goneAt p ev s.carriers) :
    i ∈ (commitTable s p ev).rescored ↔
      Affected s.plan.committed p c (keptEntry s p (withoutListers (goneAt p ev s.carriers) c)) := by
  refine (mem_places_iff (rising_committedTable ht p ev) _ i).trans ?_
  rw [tabGet_committedTable ht, if_neg hstays, hc]
  simp only [Option.map_some, Option.some.injEq, exists_eq_left', hc]
  exact rescores_committedEntry s p (withoutListers (goneAt p ev s.carriers) c)

end

/-! ## The carriers a commit adds (R71, R72) -/

/-- No entry of the table has the key of `q`. -/
def Keyless (t : Table Carrier) (q : Planned) : Prop :=
  ∀ i c, tabGet t i = some c → ¬(q.input = c.input ∧ q.freq = c.freq)

theorem carrierIndex_eq_none_iff {t : Table Carrier} (hs : (tabKeys t).Pairwise (· < ·)) {q : Planned} :
    carrierIndex t q.input q.freq = none ↔ Keyless t q := by
  constructor
  · intro h i c hc hkey
    exact (key_ne_of_carrierIndex h (i, c) (mem_of_tabGet hc)).elim (· hkey.1) (· hkey.2)
  · exact fun h => carrierIndex_absent fun e he hkey => h e.1 e.2 (tabGet_of_mem hs he) ⟨hkey.1.symm, hkey.2.symm⟩

section
variable {now : Nat} {r : Table Carrier × List Nat} (hs : (tabKeys r.1).Pairwise (· < ·)) {q : Planned}
include hs

theorem addPlanned_absent (h : Keyless r.1 q) :
    addPlanned now r q = (tabPut r.1 (tabFree r.1) (plannedEntry now q), r.2 ++ [tabFree r.1]) := by
  simp only [addPlanned, (carrierIndex_eq_none_iff hs).mpr h]

theorem addPlanned_present (h : ¬Keyless r.1 q) : addPlanned now r q = r := by
  unfold addPlanned
  split
  · rfl
  · next hnone => exact absurd ((carrierIndex_eq_none_iff hs).mp hnone) h

theorem addPlanned_rising : (tabKeys (addPlanned now r q).1).Pairwise (· < ·) := by
  by_cases h : Keyless r.1 q
  · rw [addPlanned_absent hs h]
    exact tabKeys_tabPut_rising _ _ hs
  · rwa [addPlanned_present hs h]

theorem tabGet_tabFree : tabGet r.1 (tabFree r.1) = none := tabGet_eq_none_iff.mpr (tabFree_spec hs).2.1

/-- R71: the place taken is free, so that an addition leaves every entry. -/
theorem addPlanned_grows {i : Nat} {c : Carrier} (hc : tabGet r.1 i = some c) :
    tabGet (addPlanned now r q).1 i = some c := by
  by_cases h : Keyless r.1 q
  · have hne : i ≠ tabFree r.1 := by
      rintro rfl
      cases (tabGet_tabFree hs).symm.trans hc
    rw [addPlanned_absent hs h]
    exact (tabGet_tabPut_ne _ _ _ _ hne).trans hc
  · rwa [addPlanned_present hs h]

/-- What an addition shows of the table after it. -/
theorem tabGet_addPlanned {i : Nat} {c : Carrier} (hc : tabGet (addPlanned now r q).1 i = some c) :
    tabGet r.1 i = some c ∨ (c = plannedEntry now q ∧ i ∈ (addPlanned now r q).2) := by
  by_cases h : Keyless r.1 q
  · rw [addPlanned_absent hs h] at hc ⊢
    by_cases hi : i = tabFree r.1
    · subst hi
      exact .inr ⟨Option.some.inj (hc.symm.trans (tabGet_tabPut ..)), by simp⟩
    · exact .inl ((tabGet_tabPut_ne _ _ _ _ hi).symm.trans hc)
  · rw [addPlanned_present hs h] at hc
    exact .inl hc

end

/-- What the additions of the planned carriers `l` make of the table and of the places added. -/
structure Additions (now : Nat) (l : List Planned) (r u : Table Carrier × List Nat) : Prop where
  grows : ∀ i c, tabGet r.1 i = some c → tabGet u.1 i = some c
  keeps : ∀ i ∈ r.2, i ∈ u.2
  fresh : ∀ i c, tabGet u.1 i = some c → tabGet r.1 i = some c ∨ i ∈ u.2
  lowest : ∀ i ∈ u.2, i ∈ r.2 ∨
    (tabGet r.1 i = none ∧ (∀ j, j < i → tabGet u.1 j ≠ none) ∧
      ∃ q ∈ l, Keyless r.1 q ∧ tabGet u.1 i = some (plannedEntry now q))

theorem additions_one {now : Nat} {r : Table Carrier × List Nat} (hs : (tabKeys r.1).Pairwise (· < ·)) (q : Planned) :
    Additions now [q] r (addPlanned now r q) := by
  refine ⟨fun i c => addPlanned_grows hs, fun i hi => ?_, fun i c hc => (tabGet_addPlanned hs hc).imp_right And.right,
    fun i hi => ?_⟩
  · by_cases h : Keyless r.1 q
    · rw [addPlanned_absent hs h]
      exact List.mem_append_left _ hi
    · rwa [addPlanned_present hs h]
  · by_cases h : Keyless r.1 q
    · rw [addPlanned_absent hs h] at hi ⊢
      refine (List.mem_append.mp hi).imp_right fun hmem => ?_
      obtain rfl : i = tabFree r.1 := List.mem_singleton.mp hmem
      obtain ⟨-, -, htaken⟩ := tabFree_spec hs
      refine ⟨tabGet_tabFree hs, fun j hj => ?_, q, List.mem_singleton_self q, h, tabGet_tabPut ..⟩
      rw [tabGet_tabPut_ne _ _ _ _ (Nat.ne_of_lt hj)]
      exact fun hnone => tabGet_eq_none_iff.mp hnone (htaken j hj)
    · rw [addPlanned_present hs h] at hi
      exact .inl hi

theorem Additions.cons {now : Nat} {q : Planned} {l : List Planned} {r v u : Table Carrier × List Nat}
    (h : Additions now [q] r v) (k : Additions now l v u) : Additions now (q :: l) r u := by
  refine ⟨fun i c hc => k.grows i c (h.grows i c hc), fun i hi => k.keeps i (h.keeps i hi), fun i c hc => ?_,
    fun i hi => ?_⟩
  · obtain hv | hu := k.fresh i c hc
    · exact (h.fresh i c hv).imp_right (k.keeps i)
    · exact .inr hu
  · obtain hv | ⟨hfree, hlow, x, hx, hkeyless, hget⟩ := k.lowest i hi
    · refine (h.lowest i hv).imp_right fun ⟨hfree, hlow, x, hx, hkeyless, hget⟩ => ⟨hfree, fun j hj => ?_, x, ?_⟩
      · obtain ⟨c, hc⟩ := Option.ne_none_iff_exists'.mp (hlow j hj)
        simp [k.grows j c hc]
      · exact ⟨List.mem_singleton.mp hx ▸ List.mem_cons_self, hkeyless, k.grows _ _ hget⟩
    · refine .inr ⟨?_, hlow, x, List.mem_cons_of_mem _ hx, fun j c hc => hkeyless j c (h.grows j c hc), hget⟩
      by_contra hsome
      obtain ⟨c, hc⟩ := Option.ne_none_iff_exists'.mp hsome
      cases hfree.symm.trans (h.grows i c hc)

theorem additions_foldl {now : Nat} (l : List Planned) {r : Table Carrier × List Nat}
    (hs : (tabKeys r.1).Pairwise (· < ·)) : Additions now l r (l.foldl (addPlanned now) r) := by
  induction l generalizing r with
  | nil => exact ⟨fun _ _ h => h, fun _ h => h, fun _ _ h => .inl h, fun _ h => .inl h⟩
  | cons q l ih => exact (additions_one hs q).cons (ih (addPlanned_rising hs))

/-- R72: a carrier whose key has no entry is added, when no key is planned twice. -/
theorem foldl_addPlanned_adds {now : Nat} {l : List Planned} {r : Table Carrier × List Nat}
    (hs : (tabKeys r.1).Pairwise (· < ·)) (hl : l.Pairwise fun a b => a.input ≠ b.input ∨ a.freq ≠ b.freq)
    {q : Planned} (hq : q ∈ l) (h : Keyless r.1 q) :
    ∃ i ∈ (l.foldl (addPlanned now) r).2, tabGet (l.foldl (addPlanned now) r).1 i = some (plannedEntry now q) := by
  induction l generalizing r with
  | nil => cases hq
  | cons x l ih =>
    obtain ⟨hx, hrest⟩ := List.pairwise_cons.mp hl
    have hs1 : (tabKeys (addPlanned now r x).1).Pairwise (· < ·) := addPlanned_rising hs
    obtain rfl | hq := List.mem_cons.mp hq
    · have hadded := additions_foldl (now := now) l hs1
      refine ⟨tabFree r.1, hadded.keeps _ ?_, hadded.grows _ _ ?_⟩
      · rw [addPlanned_absent hs h]
        simp
      · rw [addPlanned_absent hs h]
        exact tabGet_tabPut ..
    · refine ih hs1 hrest hq fun i c hc hkey => ?_
      obtain hold | ⟨rfl, -⟩ := tabGet_addPlanned hs hc
      · exact h i c hold hkey
      · exact (hx q hq).elim (· hkey.1.symm) (· hkey.2.symm)

/-! ## The table of a commit -/

section
variable {s : State} (ht : CarrierLaw s.carriers) (p : Plan) (ev : List Nat)
include ht

theorem commitTable_additions :
    Additions s.now p.carriers (keptTable s p ev, []) ((commitTable s p ev).table, (commitTable s p ev).added) := by
  rw [commitTable_added]
  exact additions_foldl _ (rising_keptTable ht p ev)

variable {p ev}

theorem commitTable_stays {i : Nat} {c : Carrier} (hc : tabGet s.carriers i = some c)
    (hstays : i ∉ goneAt p ev s.carriers) :
    tabGet (commitTable s p ev).table i = some (keptEntry s p (withoutListers (goneAt p ev s.carriers) c)) ∧
      i ∉ (commitTable s p ev).added := by
  have hadded := commitTable_additions ht p ev
  have hkept : tabGet (keptTable s p ev) i = some (keptEntry s p (withoutListers (goneAt p ev s.carriers) c)) := by
    rw [tabGet_keptTable ht, if_neg hstays, hc]
    rfl
  refine ⟨hadded.grows i _ hkept, fun hi => ?_⟩
  obtain hnil | ⟨hfree, -⟩ := hadded.lowest i hi
  · cases hnil
  · cases hfree.symm.trans hkept

theorem commitTable_leaves {i : Nat} {a : Carrier} (hgone : i ∈ goneAt p ev s.carriers)
    (ha : tabGet (commitTable s p ev).table i = some a) : i ∈ (commitTable s p ev).added := by
  refine ((commitTable_additions ht p ev).fresh i a ha).resolve_left fun hkept => ?_
  rw [tabGet_keptTable ht, if_pos hgone] at hkept
  cases hkept

/-- R86: an entry that leaves is not named by the plan. -/
theorem unnamed_of_gone (hev : evictions p s.carriers = some ev) {i : Nat} {c : Carrier}
    (hc : tabGet s.carriers i = some c) (hgone : i ∈ goneAt p ev s.carriers) : planRecord p c = none := by
  obtain ⟨d, hd, hor⟩ := (mem_goneAt_iff ht p ev i).mp hgone
  obtain rfl : c = d := Option.some.inj (hc.symm.trans hd)
  obtain hmem | ⟨hnone, -⟩ := hor
  · obtain ⟨e, he, rfl, hdiscovered⟩ := (evictions_spec (tabWf_iff.mp ht.1).1 hev).2.2 i hmem
    obtain rfl : c = e.2 := Option.some.inj (hc.symm.trans (tabGet_of_mem (tabWf_iff.mp ht.1).1 he))
    exact (discoveredAfter_iff.mp hdiscovered).1
  · exact hnone

/-- R71, R72: the keys without an entry before the evictions are those without one after them. -/
theorem keyless_keptTable_iff (hev : evictions p s.carriers = some ev) {q : Planned} (hq : q ∈ p.carriers) :
    Keyless (keptTable s p ev) q ↔ Keyless s.carriers q := by
  constructor
  · intro h i c hc hkey
    have hstays : i ∉ goneAt p ev s.carriers := fun hgone =>
      planRecord_eq_none_iff.mp (unnamed_of_gone ht hev hc hgone) q hq hkey
    obtain ⟨⟨hinput, hfreq, -⟩, -⟩ := keptEntry_keeps s p (withoutListers (goneAt p ev s.carriers) c)
    refine h i (keptEntry s p (withoutListers (goneAt p ev s.carriers) c)) ?_
      ⟨hkey.1.trans hinput.symm, hkey.2.trans hfreq.symm⟩
    rw [tabGet_keptTable ht, if_neg hstays, hc]
    rfl
  · intro h i a ha hkey
    rw [tabGet_keptTable ht] at ha
    split at ha
    · cases ha
    · obtain ⟨c, hc, rfl⟩ := Option.map_eq_some_iff.mp ha
      obtain ⟨⟨hinput, hfreq, -⟩, -⟩ := keptEntry_keeps s p (withoutListers (goneAt p ev s.carriers) c)
      exact h i c hc ⟨hkey.1.trans hinput, hkey.2.trans hfreq⟩

end

/-- R65: the lister of an entry is the one it had, unless that one is among the places freed. -/
theorem withoutListers_freed (l : List Nat) (c : Carrier) :
    (c.lister = none → (withoutListers l c).lister = none) ∧
      ∀ y, c.lister = some y → (y ∈ l → (withoutListers l c).lister = none) ∧
        (y ∉ l → (withoutListers l c).lister = some y) := by
  refine ⟨fun h => by simp [withoutListers, h], fun y h => ⟨fun hy => ?_, fun hy => ?_⟩⟩
  · simp [withoutListers, h, hy]
  · simp [withoutListers, h, hy]

theorem unnamed_iff {p : Plan} {c : Carrier} :
    (∀ q, ¬(q ∈ p.carriers ∧ q.input = c.input ∧ q.freq = c.freq)) ↔ planRecord p c = none := by
  rw [planRecord_eq_none_iff]
  exact forall_congr' fun q => not_and

/-- Settles O32: the capacity check by `evictions_eq`; the entries that stay by `keptEntry`, the carriers added by
`Additions`. -/
theorem capacityAtCommit : Obligations.CapacityAtCommit := by
  unfold Obligations.CapacityAtCommit
  refine ⟨fun p t ht => ?check, fun s p ev ht hev hp => ?table⟩
  case check =>
    intro named discoveredOnly pending
    have hs := (tabWf_iff.mp ht.1).1
    have hunnamed (c : Carrier) : planRecord p c = none ↔ ¬named c := by
      rw [planRecord_eq_none_iff]
      simp [named]
    have hdiscovered (e : Nat × Carrier) : discoveredAfter p e.2 = true ↔ discoveredOnly e := by
      rw [discoveredAfter_iff, hunnamed]
    have hpending (e : Nat × Carrier) : pendingAfter p e.2 = true ↔ pending e := by
      rw [pendingAfter_iff, hunnamed]
    refine ⟨t.filter fun e => discoveredAfter p e.2 || pendingAfter p e.2, evictableEntries p t, List.filter_sublist,
      fun e he => ?_, fun e => ?_, evictable_pairwise hs, ?_⟩
    · rw [List.mem_filter, Bool.or_eq_true, hdiscovered, hpending]
      exact and_iff_right he
    · rw [mem_evictable_iff, hdiscovered]
    · exact ⟨fun hle => (evictions_eq p t).trans (if_pos hle), fun hlt => (evictions_eq p t).trans
        (if_neg (Nat.not_le.mpr hlt))⟩
  case table =>
    intro old r names unnamed gone
    have hgone {i : Nat} {c : Carrier} (hc : tabGet s.carriers i = some c) : i ∈ goneAt p ev s.carriers ↔ gone i c := by
      rw [mem_goneAt_iff ht]
      simp only [hc, Option.some.injEq, exists_eq_left', ← unnamed_iff]
      rfl
    refine ⟨fun i => ?removed, fun i c a hc hg ha => commitTable_leaves ht ((hgone hc).mpr hg) ha,
      fun i c hc hg => ?stays, fun q hq hnew => ?adds, fun i hi => ?added⟩
    case removed =>
      rw [commitTable_removed, mem_goneAt_iff ht]
      simp only [← unnamed_iff]
      rfl
    case stays =>
      have hstays : i ∉ goneAt p ev s.carriers := mt (hgone hc).mp hg
      obtain ⟨hget, hnot⟩ := commitTable_stays ht hc hstays
      obtain ⟨hkeeps, hlister⟩ := keptEntry_keeps s p (withoutListers (goneAt p ev s.carriers) c)
      refine ⟨_, hget, hnot, hkeeps, ?_, fun q hq => ?_, fun hnone => ?_, fun hother => ?_, fun hfree => ?_, ?_⟩
      · rw [hlister]
        exact withoutListers_freed _ c
      · exact keptEntry_named (c := withoutListers _ c) s (planRecord_eq_some hp hq.1 hq.2)
      · exact keptEntry_unnamed (c := withoutListers _ c) s (unnamed_iff.mp hnone)
      · exact keptEntry_services (c := withoutListers _ c) s fun h => hother ⟨unnamed_iff.mpr h.1, h.2⟩
      · exact keptEntry_unheld (c := withoutListers _ c) s hfree
      · exact ⟨keptEntry_nextDue s p (withoutListers _ c), mem_rescored_iff ht p ev i hc hstays,
          keptEntry_affected (c := withoutListers _ c) s, keptEntry_unaffected (c := withoutListers _ c) s⟩
    case adds =>
      have hkeyless : Keyless s.carriers q := fun i c hc hkey => hnew i c hc ⟨hq, hkey⟩
      have hadds := foldl_addPlanned_adds (now := s.now) (r := (keptTable s p ev, [])) (rising_keptTable ht p ev) hp hq
        ((keyless_keptTable_iff ht hev hq).mpr hkeyless)
      rw [← commitTable_added] at hadds
      exact hadds
    case added =>
      obtain hnil | ⟨-, hlow, q, hq, hkeyless, hget⟩ := (commitTable_additions ht p ev).lowest i hi
      · cases hnil
      · exact ⟨hlow, q, hq, fun j c hc hnames => (keyless_keptTable_iff ht hev hq).mp hkeyless j c hc hnames.2, _, hget,
          rfl, rfl⟩

/-! ## The pass through the reports and the ends of surveys (R105, R106) -/

/-- The pass of the state stands as it was. -/
def SamePass (s t : State) : Prop := t.sched.pass = s.sched.pass

theorem SamePass.trans {s t u : State} (h : SamePass s t) (k : SamePass t u) : SamePass s u := Eq.trans k h

theorem Ranks.samePass {s t : State} (h : Ranks s t) : SamePass s t := congrArg Scheduler.pass h.sameSched

theorem samePass_foldl {β : Type} {f : State → β → State} (h : ∀ s b, SamePass s (f s b)) (l : List β) (s : State) :
    SamePass s (l.foldl f s) := by
  induction l generalizing s with
  | nil => rfl
  | cons b l ih => exact (h s b).trans (ih (f s b))

theorem samePass_leaveSet (i : Nat) (s : State) : SamePass s (leaveSet i s) := by
  unfold leaveSet
  split
  · rfl
  · rfl

theorem samePass_searchDue (s : State) : SamePass s (searchDue s) := rfl

theorem samePass_reportRemoval (s : State) (e : Nat × Carrier) : SamePass s (reportRemoval s e) :=
  (samePass_leaveSet e.1 (dropUrgent e.1 s)).trans
    (((ranks_offer ..).trans (ranks_handPair ..)).trans (ranks_rankRemoval ..)).samePass

theorem samePass_reportAddition (s : State) (i : Nat) : SamePass s (reportAddition s i) := by
  unfold reportAddition
  split
  · rfl
  · exact ((ranks_offer ..).trans (ranks_handPair ..)).samePass.trans (samePass_searchDue _)

theorem samePass_reportChanges (old : Table Carrier) (removed added : List Nat) (forced : Nat → Bool)
    (counts : Nat → Option DiscoveryCounts) (wasStale : Carrier → Bool) (s : State) :
    SamePass s (reportChanges old removed added forced counts wasStale s) :=
  ((samePass_foldl samePass_reportRemoval ..).trans
    (samePass_foldl (fun _ _ => (ranks_reportCarrier ..).samePass) _ _)).trans
      (samePass_foldl samePass_reportAddition ..)

theorem samePass_changeCarrier (i : Nat) (f : Carrier → Carrier) (s : State) : SamePass s (changeCarrier i f s) := by
  unfold changeCarrier
  split
  · rfl
  · exact (ranks_reportCarrier ..).samePass

theorem samePass_removeCarrier (i : Nat) (s : State) : SamePass s (removeCarrier i s) :=
  samePass_reportChanges _ _ _ _ _ _ (s.setCarriers (removeEntry i s.carriers))

theorem samePass_endHold (i : Nat) (j : Fin 8) (g : Carrier → Carrier) (s : State) : SamePass s (endHold i j g s) := by
  unfold endHold
  split
  · rfl
  · split
    · rfl
    · split
      · rfl
      · split
        · split
          · exact samePass_removeCarrier i (putCarrier i _ s)
          · exact (samePass_changeCarrier ..).trans (samePass_searchDue _)
        · exact (samePass_changeCarrier ..).trans (samePass_searchDue _)

theorem samePass_changeSlot (i : Fin 8) (f : Slot → Slot) (s : State) : SamePass s (changeSlot i f s) :=
  (changeSlot_ranks i f s).samePass

theorem samePass_grantReference (s : State) : SamePass s (grantReference s) := by
  unfold grantReference
  split
  · exact samePass_changeSlot ..
  · rfl

theorem samePass_joinReference (s : State) (i : Fin 8) : SamePass s (joinReference s i) := by
  unfold joinReference
  split
  · exact (samePass_changeSlot i _ (s.setReference { s.reference with queue := s.reference.queue ++ [i] })).trans
      (samePass_grantReference _)
  · rfl

theorem samePass_drawOrder {α : Type} (l : List α) (s : State) : SamePass s (drawOrder l s).2 := by
  unfold drawOrder
  dsimp only
  split
  · rfl
  · rfl

theorem samePass_passReference (s : State) : SamePass s (passReference s) :=
  (samePass_grantReference s).trans ((samePass_drawOrder ..).trans (samePass_foldl samePass_joinReference ..))

theorem samePass_enterReleasing (i : Fin 8) (hold offline : Bool) (s : State) :
    SamePass s (enterReleasing i hold offline s) := by
  have hchange : SamePass s (changeSlot i (freedSlot hold offline) (s.setReference (quitReference i s.reference))) :=
    samePass_changeSlot i _ (s.setReference (quitReference i s.reference))
  unfold enterReleasing leaveLocked
  dsimp only
  split
  · exact hchange.trans (samePass_passReference _)
  · exact hchange

theorem samePass_returnUrgent (x : Nat) (s : State) : SamePass s (returnUrgent x s) := by
  unfold returnUrgent
  split
  · rfl
  · rfl

theorem samePass_endSurvey (i : Fin 8) (reason : EndReason) (s : State) : SamePass s (endSurvey i reason s) := by
  unfold endSurvey
  split
  · rfl
  · dsimp only
    split
    · exact samePass_returnUrgent ..
    · rfl

theorem samePass_endCarry (x : Nat) (asked : Bool) (s : State) : SamePass s (endCarry x asked s) := by
  unfold endCarry
  split
  · split
    · exact (ranks_recomputeRooms (closeRecord x s)).samePass.trans (ranks_endOfCarry ..).samePass
    · exact (ranks_recomputeRooms s).samePass
  · exact (ranks_recomputeRooms (closeRecord x s)).samePass.trans
      ((ranks_carryLost ..).trans (ranks_grantFailed ..)).samePass

theorem samePass_reportEnd (b : Slot) (i : Fin 8) (x : Nat) (reason : EndReason) (asked : Bool) (s : State) :
    SamePass s (reportEnd b i x reason asked s) := by
  unfold reportEnd
  split
  · rfl
  · dsimp only
    split
    · exact (samePass_endSurvey ..).trans (samePass_endCarry ..)
    · exact samePass_endSurvey ..
  · exact samePass_endCarry ..

theorem samePass_releaseWork (i : Fin 8) (hold offline : Bool) (reason : EndReason) (asked : Bool) (s : State) :
    SamePass s (releaseWork i hold offline reason asked s) := by
  have hfreed := samePass_enterReleasing i hold offline s
  unfold releaseWork
  dsimp only
  split
  · exact hfreed
  · refine (hfreed.trans ?_).trans (samePass_reportEnd ..)
    split
    · exact samePass_endHold ..
    · exact samePass_endHold ..

/-! ## The ends of surveys that the table asks for (R101) -/

/-- R30, R32: a RELEASE of the scheduler is not taken, or frees the slot. -/
theorem releaseSlot_scheduler (i : Fin 8) (s : State) :
    (releaseSlot .scheduler false i s).1 = s ∨
      ∃ reason, (releaseSlot .scheduler false i s).1 = releaseWork i false false reason false s := by
  unfold releaseSlot
  dsimp only
  split
  · exact .inl rfl
  · split
    · exact .inr ⟨_, rfl⟩
    · exact .inr ⟨_, rfl⟩
    · exact .inr ⟨_, rfl⟩
    · exact .inl rfl
    · exact .inl rfl
    · exact .inl rfl
    · exact .inl rfl

/-- R101: the table's request leaves the state, marks a survey that ends, or frees the slot. -/
theorem endSurveyByTable_cases (i : Fin 8) (s : State) :
    endSurveyByTable i s = s ∨
      ∃ r q, s.sched.surveys[i] = some r ∧ (endSurveyByTable i s = putSurvey i (some q) s ∨
        ∃ reason, endSurveyByTable i s = releaseWork i false false reason false (putSurvey i (some q) s)) := by
  unfold endSurveyByTable
  split
  · exact .inl rfl
  · next r hr =>
    refine .inr ⟨r, ?_⟩
    split
    · exact ⟨_, hr, .inl rfl⟩
    · exact ⟨_, hr, releaseSlot_scheduler ..⟩
    · exact ⟨_, hr, releaseSlot_scheduler ..⟩

theorem samePass_endSurveyByTable (i : Fin 8) (s : State) : SamePass s (endSurveyByTable i s) := by
  obtain he | ⟨r, q, -, he | ⟨reason, he⟩⟩ := endSurveyByTable_cases i s
  · rw [he]
    rfl
  · rw [he]
    rfl
  · rw [he]
    exact samePass_releaseWork i false false reason false (putSurvey i (some q) s)

/-! ## Entries that lose a lister at most (R65) -/

/-- R65: a lister, `b` in table `t`, is `l` in table `u`: it stays while its entry is there. -/
def ListerKept (t u : Table Carrier) (b l : Option Nat) : Prop :=
  (b = none → l = none) ∧
    ∀ y, b = some y → (tabGet u y ≠ none → l = some y) ∧ (tabGet t y ≠ none → tabGet u y = none → l = none)

/-- No entry has come into the table. -/
def Shrinks (t u : Table Carrier) : Prop := ∀ y, tabGet t y = none → tabGet u y = none

/-- The entry at `i` is `c` after a change of the table from `t` to `u`, but for a lister that left. -/
def StaysAt (t u : Table Carrier) (i : Nat) (c : Carrier) : Prop :=
  ∃ l, tabGet u i = some { c with lister := l } ∧ ListerKept t u c.lister l

theorem ListerKept.trans {t u v : Table Carrier} {b l m : Option Nat} (h : ListerKept t u b l) (k : ListerKept u v l m)
    (hshrinks : Shrinks u v) : ListerKept t v b m := by
  obtain ⟨hnone, hsome⟩ := h
  obtain ⟨knone, ksome⟩ := k
  refine ⟨fun hb => knone (hnone hb), fun y hb => ?_⟩
  obtain ⟨hin, hout⟩ := hsome y hb
  refine ⟨fun hv => ?_, fun ht hv => ?_⟩
  · exact (ksome y (hin (mt (hshrinks y) hv))).1 hv
  · by_cases hu : tabGet u y = none
    · exact knone (hout ht hu)
    · exact (ksome y (hin hu)).2 hu hv

theorem ListerKept.of_stays {t u : Table Carrier} (h : ∀ y, tabGet u y = none → tabGet t y = none) (b : Option Nat) :
    ListerKept t u b b := ⟨id, fun y hb => ⟨fun _ => hb, fun ht hu => absurd (h y hu) ht⟩⟩

theorem StaysAt.refl {t : Table Carrier} {i : Nat} {c : Carrier} (h : tabGet t i = some c) : StaysAt t t i c :=
  ⟨c.lister, h, .of_stays (fun _ => id) _⟩

theorem StaysAt.trans {t u v : Table Carrier} {i : Nat} {c : Carrier} (h : StaysAt t u i c)
    (k : ∀ l, tabGet u i = some { c with lister := l } → StaysAt u v i { c with lister := l })
    (hshrinks : Shrinks u v) : StaysAt t v i c := by
  obtain ⟨l, hl, hkept⟩ := h
  obtain ⟨m, hm, kkept⟩ := k l hl
  exact ⟨m, hm, hkept.trans kkept hshrinks⟩

theorem Shrinks.trans {t u v : Table Carrier} (h : Shrinks t u) (k : Shrinks u v) : Shrinks t v :=
  fun y hy => k y (h y hy)

section
variable {t : Table Carrier} {x : Nat} {c : Carrier} (hc : tabGet t x = some c) (d : Carrier)
include hc

/-- A write at a place taken takes no entry away and brings none in. -/
theorem tabGet_tabPut_none_iff (y : Nat) : tabGet (tabPut t x d) y = none ↔ tabGet t y = none := by
  by_cases hy : y = x
  · subst hy
    simp [tabGet_tabPut, hc]
  · rw [tabGet_tabPut_ne _ _ _ _ hy]

theorem shrinks_tabPut : Shrinks t (tabPut t x d) := fun y => (tabGet_tabPut_none_iff hc d y).mpr

theorem staysAt_tabPut {i : Nat} {e : Carrier} (hi : i ≠ x) (he : tabGet t i = some e) : StaysAt t (tabPut t x d) i e :=
  ⟨e.lister, (tabGet_tabPut_ne _ _ _ _ hi).trans he, .of_stays (fun y => (tabGet_tabPut_none_iff hc d y).mp) _⟩

theorem staysAt_written : StaysAt t (tabPut t x d) x d :=
  ⟨d.lister, tabGet_tabPut .., .of_stays (fun y => (tabGet_tabPut_none_iff hc d y).mp) _⟩

end

/-- R65: removals take from an entry a lister that leaves, and nothing else. -/
theorem staysAt_removeAll {t : Table Carrier} (ht : CarrierLaw t) {l : List Nat} {i : Nat} {c : Carrier} (hi : i ∉ l)
    (hc : tabGet t i = some c) : StaysAt t (l.foldl (fun t i => removeEntry i t) t) i c := by
  refine ⟨(withoutListers l c).lister, ?_, fun hnone => by simp [withoutListers, hnone], fun y hy => ?_⟩
  · rw [tabGet_removeAll ht, if_neg hi, hc]
    rfl
  · rw [tabGet_removeAll ht]
    by_cases hmem : y ∈ l
    · simp [withoutListers, hy, hmem]
    · simp [withoutListers, hy, hmem]

theorem shrinks_removeAll {t : Table Carrier} (ht : CarrierLaw t) (l : List Nat) :
    Shrinks t (l.foldl (fun t i => removeEntry i t) t) := by
  intro y hy
  rw [tabGet_removeAll ht, hy]
  simp

/-! ## The end of a hold, in the table (R73, R85) -/

/-- The table after the end of slot `j`'s hold on the entry at `x`: the entry leaves, or is written unheld. -/
theorem endHold_held {x : Nat} {j : Fin 8} {s : State} {c : Carrier} {h : Hold} (g : Carrier → Carrier)
    (hc : s.carrier x = some c) (hh : c.hold = some h) (hj : h.slot = j) :
    (h.ending = true ∧ c.removalPending = true ∧
        (endHold x j g s).carriers = removeEntry x (tabPut s.carriers x { c with hold := none })) ∨
      (h.ending = true ∧ c.removalPending = false ∧
        (endHold x j g s).carriers = tabPut s.carriers x { c with hold := none }) ∨
      (h.ending = false ∧ (endHold x j g s).carriers = tabPut s.carriers x { g c with hold := none }) := by
  simp only [endHold, hc, hh, hj, ne_eq, not_true_eq_false, if_false]
  split
  · next hending =>
    split
    · next hpending => exact .inl ⟨hending, hpending, (tells_reportChanges ..).carriers⟩
    · next hstays =>
      exact .inr (.inl ⟨hending, Bool.eq_false_iff.mpr hstays,
        (changeCarrier_tells (f := fun c => { c with hold := none }) hc).carriers⟩)
  · next hactive =>
    exact .inr (.inr ⟨Bool.eq_false_iff.mpr hactive,
      (changeCarrier_tells (f := fun c => { g c with hold := none }) hc).carriers⟩)

/-- A hold that slot `j` does not have does not end. -/
theorem endHold_or_held (x : Nat) (j : Fin 8) (g : Carrier → Carrier) (s : State) :
    endHold x j g s = s ∨ ∃ c h, s.carrier x = some c ∧ c.hold = some h ∧ h.slot = j := by
  unfold endHold
  split
  · exact .inl rfl
  · next c hc =>
    split
    · exact .inl rfl
    · next h hh =>
      split
      · exact .inl rfl
      · next hj => exact .inr ⟨c, h, hc, hh, not_not.mp hj⟩

section
variable {s : State} (ht : CarrierLaw s.carriers) (x : Nat) (j : Fin 8) (g : Carrier → Carrier)
include ht

theorem shrinks_endHold : Shrinks s.carriers (endHold x j g s).carriers := by
  obtain he | ⟨c, h, hc, hh, hj⟩ := endHold_or_held x j g s
  · rw [he]
    exact fun _ => id
  · obtain ⟨-, -, he⟩ | ⟨-, -, he⟩ | ⟨-, he⟩ := endHold_held g hc hh hj
    · rw [he]
      exact (shrinks_tabPut hc { c with hold := none }).trans
        (shrinks_removeAll (carrierLaw_put (d := { c with hold := none }) hc rfl rfl ht) [x])
    · rw [he]
      exact shrinks_tabPut hc _
    · rw [he]
      exact shrinks_tabPut hc _

/-- An entry that slot `j` does not hold. -/
theorem staysAt_endHold {i : Nat} {e : Carrier} (he : s.carrier i = some e)
    (hother : ∀ h, e.hold = some h → h.slot ≠ j) : StaysAt s.carriers (endHold x j g s).carriers i e := by
  obtain hsame | ⟨c, h, hc, hh, hj⟩ := endHold_or_held x j g s
  · rw [hsame]
    exact .refl he
  · have hne : i ≠ x := by
      rintro rfl
      obtain rfl : e = c := Option.some.inj (he.symm.trans hc)
      exact hother h hh hj
    obtain ⟨-, -, hcs⟩ | ⟨-, -, hcs⟩ | ⟨-, hcs⟩ := endHold_held g hc hh hj
    · have hput := carrierLaw_put (d := { c with hold := none }) hc rfl rfl ht
      rw [hcs]
      exact (staysAt_tabPut hc _ hne he).trans
        (fun l hl => staysAt_removeAll hput (l := [x]) (by simpa using hne) hl) (shrinks_removeAll hput [x])
    · rw [hcs]
      exact staysAt_tabPut hc _ hne he
    · rw [hcs]
      exact staysAt_tabPut hc _ hne he

/-- R73, R85: the entry whose ENDING hold of slot `j` ends is unheld, and leaves if its removal is pending. -/
theorem endHold_ended {c : Carrier} {h : Hold} (hc : s.carrier x = some c) (hh : c.hold = some h) (hj : h.slot = j)
    (hending : h.ending = true) :
    (c.removalPending = true → (endHold x j g s).carrier x = none) ∧
      (c.removalPending = false → StaysAt s.carriers (endHold x j g s).carriers x { c with hold := none }) := by
  obtain ⟨-, hp, hcs⟩ | ⟨-, hp, hcs⟩ | ⟨hactive, -⟩ := endHold_held g hc hh hj
  · refine ⟨fun _ => ?_, fun hnot => (nomatch hp.symm.trans hnot)⟩
    have hput := carrierLaw_put (d := { c with hold := none }) hc rfl rfl ht
    rw [State.carrier, hcs, tabGet_removeEntry hput, if_pos rfl]
  · refine ⟨fun hpending => (nomatch hp.symm.trans hpending), fun _ => ?_⟩
    rw [hcs]
    exact staysAt_written hc _
  · cases hending.symm.trans hactive

end

/-! ## The release of a slot, in the table and beside it -/

theorem reportEnd_beside {b : Slot} {i j : Fin 8} (hj : j ≠ i) (x : Nat) (reason : EndReason) (s : State) :
    (reportEnd b i x reason false s).sched.surveys[j] = s.sched.surveys[j] := by
  have hput : (putSurvey i none s).sched.surveys[j] = s.sched.surveys[j] := by
    simp only [putSurvey, modSched, State.setSched, Fin.getElem_fin, Vector.getElem_set]
    exact if_neg fun e => hj (Fin.ext e).symm
  have hsurvey : (endSurvey i reason s).sched.surveys[j] = s.sched.surveys[j] := by
    unfold endSurvey
    split
    · rfl
    · dsimp only
      split
      · exact (congrArg (·[j]) (returnUrgent_surveys ..)).trans hput
      · exact hput
  unfold reportEnd
  split
  · rfl
  · dsimp only
    split
    · exact (congrArg (·[j]) (endCarry_surveys ..)).trans hsurvey
    · exact hsurvey
  · exact congrArg (·[j]) (endCarry_surveys ..)

theorem endHold_surveys (x : Nat) (j : Fin 8) (g : Carrier → Carrier) (s : State) :
    (endHold x j g s).sched.surveys = s.sched.surveys := by
  have hchange (f : Carrier → Carrier) : (changeCarrier x f s).sched.surveys = s.sched.surveys := by
    unfold changeCarrier
    split
    · rfl
    · exact (ranks_reportCarrier ..).reports.surveys
  unfold endHold
  split
  · rfl
  · split
    · rfl
    · split
      · rfl
      · split
        · split
          · exact (reports_reportChanges ..).surveys
          · exact hchange _
        · exact hchange _

/-- R30, R31: a release frees the slot, ends the hold on its carrier and reports the end of the role. -/
theorem releaseWork_eq {i : Fin 8} {x : Nat} {s : State} (hx : (s.slot i).carrier = some x) (hold offline : Bool)
    (reason : EndReason) (asked : Bool) :
    ∃ g, releaseWork i hold offline reason asked s =
      reportEnd (s.slot i) i x reason asked (endHold x i g (enterReleasing i hold offline s)) := by
  unfold releaseWork
  simp only [hx]
  split
  · exact ⟨_, rfl⟩
  · exact ⟨_, rfl⟩

/-- A release leaves the table as the end of the hold does, and the other slots and surveys to themselves. -/
structure Released (i : Fin 8) (s t : State) : Prop where
  table : t.carriers = s.carriers ∨ ∃ x g u, u.carriers = s.carriers ∧ t.carriers = (endHold x i g u).carriers
  slots : ∀ j, j ≠ i → Referred (s.slot j) (t.slot j)
  surveys : ∀ j, j ≠ i → t.sched.surveys[j] = s.sched.surveys[j]

theorem released_releaseWork (i : Fin 8) (reason : EndReason) (s : State) :
    Released i s (releaseWork i false false reason false s) := by
  have hcarriers := enterReleasing_carriers i false false s
  have hslots (j : Fin 8) (hj : j ≠ i) : Referred (s.slot j) ((enterReleasing i false false s).slot j) := by
    simpa only [if_neg hj] using enterReleasing_slots i false false s j
  have hsurveys : (enterReleasing i false false s).sched.surveys = s.sched.surveys :=
    (refers_leaveLocked i (freedSlot false false) s).surveys
  cases hx : (s.slot i).carrier with
  | none =>
    have hfreed : releaseWork i false false reason false s = enterReleasing i false false s := by
      simp only [releaseWork, hx]
    rw [hfreed]
    exact ⟨.inl hcarriers, hslots, fun j _ => congrArg (·[j]) hsurveys⟩
  | some x =>
    obtain ⟨g, hwork⟩ := releaseWork_eq hx false false reason false
    rw [hwork]
    refine ⟨.inr ⟨x, g, _, hcarriers, (tells_reportEnd ..).carriers⟩, fun j hj => ?_, fun j hj => ?_⟩
    · rw [(tells_reportEnd ..).slot, endHold_slot]
      exact hslots j hj
    · exact (reportEnd_beside hj ..).trans (congrArg (·[j]) ((endHold_surveys ..).trans hsurveys))

/-! ## The surveys the table ends (R101) -/

/-- What the ends of the surveys on slots `l` leave: the other slots and their surveys, the slots without a survey, and
each entry that none of those slots holds for a survey. -/
structure EndsSurveys (l : List (Fin 8)) (s t : State) : Prop where
  law : CarrierLaw s.carriers → CarrierLaw t.carriers
  slots : ∀ j, j ∉ l → Referred (s.slot j) (t.slot j)
  surveys : ∀ j, j ∉ l → t.sched.surveys[j] = s.sched.surveys[j]
  closed : ∀ j : Fin 8, s.sched.surveys[j] = none → t.sched.surveys[j] = none
  shrinks : CarrierLaw s.carriers → Shrinks s.carriers t.carriers
  stays : CarrierLaw s.carriers → ∀ i c, s.carrier i = some c →
    (∀ h, c.hold = some h → h.slot ∈ l → s.sched.surveys[h.slot] = none) → StaysAt s.carriers t.carriers i c

theorem EndsSurveys.refl (s : State) : EndsSurveys [] s s :=
  ⟨id, fun _ _ => .refl _, fun _ _ => rfl, fun _ => id, fun _ _ => id, fun _ _ _ hc _ => .refl hc⟩

theorem EndsSurveys.trans {l m : List (Fin 8)} {s t u : State} (h : EndsSurveys l s t) (k : EndsSurveys m t u) :
    EndsSurveys (l ++ m) s u := by
  refine ⟨fun law => k.law (h.law law), fun j hj => ?_, fun j hj => ?_, fun j hj => k.closed j (h.closed j hj),
    fun law => (h.shrinks law).trans (k.shrinks (h.law law)), fun law i c hc hheld => ?_⟩
  · obtain ⟨hl, hm⟩ := not_or.mp (mt List.mem_append.mpr hj)
    exact (h.slots j hl).trans (k.slots j hm)
  · obtain ⟨hl, hm⟩ := not_or.mp (mt List.mem_append.mpr hj)
    exact (k.surveys j hm).trans (h.surveys j hl)
  · refine (h.stays law i c hc fun g hg hmem => hheld g hg (List.mem_append_left _ hmem)).trans (fun y hy => ?_)
      (k.shrinks (h.law law))
    exact k.stays (h.law law) i _ hy fun g hg hmem => h.closed _ (hheld g hg (List.mem_append_right _ hmem))

theorem endsSurveys_one (i : Fin 8) (s : State) : EndsSurveys [i] s (endSurveyByTable i s) := by
  have law := (evolves_endSurveyByTable i s).carriers
  obtain he | ⟨r, q, hr, he⟩ := endSurveyByTable_cases i s
  · rw [he]
    exact ⟨id, fun _ _ => .refl _, fun _ _ => rfl, fun _ => id, fun _ _ => id, fun _ _ _ hc _ => .refl hc⟩
  · have hput (j : Fin 8) (hj : j ≠ i) : (putSurvey i (some q) s).sched.surveys[j] = s.sched.surveys[j] := by
      simp only [putSurvey, modSched, State.setSched, Fin.getElem_fin, Vector.getElem_set]
      exact if_neg fun e => hj (Fin.ext e).symm
    have hopen {j : Fin 8} (hj : s.sched.surveys[j] = none) : j ≠ i := by
      rintro rfl
      cases hj.symm.trans hr
    obtain he | ⟨reason, he⟩ := he
    · rw [he]
      exact ⟨id, fun _ _ => .refl _, fun j hj => hput j (by simpa using hj), fun j hj => (hput j (hopen hj)).trans hj,
        fun _ _ => id, fun _ _ _ hc _ => .refl hc⟩
    · have hreleased := released_releaseWork i reason (putSurvey i (some q) s)
      rw [← he] at hreleased
      obtain ⟨htable, hslots, hsurveys⟩ := hreleased
      refine ⟨law, fun j hj => hslots j (by simpa using hj), fun j hj => ?_, fun j hj => ?_, fun hs => ?_,
        fun hs y c hc hheld => ?_⟩
      · have hne : j ≠ i := by simpa using hj
        exact (hsurveys j hne).trans (hput j hne)
      · exact (hsurveys j (hopen hj)).trans ((hput j (hopen hj)).trans hj)
      · obtain hsame | ⟨x, g, u, hu, hended⟩ := htable
        · rw [hsame]
          exact fun _ => id
        · have hus : u.carriers = s.carriers := hu
          rw [hended, ← hus]
          exact shrinks_endHold (hus ▸ hs) x i g
      · have hother : ∀ h, c.hold = some h → h.slot ≠ i := fun h hh hj => hopen (hheld h hh (by simp [hj])) hj
        obtain hsame | ⟨x, g, u, hu, hended⟩ := htable
        · rw [hsame]
          exact .refl hc
        · have hus : u.carriers = s.carriers := hu
          rw [hended, ← hus]
          exact staysAt_endHold (hus ▸ hs) x i g ((congrArg (tabGet · y) hus).trans hc) hother

theorem endsSurveys_foldl (l : List (Fin 8)) (s : State) :
    EndsSurveys l s (l.foldl (fun s i => endSurveyByTable i s) s) := by
  induction l generalizing s with
  | nil => exact .refl s
  | cons i l ih => exact (endsSurveys_one i s).trans (ih _)

/-- Slot `i` works in role SURVEY on carrier `x`, in a survey that has not ended. -/
structure Surveying (s : State) (i : Fin 8) (x : Nat) : Prop where
  survey : ∃ q, s.sched.surveys[i] = some q ∧ q.phase ≠ .ending
  role : (s.slot i).role = .survey
  carrier : (s.slot i).carrier = some x
  works : (s.slot i).state = .tuning ∨ (s.slot i).state = .acquiring ∨ (s.slot i).state = .locked

theorem Referred.role {b a : Slot} (h : Referred b a) : a.role = b.role := by
  obtain ⟨_, _, rfl, -⟩ := h
  rfl

theorem EndsSurveys.surveying {l : List (Fin 8)} {s t : State} (h : EndsSurveys l s t) {i : Fin 8} (hi : i ∉ l)
    {x : Nat} (hs : Surveying s i x) : Surveying t i x := by
  have hslot := h.slots i hi
  obtain ⟨hsurvey, hrole, hcarrier, hworks⟩ := hs
  refine ⟨by rwa [h.surveys i hi], hslot.role.trans hrole, hslot.carrier.trans hcarrier, ?_⟩
  rwa [hslot.state]

/-- R30, R101: a survey that has not ended is released. -/
theorem endSurveyByTable_surveying {s : State} {i : Fin 8} {x : Nat} (h : Surveying s i x) :
    ∃ q reason, endSurveyByTable i s = releaseWork i false false reason false (putSurvey i (some q) s) := by
  obtain ⟨⟨q, hq, hphase⟩, hrole, -, hworks⟩ := h
  have hrelease (r : SurveyRecord) : ∃ reason, (releaseSlot .scheduler false i (putSurvey i (some r) s)).1 =
      releaseWork i false false reason false (putSurvey i (some r) s) := by
    have hrole' : ((putSurvey i (some r) s).slot i).role = .survey := hrole
    have hslot : (putSurvey i (some r) s).slot i = s.slot i := rfl
    obtain hstate | hstate | hstate := hworks
    · exact ⟨.aborted, by simp [releaseSlot, hslot, hrole, hstate]⟩
    · exact ⟨.aborted, by simp [releaseSlot, hslot, hrole, hstate]⟩
    · exact ⟨.released, by simp [releaseSlot, hslot, hrole, hstate]⟩
  unfold endSurveyByTable
  simp only [hq]
  cases hp : q.phase with
  | ending => exact absurd hp hphase
  | acquiring => exact ⟨_, hrelease _⟩
  | measuring => exact ⟨_, hrelease _⟩

/-- R30, R73, R85, R100, R101: the end of a survey whose hold is in phase ENDING. -/
theorem endSurveyByTable_ends {s : State} {i : Fin 8} {x : Nat} {c : Carrier} {h : Hold} (ht : CarrierLaw s.carriers)
    (hs : Surveying s i x) (hc : s.carrier x = some c) (hh : c.hold = some h) (hj : h.slot = i)
    (hending : h.ending = true) :
    ((endSurveyByTable i s).slot i).state = .releasing ∧ (endSurveyByTable i s).sched.surveys[i] = none ∧
      (c.removalPending = true → (endSurveyByTable i s).carrier x = none) ∧
        (c.removalPending = false →
          StaysAt s.carriers (endSurveyByTable i s).carriers x { c with hold := none }) := by
  obtain ⟨q, reason, he⟩ := endSurveyByTable_surveying hs
  obtain ⟨-, hrole, hcarrier, -⟩ := hs
  let w := putSurvey i (some q) s
  have hrole' : (w.slot i).role = .survey := hrole
  obtain ⟨g, hwork⟩ := releaseWork_eq (s := w) hcarrier false false reason false
  have hcarriers : (enterReleasing i false false w).carriers = s.carriers := enterReleasing_carriers ..
  have htable : (endSurveyByTable i s).carriers = (endHold x i g (enterReleasing i false false w)).carriers := by
    rw [he, hwork]
    exact (tells_reportEnd ..).carriers
  have hsurvey : (endSurveyByTable i s).sched.surveys[i] = none := by
    rw [he, hwork]
    exact reportEnd_survey hrole' ..
  have hslot := releaseWork_slot i false false reason false w
  obtain ⟨hgone, hstays⟩ :=
    endHold_ended (hcarriers ▸ ht) x i g ((congrArg (tabGet · x) hcarriers).trans hc) hh hj hending
  refine ⟨?_, hsurvey, fun hp => ?_, fun hp => ?_⟩
  · rw [he]
    exact hslot.state
  · exact (congrArg (tabGet · x) htable).trans (hgone hp)
  · rw [htable, ← hcarriers]
    exact hstays hp

/-- R101, R73, R85: among the surveys ended, one whose hold is in phase ENDING. -/
theorem foldl_endSurveyByTable_ends {l : List (Fin 8)} (hl : l.Nodup) {s : State} {i : Fin 8} {x : Nat} {c : Carrier}
    {h : Hold} (ht : CarrierLaw s.carriers) (hi : i ∈ l) (hs : Surveying s i x) (hc : s.carrier x = some c)
    (hh : c.hold = some h) (hj : h.slot = i) (hending : h.ending = true) :
    let u := l.foldl (fun s i => endSurveyByTable i s) s
    (u.slot i).state = .releasing ∧ u.sched.surveys[i] = none ∧ (c.removalPending = true → u.carrier x = none) ∧
      (c.removalPending = false → StaysAt s.carriers u.carriers x { c with hold := none }) := by
  obtain ⟨a, b, rfl⟩ := List.append_of_mem hi
  obtain ⟨-, hib, hapart⟩ := List.nodup_append.mp hl
  have hia : i ∉ a := fun hmem => hapart i hmem i List.mem_cons_self rfl
  have hib : i ∉ b := (List.nodup_cons.mp hib).1
  rw [List.foldl_append, List.foldl_cons]
  have hbefore := endsSurveys_foldl a s
  generalize a.foldl (fun s i => endSurveyByTable i s) s = s1 at hbefore
  have law1 := hbefore.law ht
  have hafter := endsSurveys_foldl b (endSurveyByTable i s1)
  have law2 := (endsSurveys_one i s1).law law1
  obtain ⟨l1, hc1, hkept1⟩ := hbefore.stays ht x c hc fun g hg hmem => by
    obtain rfl : h = g := Option.some.inj (hh.symm.trans hg)
    exact absurd (hj ▸ hmem) hia
  obtain ⟨hslot, hsurvey, hgone, hstays⟩ :=
    endSurveyByTable_ends law1 (hbefore.surveying hia hs) hc1 hh hj hending
  refine ⟨(hafter.slots i hib).state.trans hslot, hafter.closed i hsurvey, fun hp => hafter.shrinks law2 x (hgone hp),
    fun hp => ?_⟩
  obtain ⟨l2, hc2, hkept2⟩ := hstays hp
  obtain ⟨l3, hc3, hkept3⟩ := hafter.stays law2 x _ hc2 nofun
  exact ⟨l3, hc3, (hkept1.trans hkept2 ((endsSurveys_one i s1).shrinks law1)).trans hkept3 (hafter.shrinks law2)⟩

/-! ## The start and the end of a pass (R105, R106) -/

theorem reports_startPass (s : State) : Reports s (startPass s) := by
  have hended : Reports s (endPass .superseded s) :=
    (reports_modSched (f := fun c => { c with pass := endedPass s .superseded }) rfl).trans (ranks_offer ..).reports
  unfold startPass
  dsimp only
  split
  · exact hended.trans (reports_modSched rfl)
  · exact reports_modSched rfl

/-- R105: the new pass, whose number is the next. -/
theorem startPass_pass (s : State) :
    (startPass s).sched.pass =
      { number := (s.sched.pass.number + 1) % 65536, start := s.clock.now, ended := none, outcome := .open,
        verified := 0, failed := 0, lost := 0 } := by
  unfold startPass
  dsimp only
  split
  · rfl
  · rfl

/-- R105: the outstanding set of a new pass. -/
theorem mem_startPass_outstanding {s : State} (ht : CarrierLaw s.carriers) (i : Nat) :
    i ∈ (startPass s).sched.outstanding ↔ ∃ c, tabGet s.carriers i = some c ∧ c.state ≠ .excluded ∧
      c.removalPending = false ∧ (s.plan.committed.inputs[inputCode c.input]).cls ≠ .disabled := by
  have hset : (startPass s).sched.outstanding = outstandingAtStart s := by
    unfold startPass
    dsimp only
    split
    · rfl
    · rfl
  rw [hset, outstandingAtStart, mem_places_iff (tabWf_iff.mp ht.1).1]
  simp only [Bool.and_eq_true, decide_eq_true_eq, Bool.not_eq_true', and_assoc]
  rfl

theorem startPass_link (s : State) :
    (startPass s).link = (if s.sched.pass.outcome = .open then endPass .superseded s else s).link := rfl

/-- The end of a pass is judged once: settling judges it first. -/
theorem settle_checkPassEnd (s : State) : settle (checkPassEnd s) = settle s := by
  have hagain : checkPassEnd (checkPassEnd s) = checkPassEnd s := by
    have hclear : (checkPassEnd s).sched.setShrunk = false := rfl
    have hnot : ¬((checkPassEnd s).sched.setShrunk = true ∧ (checkPassEnd s).sched.outstanding = [] ∧
        (checkPassEnd s).sched.pass.outcome = .open) := fun h => Bool.false_ne_true (hclear.symm.trans h.1)
    have hstep (t : State) (h : ¬(t.sched.setShrunk = true ∧ t.sched.outstanding = [] ∧ t.sched.pass.outcome = .open)) :
        checkPassEnd t = modSched (fun c => { c with setShrunk := false }) t := by
      simp only [checkPassEnd, if_neg h]
    rw [hstep _ hnot]
    rfl
  unfold settle
  rw [hagain]

/-! ## CLEAR_SURVEY (R65, R87) -/

/-- R87: the places CLEAR_SURVEY frees at once. -/
def clearedGone (s : State) : List Nat :=
  (s.carriers.filter fun e => !e.2.planned && !e.2.removalPending && e.2.hold.isNone).map Prod.fst

/-- R87: the table before the surveys the table ends. -/
def clearedTable (s : State) : Table Carrier :=
  ((clearedGone s).foldl (fun t i => removeEntry i t) s.carriers).map fun e => (e.1, clearEntry s.now e.2)

/-- R101: the slots whose surveys CLEAR_SURVEY ends. -/
def clearedSurveys (s : State) : List (Fin 8) := allSlots.filter fun i => (endingSurveys (clearedTable s)).contains i

theorem clearedSurveys_nodup (s : State) : (clearedSurveys s).Nodup := (List.nodup_finRange 8).filter _

theorem mem_clearedSurveys_iff {s : State} {i : Fin 8} : i ∈ clearedSurveys s ↔ i ∈ endingSurveys (clearedTable s) := by
  simp [clearedSurveys, allSlots]

/-- The ends of the surveys follow the reports of the table's change; the new pass follows them. -/
theorem clearSurvey_eq (s : State) :
    ∃ v, Reports (s.setCarriers (clearedTable s)) v ∧ SamePass s v ∧
      clearSurvey s = searchDue (startPass ((clearedSurveys s).foldl (fun s i => endSurveyByTable i s) v)) := by
  refine ⟨_, (reports_reportChanges ..).trans (reports_foldl (fun s i => reports_leaveSet i s) _ _), ?_, rfl⟩
  exact (samePass_reportChanges _ _ _ _ _ _ (s.setCarriers (clearedTable s))).trans
    (samePass_foldl (fun s i => samePass_leaveSet i s) _ _)

/-- What CLEAR_SURVEY runs through: the changed table reported, the surveys ended, the pass started. -/
theorem clearSurvey_run (s : State) :
    ∃ v w, Reports (s.setCarriers (clearedTable s)) v ∧
      w = (clearedSurveys s).foldl (fun s i => endSurveyByTable i s) v ∧ EndsSurveys (clearedSurveys s) v w ∧
        Reports w (clearSurvey s) := by
  obtain ⟨v, hv, -, he⟩ := clearSurvey_eq s
  refine ⟨v, _, hv, rfl, endsSurveys_foldl _ _, ?_⟩
  rw [he]
  exact (reports_startPass _).trans (reports_searchDue _)

theorem clearEntry_lister (now : Nat) (c : Carrier) (l : Option Nat) :
    clearEntry now { c with lister := l } = { clearEntry now c with lister := l } := by
  have hcarried : Carrier.carried { c with lister := l } = c.carried := rfl
  simp only [clearEntry, hcarried]
  split
  · rfl
  · split
    · rfl
    · rfl

section
variable {s : State} (ht : CarrierLaw s.carriers)
include ht

theorem mem_clearedGone_iff {i : Nat} {c : Carrier} (hc : tabGet s.carriers i = some c) :
    i ∈ clearedGone s ↔ c.planned = false ∧ c.removalPending = false ∧ c.hold = none := by
  rw [clearedGone, mem_places_iff (tabWf_iff.mp ht.1).1]
  simp [hc, and_assoc]

theorem carrierLaw_clearedTable : CarrierLaw (clearedTable s) :=
  carrierLaw_map (f := fun e => (e.1, clearEntry s.now e.2)) (fun _ => rfl) (fun e => (keepsKey_clear s.now e.2).1)
    (fun e => (keepsKey_clear s.now e.2).2) (carrierLaw_removeAll _ ht)

theorem tabGet_clearedTable_none_iff (y : Nat) :
    tabGet (clearedTable s) y = none ↔ y ∈ clearedGone s ∨ tabGet s.carriers y = none := by
  rw [clearedTable, tabGet_map (f := fun e => (e.1, clearEntry s.now e.2)) (fun _ => rfl), tabGet_removeAll ht]
  by_cases hy : y ∈ clearedGone s
  · simp [hy]
  · simp [hy]

/-- R65, R87: an entry that is not removed at once is cleared, and loses a lister that leaves. -/
theorem clearedTable_stays {i : Nat} {c : Carrier} (hc : tabGet s.carriers i = some c) (hi : i ∉ clearedGone s) :
    ∃ l, tabGet (clearedTable s) i = some { clearEntry s.now c with lister := l } ∧
      ListerKept s.carriers (clearedTable s) c.lister l := by
  obtain ⟨l, hl, hkept⟩ := staysAt_removeAll ht hi hc
  have hmapped (y : Nat) : tabGet (clearedTable s) y =
      (tabGet ((clearedGone s).foldl (fun t i => removeEntry i t) s.carriers) y).map (clearEntry s.now) :=
    tabGet_map (f := fun e => (e.1, clearEntry s.now e.2)) (fun _ => rfl) _ _
  refine ⟨l, ?_, hkept.trans (.of_stays (fun y hy => ?_) l) fun y hy => ?_⟩
  · rw [hmapped, hl, Option.map_some, clearEntry_lister]
  · rw [hmapped] at hy
    exact Option.map_eq_none_iff.mp hy
  · rw [hmapped, hy]
    rfl

end

theorem mem_endingSurveys {t : Table Carrier} {i : Nat} {c : Carrier} {h : Hold} (hc : tabGet t i = some c)
    (hh : c.hold = some h) (hending : h.ending = true) (hcarry : h.carry = false) : h.slot ∈ endingSurveys t := by
  refine List.mem_filterMap.mpr ⟨(i, c), mem_of_tabGet hc, ?_⟩
  simp [hh, hending, hcarry]

section
variable {s : State} (ht : CarrierLaw s.carriers) {i : Nat} {c : Carrier} (hc : tabGet s.carriers i = some c)
include ht

theorem clearSurvey_shrinks : Shrinks (clearedTable s) (clearSurvey s).carriers := by
  obtain ⟨v, w, hv, -, hrun, hw⟩ := clearSurvey_run s
  have hvc : v.carriers = clearedTable s := hv.carriers
  rw [hw.carriers, ← hvc]
  exact hrun.shrinks (hvc ▸ carrierLaw_clearedTable ht)

include hc

/-- R87: an entry that no slot holds for a survey. -/
theorem clearSurvey_stays (hi : i ∉ clearedGone s)
    (hheld : ∀ h, (clearEntry s.now c).hold = some h → s.sched.surveys[h.slot] = none) :
    ∃ l, tabGet (clearSurvey s).carriers i = some { clearEntry s.now c with lister := l } ∧
      ListerKept s.carriers (clearSurvey s).carriers c.lister l := by
  obtain ⟨v, w, hv, -, hrun, hw⟩ := clearSurvey_run s
  have hvc : v.carriers = clearedTable s := hv.carriers
  have hvs : v.sched.surveys = s.sched.surveys := hv.surveys
  have law : CarrierLaw v.carriers := hvc ▸ carrierLaw_clearedTable ht
  obtain ⟨m, hm, hkept⟩ := clearedTable_stays ht hc hi
  have hvi : v.carrier i = some { clearEntry s.now c with lister := m } := (congrArg (tabGet · i) hvc).trans hm
  obtain ⟨n, hn, hkept'⟩ := hrun.stays law i _ hvi fun h hh _ => by
    rw [hvs]
    exact hheld h hh
  have hshrinks := hrun.shrinks law
  rw [hvc] at hkept' hshrinks
  rw [hw.carriers]
  exact ⟨n, hn, hkept.trans hkept' hshrinks⟩

/-- R87, R101: an entry under a SURVEY hold whose survey has not ended. -/
theorem clearSurvey_ends {h : Hold} (hh : c.hold = some h) (hcarry : h.carry = false) (hp : c.removalPending = false)
    (hs : Surveying s h.slot i) :
    ((clearSurvey s).slot h.slot).state = .releasing ∧ (clearSurvey s).sched.surveys[h.slot] = none ∧
      (c.planned = false → tabGet (clearSurvey s).carriers i = none) ∧
        (c.planned = true → ∃ l,
          tabGet (clearSurvey s).carriers i = some { clearEntry s.now c with hold := none, lister := l } ∧
            ListerKept s.carriers (clearSurvey s).carriers c.lister l) := by
  obtain ⟨v, w, hv, hends, hrun, hw⟩ := clearSurvey_run s
  have hvc : v.carriers = clearedTable s := hv.carriers
  have law : CarrierLaw v.carriers := hvc ▸ carrierLaw_clearedTable ht
  have hcleared : clearEntry s.now c = if c.planned then clearedEntry s.now c else pendingEntry c := by
    simp [clearEntry, Carrier.carried, hh, hcarry, hp]
  have hi : i ∉ clearedGone s := fun hgone => by
    obtain ⟨-, -, hnone⟩ := (mem_clearedGone_iff ht hc).mp hgone
    cases hh.symm.trans hnone
  obtain ⟨m, hm, hkept⟩ := clearedTable_stays ht hc hi
  have hvi : v.carrier i = some { clearEntry s.now c with lister := m } := (congrArg (tabGet · i) hvc).trans hm
  have hhold : (clearEntry s.now c).hold = some { h with ending := true } := by
    rw [hcleared]
    split
    · simp [clearedEntry, endingHold, hh]
    · simp [pendingEntry, endingHold, hh]
  have hsv : Surveying v h.slot i := by
    obtain ⟨hsurvey, hrole, hcarrier, hworks⟩ := hs
    have hslot : v.slot h.slot = s.slot h.slot := hv.slot h.slot
    have hsurveys : v.sched.surveys = s.sched.surveys := hv.surveys
    exact ⟨by rwa [hsurveys], by rwa [hslot], by rwa [hslot], by rwa [hslot]⟩
  have hin : h.slot ∈ clearedSurveys s :=
    mem_clearedSurveys_iff.mpr (mem_endingSurveys (h := { h with ending := true }) hm hhold rfl hcarry)
  have hended := foldl_endSurveyByTable_ends (i := h.slot) (clearedSurveys_nodup s) law hin hsv hvi hhold rfl rfl
  rw [← hends] at hended
  obtain ⟨hslot, hsurvey, hgone, hstays⟩ := hended
  refine ⟨(congrArg Slot.state (hw.slot _)).trans hslot, (congrArg (·[h.slot]) hw.surveys).trans hsurvey,
    fun hl => ?_, fun hl => ?_⟩
  · rw [hw.carriers]
    refine hgone ?_
    rw [hcleared, hl]
    rfl
  · obtain ⟨n, hn, hkept'⟩ := hstays (by rw [hcleared, hl]; exact hp)
    have hshrinks := hrun.shrinks law
    rw [hvc] at hkept' hshrinks
    rw [hw.carriers]
    exact ⟨n, hn, hkept.trans hkept' hshrinks⟩

end

theorem exec_clearSurvey {s : State} (hs : Ready s) :
    exec .clearSurvey s = .next (formReply 0x32 .ok [] (settle (clearSurvey s))) :=
  exec_rowOf_ready (c := .clearSurvey) hs rfl

/-- R105: the pass CLEAR_SURVEY starts. -/
theorem clearSurvey_pass (s : State) :
    (clearSurvey s).sched.pass =
      { number := (s.sched.pass.number + 1) % 65536, start := s.clock.now, ended := none, outcome := .open,
        verified := 0, failed := 0, lost := 0 } := by
  obtain ⟨v, hv, hpass, he⟩ := clearSurvey_eq s
  let w := (clearedSurveys s).foldl (fun s i => endSurveyByTable i s) v
  have hw : w.sched.pass = s.sched.pass := hpass.trans (samePass_foldl (fun s i => samePass_endSurveyByTable i s) _ v)
  have hclock : w.clock = s.clock :=
    (evolves_foldl (fun s i => evolves_endSurveyByTable i s) (clearedSurveys s) v).clock.trans hv.clock
  rw [he]
  exact (startPass_pass w).trans (by rw [hw, hclock])

/-- R105: the outstanding set of the pass CLEAR_SURVEY starts. -/
theorem mem_clearSurvey_outstanding {s : State} (ht : CarrierLaw s.carriers) (i : Nat) :
    i ∈ (clearSurvey s).sched.outstanding ↔ ∃ c, tabGet (clearSurvey s).carriers i = some c ∧ c.state ≠ .excluded ∧
      c.removalPending = false ∧ (s.plan.committed.inputs[inputCode c.input]).cls ≠ .disabled := by
  obtain ⟨v, hv, -, he⟩ := clearSurvey_eq s
  let w := (clearedSurveys s).foldl (fun s i => endSurveyByTable i s) v
  have hw := evolves_foldl (fun s i => evolves_endSurveyByTable i s) (clearedSurveys s) v
  have hplan : w.plan = s.plan := hw.plan.trans hv.plan
  have hcarriers : (clearSurvey s).carriers = w.carriers := by
    rw [he]
    exact ((reports_startPass w).trans (reports_searchDue _)).carriers
  have hvc : v.carriers = clearedTable s := hv.carriers
  have law : CarrierLaw w.carriers := hw.carriers (hvc ▸ carrierLaw_clearedTable ht)
  rw [hcarriers, ← hplan, he]
  exact mem_startPass_outstanding law i

/-- Settles O25: the entries by `clearSurvey_stays` and `clearSurvey_ends`, the pass by what starts and ends it. -/
theorem clearSurveyClearsWhatIsNotCarried : Obligations.ClearSurveyClearsWhatIsNotCarried := by
  unfold Obligations.ClearSurveyClearsWhatIsNotCarried
  refine ⟨fun s ht hs => ⟨clearSurvey s, exec_clearSurvey hs,
    ⟨clearSurvey_pass s, mem_clearSurvey_outstanding ht⟩, fun i c hc => ?entry⟩, fun s => ?pass⟩
  case entry =>
    intro surveyed listerOf
    have hends (h : surveyed) (hp : c.removalPending = false) : ∃ g, c.hold = some g ∧
        ((clearSurvey s).slot g.slot).state = .releasing ∧ (clearSurvey s).sched.surveys[g.slot] = none ∧
          (c.planned = false → tabGet (clearSurvey s).carriers i = none) ∧
            (c.planned = true → ∃ l,
              tabGet (clearSurvey s).carriers i = some { clearEntry s.now c with hold := none, lister := l } ∧
                listerOf l) := by
      obtain ⟨g, q, hg, hcarry, hq, hphase, hrole, hcarrier, hworks⟩ := h
      exact ⟨g, hg, clearSurvey_ends ht hc hg hcarry hp ⟨⟨q, hq, hphase⟩, hrole, hcarrier, hworks⟩⟩
    refine ⟨fun hor hl hp => ?removed, fun hor hl hp => ?cleared, fun hsv hp h hh => ?released,
      fun h hh hcarry hq => ?carried⟩
    case removed =>
      obtain hnone | hsv := hor
      · refine clearSurvey_shrinks ht i ((tabGet_clearedTable_none_iff ht i).mpr (.inl ?_))
        exact (mem_clearedGone_iff ht hc).mpr ⟨hl, hp, hnone⟩
      · obtain ⟨-, -, -, -, hgone, -⟩ := hends hsv hp
        exact hgone hl
    case cleared =>
      have hentry : ∃ l, tabGet (clearSurvey s).carriers i =
          some { clearedEntry s.now c with hold := none, lister := l } ∧ listerOf l := by
        obtain hnone | hsv := hor
        · have hkept : clearEntry s.now c = { clearedEntry s.now c with hold := none } := by
            simp [clearEntry, Carrier.carried, clearedEntry, endingHold, hnone, hp, hl]
          have hi : i ∉ clearedGone s := fun hgone => by
            obtain ⟨hunplanned, -⟩ := (mem_clearedGone_iff ht hc).mp hgone
            cases hl.symm.trans hunplanned
          have hstays := clearSurvey_stays ht hc hi
          rw [hkept] at hstays
          exact hstays nofun
        · obtain ⟨g, hg, -, -, -, hkeeps⟩ := hends hsv hp
          obtain ⟨h, q, hh, hcarry, -⟩ := hsv
          have hkept : clearEntry s.now c = clearedEntry s.now c := by
            simp [clearEntry, Carrier.carried, hh, hcarry, hp, hl]
          rw [hkept] at hkeeps
          exact hkeeps hl
      obtain ⟨l, hget, hlister⟩ := hentry
      exact ⟨_, hget, rfl, rfl, rfl, rfl, rfl, rfl, rfl, rfl, rfl, rfl, rfl, hp, rfl, rfl, hl, rfl, rfl, rfl, rfl, rfl,
        rfl, rfl, hlister⟩
    case released =>
      obtain ⟨g, hg, hslot, hsurvey, -⟩ := hends hsv hp
      obtain rfl : g = h := Option.some.inj (hg.symm.trans hh)
      exact ⟨hslot, hsurvey⟩
    case carried =>
      have hcarried : c.carried = true := by simp [Carrier.carried, hh, hcarry]
      have hsame : clearEntry s.now c = c := by simp [clearEntry, hcarried]
      have hi : i ∉ clearedGone s := fun hgone => by
        obtain ⟨-, -, hnone⟩ := (mem_clearedGone_iff ht hc).mp hgone
        cases hh.symm.trans hnone
      have hstays := clearSurvey_stays ht hc hi
      rw [hsame] at hstays
      exact hstays fun g hg => by
        obtain rfl : h = g := Option.some.inj (hh.symm.trans hg)
        exact hq
  case pass =>
    intro count ended noticed emptied
    have hended (o : PassOutcome) (code : Byte) (h : le 1 (passOutcomeCode o) = [code]) :
        endPass o s = noticed o code s := by
      have hbytes : passBytes (endedPass s o) = le 2 s.sched.pass.number ++ le 4 s.sched.pass.start ++
          (1#8 :: le 4 s.clock.now) ++ [code] ++ le 1 (count .verified) ++ le 1 (count .failed) ++
            le 1 (count .lost) := by
        rw [← h]
        rfl
      exact congrArg (fun b =>
        offer .surveyPass s.sched.pass.number b (s.setSched { s.sched with pass := ended o })) hbytes
    refine ⟨(settle_checkPassEnd s).symm, fun h => ?_, fun h => ?_,
      if s.sched.pass.outcome = .open then endPass .superseded s else s, fun h => ?_, fun h => if_neg h,
      startPass_link s, ?_⟩
    · rw [← hended .complete 1#8 rfl, checkPassEnd, if_pos h]
      rfl
    · rw [checkPassEnd, if_neg h]
      rfl
    · rw [if_pos h]
      exact hended .superseded 2#8 rfl
    · rw [startPass_pass]

end Sys2Proof.Machine

/-! The family "Survey scheduling": SURVEY_NOW and SET_SURVEY_MODE (R93, R102), the carry records given up (R133), and one
turn of a search (R92, R94 to R98). -/

namespace Sys2Proof.Machine

/-! ## SURVEY_NOW and SET_SURVEY_MODE (R93, R102) -/

theorem exec_surveyNow {s : State} {i : Nat} (hs : Ready s) (hi : i < 256) :
    exec (.surveyNow i) s =
      .next (formReply 0x30 (doSurveyNow i s).code (doSurveyNow i s).content (doSurveyNow i s).state) :=
  exec_rowOf_ready (c := .surveyNow i) hs (decide_eq_true hi)

theorem exec_setSurveyMode {s : State} {m : Nat} (hs : Ready s) (hm : m < 256) :
    exec (.setSurveyMode m) s =
      .next (formReply 0x31 (doSetSurveyMode m s).code (doSetSurveyMode m s).content (doSetSurveyMode m s).state) :=
  exec_rowOf_ready (c := .setSurveyMode m) hs (decide_eq_true hm)

theorem carried_iff {c : Carrier} : c.carried = true ↔ ∃ h, c.hold = some h ∧ h.carry = true := by
  unfold Carrier.carried
  split
  · next h hh => simp [hh]
  · next hh => simp [hh]

theorem doSurveyNow_absent {i : Nat} {s : State} (h : 95 < i ∨ s.carrier i = none) :
    doSurveyNow i s = answered .badIndex s := by
  unfold doSurveyNow
  split
  · next hi =>
    have hnone : s.carrier i = none := h.resolve_left fun habove => by
      unfold carrierPlaces at hi
      omega
    rw [hnone]
  · rfl

/-- R93: the cases of the table for an index that has an entry. -/
theorem doSurveyNow_present {i : Nat} {s : State} {c : Carrier} (hi : i ≤ 95) (hc : s.carrier i = some c) :
    doSurveyNow i s =
      if c.state = .excluded then answered .excluded s
      else if c.carried ∨ i ∈ s.sched.urgent then answered .ok s
      else if 8 ≤ s.sched.urgent.length then answered .queueFull s
      else answered .ok (settle (s.setSched
        { s.sched with urgent := s.sched.urgent ++ [i], searchDue := true })) := by
  have hplace : i < carrierPlaces := by
    unfold carrierPlaces
    omega
  simp only [doSurveyNow, if_pos hplace, hc, ite_or]
  rfl

theorem doSetSurveyMode_of_hold {s : State} (h : s.sched.mode = .hold) :
    doSetSurveyMode 0 s = answered .ok (settle (s.setSched { s.sched with mode := .run, searchDue := true })) ∧
      doSetSurveyMode 1 s = answered .noChange s := by
  unfold doSetSurveyMode
  rw [h]
  exact ⟨rfl, rfl⟩

theorem doSetSurveyMode_of_run {s : State} (h : s.sched.mode = .run) :
    doSetSurveyMode 1 s = answered .ok (s.setSched { s.sched with mode := .hold }) ∧
      doSetSurveyMode 0 s = answered .noChange s := by
  unfold doSetSurveyMode
  rw [h]
  exact ⟨rfl, rfl⟩

theorem doSetSurveyMode_above {m : Nat} (h : 2 ≤ m) (s : State) : doSetSurveyMode m s = answered .badValue s := by
  obtain ⟨k, rfl⟩ := Nat.exists_eq_add_of_le' h
  cases hmode : s.sched.mode with
  | run => simp [doSetSurveyMode, hmode]
  | hold => simp [doSetSurveyMode, hmode]

/-! ## What settles when nothing is due (R102, R106) -/

theorem modSched_self {f : Scheduler → Scheduler} {s : State} (h : f s.sched = s.sched) : modSched f s = s :=
  congrArg s.setSched h

theorem runSearch_hold {s : State} (h : s.sched.mode = .hold) :
    runSearch s = s.setSched { s.sched with searchDue := false } :=
  if_neg fun hboth => SurveyMode.noConfusion (h.symm.trans hboth.2)

theorem runSearch_idle {s : State} (h : s.sched.searchDue = false) : runSearch s = s := by
  have hnot : ¬(s.sched.searchDue = true ∧ s.sched.mode = .run) := fun hboth => nomatch h.symm.trans hboth.1
  rw [runSearch, if_neg hnot]
  exact modSched_self (by rw [← h])

theorem checkPassEnd_idle {s : State} (h : s.sched.setShrunk = false) : checkPassEnd s = s := by
  have hnot : ¬(s.sched.setShrunk = true ∧ s.sched.outstanding = [] ∧ s.sched.pass.outcome = .open) :=
    fun hall => nomatch h.symm.trans hall.1
  rw [checkPassEnd, if_neg hnot]
  exact modSched_self (by rw [← h])

theorem settle_idle {s : State} (hclaims : checkClaims s = s) (hset : s.sched.setShrunk = false)
    (hsearch : s.sched.searchDue = false) : settle s = s := by
  simp only [settle, checkPassEnd_idle hset, hclaims, runSearch_idle hsearch]

/-! ## Claims (R133) -/

theorem roomClaims_iff {s : State} {x : Nat} {r : Room} :
    roomClaims s x r = true ↔
      (∃ i, r.feedSlot = some i ∧ (s.slot i).carrier = some x) ∨ ∃ i, r.pendingFeed = some (i, x) := by
  rw [roomClaims, Bool.or_eq_true]
  refine or_congr ?feed ?pending
  case feed => cases r.feedSlot <;> simp
  case pending => cases r.pendingFeed <;> simp [Prod.ext_iff]

theorem any_rooms_iff {s : State} {p : Room → Bool} : s.router.rooms.toList.any p = true ↔ ∃ r, p (s.room r) = true := by
  rw [List.any_eq_true]
  constructor
  · rintro ⟨x, hx, hp⟩
    obtain ⟨r, hr, rfl⟩ := Vector.mem_iff_getElem.mp (Vector.mem_toList_iff.mp hx)
    exact ⟨⟨r, hr⟩, hp⟩
  · rintro ⟨r, hp⟩
    exact ⟨_, Vector.mem_toList_iff.mpr (Vector.getElem_mem r.isLt), hp⟩

theorem claimed_iff {s : State} {x : Nat} :
    claimed s x = true ↔
      (∃ r i, (s.room r).feedSlot = some i ∧ (s.slot i).carrier = some x) ∨
        (∃ r i, (s.room r).pendingFeed = some (i, x)) ∨
          ∃ e ∈ s.services, e.2.bound = true ∧ (e.2.selection = some x ∨ e.2.target = some x) := by
  rw [claimed, Bool.or_eq_true, any_rooms_iff]
  simp only [roomClaims_iff, exists_or, or_assoc, List.any_eq_true, Bool.and_eq_true, Bool.or_eq_true, decide_eq_true_eq]

/-- R133: the router has no reason to act on the record: a slot of a survey is being adopted for it, or its carrier is
claimed. -/
def Stands (s : State) (q : CarryRecord) : Prop := q.phase = .adopting ∨ claimed s q.carrier = true

theorem examined_iff {s : State} {q : CarryRecord} :
    (decide (q.phase ≠ .adopting) && !claimed s q.carrier) = true ↔ ¬Stands s q := by
  simp [Stands]

theorem unclaimedRecord_none {s : State} (h : ∀ q ∈ s.router.records, Stands s q) : unclaimedRecord s = none := by
  rw [unclaimedRecord, List.find?_eq_none]
  exact fun q hq hexamined => examined_iff.mp hexamined (h q hq)

/-- R133: of several records, the one opened first. -/
theorem unclaimedRecord_first {s : State} {before after : List CarryRecord} {q : CarryRecord}
    (h : s.router.records = before ++ q :: after) (hbefore : ∀ p ∈ before, Stands s p) (hq : ¬Stands s q) :
    unclaimedRecord s = some q := by
  rw [unclaimedRecord, List.find?_eq_some_iff_append]
  refine ⟨examined_iff.mpr hq, before, after, h, fun p hp => ?_⟩
  rw [Bool.not_eq_true', ← Bool.not_eq_true, examined_iff]
  exact not_not.mpr (hbefore p hp)

theorem examineClaims_stands {s : State} (h : unclaimedRecord s = none) (n : Nat) : examineClaims n s = s := by
  cases n with
  | zero => rfl
  | succ n => rw [examineClaims, h]

theorem examineClaims_one {s : State} {q : CarryRecord} (h : unclaimedRecord s = some q) :
    examineClaims 1 s = giveUp q s := by
  rw [examineClaims, h]
  rfl

theorem giveUp_waiting {q : CarryRecord} (h : q.phase = .waitingSlot) (s : State) :
    giveUp q s = closeRecord q.carrier (withdrawHold q.slot s) := by
  rw [giveUp, h]

theorem giveUp_holding {q : CarryRecord} (hwaiting : q.phase ≠ .waitingSlot) (hadopting : q.phase ≠ .adopting)
    (s : State) : giveUp q s = (releaseSlot .router false q.slot s).1 := by
  cases hp : q.phase with
  | waitingSlot => exact absurd hp hwaiting
  | adopting => exact absurd hp hadopting
  | acquiring => rw [giveUp, hp]
  | live => rw [giveUp, hp]
  | retuning => rw [giveUp, hp]

/-! ## The hold withdrawn and the slot released (R30, R31, R33, R133) -/

theorem withdrawHold_unheld {i : Fin 8} {s : State} (h : (s.slot i).heldForRouter = false) : withdrawHold i s = s :=
  if_pos h

theorem withdrawHold_idle {i : Fin 8} {s : State} (h : (s.slot i).heldForRouter = true)
    (hstate : (s.slot i).state = .idle) :
    withdrawHold i s =
      searchDue (putSlot i { s.slot i with heldForRouter := false, parkTimer := some 5000 } s) := by
  simp [withdrawHold, h, hstate, modSlot, parkMs]

theorem withdrawHold_busy {i : Fin 8} {s : State} (h : (s.slot i).heldForRouter = true)
    (hstate : (s.slot i).state ≠ .idle) :
    withdrawHold i s = putSlot i { s.slot i with heldForRouter := false } s := by
  simp [withdrawHold, h, hstate, modSlot]

theorem releaseSlot_router_works {i : Fin 8} {s : State} (hold : Bool)
    (h : (s.slot i).state = .tuning ∨ (s.slot i).state = .acquiring ∨ (s.slot i).state = .locked) :
    ∃ reason, (releaseSlot .router hold i s).1 = releaseWork i hold false reason true s := by
  obtain h | h | h := h
  · exact ⟨.aborted, by simp [releaseSlot, h]⟩
  · exact ⟨.aborted, by simp [releaseSlot, h]⟩
  · exact ⟨.released, by simp [releaseSlot, h]⟩

/-- The end of a hold writes the table; what follows are reports. -/
theorem endHold_writes (x : Nat) (j : Fin 8) (g : Carrier → Carrier) (s : State) :
    ∃ t, Reports (s.setCarriers t) (endHold x j g s) := by
  obtain hsame | ⟨c, h, hc, hh, hj⟩ := endHold_or_held x j g s
  · exact ⟨s.carriers, by rw [hsame]; exact .refl s⟩
  · simp only [endHold, hc, hh, hj, ne_eq, not_true_eq_false, if_false]
    split
    · split
      · exact ⟨_, (reports_reportChanges ..).trans (reports_searchDue _)⟩
      · exact ⟨_, (changeCarrier_reports (f := fun c => { c with hold := none }) hc).trans (reports_searchDue _)⟩
    · exact ⟨_, (changeCarrier_reports (f := fun c => { g c with hold := none }) hc).trans (reports_searchDue _)⟩

theorem endHold_records (x : Nat) (j : Fin 8) (g : Carrier → Carrier) (s : State) :
    (endHold x j g s).router.records = s.router.records := by
  obtain ⟨t, ht⟩ := endHold_writes x j g s
  exact ht.records

/-- R133: the end of a carry that the router asked for. -/
theorem endCarry_asked {x : Nat} {s : State} (h : ∃ q ∈ s.router.records, q.carrier = x) :
    Reports (closeRecord x s) (endCarry x true s) := by
  have hopen : (recordOf s x).isSome = true := by
    obtain ⟨q, hq, hx⟩ := h
    rw [recordOf, List.find?_isSome]
    exact ⟨q, hq, decide_eq_true hx⟩
  rw [endCarry, if_pos rfl, if_pos hopen]
  exact ((ranks_recomputeRooms _).trans (ranks_endOfCarry ..)).reports

/-- R133: the record of a slot in role CARRY that the router releases is closed. -/
theorem releaseWork_closes {i : Fin 8} {x : Nat} {s : State} (hrole : (s.slot i).role = .carry)
    (hx : (s.slot i).carrier = some x) (hq : ∃ q ∈ s.router.records, q.carrier = x) (hold offline : Bool)
    (reason : EndReason) :
    (releaseWork i hold offline reason true s).router.records =
      s.router.records.filter fun p => decide (p.carrier ≠ x) := by
  obtain ⟨g, hwork⟩ := releaseWork_eq hx hold offline reason true
  have hrecords : (endHold x i g (enterReleasing i hold offline s)).router.records = s.router.records :=
    (endHold_records ..).trans (refers_leaveLocked i (freedSlot hold offline) s).records
  rw [hwork, reportEnd, hrole]
  refine (endCarry_asked (by rwa [hrecords])).records.trans ?_
  exact congrArg (List.filter fun p => decide (p.carrier ≠ x)) hrecords

/-- R30, R31, R133: a record whose slot works for its carrier is given up by the release of that slot, which closes it. -/
theorem giveUp_releases {q : CarryRecord} {s : State} (hq : q ∈ s.router.records) (hwaiting : q.phase ≠ .waitingSlot)
    (hadopting : q.phase ≠ .adopting) (hrole : (s.slot q.slot).role = .carry)
    (hcarrier : (s.slot q.slot).carrier = some q.carrier)
    (hworks : (s.slot q.slot).state = .tuning ∨ (s.slot q.slot).state = .acquiring ∨ (s.slot q.slot).state = .locked) :
    Referred (freedSlot false false (s.slot q.slot)) ((giveUp q s).slot q.slot) ∧
      (giveUp q s).router.records = s.router.records.filter fun p => decide (p.carrier ≠ q.carrier) := by
  obtain ⟨reason, he⟩ := releaseSlot_router_works false hworks
  rw [giveUp_holding hwaiting hadopting, he]
  exact ⟨releaseWork_slot .., releaseWork_closes hrole hcarrier ⟨q, hq, rfl⟩ ..⟩

/-! ## The candidates and the free slots of a search (R92, R94, R95) -/

/-- A member that nothing in an ordered list comes before is its first. -/
theorem head?_eq_of_first {α : Type} {r : α → α → Prop} {l : List α} {x : α} (h : l.Pairwise r) (hx : x ∈ l)
    (hfirst : ∀ y ∈ l, ¬r y x) : l.head? = some x := by
  cases l with
  | nil => cases hx
  | cons y l =>
    obtain rfl | hmem := List.mem_cons.mp hx
    · rfl
    · exact absurd ((List.pairwise_cons.mp h).1 x hmem) (hfirst y List.mem_cons_self)

theorem surveyable_iff {s : State} {c : Carrier} :
    surveyable s c = true ↔
      c.state ≠ .excluded ∧ c.state ≠ .acquiring ∧ c.hold = none ∧
        (s.plan.committed.inputs[inputCode c.input]).cls ≠ .disabled := by
  simp only [surveyable, Bool.and_eq_true, decide_eq_true_eq, Option.isNone_iff_eq_none, and_assoc]
  rfl

/-- R94: carrier `x` is listed and may be started. -/
def Urgent (s : State) (x : Nat) : Prop := x ∈ s.sched.urgent ∧ ∃ c, s.carrier x = some c ∧ surveyable s c = true

theorem urgentCandidates_eq (s : State) :
    ∃ p : Nat → Bool, urgentCandidates s = s.sched.urgent.filter p ∧
      ∀ x, p x = true ↔ ∃ c, s.carrier x = some c ∧ surveyable s c = true := by
  refine ⟨_, rfl, fun x => ?_⟩
  cases s.carrier x <;> simp

theorem urgentCandidates_nil {s : State} (h : ∀ x, ¬Urgent s x) : urgentCandidates s = [] := by
  obtain ⟨p, he, hp⟩ := urgentCandidates_eq s
  rw [he, List.filter_eq_nil_iff]
  exact fun x hx hstarts => h x ⟨hx, (hp x).mp hstarts⟩

/-- R94: the first listed carrier that may be started. -/
theorem urgentCandidates_head {s : State} {x : Nat} {c : Carrier} {before after : List Nat}
    (h : s.sched.urgent = before ++ x :: after) (hbefore : ∀ y ∈ before, ¬Urgent s y) (hc : s.carrier x = some c)
    (hmay : surveyable s c = true) : (urgentCandidates s).head? = some x := by
  obtain ⟨p, he, hp⟩ := urgentCandidates_eq s
  rw [he, List.head?_filter, List.find?_eq_some_iff_append]
  refine ⟨(hp x).mpr ⟨c, hc, hmay⟩, before, after, h, fun y hy => ?_⟩
  rw [Bool.not_eq_true', ← Bool.not_eq_true, hp]
  exact fun hstarts => hbefore y hy ⟨h ▸ List.mem_append_left _ hy, hstarts⟩

theorem duesBefore_iff {a b : Nat × Carrier} :
    duesBefore a b = true ↔ a.2.nextDue < b.2.nextDue ∨ (a.2.nextDue = b.2.nextDue ∧ a.1 < b.1) := by
  simp [duesBefore]

/-- R92: carrier `x`, with entry `c`, may be surveyed and is due. -/
def Due (s : State) (x : Nat) (c : Carrier) : Prop :=
  s.carrier x = some c ∧ surveyable s c = true ∧ c.nextDue ≤ s.clock.now

section
variable {s : State} (ht : CarrierLaw s.carriers)
include ht

theorem mem_dueEntries_iff {e : Nat × Carrier} :
    e ∈ s.carriers.filter (fun e => surveyable s e.2 && decide (e.2.nextDue ≤ s.now)) ↔ Due s e.1 e.2 := by
  have hmem : e ∈ s.carriers ↔ s.carrier e.1 = some e.2 := ⟨tabGet_of_mem (tabWf_iff.mp ht.1).1, mem_of_tabGet⟩
  rw [List.mem_filter, hmem, Bool.and_eq_true, decide_eq_true_eq]
  rfl

theorem dueOrder_nil (h : ∀ x c, ¬Due s x c) : dueOrder s = [] := by
  have hnone : s.carriers.filter (fun e => surveyable s e.2 && decide (e.2.nextDue ≤ s.now)) = [] :=
    List.eq_nil_iff_forall_not_mem.mpr fun e he => h e.1 e.2 ((mem_dueEntries_iff ht).mp he)
  rw [dueOrder, hnone]
  rfl

/-- The due order puts any two places of the table in order. -/
theorem dueEntries_sorted (p : Nat × Carrier → Bool) :
    (sortBy duesBefore (s.carriers.filter p)).Pairwise fun a b => duesBefore a b = true := by
  have hplaces : s.carriers.Pairwise fun a b => a.1 < b.1 := List.pairwise_map.mp (tabWf_iff.mp ht.1).1
  refine sortBy_pairwise (fun a b c hab hbc => ?_) ((hplaces.filter p).imp fun {a b} hab => ?_)
  · rw [duesBefore_iff] at hab hbc ⊢
    omega
  · rw [duesBefore_iff, duesBefore_iff]
    omega

/-- R92: the carrier due first. -/
theorem dueOrder_head {x : Nat} {c : Carrier} (hx : Due s x c)
    (hfirst : ∀ y d, Due s y d → c.nextDue < d.nextDue ∨ (c.nextDue = d.nextDue ∧ x ≤ y)) :
    (dueOrder s).head? = some x := by
  have hmem (e : Nat × Carrier) : e ∈ sortBy duesBefore (s.carriers.filter fun e =>
      surveyable s e.2 && decide (e.2.nextDue ≤ s.now)) ↔ Due s e.1 e.2 :=
    (sortBy_perm duesBefore _).mem_iff.trans (mem_dueEntries_iff ht)
  have hhead := head?_eq_of_first (dueEntries_sorted ht _) ((hmem (x, c)).mpr hx) fun e he hbefore => by
    have hleast := hfirst e.1 e.2 ((hmem e).mp he)
    rw [duesBefore_iff] at hbefore
    dsimp only at hbefore
    omega
  rw [dueOrder, List.head?_map, hhead]
  rfl

/-- R92, R96: with nothing listed that may be started and nothing due there is no candidate. -/
theorem searchCandidates_nil (hlisted : ∀ x, ¬Urgent s x) (hdue : ∀ x c, ¬Due s x c) : searchCandidates s = [] := by
  rw [searchCandidates, urgentCandidates_nil hlisted, dueOrder_nil ht hdue]
  rfl

/-- R96: the first candidate: the first listed carrier that may be started, or else the carrier due first. -/
theorem searchCandidates_head {x : Nat} {c : Carrier} (hc : s.carrier x = some c) (hmay : surveyable s c = true)
    (h : (∃ before after, s.sched.urgent = before ++ x :: after ∧ ∀ y ∈ before, ¬Urgent s y) ∨
      ((∀ y, ¬Urgent s y) ∧ c.nextDue ≤ s.clock.now ∧
        ∀ y d, Due s y d → c.nextDue < d.nextDue ∨ (c.nextDue = d.nextDue ∧ x ≤ y))) :
    (searchCandidates s).head? = some x := by
  rw [searchCandidates, List.head?_append]
  obtain ⟨before, after, hlist, hbefore⟩ | ⟨hlisted, hnow, hfirst⟩ := h
  · rw [urgentCandidates_head hlist hbefore hc hmay]
    rfl
  · rw [urgentCandidates_nil hlisted, dueOrder_head ht ⟨hc, hmay, hnow⟩ hfirst]
    rfl

end

theorem slotFree_iff {r : Slot} :
    slotFree r = true ↔ (r.state = .idle ∨ r.state = .parked) ∧ r.role = .none ∧ r.heldForRouter = false := by
  simp [slotFree, and_assoc]

theorem freeSlots_nil {s : State} (h : ∀ i, ¬slotFree (s.slot i) = true) : s.freeSlots = [] := by
  simp [State.freeSlots, h]

/-- The lowest free slot in a state. -/
theorem freeIn_head {s : State} {i : Fin 8} {st : SlotState} (hfree : slotFree (s.slot i) = true)
    (hst : (s.slot i).state = st) (hfirst : ∀ k, k < i → slotFree (s.slot k) = true → (s.slot k).state ≠ st) :
    (allSlots.filter fun k => slotFree (s.slot k) && decide ((s.slot k).state = st)).head? = some i := by
  refine head?_eq_of_first ((List.pairwise_lt_finRange 8).filter _) ?_ fun k hk hlt => ?_
  · exact List.mem_filter.mpr ⟨List.mem_finRange i, by simp [hfree, hst]⟩
  · obtain ⟨-, hboth⟩ := List.mem_filter.mp hk
    obtain ⟨hkfree, hkst⟩ := Bool.and_eq_true_iff.mp hboth
    exact hfirst k hlt hkfree (of_decide_eq_true hkst)

/-- R95: the lowest free slot in IDLE, or in PARKED when none is in IDLE. -/
theorem freeSlots_head {s : State} {i : Fin 8} (hfree : slotFree (s.slot i) = true)
    (hidle : (s.slot i).state = .idle → ∀ k, k < i → slotFree (s.slot k) = true → (s.slot k).state = .parked)
    (hparked : (s.slot i).state = .parked →
      ∀ k, slotFree (s.slot k) = true → (s.slot k).state = .parked ∧ i ≤ k) : s.freeSlots.head? = some i := by
  obtain ⟨hst | hst, -⟩ := slotFree_iff.mp hfree
  · rw [State.freeSlots, List.head?_append, freeIn_head hfree hst fun k hk hkfree => by simp [hidle hst k hk hkfree]]
    rfl
  · have hnone : (allSlots.filter fun k => slotFree (s.slot k) && decide ((s.slot k).state = .idle)) = [] := by
      refine List.filter_eq_nil_iff.mpr fun k _ hboth => ?_
      obtain ⟨hkfree, hkst⟩ := Bool.and_eq_true_iff.mp hboth
      cases (of_decide_eq_true hkst).symm.trans (hparked hst k hkfree).1
    rw [State.freeSlots, hnone, List.nil_append]
    exact freeIn_head hfree hst fun k hk hkfree => absurd (hparked hst k hkfree).2 (not_le_of_gt hk)

/-! ## One turn of a search (R27, R73, R94 to R98) -/

/-- R27, R29: a free slot takes the TUNE of the scheduler for a carrier that no slot is assigned. -/
theorem tuneSlot_free {x : Nat} {i : Fin 8} {s : State} {c : Carrier} (hfree : slotFree (s.slot i) = true)
    (hapart : ∀ j, (s.slot j).carrier ≠ some x) (hc : s.carrier x = some c) :
    tuneSlot false x i s =
      (tableTuned x i false (changeSlot i (tunedSlot s.now x false c (s.committed.profile c.profile)) s), .accepted) := by
  obtain ⟨hst, -, hheld⟩ := slotFree_iff.mp hfree
  have hrefuse : tuneRefusal false x i s = none := by
    obtain hst | hst := hst
    · simp [tuneRefusal, hst, hheld, slotOn_eq_none hapart, hc]
    · simp [tuneRefusal, hst, hheld, slotOn_eq_none hapart, hc]
  simp [tuneSlot, hrefuse, hc]

theorem find?_not_struck {α : Type} [BEq α] (l : List α) : l.find? (fun x => !([] : List α).contains x) = l.head? := by
  cases l <;> simp

theorem searchLoop_ends (n : Nat) {s : State} (h : searchCandidates s = [] ∨ s.freeSlots = []) :
    searchLoop n [] [] s = s := by
  cases n with
  | zero => rfl
  | succ n =>
    rw [searchLoop, find?_not_struck, find?_not_struck]
    obtain h | h := h
    · rw [h]
      rfl
    · rw [h]
      cases (searchCandidates s).head? <;> rfl

theorem searchLoop_tunes (n : Nat) {x : Nat} {i : Fin 8} {s t : State} (hx : (searchCandidates s).head? = some x)
    (hi : s.freeSlots.head? = some i) (ht : tuneSlot false x i s = (t, .accepted)) :
    searchLoop (n + 1) [] [] s = searchLoop n [] [] (openSurvey x i t) := by
  rw [searchLoop, find?_not_struck, find?_not_struck, hx, hi]
  dsimp only
  rw [ht]

theorem tableTuned_ranks {x : Nat} {s : State} {c : Carrier} (i : Fin 8) (hc : s.carrier x = some c) :
    Ranks (putCarrier x (tunedEntry i false c) s) (tableTuned x i false s) := by
  simp only [tableTuned, changeCarrier, hc]
  exact ranks_reportCarrier ..

theorem tunedEntry_surveyable {s : State} {c : Carrier} (h : surveyable s c = true) (i : Fin 8) :
    tunedEntry i false c =
      { c with
        state := .acquiring, stateBefore := some c.state, hold := some { slot := i, carry := false, ending := false } } := by
  obtain ⟨hexcluded, hacquiring, -⟩ := surveyable_iff.mp h
  simp [tunedEntry, hexcluded, hacquiring]

/-- The state after slot `i` has taken the scheduler's TUNE for carrier `x`, whose entry is `c`, before the survey record. -/
def surveyTuned (x : Nat) (i : Fin 8) (c : Carrier) (s : State) : State :=
  tableTuned x i false (changeSlot i (tunedSlot s.now x false c (s.committed.profile c.profile)) s)

/-- What a TUNE of the scheduler leaves: its slot, its entry, and all else the survey record is formed from. -/
theorem surveyTuned_leaves {x : Nat} (i : Fin 8) {c : Carrier} {s : State} (hc : s.carrier x = some c)
    (hmay : surveyable s c = true) :
    let t := surveyTuned x i c s
    t.sched = s.sched ∧ t.clock = s.clock ∧ t.plan = s.plan ∧
      t.slot i = tunedSlot s.now x false c (s.committed.profile c.profile) (s.slot i) ∧
        (∀ k, k ≠ i → t.slot k = s.slot k) ∧
          t.carrier x = some { c with
            state := .acquiring, stateBefore := some c.state, hold := some { slot := i, carry := false, ending := false } } ∧
            ∀ y, y ≠ x → t.carrier y = s.carrier y := by
  let tuned := tunedSlot s.now x false c (s.committed.profile c.profile)
  have hslot := changeSlot_ranks i tuned s
  obtain ⟨⟨hothers, hcarriers, -⟩, hself⟩ := changeSlot_alone i tuned s
  have hcarrier (y : Nat) : (changeSlot i tuned s).carrier y = s.carrier y := congrArg (tabGet · y) hcarriers
  have htable : Ranks _ (surveyTuned x i c s) := tableTuned_ranks i ((hcarrier x).trans hc)
  have hentry (y : Nat) := (htable.tells.carrier y).trans (carrier_putCarrier ..)
  refine ⟨htable.sameSched.trans hslot.sameSched, htable.clock.trans hslot.clock, htable.plan.trans hslot.plan,
    (htable.tells.slot i).trans hself, fun k hk => (htable.tells.slot k).trans (hothers k hk), ?_, fun y hy => ?_⟩
  · rw [hentry, if_pos rfl, tunedEntry_surveyable hmay]
  · rw [hentry, if_neg hy, hcarrier]

/-- R94, R98: the survey record is opened and the carrier leaves the urgent list. -/
theorem openSurvey_sched (x : Nat) (i : Fin 8) (s : State) :
    (openSurvey x i s).sched = { s.sched with
      urgent := s.sched.urgent.filter fun y => decide (y ≠ x),
      surveys := s.sched.surveys.set i (some
        { carrier := x, start := s.clock.now, wanted := s.plan.committed.params.windows, taken := 0,
          phase := .acquiring, fromUrgent := s.sched.urgent.contains x, askedByTable := false }) } := rfl

theorem tells_openSurvey (x : Nat) (i : Fin 8) (s : State) : Tells s (openSurvey x i s) :=
  (tells_putSurvey ..).trans (reports_dropUrgent ..).toTells

/-- Settles O24: the commands case by case, the claims by `unclaimedRecord_first` and `giveUp_releases`, and the turn of a
search by the heads of its two lists. -/
theorem surveyNowAndModes : Obligations.SurveyNowAndModes := by
  unfold Obligations.SurveyNowAndModes
  refine ⟨fun s i hi hs => ?surveyNow, fun s hs => ?mode, fun s => runSearch_hold, fun s => ?claims, fun s n ht => ?turn⟩
  case surveyNow =>
    rw [exec_surveyNow hs hi]
    refine ⟨fun h => by rw [doSurveyNow_absent h]; rfl, fun c hplace hc => ?_⟩
    rw [doSurveyNow_present hplace hc]
    intro carried
    have hcarried_iff : c.carried = true ↔ carried := carried_iff
    refine ⟨fun h => ?_, fun h hor => ?_, fun h hcarried hlisted => ⟨fun hfull => ?_, fun hroom => ?_⟩⟩
    · rw [if_pos h]
      rfl
    · rw [if_neg h, if_pos (hor.imp_left hcarried_iff.mpr)]
      rfl
    · rw [if_neg h, if_neg (not_or.mpr ⟨mt hcarried_iff.mp hcarried, hlisted⟩), if_pos hfull]
      rfl
    · rw [if_neg h, if_neg (not_or.mpr ⟨mt hcarried_iff.mp hcarried, hlisted⟩), if_neg (Nat.not_le.mpr hroom)]
      rfl
  case mode =>
    rw [exec_setSurveyMode hs (by decide), exec_setSurveyMode hs (by decide)]
    refine ⟨fun h => ?_, fun h => ?_, fun m hm hbyte => ?_⟩
    · obtain ⟨hrun, hhold⟩ := doSetSurveyMode_of_hold h
      rw [hrun, hhold]
      exact ⟨rfl, rfl⟩
    · obtain ⟨hhold, hrun⟩ := doSetSurveyMode_of_run h
      rw [hhold, hrun]
      exact ⟨rfl, rfl⟩
    · rw [exec_setSurveyMode hs hbyte, doSetSurveyMode_above hm]
      rfl
  case claims =>
    intro claimedBy stands
    have hstands (q : CarryRecord) : stands q ↔ Stands s q := or_congr Iff.rfl claimed_iff.symm
    refine ⟨fun hall => ?all, fun before q after hrecords hbefore hq => ?first⟩
    case all =>
      have hclaims : checkClaims s = s :=
        examineClaims_stands (unclaimedRecord_none fun q hq => (hstands q).mp (hall q hq)) _
      exact ⟨hclaims, settle_idle hclaims⟩
    case first =>
      intro r u closed
      have hfirst := unclaimedRecord_first hrecords (fun p hp => (hstands p).mp (hbefore p hp)) (mt (hstands q).mpr hq)
      have hu : u = giveUp q s := examineClaims_one hfirst
      refine ⟨fun hphase => ?waiting, fun hphase hrole hcarrier hworks => ?holding⟩
      case waiting =>
        rw [hu, giveUp_waiting hphase]
        refine ⟨fun h => ?_, fun h hst => ?_, fun h hst => ?_⟩
        · rw [withdrawHold_unheld h]
          rfl
        · rw [withdrawHold_idle h hst]
          rfl
        · rw [withdrawHold_busy h hst]
          rfl
      case holding =>
        have hmem : q ∈ s.router.records := hrecords ▸ List.mem_append_right _ List.mem_cons_self
        obtain ⟨⟨st, m, hslot, -⟩, hleft⟩ := giveUp_releases hmem hphase (fun h => hq (.inl h)) hrole hcarrier hworks
        rw [hu, hslot, hleft]
        exact ⟨⟨rfl, rfl, rfl, rfl, rfl⟩, fun p => by rw [List.mem_filter, decide_eq_true_eq]⟩
  case turn =>
    intro may urgent due free
    have hmay (c : Carrier) : may c ↔ surveyable s c = true := surveyable_iff.symm
    have hurgent (x : Nat) : urgent x ↔ Urgent s x := by simp only [urgent, Urgent, hmay]
    have hdue (x : Nat) (c : Carrier) : due x c ↔ Due s x c := by simp only [due, Due, hmay]
    have hfree (i : Fin 8) : free i ↔ slotFree (s.slot i) = true := slotFree_iff.symm
    simp only [hmay, hurgent, hdue, hfree]
    refine ⟨fun hnone => ?ends, fun x c i hc hmay hcandidate hslot hidle hparked hapart => ?tunes⟩
    case ends =>
      have hcandidates := fun h : (∀ x, ¬Urgent s x) ∧ ∀ x c, ¬Due s x c => searchCandidates_nil ht h.1 h.2
      exact searchLoop_ends n (hnone.symm.imp hcandidates freeSlots_nil)
    case tunes =>
      obtain ⟨hsched, hclock, hplan, hself, hothers, hentry, hentries⟩ := surveyTuned_leaves i hc hmay
      have htells := tells_openSurvey x i (surveyTuned x i c s)
      refine ⟨openSurvey x i (surveyTuned x i c s),
        searchLoop_tunes n (searchCandidates_head ht hc hmay hcandidate) (freeSlots_head hslot hidle hparked)
          (tuneSlot_free hslot hapart hc), ?_,
        fun k hk => (htells.slot k).trans (hothers k hk), ?_, (htells.carrier x).trans hentry,
        fun y hy => (htells.carrier y).trans (hentries y hy)⟩
      · rw [htells.slot, hself]
        refine ⟨rfl, rfl, rfl, rfl, rfl, rfl, rfl, rfl, rfl, rfl, rfl, rfl, ?_⟩
        simp only [tunedSlot]
        split <;> rfl
      · rw [openSurvey_sched, hsched, hclock, hplan]

end Sys2Proof.Machine

/-! The family "Service ranking": the candidate list a rebuild forms (R112, R114, R115), what leaves every list with a removed
carrier (R85), the answers to a service's request and what a service does after a rebuild (R116 to R120, R123), failed grants
and the last failover of a hold (R121, R122), and the bytes of the list and service queries (R125, R171). -/

namespace Sys2Proof.Machine

/-! ## Eligibility (R82, R112) -/

theorem scoreAtFloor_iff {floor : Nat} {c : Carrier} :
    scoreAtFloor floor c = true ↔ ∃ m x, c.meas = some m ∧ m.score = some x ∧ floor ≤ x := by
  unfold scoreAtFloor
  cases c.meas with
  | none => simp
  | some m => cases h : m.score <;> simp [h]

theorem eligibleFor_iff {p : Params} {k : ServiceKey} {c : Carrier} :
    eligibleFor p k c = true ↔ c.state = .verified ∧ c.listStatus = .valid ∧ k ∈ c.services ∧
      ∃ m x, c.meas = some m ∧ m.score = some x ∧ p.floor ≤ x := by
  simp [eligibleFor, scoreAtFloor_iff, and_assoc]

theorem inAbeyance_iff {p : Params} {k : ServiceKey} {c : Carrier} :
    inAbeyance p k c = true ↔ c.state = .verified ∧ c.listStatus = .pending ∧ k ∈ c.services ∧
      ∃ m x, c.meas = some m ∧ m.score = some x ∧ p.floor ≤ x := by
  simp [inAbeyance, scoreAtFloor_iff, and_assoc]

theorem stale_iff {s : State} {c : Carrier} :
    s.stale c = true ↔ ∃ m, c.meas = some m ∧ m.time + s.params.maxAge < s.now := by
  unfold State.stale staleAt
  cases c.meas <;> simp

/-! ## The candidates of a list (R114) -/

theorem mem_eligibleRanked_iff {s : State} {key : ServiceKey} {k : Candidate} :
    k ∈ s.eligibleRanked key ↔
      ∃ e ∈ s.carriers, eligibleFor s.params key e.2 = true ∧ candidateOf s key e.1 e.2 = k := by
  simp only [State.eligibleRanked, (sortBy_perm _ _).mem_iff, List.mem_map, List.mem_filter, and_assoc]

theorem eligibleRanked_eq_nil_iff {s : State} {key : ServiceKey} :
    s.eligibleRanked key = [] ↔ ∀ e ∈ s.carriers, eligibleFor s.params key e.2 = false := by
  simp only [List.eq_nil_iff_forall_not_mem, mem_eligibleRanked_iff, not_exists, not_and]
  exact ⟨fun h e he => Bool.eq_false_iff.mpr fun ht => h _ e he ht rfl,
    fun h _ e he ht => absurd ht (by simp [h e he])⟩

/-- What each candidate of a list is: an eligible reception, or the selection's carrier with or without an entry. -/
def FormedFrom (s : State) (v : Service) (k : Candidate) : Prop :=
  (∃ c, s.carrier k.carrier = some c ∧ k = candidateOf s v.key k.carrier c ∧
      (eligibleFor s.params v.key c = true ∨ v.selection = some k.carrier)) ∨
    (s.carrier k.carrier = none ∧ v.selection = some k.carrier ∧ k.score = none ∧ k.eligible = false)

theorem formedFrom_eligible {s : State} (hlaw : CarrierLaw s.carriers) {v : Service} {k : Candidate}
    (hk : k ∈ s.eligibleRanked v.key) : FormedFrom s v k := by
  obtain ⟨e, he, heligible, rfl⟩ := mem_eligibleRanked_iff.mp hk
  exact .inl ⟨e.2, tabGet_of_mem (tabWf_iff.mp hlaw.1).1 he, rfl, .inl heligible⟩

theorem formedFrom_selected {s : State} {v : Service} {x : Nat} (hx : v.selection = some x) :
    FormedFrom s v (selectedCandidate s v.key x) := by
  unfold selectedCandidate
  cases hc : s.carrier x with
  | none => exact .inr ⟨hc, hx, rfl, rfl⟩
  | some c => exact .inl ⟨c, hc, rfl, .inr hx⟩

theorem eligible_mem_all {s : State} {v : Service} {k : Candidate} (hk : k ∈ s.eligibleRanked v.key) :
    k ∈ allCandidates s v := by
  unfold allCandidates
  dsimp only
  split
  · exact hk
  · split
    · exact hk
    · exact (insertBy_perm ..).mem_iff.mpr (List.mem_cons_of_mem _ hk)

theorem formedFrom_all {s : State} (hlaw : CarrierLaw s.carriers) {v : Service} {k : Candidate}
    (hk : k ∈ allCandidates s v) : FormedFrom s v k := by
  unfold allCandidates at hk
  dsimp only at hk
  split at hk
  · exact formedFrom_eligible hlaw hk
  · next x hx =>
    split at hk
    · exact formedFrom_eligible hlaw hk
    · obtain rfl | hmem := List.mem_cons.mp ((insertBy_perm ..).mem_iff.mp hk)
      · exact formedFrom_selected hx
      · exact formedFrom_eligible hlaw hmem

theorem formedFrom_formed {s : State} (hlaw : CarrierLaw s.carriers) {v : Service} {k : Candidate}
    (hk : k ∈ formedCandidates s v) : FormedFrom s v k :=
  formedFrom_all hlaw ((keepSix_sublist ..).subset hk)

/-! ## What the six places leave out (R114 step 4) -/

/-- A member of an ordered list that is not among the first `n` has `n` before it. -/
theorem take_full_of_left_out {α : Type} {R : α → α → Prop} {l : List α} {n : Nat} {a : α} (h : l.Pairwise R)
    (hmem : a ∈ l) (hout : a ∉ l.take n) : (l.take n).length = n ∧ ∀ b ∈ l.take n, R b a := by
  rw [← List.take_append_drop n l] at h hmem
  have hdrop : a ∈ l.drop n := (List.mem_append.mp hmem).resolve_left hout
  obtain ⟨-, -, hbefore⟩ := List.pairwise_append.mp h
  refine ⟨?_, fun b hb => hbefore b hb a hdrop⟩
  have hlong : 0 < (l.drop n).length := List.length_pos_of_mem hdrop
  rw [List.length_drop] at hlong
  exact List.length_take_of_le (by omega)

/-- The places beside the selection go to the highest others. -/
theorem keepSix_full_beside {x : Nat} {l : List Candidate} {c : Candidate} (ho : Ordered l)
    (hx : ∃ k ∈ l, k.carrier = x) (hc : c ∈ l) (hout : ∀ k ∈ keepSix (some x) l, k.carrier ≠ c.carrier) :
    (keepSix (some x) l).length = 6 ∧ ∀ k ∈ keepSix (some x) l, k.carrier ≠ x → ranksBefore k c = true := by
  obtain ⟨hnodup, hsorted⟩ := ho
  have hlength := keepSix_length (sel := some x) hnodup
  obtain ⟨k₀, hk₀, hk₀x⟩ := hx
  have hany : (l.any fun k => decide (k.carrier = x)) = true :=
    List.any_eq_true.mpr ⟨k₀, hk₀, decide_eq_true hk₀x⟩
  simp only [keepSix, if_pos hany] at hout hlength ⊢
  generalize hothers : (l.filter fun k => decide (k.carrier ≠ x)).take (candidatePlaces - 1) = others at *
  have hbeside : ∀ o ∈ others, o ∈ l ∧ o.carrier ≠ x := fun o ho => by
    rw [← hothers] at ho
    simpa using List.mem_of_mem_take ho
  have hkept (k : Candidate) : k ∈ (l.filter fun k =>
      decide (k.carrier = x) || others.any fun o => decide (o.carrier = k.carrier)) ↔
        k ∈ l ∧ (k.carrier = x ∨ ∃ o ∈ others, o.carrier = k.carrier) := by
    simp
  have hcx : c.carrier ≠ x := fun h => hout c ((hkept c).mpr ⟨hc, .inl h⟩) rfl
  obtain ⟨hfive, hbefore⟩ := take_full_of_left_out (n := candidatePlaces - 1) (hsorted.sublist List.filter_sublist)
    (List.mem_filter.mpr ⟨hc, decide_eq_true hcx⟩)
    (fun h => hout c ((hkept c).mpr ⟨hc, .inr ⟨c, hothers ▸ h, rfl⟩⟩) rfl)
  rw [hothers] at hfive hbefore
  refine ⟨le_antisymm hlength ?_, fun k hk hkx => ?_⟩
  · have hdistinct : (x :: others.map (·.carrier)).Nodup := by
      refine List.nodup_cons.mpr ⟨fun hm => ?_, hnodup.sublist ?_⟩
      · obtain ⟨o, hoo, hox⟩ := List.mem_map.mp hm
        exact (hbeside o hoo).2 hox
      · rw [← hothers]
        exact ((List.take_sublist ..).trans List.filter_sublist).map _
    have hsub : x :: others.map (·.carrier) ⊆ (l.filter fun k =>
        decide (k.carrier = x) || others.any fun o => decide (o.carrier = k.carrier)).map (·.carrier) := by
      intro y hy
      obtain rfl | hy := List.mem_cons.mp hy
      · exact List.mem_map.mpr ⟨k₀, (hkept k₀).mpr ⟨hk₀, .inl hk₀x⟩, hk₀x⟩
      · obtain ⟨o, hoo, rfl⟩ := List.mem_map.mp hy
        exact List.mem_map_of_mem ((hkept o).mpr ⟨(hbeside o hoo).1, .inr ⟨o, hoo, rfl⟩⟩)
    have hle := hdistinct.length_le_of_subset hsub
    rwa [List.length_cons, List.length_map, List.length_map, hfive] at hle
  · obtain ⟨hkl, hkeep⟩ := (hkept k).mp hk
    obtain ⟨o, hoo, hok⟩ := hkeep.resolve_left hkx
    obtain rfl : o = k := List.inj_on_of_nodup_map hnodup (hbeside o hoo).1 hkl hok
    exact hbefore o hoo

/-- R114 step 4: a candidate left out stands behind six, of which the rule ranks all but the selection before it. -/
theorem formed_full_of_left_out {s : State} (hlaw : CarrierLaw s.carriers) {v : Service} {c : Candidate}
    (hc : c ∈ allCandidates s v) (hout : ∀ k ∈ formedCandidates s v, k.carrier ≠ c.carrier) :
    (formedCandidates s v).length = 6 ∧
      ∀ k ∈ formedCandidates s v, v.selection ≠ some k.carrier → ranksBefore k c = true := by
  have ho := ordered_all hlaw v
  unfold formedCandidates at hout ⊢
  cases hx : v.selection with
  | none =>
    rw [hx] at hout
    obtain ⟨hsix, hbefore⟩ := take_full_of_left_out ho.2 hc fun h => hout c h rfl
    exact ⟨hsix, fun k hk _ => hbefore k hk⟩
  | some x =>
    rw [hx] at hout
    obtain ⟨hsix, hbefore⟩ := keepSix_full_beside ho (selection_mem_all hx) hc hout
    exact ⟨hsix, fun k hk hkx => hbefore k hk fun h => hkx (congrArg some h.symm)⟩

/-! ## Lead counts (R115) -/

/-- R115: candidate `k` of list `l` leads the selection: it is the top candidate, and ahead of it by the hysteresis. -/
def LeadsIn (hysteresis : Nat) (sel : Option Nat) (l : List Candidate) (k : Candidate) : Prop :=
  ∃ x, sel = some x ∧ k.carrier ≠ x ∧ (topOf l).map (·.carrier) = some k.carrier ∧
    ((l.find? fun n => decide (n.carrier = x)).bind (·.score)).getD 0 + hysteresis ≤ k.score.getD 0

/-- A list with the lead counts that `g` gives. -/
def relead (g : Candidate → Nat) (l : List Candidate) : List Candidate := l.map fun c => { c with lead := g c }

theorem find?_relead {p : Candidate → Bool} (hp : ∀ (c : Candidate) n, p { c with lead := n } = p c)
    (g : Candidate → Nat) (l : List Candidate) :
    (relead g l).find? p = (l.find? p).map fun c => { c with lead := g c } := by
  rw [relead, List.find?_map]
  congr 2
  exact funext fun c => hp c _

theorem topOf_relead (g : Candidate → Nat) (l : List Candidate) :
    (topOf (relead g l)).map (·.carrier) = (topOf l).map (·.carrier) := by
  rw [topOf, find?_relead fun _ _ => rfl, Option.map_map]
  rfl

theorem scoreOn_relead (g : Candidate → Nat) (l : List Candidate) (x : Nat) :
    ((relead g l).find? fun n => decide (n.carrier = x)).bind (·.score) =
      (l.find? fun n => decide (n.carrier = x)).bind (·.score) := by
  rw [find?_relead fun _ _ => rfl, Option.bind_map]
  rfl

/-- A candidate leads whatever lead counts the list already holds. -/
theorem leadsIn_relead {hysteresis : Nat} {sel : Option Nat} {l : List Candidate} {k : Candidate} {n : Nat}
    (g : Candidate → Nat) :
    LeadsIn hysteresis sel (relead g l) { k with lead := n } ↔ LeadsIn hysteresis sel l k := by
  simp only [LeadsIn, topOf_relead, scoreOn_relead]

theorem withLeads_relead (hysteresis : Nat) (sel : Option Nat) (old new : List Candidate) :
    ∃ g, withLeads hysteresis sel old new = relead g new ∧
      ∀ c, (LeadsIn hysteresis sel new c → g c = min 15 (leadOf old c.carrier + 1)) ∧
        (¬ LeadsIn hysteresis sel new c → g c = 0) := by
  unfold withLeads
  cases sel with
  | none => exact ⟨fun _ => 0, rfl, fun c => ⟨fun ⟨_, h, _⟩ => (nomatch h), fun _ => rfl⟩⟩
  | some x =>
    classical
    refine ⟨fun c => if LeadsIn hysteresis (some x) new c then min 15 (leadOf old c.carrier + 1) else 0, ?_,
      fun c => ⟨fun h => if_pos h, fun h => if_neg h⟩⟩
    refine List.map_congr_left fun c _ => ?_
    have hleads : LeadsIn hysteresis (some x) new c ↔ c.carrier ≠ x ∧ (topOf new).map (·.carrier) = some c.carrier ∧
        ((new.find? fun n => decide (n.carrier = x)).bind (·.score)).getD 0 + hysteresis ≤ c.score.getD 0 := by
      simp [LeadsIn]
    simp only [hleads]
    split <;> rfl

theorem leadOf_eq (l : List Candidate) (x : Nat) :
    leadOf l x = ((l.find? fun k => decide (k.carrier = x)).map (·.lead)).getD 0 := by
  unfold leadOf
  cases l.find? fun k => decide (k.carrier = x) <;> rfl

/-! ## A rebuild (R113 to R115, R120) -/

theorem service_rebuildList {s : State} {i : Nat} {v : Service} (hv : s.service i = some v) :
    (rebuildList i s).service i = some (settleConstrained (rebuilt s v)) := by
  rw [rebuildList, service_modService, if_pos rfl, hv]
  rfl

theorem selectionIsTop_iff {v : Service} :
    selectionIsTop v = true ↔ ∃ x, v.selection = some x ∧ (topOf v.cands).map (·.carrier) = some x := by
  unfold selectionIsTop
  cases topOf v.cands with
  | none => simp
  | some t => simp

theorem settleConstrained_eq (v : Service) :
    settleConstrained v = { v with constrained := (settleConstrained v).constrained } := by
  unfold settleConstrained
  split <;> rfl

theorem settleConstrained_constrained {v : Service} :
    (settleConstrained v).constrained = true ↔
      v.constrained = true ∧ ¬ (v.state = .served ∧ selectionIsTop v = true) := by
  unfold settleConstrained
  split <;> simp_all

/-- R114, R115: the list a rebuild leaves is the list formed, with the lead counts of the list it replaces raised or
cleared. -/
theorem rebuilt_cands (s : State) (v : Service) :
    ∃ g, (rebuilt s v).cands = relead g (formedCandidates s v) ∧
      ∀ c, (LeadsIn s.params.hysteresis v.selection (rebuilt s v).cands { c with lead := g c } →
          g c = min 15 (leadOf v.cands c.carrier + 1)) ∧
        (¬ LeadsIn s.params.hysteresis v.selection (rebuilt s v).cands { c with lead := g c } → g c = 0) := by
  obtain ⟨g, hcands, hlead⟩ := withLeads_relead s.params.hysteresis v.selection v.cands (formedCandidates s v)
  have hrebuilt : (rebuilt s v).cands = relead g (formedCandidates s v) := hcands
  refine ⟨g, hrebuilt, fun c => ?_⟩
  rw [hrebuilt, leadsIn_relead]
  exact hlead c

/-! ## A selection that stays or is cleared (R117) -/

/-- Service `i` keeps the selection it had, or holds none. -/
structure StaysOn (i : Nat) (s t : State) : Prop where
  selection : ∀ w, t.service i = some w → w.selection = none ∨ ∃ v, s.service i = some v ∧ w.selection = v.selection

theorem StaysOn.of_services {i : Nat} {s t : State} (h : t.services = s.services) : StaysOn i s t :=
  ⟨fun w hw => .inr ⟨w, (congrArg (tabGet · i) h).symm.trans hw, rfl⟩⟩

theorem StaysOn.refl (i : Nat) (s : State) : StaysOn i s s := .of_services rfl

theorem StaysOn.trans {i : Nat} {s t u : State} (h : StaysOn i s t) (k : StaysOn i t u) : StaysOn i s u := by
  refine ⟨fun w hw => ?_⟩
  obtain hnone | ⟨v, hv, hsel⟩ := k.selection w hw
  · exact .inl hnone
  · rw [hsel]
    exact h.selection v hv

theorem staysOn_modService {i : Nat} {f : Service → Service} {s : State}
    (h : ∀ v, s.service i = some v → (f v).selection = none ∨ (f v).selection = v.selection) :
    StaysOn i s (modService i f s) := by
  refine ⟨fun w hw => ?_⟩
  rw [service_modService, if_pos rfl] at hw
  obtain ⟨v, hv, rfl⟩ := Option.map_eq_some_iff.mp hw
  exact (h v hv).imp_right fun hsel => ⟨v, hv, hsel⟩

theorem postRequest_services (q : GrantReq) (s : State) : (postRequest q s).services = s.services := by
  unfold postRequest
  split <;> rfl

theorem staysOn_postRequest (i : Nat) (q : GrantReq) (s : State) : StaysOn i s (postRequest q s) :=
  .of_services (postRequest_services q s)

theorem staysOn_clearSelection (i : Nat) (s : State) : StaysOn i s (clearSelection i s) :=
  staysOn_modService fun _ _ => .inl rfl

theorem staysOn_rebuildList (i : Nat) (s : State) : StaysOn i s (rebuildList i s) :=
  staysOn_modService fun v _ => .inr (by rw [settleConstrained_eq]; rfl)

theorem staysOn_failoverStep3 (i : Nat) (first : Bool) (s : State) : StaysOn i s (failoverStep3 i first s) := by
  refine staysOn_modService fun v _ => ?_
  dsimp only
  split
  · exact .inl rfl
  · split
    · exact .inl rfl
    · exact .inr rfl

theorem staysOn_failover (i : Nat) (first : Bool) (s : State) : StaysOn i s (failover i first s) := by
  unfold failover failoverCarried
  split
  · exact .refl i s
  · split
    · split
      · exact .refl i s
      · split
        · exact staysOn_failoverStep3 ..
        · exact staysOn_postRequest ..
    · exact staysOn_postRequest ..

theorem voluntarySwitch_services (i : Nat) (v : Service) (s : State) :
    (voluntarySwitch i v s).services = s.services := by
  unfold voluntarySwitch
  split
  · rfl
  · split
    · exact postRequest_services ..
    · rfl

theorem staysOn_actServed (i : Nat) (s : State) : StaysOn i s (actServed i s) := by
  unfold actServed
  split
  · exact .refl i s
  · split
    · exact .of_services (voluntarySwitch_services ..)
    · split
      · exact staysOn_modService fun _ _ => .inr rfl
      · exact staysOn_failover ..

theorem switchedService_selection (now settle x : Nat) (prev : Option Nat) (v : Service) :
    (switchedService now settle x prev v).selection = some x := by
  unfold switchedService
  dsimp only
  split <;> rfl

/-- A service whose selection comes into effect again. -/
theorem staysOn_restored {i x : Nat} {v : Service} {s : State} (hv : s.service i = some v)
    (hx : v.selection = some x) (now settle : Nat) (prev : Option Nat) :
    StaysOn i s (rebuildList i (modService i (switchedService now settle x prev) s)) := by
  refine (staysOn_modService fun w hw => .inr ?_).trans (staysOn_rebuildList ..)
  cases hv.symm.trans hw
  rw [switchedService_selection, hx]

theorem staysOn_actWaiting {i : Nat} {v : Service} {s : State} (hv : s.service i = some v) :
    StaysOn i s (actWaiting i v s).1 := by
  have hdeferred : StaysOn i s (modService i (fun v => { v with deferred := { v.deferred with rebuilt := true } }) s) :=
    staysOn_modService fun _ _ => .inr rfl
  unfold actWaiting
  dsimp only
  split
  · exact hdeferred.trans (staysOn_modService fun _ _ => .inr rfl)
  · split
    · exact hdeferred
    · next x hx =>
      split
      · refine hdeferred.trans (staysOn_restored (v := { v with deferred := { v.deferred with rebuilt := true } }) ?_ hx ..)
        rw [service_modService, if_pos rfl, hv]
        rfl
      · exact hdeferred

/-- What a service does after a rebuild turns its selection to no other carrier: a switch completes later, in an answer. -/
theorem staysOn_act (i : Nat) (s : State) : StaysOn i s (act i s).1 := by
  unfold act
  split
  · exact .refl i s
  · next v hv =>
    split
    case isTrue =>
      dsimp only
      split
      · exact staysOn_clearSelection ..
      · exact .refl i s
    case isFalse =>
      split
      · exact staysOn_actWaiting hv
      · split
        case h_1 =>
          dsimp only
          split
          · exact .refl i s
          · exact staysOn_failover ..
        case h_2 => exact staysOn_actServed ..
        case h_3 => exact .refl i s
        case h_4 =>
          split
          · dsimp only
            split
            · exact .refl i s
            · exact staysOn_failover ..
          · split
            · exact .refl i s
            · split
              · split
                · exact .refl i s
                · next x hx => exact (staysOn_restored hv hx ..).trans (staysOn_actServed ..)
              · exact staysOn_failover ..

/-! ## Entries that leave the table (R108, R111) -/

theorem handPair_services (k : SubjectKind) (i : Nat) (b a : Option View) (s : State) :
    (handPair k i b a s).services = s.services := by
  obtain ⟨l, u, h⟩ := handPair_shape k i b a s
  rw [h]
  rfl

theorem deleteService_services {i : Nat} {v : Service} {s : State} (hv : s.service i = some v) :
    (deleteService i s).services = tabDel s.services i := by
  unfold deleteService
  rw [hv]
  exact handPair_services ..

theorem service_deleteService {s : State} (hlaw : ServiceLaw s.services) (i j : Nat) :
    (deleteService i s).service j = if j = i then none else s.service j := by
  cases hv : s.service i with
  | none =>
    have hsame : deleteService i s = s := by simp only [deleteService, hv]
    rw [hsame]
    split
    · next h => exact h ▸ hv
    · rfl
  | some v =>
    unfold State.service
    rw [deleteService_services hv]
    split
    · next h => exact h ▸ tabGet_tabDel (tabWf_iff.mp hlaw.1).1 i
    · next h => exact tabGet_tabDel_ne _ _ _ h

/-- R111: what stays in the table when an entry without marks is removed stood there before. -/
theorem service_of_pruneService {i j : Nat} {s : State} {w : Service} (hlaw : ServiceLaw s.services)
    (hw : (pruneService i s).service j = some w) : s.service j = some w := by
  unfold pruneService at hw
  split at hw
  · exact hw
  · next v hv =>
    split at hw
    · exact hw
    · split at hw
      · rw [service_deleteService hlaw] at hw
        split at hw
        · cases hw
        · exact hw
      · split at hw
        · exact hw
        · have hcleared := (ranks_reported false (serves_clearSelection i s) hv).services hlaw
          rw [service_deleteService hcleared] at hw
          split at hw
          · cases hw
          · next hj =>
            rw [State.service, reportService_services] at hw
            exact ((serves_clearSelection i s).others j hj).symm.trans hw

/-! ## A removed carrier leaves every list (R85) -/

/-- The sixth law is kept, and a service that stays keeps the selection it had or holds none. -/
structure SelectionsKept (s t : State) : Prop where
  law : ServiceLaw s.services → ServiceLaw t.services
  stays : ServiceLaw s.services → ∀ i, StaysOn i s t

theorem SelectionsKept.refl (s : State) : SelectionsKept s s := ⟨id, fun _ i => .refl i s⟩

theorem SelectionsKept.trans {s t u : State} (h : SelectionsKept s t) (k : SelectionsKept t u) : SelectionsKept s u :=
  ⟨fun hs => k.law (h.law hs), fun hs i => (h.stays hs i).trans (k.stays (h.law hs) i)⟩

theorem selectionsKept_foldl {β : Type} {f : State → β → State} (h : ∀ s b, SelectionsKept s (f s b)) (l : List β)
    (s : State) : SelectionsKept s (l.foldl f s) := by
  induction l generalizing s with
  | nil => exact .refl s
  | cons b l ih => exact (h s b).trans (ih (f s b))

theorem SelectionsKept.of_services {s t : State} (h : t.services = s.services) : SelectionsKept s t :=
  ⟨fun hs => h ▸ hs, fun _ _ => .of_services h⟩

theorem Serves.selectionsKept {i : Nat} {s t : State} (h : Serves i s t) (hi : StaysOn i s t) : SelectionsKept s t := by
  refine ⟨h.services, fun _ j => ?_⟩
  by_cases hj : j = i
  · exact hj ▸ hi
  · exact ⟨fun w hw => .inr ⟨w, (h.others j hj).symm.trans hw, rfl⟩⟩

theorem selectionsKept_pruneService (i : Nat) (s : State) : SelectionsKept s (pruneService i s) :=
  ⟨(ranks_pruneService i s).services, fun hs _ => ⟨fun w hw => .inr ⟨w, service_of_pruneService hs hw, rfl⟩⟩⟩

theorem selectionsKept_reported (i : Nat) (b : Service) (c : Bool) (s : State) :
    SelectionsKept s (pruneService i (reportService i b c s)) :=
  (SelectionsKept.of_services (reportService_services i b c s)).trans (selectionsKept_pruneService ..)

theorem serviceEvent_eq {i : Nat} {f : State → State × Bool} {s : State} {b : Service} (hb : s.service i = some b) :
    serviceEvent i f s = pruneService i (reportService i b (f s).2 (f s).1) := by
  simp only [serviceEvent, hb]

theorem selectionsKept_serviceEvent {i : Nat} {f : State → State × Bool} {s : State}
    (h : SelectionsKept s (f s).1) : SelectionsKept s (serviceEvent i f s) := by
  cases hb : s.service i with
  | none =>
    have hsame : serviceEvent i f s = s := by simp only [serviceEvent, hb]
    rw [hsame]
    exact .refl s
  | some b =>
    rw [serviceEvent_eq hb]
    exact h.trans (selectionsKept_reported ..)

theorem selectionsKept_rebuildEvent (i : Nat) (s : State) : SelectionsKept s (rebuildEvent i s) :=
  selectionsKept_serviceEvent <|
    ((serves_rebuildList i s).selectionsKept (staysOn_rebuildList i s)).trans
      ((serves_act ..).selectionsKept (staysOn_act ..))

/-- R110: a new entry holds no selection. -/
theorem selectionsKept_addService {v : Service} {s : State} (hv : ServiceOk v) (hc : CandidatesOk v)
    (hk : ∀ e ∈ s.services, v.key ≠ e.2.key) (hsel : v.selection = none) : SelectionsKept s (addService v s) := by
  unfold addService
  dsimp only
  split
  · next hplace =>
    have hput : SelectionsKept s (putService (tabFree s.services) v s) := by
      refine ⟨(ranks_newService hplace hv hc hk).services, fun _ j => ⟨fun w hw => ?_⟩⟩
      rw [service_putService] at hw
      split at hw
      · cases hw
        exact .inl hsel
      · exact .inr ⟨w, hw, rfl⟩
    exact (hput.trans (.of_services (handPair_services ..))).trans (selectionsKept_rebuildEvent ..)
  · exact .refl s

theorem selectionsKept_evaluateSeen (s : State) (k : ServiceKey) : SelectionsKept s (evaluateSeen s k) := by
  unfold evaluateSeen
  split
  · next i _ =>
    have hseen : Serves i s (modService i (fun v => { v with seen := s.seenKey k }) s) :=
      serves_modService_plain fun _ => ⟨rfl, rfl, rfl, rfl⟩
    exact (hseen.selectionsKept (staysOn_modService fun _ _ => .inr rfl)).trans (selectionsKept_pruneService ..)
  · next hnew =>
    split
    · split
      · exact selectionsKept_addService (newService_ok ..) (newService_cands ..) (key_ne_of_serviceIndex hnew) rfl
      · exact .of_services rfl
    · exact .refl s

/-- Service `i`, if it has an entry, does not select carrier `x`. -/
def NotOn (x i : Nat) (s : State) : Prop := ∀ v, s.service i = some v → v.selection ≠ some x

theorem SelectionsKept.notOn {x i : Nat} {s t : State} (h : SelectionsKept s t) (hs : ServiceLaw s.services)
    (hi : NotOn x i s) : NotOn x i t := by
  intro w hw
  obtain hnone | ⟨v, hv, hsel⟩ := (h.stays hs i).selection w hw
  · simp [hnone]
  · rw [hsel]
    exact hi v hv

theorem notOn_clearSelection (x i : Nat) (s : State) : NotOn x i (clearSelection i s) := by
  intro w hw
  rw [clearSelection, service_modService, if_pos rfl] at hw
  obtain ⟨v, -, rfl⟩ := Option.map_eq_some_iff.mp hw
  simp [unavailableService]

theorem notOn_of_not_selecting {x i : Nat} {s : State} (h : i ∉ s.selecting x) : NotOn x i s := fun _ hv hx =>
  h (List.mem_map.mpr ⟨(i, _), List.mem_filter.mpr ⟨mem_of_tabGet hv, decide_eq_true hx⟩, rfl⟩)

/-- R85: what a service whose selection is removed does leaves it off that carrier, and puts no service on it. -/
theorem dropRemoved_drops (x : Nat) (s : State) (i : Nat) :
    SelectionsKept s (dropRemoved x s i) ∧ (ServiceLaw s.services → NotOn x i (dropRemoved x s i)) := by
  have hclear := (serves_clearSelection i s).selectionsKept (staysOn_clearSelection i s)
  have hact : SelectionsKept (clearSelection i s) (act i (rebuildList i (clearSelection i s))).1 :=
    ((serves_rebuildList ..).selectionsKept (staysOn_rebuildList ..)).trans
      ((serves_act ..).selectionsKept (staysOn_act ..))
  cases hv : s.service i with
  | none =>
    have hsame : dropRemoved x s i = s := by simp only [dropRemoved, serviceEvent, hv]
    rw [hsame]
    exact ⟨.refl s, fun _ w hw => nomatch hv.symm.trans hw⟩
  | some v =>
    rw [dropRemoved, serviceEvent_eq hv]
    simp only [hv]
    by_cases hx : v.selection = some x
    · have hafter := hact.trans (selectionsKept_reported i v (act i (rebuildList i (clearSelection i s))).2 _)
      rw [if_pos hx]
      exact ⟨hclear.trans hafter, fun hs => hafter.notOn (hclear.law hs) (notOn_clearSelection x i s)⟩
    · have hafter := selectionsKept_reported i v false s
      rw [if_neg hx]
      exact ⟨hafter, fun hs => hafter.notOn hs fun w hw => Option.some.inj (hv.symm.trans hw) ▸ hx⟩

/-- R85: after each service that selects the removed carrier has dropped it, none selects it. -/
theorem dropRemoved_all {x : Nat} (l : List Nat) {s : State} (hs : ServiceLaw s.services)
    (hl : ∀ i, i ∉ l → NotOn x i s) :
    ServiceLaw (l.foldl (dropRemoved x) s).services ∧ ∀ i, NotOn x i (l.foldl (dropRemoved x) s) := by
  induction l generalizing s with
  | nil => exact ⟨hs, fun i => hl i List.not_mem_nil⟩
  | cons i l ih =>
    obtain ⟨hkept, hoff⟩ := dropRemoved_drops x s i
    refine ih (hkept.law hs) fun j hj => ?_
    by_cases hji : j = i
    · exact hji ▸ hoff hs
    · exact hkept.notOn hs (hl j (List.not_mem_cons_of_ne_of_not_mem hji hj))

theorem dropCandidate_dropCandidate (x : Nat) (v : Service) :
    dropCandidate x (dropCandidate x v) = dropCandidate x v := by
  unfold dropCandidate
  by_cases h : v.selection = some x <;> simp [h]

/-- One change made at each of some places, which made twice is made once. -/
theorem service_foldl_modService {f : Service → Service} (hf : ∀ v, f (f v) = f v) (l : List Nat) (s : State) (j : Nat) :
    (l.foldl (fun s i => modService i f s) s).service j = if j ∈ l then (s.service j).map f else s.service j := by
  induction l generalizing s with
  | nil => rfl
  | cons i l ih =>
    rw [List.foldl_cons, ih, service_modService]
    by_cases hj : j = i
    · subst hj
      simp [hf, Function.comp_def]
    · simp [hj]

theorem service_dropCandidates (x : Nat) (s : State) (j : Nat) :
    (dropCandidates x s).service j = (s.service j).map (dropCandidate x) := by
  rw [dropCandidates, service_foldl_modService (dropCandidate_dropCandidate x)]
  split
  · rfl
  · next h =>
    have hnone : s.service j = none := tabGet_eq_none_iff.mpr h
    rw [hnone]
    rfl

theorem rankRemoval_drops {x : Nat} {keys : List ServiceKey} {s : State} {i : Nat} {w : Service}
    (hs : ServiceLaw s.services) (hw : (rankRemoval x keys s).service i = some w) :
    w.selection ≠ some x ∧ ∀ k ∈ w.cands, k.carrier ≠ x := by
  unfold rankRemoval at hw
  dsimp only at hw
  rw [service_dropCandidates] at hw
  obtain ⟨v, hv, rfl⟩ := Option.map_eq_some_iff.mp hw
  obtain ⟨hdropped, hnone⟩ := dropRemoved_all (s.selecting x) hs fun _ => notOn_of_not_selecting
  have hseen := selectionsKept_foldl selectionsKept_evaluateSeen (distinct keys)
    ((s.selecting x).foldl (dropRemoved x) s)
  have hevents (l : List Nat) (t : State) : SelectionsKept t (l.foldl (fun s i => rebuildEvent i s) t) :=
    selectionsKept_foldl (fun s i => selectionsKept_rebuildEvent i s) l t
  have hoff : v.selection ≠ some x := (hseen.trans (hevents _ _)).notOn hdropped (hnone i) v hv
  rw [dropCandidate, if_neg hoff]
  exact ⟨hoff, fun k hk => by simpa using (List.mem_filter.mp hk).2⟩

/-- Settles O51: the candidates of the list formed (`formedFrom_formed`), what its six places leave out
(`formed_full_of_left_out`) and its lead counts (`rebuilt_cands`); and a removal as a run of events in which selections
stay or are cleared (`rankRemoval_drops`). -/
theorem candidateListRebuilt : Obligations.CandidateListRebuilt := by
  unfold Obligations.CandidateListRebuilt
  refine ⟨fun s x keys i w hs hw => rankRemoval_drops hs hw, fun s i v hlaw hv => ?_⟩
  intro p eligible stale before held
  obtain ⟨g, hcands, hlead⟩ := rebuilt_cands s v
  obtain ⟨hlength, hnodup, hsorted, hselected, -⟩ := candidatesOk_rebuilt hlaw v
  have heligible (c : Carrier) : eligibleFor s.params v.key c = true ↔ eligible c := eligibleFor_iff
  have hstale (c : Carrier) : s.stale c = true ↔ stale c := stale_iff
  have hbefore (a b : Candidate) : ranksBefore a b = true ↔ before a b := ranksBefore_iff
  have hformed : ∀ k ∈ (rebuilt s v).cands, ∃ c ∈ formedCandidates s v, { c with lead := g c } = k := fun k hk =>
    List.mem_map.mp (show k ∈ relead g (formedCandidates s v) from hcands ▸ hk)
  have hformed' {c : Candidate} (hc : c ∈ formedCandidates s v) : { c with lead := g c } ∈ (rebuilt s v).cands :=
    hcands.symm ▸ List.mem_map_of_mem (f := fun c => { c with lead := g c }) hc
  refine ⟨{ rebuilt s v with constrained := (settleConstrained (rebuilt s v)).constrained },
    (service_rebuildList hv).trans (congrArg some (settleConstrained_eq _)), hlength, hnodup,
    hsorted.imp fun h => (hbefore _ _).mp h, fun k hk => ?_, hselected, fun x c hc hel hout => ?_, fun k hk => ?_, rfl, ?_⟩
  · obtain ⟨c, hmem, rfl⟩ := hformed k hk
    obtain ⟨d, hd, hc, hwhy⟩ | hnone := formedFrom_formed hlaw hmem
    · exact .inl ⟨d, hd, congrArg Candidate.score hc, (Bool.eq_iff_iff.mp (congrArg Candidate.stale hc)).trans (hstale d),
        (Bool.eq_iff_iff.mp (congrArg Candidate.eligible hc)).trans (heligible d), hwhy.imp_left (heligible d).mp⟩
    · exact .inr hnone
  · have hmem : candidateOf s v.key x c ∈ allCandidates s v := eligible_mem_all
      (mem_eligibleRanked_iff.mpr ⟨(x, c), mem_of_tabGet hc, (heligible c).mpr hel, rfl⟩)
    obtain ⟨hsix, hranked⟩ := formed_full_of_left_out hlaw hmem fun k hk =>
      hout { k with lead := g k } (hformed' hk)
    refine ⟨?_, fun k hk hne => ?_⟩
    · exact (congrArg List.length hcands).trans ((List.length_map _).trans hsix)
    · obtain ⟨d, hd, rfl⟩ := hformed k hk
      exact (hbefore d _).mp (hranked d hd hne)
  · obtain ⟨c, -, rfl⟩ := hformed k hk
    have hheld : leadOf v.cands c.carrier = held v.cands c.carrier := leadOf_eq ..
    rw [← hheld]
    exact hlead c
  · refine settleConstrained_constrained.trans (and_congr_right fun _ => not_congr (and_congr_right fun _ => ?_))
    exact selectionIsTop_iff

/-! ## Requests and changes of one service (R116) -/

theorem inFlight_iff {s : State} {i : Nat} : inFlight s i = true ↔ ∃ q ∈ s.router.requests, q.service = i := by
  simp [inFlight]

theorem inFlight_eq_false {s : State} {i : Nat} (h : ¬ ∃ q ∈ s.router.requests, q.service = i) :
    inFlight s i = false := Bool.eq_false_iff.mpr (mt inFlight_iff.mp h)

theorem postRequest_eq {q : GrantReq} {s : State} (h : ¬ ∃ p ∈ s.router.requests, p.service = q.service) :
    postRequest q s = s.setRouter { s.router with requests := s.router.requests ++ [q] } :=
  if_neg (mt inFlight_iff.mp h)

theorem modService_eq {i : Nat} {f : Service → Service} {s : State} {v : Service} (hv : s.service i = some v) :
    modService i f s = putService i (f v) s := by
  simp only [modService, hv]

/-! ## Failover (R119 to R122) -/

/-- R119: the hold-until of a hold that begins or goes on. -/
def holdLimitOf (s : State) (v : Service) : Nat := v.holdUntil.getD (timeAfter s.now s.params.holdLimit)

section
variable {s : State} {i : Nat} {v : Service} (hv : s.service i = some v)
include hv

theorem failoverStep3_gives_up {first : Bool} (h : first = true ∨ v.selection = none ∨ holdLimitOf s v ≤ s.now) :
    failoverStep3 i first s = putService i (unavailableService v) s := by
  rw [failoverStep3, modService_eq hv]
  rw [← or_assoc] at h
  obtain h | h := h
  · rw [if_pos h]
  · split
    · rfl
    · exact congrArg (putService i · s) (if_pos h)

theorem failoverStep3_holds {first : Bool} (hfirst : ¬ (first = true ∨ v.selection = none))
    (h : s.now < holdLimitOf s v) :
    failoverStep3 i first s =
      putService i { v with state := .holding, target := none, pendingKind := none, holdUntil := some (holdLimitOf s v) }
        s := by
  rw [failoverStep3, modService_eq hv, if_neg hfirst]
  exact congrArg (putService i · s) (if_neg (Nat.not_le_of_lt h))

theorem failoverCarried_none {except : Option Nat} {purpose : Purpose} {first : Bool}
    (h : ((s.eligibleRanked v.key).find? fun c => s.carriedAt c.carrier && decide (some c.carrier ≠ except)) = none) :
    failoverCarried i except purpose first s = failoverStep3 i first s := by
  simp only [failoverCarried, hv, h]

theorem failoverCarried_some {except : Option Nat} {purpose : Purpose} {first : Bool} {b : Candidate}
    (h : ((s.eligibleRanked v.key).find? fun c => s.carriedAt c.carrier && decide (some c.carrier ≠ except)) = some b) :
    failoverCarried i except purpose first s =
      postRequest { service := i, carrier := b.carrier, failover := false, purpose := purpose, first := first } s := by
  simp only [failoverCarried, hv, h]

/-- R119 step 1: a failover grant of the best eligible reception is asked for. -/
theorem failover_asks {first : Bool} {b : Candidate} {rest : List Candidate} (h : s.eligibleRanked v.key = b :: rest) :
    failover i first s =
      postRequest { service := i, carrier := b.carrier, failover := true, purpose := .best, first := first } s := by
  simp only [failover, hv, h]

/-- R119: without an eligible reception steps 1 and 2 ask for nothing. -/
theorem failover_none {first : Bool} (h : s.eligibleRanked v.key = []) :
    failover i first s = failoverStep3 i first s := by
  have hcarried := failoverCarried_none (except := none) (purpose := .carried) (first := first) hv (by rw [h]; rfl)
  simp only [failover, hv, h, hcarried]

end

/-! ## A service in SERVED (R118, R123) -/

theorem selectionEligible_iff {s : State} {v : Service} :
    selectionEligible s v = true ↔
      ∃ x c, v.selection = some x ∧ s.carrier x = some c ∧ eligibleFor s.params v.key c = true := by
  unfold selectionEligible
  cases v.selection with
  | none => simp
  | some x => cases h : s.carrier x <;> simp [h]

theorem selectionInAbeyance_iff {s : State} {v : Service} :
    selectionInAbeyance s v = true ↔
      ∃ x c, v.selection = some x ∧ s.carrier x = some c ∧ inAbeyance s.params v.key c = true := by
  unfold selectionInAbeyance
  cases v.selection with
  | none => simp
  | some x => cases h : s.carrier x <;> simp [h]

/-- R112: a reception in abeyance is not eligible: its list is PENDING. -/
theorem not_eligible_of_abeyance {s : State} {v : Service} (h : selectionInAbeyance s v = true) :
    ¬ selectionEligible s v = true := by
  rw [selectionEligible_iff]
  rintro ⟨y, d, hy, hd, heligible⟩
  obtain ⟨x, c, hx, hc, habeyance⟩ := selectionInAbeyance_iff.mp h
  obtain rfl : x = y := Option.some.inj (hx.symm.trans hy)
  obtain rfl : c = d := Option.some.inj (hc.symm.trans hd)
  obtain ⟨-, hvalid, -⟩ := eligibleFor_iff.mp heligible
  obtain ⟨-, hpending, -⟩ := inAbeyance_iff.mp habeyance
  cases hvalid.symm.trans hpending

theorem wantsSwitch_iff {s : State} {v : Service} {t : Candidate} :
    wantsSwitch s v t = true ↔
      v.selection ≠ some t.carrier ∧ (v.constrained = true ∨ (s.params.leadCount ≤ t.lead ∧ v.settleUntil ≤ s.now)) := by
  simp [wantsSwitch]

theorem voluntarySwitch_asks {s : State} {i : Nat} {v : Service} {t : Candidate} (ht : topOf v.cands = some t)
    (h : wantsSwitch s v t = true) :
    voluntarySwitch i v s =
      postRequest { service := i, carrier := t.carrier, failover := false, purpose := .voluntary, first := false } s := by
  simp only [voluntarySwitch, ht, if_pos h]

theorem voluntarySwitch_rests {s : State} {i : Nat} {v : Service}
    (h : ∀ t, topOf v.cands = some t → ¬ wantsSwitch s v t = true) : voluntarySwitch i v s = s := by
  unfold voluntarySwitch
  split
  · rfl
  · next t ht => exact if_neg (h t ht)

section
variable {s : State} {i : Nat} {v : Service} (hv : s.service i = some v)
include hv

theorem actServed_eligible (h : selectionEligible s v = true) : actServed i s = voluntarySwitch i v s := by
  simp only [actServed, hv, if_pos h]

theorem actServed_abeyance (h : selectionInAbeyance s v = true) : actServed i s = putService i (listHeld v) s := by
  simp only [actServed, hv, if_neg (not_eligible_of_abeyance h), if_pos h, modService_eq hv]

theorem actServed_lost (he : ¬ selectionEligible s v = true) (ha : ¬ selectionInAbeyance s v = true) :
    actServed i s = failover i false s := by
  simp only [actServed, hv, if_neg he, if_neg ha]

end

/-! ## After a rebuild, no request waiting (R118, R119, R122, R123) -/

section
variable {s : State} {i : Nat} {v : Service} (hv : s.service i = some v) (hbound : v.bound = true)
  (hfree : inFlight s i = false)
include hv hbound hfree

theorem act_served (hst : v.state = .served) : act i s = (actServed i s, false) := by
  simp only [act, hv, hbound, hfree, hst, Bool.not_true, Bool.false_eq_true, if_false]

theorem act_pending (hst : v.state = .pending) : act i s = (s, false) := by
  simp only [act, hv, hbound, hfree, hst, Bool.not_true, Bool.false_eq_true, if_false]

/-- R119: a service that is UNAVAILABLE or in a failover hold waits for a top candidate. -/
theorem act_without_top (hst : v.state = .unavailable ∨ (v.state = .holding ∧ v.holdUntil ≠ none))
    (htop : topOf v.cands = none) : act i s = (s, false) := by
  obtain hst | ⟨hst, hlimit⟩ := hst
  · simp only [act, hv, hbound, hfree, hst, htop, Bool.not_true, Bool.false_eq_true, if_false]
  · obtain ⟨limit, hlimit⟩ := Option.ne_none_iff_exists'.mp hlimit
    simp only [act, hv, hbound, hfree, hst, hlimit, htop, Bool.not_true, Bool.false_eq_true, if_false]

theorem act_with_top {t : Candidate} (hst : v.state = .unavailable ∨ (v.state = .holding ∧ v.holdUntil ≠ none))
    (htop : topOf v.cands = some t) : act i s = (failover i false s, false) := by
  obtain hst | ⟨hst, hlimit⟩ := hst
  · simp only [act, hv, hbound, hfree, hst, htop, Bool.not_true, Bool.false_eq_true, if_false]
  · obtain ⟨limit, hlimit⟩ := Option.ne_none_iff_exists'.mp hlimit
    simp only [act, hv, hbound, hfree, hst, hlimit, htop, Bool.not_true, Bool.false_eq_true, if_false]

theorem act_listHold_abeyance (hst : v.state = .holding) (hlimit : v.holdUntil = none)
    (h : selectionInAbeyance s v = true) : act i s = (s, false) := by
  simp only [act, hv, hbound, hfree, hst, hlimit, h, Bool.not_true, Bool.false_eq_true, if_false, if_true]

theorem act_listHold_lost (hst : v.state = .holding) (hlimit : v.holdUntil = none)
    (he : ¬ selectionEligible s v = true) (ha : ¬ selectionInAbeyance s v = true) :
    act i s = (failover i false s, false) := by
  simp only [act, hv, hbound, hfree, hst, hlimit, ha, he, Bool.not_true, Bool.false_eq_true, if_false]

theorem act_listHold_restored {x : Nat} (hst : v.state = .holding) (hlimit : v.holdUntil = none)
    (h : selectionEligible s v = true) (hx : v.selection = some x) :
    act i s = (completeSwitch i x (some x) s, true) := by
  have ha : ¬ selectionInAbeyance s v = true := fun ha => not_eligible_of_abeyance ha h
  simp only [act, hv, hbound, hfree, hst, hlimit, ha, h, hx, Bool.not_true, Bool.false_eq_true, if_false, if_true]

end

/-- R123: a list hold begins while a request waits, too. -/
theorem act_asked_abeyance {s : State} {i : Nat} {v : Service} (hv : s.service i = some v) (hbound : v.bound = true)
    (hasked : inFlight s i = true) (hst : v.state = .served) (h : selectionInAbeyance s v = true) :
    act i s = (putService i (listHeld { v with deferred := { v.deferred with rebuilt := true } }) s, false) := by
  have hwaiting : act i s = actWaiting i v s := by
    simp only [act, hv, hbound, hasked, Bool.not_true, Bool.false_eq_true, if_false, if_true]
  rw [hwaiting, actWaiting, if_pos ⟨hst, h⟩, modService_modService, modService_eq hv]

/-! ## The completion of a switch (R117) -/

/-- R117: what service `v` has become by a switch to carrier `x` from the selection `prev`, its list aside. -/
structure Switched (s : State) (x : Nat) (prev : Option Nat) (v w : Service) : Prop where
  key : w.key = v.key
  selection : w.selection = some x
  state : w.state = .served
  target : w.target = none
  pendingKind : w.pendingKind = none
  holdUntil : w.holdUntil = none
  restored : prev = some x →
    w.switchCount = v.switchCount ∧ w.lastSwitch = v.lastSwitch ∧ w.settleUntil = v.settleUntil
  counted : prev ≠ some x →
    w.switchCount = (v.switchCount + 1) % 65536 ∧ w.lastSwitch = some s.now ∧
      w.settleUntil = timeAfter s.now s.params.settle

theorem switched_switchedService (s : State) (x : Nat) (prev : Option Nat) (v : Service) :
    Switched s x prev v (switchedService s.now s.params.settle x prev v) := by
  unfold switchedService
  dsimp only
  split
  · next h => exact ⟨rfl, rfl, rfl, rfl, rfl, rfl, fun _ => ⟨rfl, rfl, rfl⟩, fun hne => absurd h hne⟩
  · next h => exact ⟨rfl, rfl, rfl, rfl, rfl, rfl, fun he => absurd he h, fun _ => ⟨rfl, rfl, rfl⟩⟩

theorem Switched.relisted {s : State} {x : Nat} {prev : Option Nat} {v w : Service} (h : Switched s x prev v w)
    (cands : List Candidate) (constrained : Bool) :
    Switched s x prev v { w with cands := cands, constrained := constrained } :=
  ⟨h.key, h.selection, h.state, h.target, h.pendingKind, h.holdUntil, h.restored, h.counted⟩

theorem switchedService_constrained (now settle x : Nat) (prev : Option Nat) (v : Service) :
    (switchedService now settle x prev v).constrained = v.constrained := by
  unfold switchedService
  dsimp only
  split <;> rfl

/-- The service right after its switch, its list rebuilt. -/
def switchedAndRebuilt (s : State) (x : Nat) (prev : Option Nat) (v : Service) : Service :=
  settleConstrained (rebuilt s (switchedService s.now s.params.settle x prev v))

theorem switched_rebuilt (s : State) (x : Nat) (prev : Option Nat) (v : Service) :
    Switched s x prev v (switchedAndRebuilt s x prev v) := by
  rw [switchedAndRebuilt, settleConstrained_eq]
  exact (switched_switchedService s x prev v).relisted _ _

theorem selectionIsTop_of_selection {w : Service} {x : Nat} (h : w.selection = some x) :
    selectionIsTop w = true ↔ (topOf w.cands).map (·.carrier) = some x := by
  rw [selectionIsTop_iff, h]
  exact ⟨fun ⟨y, hy, ht⟩ => Option.some.inj hy ▸ ht, fun ht => ⟨x, rfl, ht⟩⟩

theorem switchedAndRebuilt_constrained {s : State} {x : Nat} {prev : Option Nat} {v : Service} :
    (switchedAndRebuilt s x prev v).constrained = true ↔
      v.constrained = true ∧ (topOf (switchedAndRebuilt s x prev v).cands).map (·.carrier) ≠ some x := by
  have hswitched := switched_switchedService s x prev v
  have htop : selectionIsTop (rebuilt s (switchedService s.now s.params.settle x prev v)) = true ↔
      (topOf (switchedAndRebuilt s x prev v).cands).map (·.carrier) = some x := by
    rw [switchedAndRebuilt, settleConstrained_eq]
    exact selectionIsTop_of_selection hswitched.selection
  rw [← switchedService_constrained s.now s.params.settle x prev v]
  exact settleConstrained_constrained.trans
    (and_congr_right fun _ => not_congr ((and_iff_right hswitched.state).trans htop))

/-- R117: on an eligible reception the service is SERVED there when its switch has completed; a request for a better one is
all that may follow. -/
theorem service_completeSwitch {s : State} {i x : Nat} {v : Service} {c : Carrier} (prev : Option Nat)
    (hv : s.service i = some v) (hc : s.carrier x = some c) (he : eligibleFor s.params v.key c = true) :
    (completeSwitch i x prev s).service i = some (switchedAndRebuilt s x prev v) := by
  have hswitched := switched_rebuilt s x prev v
  unfold completeSwitch
  generalize hu : rebuildList i (modService i (switchedService s.now s.params.settle x prev) s) = u
  have hfrom : Serves i s u := hu ▸ serves_rebuildAfter (fun _ => switchedService_key ..)
    fun _ _ _ => switchedService_ok ..
  have hw : u.service i = some (switchedAndRebuilt s x prev v) := by
    rw [← hu, service_rebuildList (v := switchedService s.now s.params.settle x prev v), rebuilt_modService]
    · rfl
    · rw [service_modService, if_pos rfl, hv]
      rfl
  have heligible : selectionEligible u (switchedAndRebuilt s x prev v) = true := by
    refine selectionEligible_iff.mpr ⟨x, c, hswitched.selection, (congrArg (tabGet · x) hfrom.sameCarriers).trans hc, ?_⟩
    rw [hswitched.key, State.params, hfrom.plan]
    exact he
  rw [actServed_eligible hw heligible, State.service, voluntarySwitch_services]
  exact hw

/-! ## Answers (R116 to R120) -/

theorem constrainAfterStep2_eq (q : GrantReq) (v : Service) :
    constrainAfterStep2 q v = { v with constrained := (constrainAfterStep2 q v).constrained } := by
  unfold constrainAfterStep2
  split <;> rfl

theorem constrainAfterStep2_constrained {q : GrantReq} {v : Service} :
    (constrainAfterStep2 q v).constrained = true ↔
      if q.purpose = .carried ∨ q.purpose = .restricted then ¬ selectionIsTop v = true else v.constrained = true := by
  unfold constrainAfterStep2
  split <;> simp

theorem listed_eq (s : State) (v : Service) : listed s v = { v with cands := (listed s v).cands } := by
  unfold listed
  split
  · rfl
  · split <;> rfl

section
variable {q : GrantReq} {s : State} {v : Service} (hv : s.service q.service = some v)
include hv

theorem service_answeredPending :
    (actOnAnswer q .pending s).1.service q.service = some (listed s (pendingService q v)) := by
  simp only [actOnAnswer, hv, ensureListed, listed_modService, modService_modService]
  rw [service_modService, if_pos rfl, hv]
  rfl

theorem service_answeredGranted {c : Carrier} (hc : s.carrier q.carrier = some c)
    (he : eligibleFor s.params v.key c = true) :
    (actOnAnswer q .granted s).1.service q.service =
      some (constrainAfterStep2 q (switchedAndRebuilt s q.carrier (if q.first then none else v.selection) v)) := by
  simp only [actOnAnswer, hv]
  rw [service_modService, if_pos rfl, service_completeSwitch _ hv hc he]
  rfl

theorem answeredRefused_voluntary (hp : q.purpose = .voluntary) : actOnAnswer q .refused s = (s, false) := by
  simp only [actOnAnswer, hv, hp]

theorem answeredRefused_best (hp : q.purpose = .best) :
    actOnAnswer q .refused s = (failoverCarried q.service (some q.carrier) .carried q.first s, false) := by
  simp only [actOnAnswer, hv, hp]

theorem answeredRefused_step2 (hp : q.purpose = .carried ∨ q.purpose = .restricted) :
    actOnAnswer q .refused s = (failoverStep3 q.service q.first s, false) := by
  obtain hp | hp := hp <;> simp only [actOnAnswer, hv, hp]

end

theorem pendingKindOf_first {q : GrantReq} {v : Service} (h : q.first = true ∨ v.selection = none) :
    pendingKindOf q v = .first := if_pos h

theorem pendingKindOf_later {q : GrantReq} {v : Service} (h : ¬ (q.first = true ∨ v.selection = none)) :
    pendingKindOf q v = if q.purpose = .voluntary then .voluntary else .failover := by
  rw [pendingKindOf, if_neg h]
  cases q.purpose <;> rfl

theorem pendingKindOf_ne_first {q : GrantReq} {v : Service} (h : ¬ (q.first = true ∨ v.selection = none)) :
    pendingKindOf q v ≠ .first := by
  rw [pendingKindOf_later h]
  split <;> simp

/-- R119, R120: after GRANTED a service is constrained by step 2, or as it stood, until its selection is the top candidate. -/
theorem constrained_answeredGranted {s : State} {q : GrantReq} {prev : Option Nat} {v : Service} :
    (constrainAfterStep2 q (switchedAndRebuilt s q.carrier prev v)).constrained = true ↔
      ((q.purpose = .carried ∨ q.purpose = .restricted) ∨ v.constrained = true) ∧
        (topOf (switchedAndRebuilt s q.carrier prev v).cands).map (·.carrier) ≠ some q.carrier := by
  have htop := selectionIsTop_of_selection (switched_rebuilt s q.carrier prev v).selection
  rw [constrainAfterStep2_constrained]
  split
  · next hstep => simp only [hstep, true_or, true_and, htop, ne_eq]
  · next hstep => simp only [hstep, false_or, switchedAndRebuilt_constrained]

/-- Settles O52: each answer and each state after a rebuild by its own lemma (`service_answeredPending` to
`answeredRefused_step2`, `act_served` to `act_asked_abeyance`), failover by its steps. -/
theorem answersToRequests : Obligations.AnswersToRequests := by
  unfold Obligations.AnswersToRequests
  intro askedFor unavailable held limitOf posted
  refine ⟨fun q v s hv => ?answer, fun s i v hv hbound => ?rebuild⟩
  case answer =>
    intro x service first step2 previous step3
    have hstep3 (h : actOnAnswer q .refused s = (failoverStep3 q.service q.first s, false)) : step3 := by
      have hservice : service .refused = (failoverStep3 q.service q.first s).service q.service :=
        congrArg (·.1.service q.service) h
      refine ⟨fun hlost => ?_, fun hfirst hlimit => ?_⟩
      · rw [hservice, failoverStep3_gives_up hv (or_assoc.mp hlost), service_putService, if_pos rfl]
        rfl
      · rw [hservice, failoverStep3_holds hv hfirst hlimit, service_putService, if_pos rfl]
        rfl
    refine ⟨?pending, fun c hc he => ?granted, ?_, answeredRefused_voluntary hv,
      fun hstep => hstep3 (answeredRefused_step2 hv hstep), fun hbest => ?best⟩
    case pending =>
      refine ⟨_, (service_answeredPending hv).trans (congrArg some (listed_eq ..)), rfl, rfl, rfl, rfl, rfl,
        fun hfirst => ?_, fun hfirst => ?_, rfl⟩
      · have hkind := pendingKindOf_first hfirst
        exact ⟨congrArg some hkind, if_pos hkind⟩
      · exact ⟨if_neg (pendingKindOf_ne_first hfirst), congrArg some (pendingKindOf_later hfirst)⟩
    case granted =>
      have hswitched := (switched_rebuilt s x previous v).relisted (switchedAndRebuilt s x previous v).cands
        (constrainAfterStep2 q (switchedAndRebuilt s x previous v)).constrained
      refine ⟨_, (service_answeredGranted hv hc he).trans (congrArg some (constrainAfterStep2_eq ..)), hswitched.key,
        hswitched.selection, hswitched.state, hswitched.target, hswitched.pendingKind, hswitched.holdUntil,
        hswitched.restored, hswitched.counted, constrained_answeredGranted⟩
    case best =>
      intro best
      have hfind : ((s.eligibleRanked v.key).find? fun k => s.carriedAt k.carrier && decide (some k.carrier ≠ some x)) =
          best := by
        simp only [ne_eq, Option.some.injEq]
        rfl
      have hrefused := answeredRefused_best hv hbest
      refine ⟨fun hnone => hstep3 ?_, fun b hb hfree => ?_⟩
      · rw [hrefused, failoverCarried_none hv (hfind.trans hnone)]
      · rw [hrefused, failoverCarried_some hv (hfind.trans hb)]
        exact congrArg (·, false) (postRequest_eq hfree)
    · simp only [actOnAnswer, hv]
  case rebuild =>
    intro params top onSelection eligible abeyance asks nothing becomes failsOver wants
    have heligible : selectionEligible s v = true ↔ eligible := selectionEligible_iff
    have habeyance : selectionInAbeyance s v = true ↔ abeyance := by
      rw [selectionInAbeyance_iff]
      simp only [inAbeyance_iff]
      rfl
    have hposts (hfree : ¬ askedFor s i) (purpose : Purpose) (y : Nat) :
        postRequest { service := i, carrier := y, failover := decide (purpose = .best), purpose := purpose, first := false } s =
          posted s { service := i, carrier := y, failover := decide (purpose = .best), purpose := purpose, first := false } :=
      postRequest_eq hfree
    have hfails (hfree : ¬ askedFor s i) (h : act i s = (failover i false s, false)) : failsOver := by
      refine ⟨fun b rest hb => ?_, fun hnone => ⟨fun hlost => ?_, fun hsel hlimit => ?_⟩⟩
      · exact h.trans (congrArg (·, false) ((failover_asks hv hb).trans (hposts hfree .best b.carrier)))
      · exact h.trans (congrArg (·, false) ((failover_none hv hnone).trans (failoverStep3_gives_up hv (.inr hlost))))
      · exact h.trans (congrArg (·, false) ((failover_none hv hnone).trans
          (failoverStep3_holds hv (by simpa using hsel) hlimit)))
    refine ⟨fun hfree => ?_, fun hasked hst ha => ?_⟩
    · have hidle : inFlight s i = false := inFlight_eq_false hfree
      refine ⟨fun hst => ?served, fun hst => ?waits, fun hst => ?pending, fun hst hlimit => ?listHold⟩
      case served =>
        have hact := act_served hv hbound hidle hst
        refine ⟨fun t he ht hwants => ?_, fun he hrests => ?_, fun ha => ?_, fun he ha => hfails hfree ?_⟩
        · rw [actServed_eligible hv (heligible.mpr he), voluntarySwitch_asks ht (wantsSwitch_iff.mpr hwants)] at hact
          exact hact.trans (congrArg (·, false) (hposts hfree .voluntary t.carrier))
        · rw [actServed_eligible hv (heligible.mpr he),
            voluntarySwitch_rests fun t ht => mt wantsSwitch_iff.mp (hrests t ht)] at hact
          exact hact
        · rw [actServed_abeyance hv (habeyance.mpr ha)] at hact
          exact hact
        · rw [actServed_lost hv (mt heligible.mp he) (mt habeyance.mp ha)] at hact
          exact hact
      case waits =>
        refine ⟨fun htop => act_without_top hv hbound hidle hst htop, fun htop => hfails hfree ?_⟩
        obtain ⟨t, ht⟩ := Option.ne_none_iff_exists'.mp htop
        exact act_with_top hv hbound hidle hst ht
      case pending => exact act_pending hv hbound hidle hst
      case listHold =>
        refine ⟨fun ha => act_listHold_abeyance hv hbound hidle hst hlimit (habeyance.mpr ha),
          fun he ha => hfails hfree
            (act_listHold_lost hv hbound hidle hst hlimit (mt heligible.mp he) (mt habeyance.mp ha)), fun he => ?_⟩
        have hel := heligible.mpr he
        obtain ⟨x, c, hx, hc, helx⟩ := he
        have hswitched := switched_rebuilt s x (some x) v
        obtain ⟨hcount, hlast, hsettle⟩ := hswitched.restored rfl
        rw [act_listHold_restored hv hbound hidle hst hlimit hel hx]
        exact ⟨rfl, _, service_completeSwitch _ hv hc helx, hswitched.state, hswitched.selection.trans hx.symm,
          hswitched.target, hcount, hlast, hsettle⟩
    · exact act_asked_abeyance hv hbound (inFlight_iff.mpr hasked) hst (habeyance.mpr ha)

/-! ## What reports and removals leave of the requests (R111, R116) -/

theorem handPair_router (k : SubjectKind) (i : Nat) (b a : Option View) (s : State) :
    (handPair k i b a s).router = s.router := by
  obtain ⟨l, u, h⟩ := handPair_shape k i b a s
  rw [h]
  rfl

theorem recomputeRooms_requests (s : State) : (recomputeRooms s).router.requests = s.router.requests := by
  unfold recomputeRooms
  generalize allRooms = l
  induction l generalizing s with
  | nil => rfl
  | cons r l ih =>
    rw [List.foldl_cons, ih]
    obtain ⟨l, u, h⟩ := changeRoom_shape r (recomputed s (s.room r)) s
    unfold recomputeRoom
    rw [h]
    rfl

theorem reportService_requests (i : Nat) (b : Service) (c : Bool) (s : State) :
    (reportService i b c s).router.requests = s.router.requests := by
  unfold reportService
  split
  · rfl
  · next a _ =>
    dsimp only
    have hnotice : (if c || selectionChanged b a then offer .selection i (serviceSummary i a) s else s).router =
        s.router := by
      split <;> rfl
    generalize (if c || selectionChanged b a then offer .selection i (serviceSummary i a) s else s) = s1 at hnotice ⊢
    have hwatch : (if serviceWatched b a then
        handPair .service i (some (serviceView b)) (some (serviceView a)) s1 else s1).router = s.router := by
      split
      · exact (handPair_router ..).trans hnotice
      · exact hnotice
    generalize (if serviceWatched b a then
        handPair .service i (some (serviceView b)) (some (serviceView a)) s1 else s1) = s2 at hwatch ⊢
    split
    · exact (recomputeRooms_requests s2).trans (congrArg Router.requests hwatch)
    · exact congrArg Router.requests hwatch

/-- R116: an entry without a waiting request takes none with it when it leaves. -/
theorem deleteService_requests {i : Nat} {s : State} (h : ¬ ∃ q ∈ s.router.requests, q.service = i) :
    (deleteService i s).router.requests = s.router.requests := by
  unfold deleteService
  split
  · rfl
  · rw [handPair_router]
    exact List.filter_eq_self.mpr fun q hq => decide_eq_true fun hqi => h ⟨q, hq, hqi⟩

/-! ## An event of a service (R111, R116, R124) -/

theorem pruneService_marked {i : Nat} {s : State} {v : Service} (hv : s.service i = some v)
    (h : (v.bound || v.seen) = true) : pruneService i s = s := by
  simp only [pruneService, hv, if_pos h]

theorem pruneService_unselected {i : Nat} {s : State} {v : Service} (hv : s.service i = some v)
    (h : ¬ (v.bound || v.seen) = true) (hsel : v.selection = none) : pruneService i s = deleteService i s := by
  simp only [pruneService, hv, if_neg h, hsel]

section
variable {i : Nat} {b a : Service} {c : Bool} {s : State} (ha : s.service i = some a)
include ha

theorem service_reportService : (reportService i b c s).service i = some a :=
  (congrArg (tabGet · i) (reportService_services i b c s)).trans ha

/-- A service that holds a mark stays as its event leaves it: the reports change neither its entry nor the requests. -/
theorem reported_marked (h : (a.bound || a.seen) = true) :
    (pruneService i (reportService i b c s)).service i = some a ∧
      (pruneService i (reportService i b c s)).router.requests = s.router.requests := by
  have hreported := service_reportService (b := b) (c := c) ha
  rw [pruneService_marked hreported h]
  exact ⟨hreported, reportService_requests ..⟩

/-- R111: a service that holds neither a mark nor a selection leaves the table. -/
theorem reported_unmarked (h : ¬ (a.bound || a.seen) = true) (hsel : a.selection = none)
    (hlaw : ServiceLaw s.services) (hfree : ¬ ∃ q ∈ s.router.requests, q.service = i) :
    (pruneService i (reportService i b c s)).service i = none ∧
      (pruneService i (reportService i b c s)).router.requests = s.router.requests := by
  rw [pruneService_unselected (service_reportService ha) h hsel,
    service_deleteService (by rwa [reportService_services]), if_pos rfl,
    deleteService_requests (by rwa [reportService_requests])]
  exact ⟨rfl, reportService_requests ..⟩

end

/-! ## What a failover leaves (R119) -/

section
variable {i : Nat} {v : Service} {s : State} (hv : s.service i = some v) (first : Bool)
include hv

theorem failover_request {b : Candidate} {rest : List Candidate} (hb : s.eligibleRanked v.key = b :: rest)
    (hfree : ¬ ∃ q ∈ s.router.requests, q.service = i) :
    (failover i first s).service i = some v ∧
      (failover i first s).router.requests = s.router.requests ++
        [{ service := i, carrier := b.carrier, failover := true, purpose := .best, first := first }] := by
  rw [failover_asks hv hb, postRequest_eq hfree]
  exact ⟨hv, rfl⟩

theorem failover_gives_up (hnone : s.eligibleRanked v.key = [])
    (h : first = true ∨ v.selection = none ∨ holdLimitOf s v ≤ s.now) :
    (failover i first s).service i = some (unavailableService v) ∧
      (failover i first s).router.requests = s.router.requests := by
  rw [failover_none hv hnone, failoverStep3_gives_up hv h, service_putService, if_pos rfl]
  exact ⟨rfl, rfl⟩

theorem failover_holds (hnone : s.eligibleRanked v.key = []) (hfirst : ¬ (first = true ∨ v.selection = none))
    (h : s.now < holdLimitOf s v) :
    (failover i first s).service i = some
        { v with state := .holding, target := none, pendingKind := none, holdUntil := some (holdLimitOf s v) } ∧
      (failover i first s).router.requests = s.router.requests := by
  rw [failover_none hv hnone, failoverStep3_holds hv hfirst h, service_putService, if_pos rfl]
  exact ⟨rfl, rfl⟩

end

/-! ## A failed grant (R121) -/

/-- R121: the fields of a service that leaves PENDING for SERVED. -/
def returnedService (v : Service) : Service :=
  { v with state := .served, target := none, pendingKind := none, constrained := v.constrainedBefore }

/-- R121: the selection is eligible and carried. -/
theorem selection_stands_iff {s : State} {v : Service} :
    selectionEligible s v = true ∧ selectionCarried s v = true ↔
      ∃ x c h, v.selection = some x ∧ s.carrier x = some c ∧ eligibleFor s.params v.key c = true ∧
        c.hold = some h ∧ h.carry = true := by
  unfold selectionEligible selectionCarried State.carriedAt
  cases v.selection with
  | none => simp
  | some x =>
    cases hc : s.carrier x with
    | none => simp [hc]
    | some c => cases hh : c.hold <;> simp [hc, Carrier.carried, hh]

/-- What the end of a grant makes of its service before the reports: SERVED again, or the start of a failover. -/
def grantEnded (i : Nat) (v : Service) (s : State) : State :=
  if v.pendingKind = some .voluntary ∧ selectionEligible s v = true ∧ selectionCarried s v = true then
    putService i (returnedService v) s
  else failover i (decide (v.pendingKind = some .first)) (putService i (failedPending v) s)

theorem grantFailedService_eq {s : State} {i x : Nat} {v : Service} (hv : s.service i = some v)
    (hst : v.state = .pending) (hx : v.target = some x) :
    grantFailedService x s i = pruneService i (reportService i v false (grantEnded i v s)) := by
  unfold grantFailedService grantEnded
  rw [serviceEvent_eq hv]
  simp only [hv, if_pos (And.intro hst hx), modService_eq hv]
  split <;> rfl

/-! ## The last failover of a hold (R122) -/

theorem holdEnds_iff {i : Nat} {s : State} {v : Service} {h : Nat} (hv : s.service i = some v)
    (hlimit : v.holdUntil = some h) :
    holdEnds i s = true ↔ v.state = .holding ∧ inFlight s i = false ∧ h ≤ s.now := by
  simp [holdEnds, hv, hlimit, and_assoc]

theorem holdEnds_false {i : Nat} {s : State}
    (h : ∀ v limit, s.service i = some v → v.state = .holding → v.holdUntil = some limit →
      s.now < limit ∨ ∃ q ∈ s.router.requests, q.service = i) : holdEnds i s = false := by
  refine Bool.eq_false_iff.mpr fun hends => ?_
  cases hv : s.service i with
  | none => simp [holdEnds, hv] at hends
  | some v =>
    cases hlimit : v.holdUntil with
    | none => simp [holdEnds, hv, hlimit] at hends
    | some limit =>
      obtain ⟨hst, hidle, hle⟩ := (holdEnds_iff hv hlimit).mp hends
      obtain hlt | hasked := h v limit hv hst hlimit
      · exact Nat.not_le_of_lt hlt hle
      · exact Bool.false_ne_true (hidle.symm.trans (inFlight_iff.mpr hasked))

theorem endHoldOf_eq {i : Nat} {s : State} {v : Service} (hv : s.service i = some v) :
    endHoldOf i s = pruneService i (reportService i v false
      (if v.bound then failover i false s else putService i (unavailableService v) s)) := by
  rw [endHoldOf, serviceEvent_eq hv]
  simp only [hv, clearSelection, modService_eq hv]

/-- Settles O57: the failed grant (`grantEnded`) and the end of a hold (`endHoldOf_eq`) come down to one failover
(`failover_request` to `failover_holds`), whose reports leave entry and requests alone (`reported_marked`). -/
theorem holdUntilReached : Obligations.HoldUntilReached := by
  unfold Obligations.HoldUntilReached
  intro unavailable
  refine ⟨fun s i x v hv hbound hst hx hnone => ?failed, fun s i hs => ?holdEnds⟩
  case failed =>
    intro t returns ended limit lost
    have hfree : ¬ ∃ q ∈ s.router.requests, q.service = i := fun ⟨q, hq, hqi⟩ => hnone q hq hqi
    have ht : t = pruneService i (reportService i v false (grantEnded i v s)) := grantFailedService_eq hv hst hx
    have hleaves {a : Service} (ha : (grantEnded i v s).service i = some a) (hbound : a.bound = true) :
        t.service i = some a ∧ t.router.requests = (grantEnded i v s).router.requests :=
      ht ▸ reported_marked ha (by rw [hbound]; rfl)
    have hreturns : returns ↔ v.pendingKind = some .voluntary ∧ selectionEligible s v = true ∧
        selectionCarried s v = true := and_congr_right fun _ => selection_stands_iff.symm
    refine ⟨fun hr => ?_, fun hr => ?_⟩
    · have hended : grantEnded i v s = putService i (returnedService v) s := if_pos (hreturns.mp hr)
      rw [hended] at hleaves
      exact hleaves (by rw [service_putService, if_pos rfl]; rfl) hbound
    · have hended : grantEnded i v s =
          failover i (decide (v.pendingKind = some .first)) (putService i (failedPending v) s) :=
        if_neg (mt hreturns.mpr hr)
      have hv' : (putService i (failedPending v) s).service i = some (failedPending v) := by
        rw [service_putService, if_pos rfl]
      rw [hended] at hleaves
      refine ⟨fun b rest hb => ?_, fun hempty => ?_⟩
      · obtain ⟨hservice, hrequests⟩ := failover_request hv' (decide (v.pendingKind = some .first)) hb hfree
        obtain ⟨hservice', hrequests'⟩ := hleaves hservice hbound
        exact ⟨hservice', hrequests'.trans hrequests⟩
      · by_cases hlost : lost
        · obtain ⟨hservice, hrequests⟩ := failover_gives_up hv' (decide (v.pendingKind = some .first)) hempty
            (hlost.imp_left decide_eq_true)
          obtain ⟨hservice', hrequests'⟩ := hleaves hservice hbound
          exact ⟨hrequests'.trans hrequests, fun _ => hservice', fun h => absurd hlost h⟩
        · obtain ⟨hkind, hsel, hlimit⟩ : _ ∧ _ ∧ _ := by simpa only [lost, not_or] using hlost
          obtain ⟨hservice, hrequests⟩ := failover_holds hv' (decide (v.pendingKind = some .first)) hempty
            (not_or.mpr ⟨mt of_decide_eq_true hkind, hsel⟩) (Nat.lt_of_not_le hlimit)
          obtain ⟨hservice', hrequests'⟩ := hleaves hservice hbound
          exact ⟨hrequests'.trans hrequests, fun h => absurd h hlost, fun _ => hservice'⟩
  case holdEnds =>
    intro asked
    have hranks := ranks_endHoldOf i.val s
    have hdone {v : Service} {h : Nat} (hv : s.service i.val = some v) (hst : v.state = .holding)
        (hlimit : v.holdUntil = some h) (hle : h ≤ s.clock.now) (hfree : ¬ asked) :
        exec (.holdUntilReached i) s = .next (settle (endHoldOf i.val s)) := by
      rw [exec_holdUntilReached]
      exact blockEvent_done hs ((holdEnds_iff hv hlimit).mpr ⟨hst, inFlight_eq_false hfree, hle⟩)
    refine ⟨fun h => ?idle, fun v h hv hst hlimit hle hfree hunbound hlaw => ?unbound,
      fun v h hv hst hlimit hle hfree hbound => ?bound⟩
    case idle =>
      rw [exec_holdUntilReached]
      exact blockEvent_idle (holdEnds_false h)
    case unbound =>
      refine ⟨endHoldOf i.val s, hdone hv hst hlimit hle hfree, hranks.sameSlots, hranks.sameCarriers, ?_⟩
      have hput : (putService i.val (unavailableService v) s).service i.val = some (unavailableService v) := by
        rw [service_putService, if_pos rfl]
      have hlaw' : ServiceLaw (putService i.val (unavailableService v) s).services := serviceLaw_put hv rfl hlaw
      rw [endHoldOf_eq hv, if_neg (by simp [hunbound])]
      by_cases hseen : v.seen = true
      · obtain ⟨hservice, hrequests⟩ := reported_marked (b := v) (c := false) hput (by simp [unavailableService, hseen])
        exact ⟨hrequests, fun h => absurd hseen (by simp [h]), fun _ => hservice⟩
      · obtain ⟨hservice, hrequests⟩ := reported_unmarked (b := v) (c := false) hput
          (by simp [unavailableService, hseen, hunbound]) rfl hlaw' hfree
        exact ⟨hrequests, fun _ => hservice, fun h => absurd h hseen⟩
    case bound =>
      intro ranked
      refine ⟨endHoldOf i.val s, hdone hv hst hlimit hle hfree, hranks.sameSlots, hranks.sameCarriers, ?_⟩
      have hleaves {a : Service} (ha : (failover i.val false s).service i.val = some a) (hbound : a.bound = true) :
          (pruneService i.val (reportService i.val v false (failover i.val false s))).service i.val = some a ∧ _ :=
        reported_marked ha (by rw [hbound]; rfl)
      rw [endHoldOf_eq hv, if_pos hbound]
      refine ⟨fun hineligible => ?_, fun b rest hb => ?_⟩
      · have hreached : holdLimitOf s v ≤ s.now := by
          rw [holdLimitOf, hlimit]
          exact hle
        obtain ⟨hservice, hrequests⟩ := failover_gives_up hv false (eligibleRanked_eq_nil_iff.mpr hineligible)
          (.inr (.inr hreached))
        obtain ⟨hservice', hrequests'⟩ := hleaves hservice hbound
        exact ⟨hservice', hrequests'.trans hrequests⟩
      · obtain ⟨hservice, hrequests⟩ := failover_request hv false hb hfree
        obtain ⟨hservice', hrequests'⟩ := hleaves hservice hbound
        exact ⟨hservice', hrequests'.trans hrequests⟩

/-! ## The list and service queries (R125, R171) -/

theorem readView_services (s : State) :
    (readView s).services = (s.link.frozen.map (·.services)).getD s.services := by
  unfold readView
  cases s.link.frozen <;> rfl

theorem exec_listCarriers {s : State} {i : Nat} (hs : Ready s) (hi : i < 256) :
    exec (.listCarriers i) s =
      .next (formReply 0x21 (doListCarriers i s).code (doListCarriers i s).content (doListCarriers i s).state) :=
  exec_rowOf_ready (c := .listCarriers i) hs (decide_eq_true hi)

theorem exec_listServices {s : State} {i : Nat} (hs : Ready s) (hi : i < 256) :
    exec (.listServices i) s =
      .next (formReply 0x23 (doListServices i s).code (doListServices i s).content (doListServices i s).state) :=
  exec_rowOf_ready (c := .listServices i) hs (decide_eq_true hi)

theorem exec_getService {s : State} {i : Nat} (hs : Ready s) (hi : i < 256) :
    exec (.getService i) s =
      .next (formReply 0x22 (doGetService i s).code (doGetService i s).content (doGetService i s).state) :=
  exec_rowOf_ready (c := .getService i) hs (decide_eq_true hi)

theorem doListCarriers_bad {s : State} {start : Nat} (h : 95 < start) :
    doListCarriers start s = answered .badIndex s := if_neg (Nat.not_lt_of_le h)

theorem doListCarriers_page {s : State} {start : Nat} (h : start ≤ 95) :
    doListCarriers start s =
      { state := s, code := .ok,
        content := (((pageFrom start (readView s).carriers).take listPage).flatMap fun e =>
          carrierSummary (readView s).now s.params.maxAge e.1 e.2) ++
            optLe 1 (nextIndex (pageFrom start (readView s).carriers)) } := if_pos (Nat.lt_succ_of_le h)

theorem doGetService_absent {s : State} {i : Nat} (h : tabGet (readView s).services i = none) :
    doGetService i s = answered .badIndex s := by
  simp only [doGetService, h]

theorem doGetService_entry {s : State} {i : Nat} {v : Service} (h : tabGet (readView s).services i = some v) :
    doGetService i s = { state := s, code := .ok, content := serviceBytes v } := by
  simp only [doGetService, h]

/-- R171: with more entries above the page, the index after its last entry is the next to ask for. -/
theorem nextIndex_more {α : Type} {page : Table α} (h : 8 < page.length) :
    ∃ e, (page.take 8).getLast? = some e ∧ nextIndex page = some (e.1 + 1) := by
  obtain ⟨e, he⟩ : ∃ e, (page.take 8).getLast? = some e := by
    refine Option.ne_none_iff_exists'.mp fun hnone => ?_
    have hlength := congrArg List.length (List.getLast?_eq_none_iff.mp hnone)
    rw [List.length_take_of_le (Nat.le_of_lt h)] at hlength
    cases hlength
  exact ⟨e, he, (if_pos h).trans (congrArg (Option.map fun e : Nat × α => e.1 + 1) he)⟩

theorem nextIndex_end {α : Type} {page : Table α} (h : ¬ 8 < page.length) : nextIndex page = none := if_neg h

/-! ## The bytes of services and carriers (R124, R125, R171) -/

theorem selectionScore_eq (v : Service) :
    v.selectionScore = (v.cands.find? fun k => decide (some k.carrier = v.selection)).bind (·.score) := by
  unfold Service.selectionScore
  cases v.cands.find? fun k => decide (some k.carrier = v.selection) <;> rfl

theorem candidateBytes_eq (c : Candidate) :
    candidateBytes c =
      le 1 c.carrier ++ le 2 (c.score.getD 65535) ++ [if c.stale then 1#8 else 0#8, if c.eligible then 1#8 else 0#8] ++
        le 1 c.lead := by
  simp only [candidateBytes, scoreBytes, boolByte_eq, List.append_assoc, List.cons_append, List.nil_append]

theorem le_serviceStateCode (x : ServiceState) :
    le 1 (serviceStateCode x) =
      [match x with | .unavailable => 0#8 | .served => 1#8 | .pending => 2#8 | .holding => 3#8] := by
  cases x <;> rfl

theorem optLe_pendingKind (x : Option PendingKind) :
    optLe 1 (x.map pendingKindCode) =
      match x with
      | none => [0#8, 0#8]
      | some .voluntary => [1#8, 0#8]
      | some .failover => [1#8, 1#8]
      | some .first => [1#8, 2#8] := by
  rcases x with _ | x
  · rfl
  · cases x <;> rfl

theorem le_inputCode (x : RfInput) :
    le 1 (inputCode x).val = [match x with | .a => 0#8 | .b => 1#8 | .c => 2#8 | .d => 3#8] := by
  cases x <;> rfl

theorem le_carrierStateCode (x : CarrierState) :
    le 1 (carrierStateCode x) =
      [match x with
        | .unsurveyed => 0#8 | .acquiring => 1#8 | .verified => 2#8 | .lost => 3#8 | .failed => 4#8
        | .excluded => 5#8] := by
  cases x <;> rfl

theorem le_failCauseCode (x : Option FailCause) :
    le 1 (failCauseCode x) =
      [match x with
        | none => 0#8 | some .noLock => 1#8 | some .noId => 2#8 | some .idMismatch => 3#8
        | some .noServices => 4#8] := by
  rcases x with _ | x
  · rfl
  · cases x <;> rfl

theorem holdRoleByte_sum (c : Carrier) :
    holdRoleByte c =
      match c.hold with | none => 0 | some h => (if h.carry then 2 else 1) + (if h.ending then 128 else 0) := by
  unfold holdRoleByte
  cases c.hold <;> rfl

theorem leInt_two (z : Int) : leInt 2 z = le 2 (z % 65536).toNat := rfl

theorem boolByte_staleAt (now maxAge : Nat) (c : Carrier) :
    boolByte (staleAt now maxAge c) =
      [match c.meas with | none => 0#8 | some m => if m.time + maxAge < now then 1#8 else 0#8] := by
  rw [boolByte_eq, staleAt]
  cases c.meas with
  | none => rfl
  | some m => simp

/-! ## The notices of a change (R88, R89, R116, R124) -/

theorem rankWorthy_iff {b a : Carrier} {staleB staleA : Bool} :
    rankWorthy b a staleB staleA = true ↔
      b.state ≠ a.state ∨ b.meas.bind (·.score) ≠ a.meas.bind (·.score) ∨ staleB ≠ staleA ∨
        b.services ≠ a.services ∨ b.listStatus ≠ a.listStatus := by
  simp only [rankWorthy, Bool.or_eq_true, decide_eq_true_eq, or_assoc]
  rfl

theorem noticeWorthy_iff {b a : Carrier} {staleB staleA : Bool} :
    noticeWorthy b a staleB staleA = true ↔
      rankWorthy b a staleB staleA = true ∨ b.failCause ≠ a.failCause ∨ b.planned ≠ a.planned ∨
        b.discovered ≠ a.discovered ∨ b.lister ≠ a.lister ∨ b.hold ≠ a.hold ∨ b.removalPending ≠ a.removalPending ∨
          b.observed ≠ a.observed ∨ b.listTruncated ≠ a.listTruncated ∨ b.carrierList ≠ a.carrierList ∨
            b.meas.map (·.mer) ≠ a.meas.map (·.mer) ∨ b.history ≠ a.history := by
  simp [noticeWorthy, or_assoc]

/-- What raises a notice is a change. -/
theorem noticeWorthy_self (a : Carrier) (st : Bool) : ¬ noticeWorthy a a st st = true := by
  simp [noticeWorthy, rankWorthy]

section
variable {s : State} {i : Nat} {b : Carrier} {f : Carrier → Carrier} (hb : s.carrier i = some b)
include hb

theorem changeCarrier_same (h : b = f b) : changeCarrier i f s = putCarrier i (f b) s := by
  have ha : (putCarrier i (f b) s).carrier i = some (f b) := by rw [carrier_putCarrier, if_pos rfl]
  simp only [changeCarrier, hb, reportCarrier, ha]
  exact if_pos ⟨h, congrArg s.stale h, trivial, trivial⟩

/-- R88, R89: a change is told to the notice queue, the watches and the ranking unit, each when the change is worth it. -/
theorem changeCarrier_changed (h : b ≠ f b) :
    changeCarrier i f s =
      let t := putCarrier i (f b) s
      let noticed := if noticeWorthy b (f b) (s.stale b) (s.stale (f b)) = true then
          offer .carrier i (carrierNotice s.now s.params.maxAge i (f b) false none) t else t
      let watched := handPair .carrier i (some (carrierView b)) (some (carrierView (f b))) noticed
      if rankWorthy b (f b) (s.stale b) (s.stale (f b)) = true then rankCarrier (f b).services b.services watched
      else watched := by
  have ha : (putCarrier i (f b) s).carrier i = some (f b) := by rw [carrier_putCarrier, if_pos rfl]
  simp only [changeCarrier, hb, reportCarrier, ha]
  rw [if_neg fun hsame => h hsame.1, if_neg fun hsame : b = f b ∧ _ => h hsame.1]
  rfl

end

theorem selectionChanged_iff {b a : Service} :
    selectionChanged b a = true ↔ routerTold b a = true ∨ b.constrained ≠ a.constrained := by
  simp [selectionChanged, routerTold]

theorem routerTold_iff {b a : Service} :
    routerTold b a = true ↔ b.state ≠ a.state ∨ b.selection ≠ a.selection ∨ b.target ≠ a.target := by
  simp [routerTold, or_assoc]

theorem serviceWatched_iff {b a : Service} :
    serviceWatched b a = true ↔
      b.state ≠ a.state ∨ b.selection ≠ a.selection ∨ b.constrained ≠ a.constrained ∨
        b.selectionScore ≠ a.selectionScore := by
  simp [serviceWatched, or_assoc]

/-- R116, R124: a report goes to the notice queue, the watches and the router in turn, to each when it is worth it. -/
theorem reportService_stages {s : State} {i : Nat} {b a : Service} {completed : Bool} (ha : s.service i = some a) :
    ∃ u v : State,
      ((completed || selectionChanged b a) = true → u = offer .selection i (serviceSummary i a) s) ∧
        (¬ (completed || selectionChanged b a) = true → u = s) ∧
          (serviceWatched b a = true → v = handPair .service i (some (serviceView b)) (some (serviceView a)) u) ∧
            (¬ serviceWatched b a = true → v = u) ∧
              (routerTold b a = true → reportService i b completed s = recomputeRooms v) ∧
                (¬ routerTold b a = true → reportService i b completed s = v) := by
  simp only [reportService, ha]
  exact ⟨_, _, fun h => if_pos h, fun h => if_neg h, fun h => if_pos h, fun h => if_neg h, fun h => if_pos h,
    fun h => if_neg h⟩

/-- Settles O21: the replies page by page (`nextIndex_more`) and byte by byte, and what a change raises
(`changeCarrier_changed`). -/
theorem serviceAndListQueries : Obligations.ServiceAndListQueries := by
  unfold Obligations.ServiceAndListQueries
  refine ⟨fun s start hi hs => ?lists, fun s i hi hs => ?service, fun now maxAge i c v => ?summaries,
    fun s i b f hb => ?carrier, fun s i b a completed ha => ?selection⟩
  case lists =>
    intro now cs vs next
    have hnext {α : Type} (page : Table α) :
        optLe 1 (nextIndex page) = next ((page.take 8).getLast?.map Prod.fst) (decide (8 < page.length)) := by
      by_cases h : 8 < page.length
      · obtain ⟨e, he, hmore⟩ := nextIndex_more h
        rw [hmore, he, decide_eq_true h]
        rfl
      · rw [nextIndex_end h, decide_eq_false h]
        cases (page.take 8).getLast? <;> rfl
    obtain ⟨hcarriers, hnow⟩ := readView_eq s
    have hcs : pageFrom start (readView s).carriers = cs := congrArg (pageFrom start) hcarriers
    have hvs : pageFrom start (readView s).services = vs := congrArg (pageFrom start) (readView_services s)
    refine ⟨fun habove => ?_, fun hle => ?_, ?_⟩
    · rw [exec_listCarriers hs hi, doListCarriers_bad habove]
      rfl
    · rw [exec_listCarriers hs hi, doListCarriers_page hle, hcs, hnow, ← hnext cs]
      rfl
    · rw [exec_listServices hs hi, ← hnext vs, ← hvs]
      rfl
  case service =>
    intro services yes optional candidate
    have hservices : (readView s).services = services := readView_services s
    refine ⟨fun hnone => ?_, fun v hv => ?_⟩
    · rw [exec_getService hs hi, doGetService_absent (hservices ▸ hnone)]
      rfl
    · have hoptional (k : Nat) (x : Option Nat) : optLe k x = optional k x := optLe_eq k x
      have hcandidate : candidateBytes = candidate := funext candidateBytes_eq
      rw [exec_getService hs hi, doGetService_entry (hservices ▸ hv), serviceBytes, optLe_pendingKind,
        le_serviceStateCode, hcandidate, boolByte_eq]
      simp only [hoptional]
      rfl
  case summaries =>
    intro yes optional score
    have hoptional (k : Nat) (x : Option Nat) : optLe k x = optional k x := optLe_eq k x
    refine ⟨?_, ?_⟩
    · rw [carrierSummary, le_inputCode, le_carrierStateCode, le_failCauseCode, holdSlotByte_eq, holdRoleByte_sum,
        leInt_two, boolByte_staleAt, boolByte_eq]
      cases c.meas <;> rfl
    · rw [serviceSummary, le_serviceStateCode, selectionScore_eq, boolByte_eq, keyBytes, ← List.append_assoc (le 1 i)]
      simp only [hoptional]
      rfl
  case carrier =>
    intro a t score ranked noticed notice watched
    have hranked : rankWorthy b a (s.stale b) (s.stale a) = true ↔ ranked := rankWorthy_iff
    have hnoticed : noticeWorthy b a (s.stale b) (s.stale a) = true ↔ noticed :=
      noticeWorthy_iff.trans (or_congr_left hranked)
    have hchange (h : noticed) : b ≠ f b := fun he => by
      have hself : a = b := he.symm
      exact noticeWorthy_self b (s.stale b) (hself ▸ hnoticed.mpr h)
    refine ⟨fun h => changeCarrier_same hb h, fun h hn => ?_, fun hn hr => ?_, fun hr => ?_⟩
    · rw [changeCarrier_changed hb h]
      dsimp only
      rw [if_neg (mt hnoticed.mp hn), if_neg (mt hranked.mp fun hr => hn (.inl hr))]
      rfl
    · rw [changeCarrier_changed hb (hchange hn)]
      dsimp only
      rw [if_pos (hnoticed.mpr hn), if_neg (mt hranked.mp hr)]
      rfl
    · rw [changeCarrier_changed hb (hchange (.inl hr))]
      dsimp only
      rw [if_pos (hnoticed.mpr (.inl hr)), if_pos (hranked.mpr hr)]
      rfl
  case selection =>
    intro score told noticed watched
    have htold : routerTold b a = true ↔ told := routerTold_iff
    have hnoticed : (completed || selectionChanged b a) = true ↔ noticed := by
      rw [Bool.or_eq_true, selectionChanged_iff, htold]
    have hwatched : serviceWatched b a = true ↔ watched := by
      rw [serviceWatched_iff, selectionScore_eq, selectionScore_eq]
    obtain ⟨u, w, hu, hu', hw, hw', hr, hr'⟩ := reportService_stages (b := b) (completed := completed) ha
    exact ⟨u, w, hu ∘ hnoticed.mpr, hu' ∘ mt hnoticed.mp, hw ∘ hwatched.mpr, hw' ∘ mt hwatched.mp, hr ∘ htold.mpr,
      hr' ∘ mt htold.mp⟩

end Sys2Proof.Machine

/-! The family "Room channels and output routing": the room channels, the router and the watch unit after a reset (R143, R162),
GET_ROOM and the ROOM notice (R141, R142), what a recompute and a commit make of a channel (R127 to R130), the completion of
switches (R131), demand, slot counts and the marks of service keys (R109 to R111, R127, R134), and the grant steps (R134 to
R138). -/

namespace Sys2Proof.Machine

/-! ## Right after a reset -/

/-- Settles O7: each record is the one `State.afterReset` names. -/
theorem roomsAndWatchesAfterReset : Obligations.RoomsAndWatchesAfterReset := by
  unfold Obligations.RoomsAndWatchesAfterReset
  intro s t h
  obtain ⟨cause, strap, draws, pending, rfl⟩ := h.afterReset
  have hentry (n : Fin 16) : WatchUnit.reset.entries[n] = Watch.reset := Vector.getElem_replicate ..
  refine ⟨fun r => Vector.getElem_replicate .., rfl, rfl, fun n => ⟨?_, hentry n⟩, rfl, rfl, rfl, fun n hn => ?_⟩
  · exact (congrArg Watch.active (hentry n)).trans rfl
  · obtain rfl := List.mem_singleton.mp hn
    rfl

/-! ## GET_ROOM and the ROOM notice (R141, R142) -/

theorem exec_getRoom {s : State} {r : Nat} (hs : Ready s) (hr : r < 256) :
    exec (.getRoom r) s =
      .next (formReply 0x24 (doGetRoom r s).code (doGetRoom r s).content (doGetRoom r s).state) :=
  exec_rowOf_ready (c := .getRoom r) hs (decide_eq_true hr)

theorem doGetRoom_above {r : Nat} (h : 47 < r) (s : State) : doGetRoom r s = answered .badIndex s :=
  dif_neg (Nat.not_lt.mpr h)

theorem doGetRoom_record {r : Nat} (h : r < 48) (s : State) :
    doGetRoom r s = { state := s, code := .ok, content := roomBytes ⟨r, h⟩ (readView s).rooms[r] } := dif_pos h

theorem readView_rooms (s : State) : (readView s).rooms = (s.link.frozen.map (·.rooms)).getD s.router.rooms := by
  unfold readView
  cases s.link.frozen <;> rfl

theorem optKeyBytes_eq (k : Option ServiceKey) :
    optKeyBytes k =
      match k with | none => [0#8, 0#8, 0#8, 0#8, 0#8] | some k => 1#8 :: (le 2 k.origin ++ le 2 k.number) := by
  cases k <;> rfl

theorem le_feedingCode (x : Feeding) : le 1 (feedingCode x) = [match x with | .primary => 0#8 | .fallback => 1#8] := by
  cases x <;> rfl

theorem le_routeCode (x : RouteState) :
    le 1 (routeCode x) =
      [match x with | .unbound => 0#8 | .slate => 1#8 | .live => 2#8 | .held => 3#8 | .switching => 4#8] := by
  cases x <;> rfl

theorem optLe_feedSlot (x : Option (Fin 8)) :
    optLe 1 (x.map Fin.val) = match x with | none => [0#8, 0#8] | some i => 1#8 :: le 1 i.val := by
  cases x <;> rfl

theorem pendingFeedBytes_eq (x : Option (Fin 8 × Nat)) :
    pendingFeedBytes x =
      match x with | none => [0#8, 0#8, 0#8] | some p => 1#8 :: (le 1 p.1.val ++ le 1 p.2) := by
  cases x <;> rfl

theorem roomChanged_iff {b a : Room} :
    roomChanged b a = true ↔
      b.route ≠ a.route ∨ b.feeding ≠ a.feeding ∨ b.feedSlot ≠ a.feedSlot ∨ b.pendingFeed ≠ a.pendingFeed ∨
        b.primary ≠ a.primary ∨ b.fallback ≠ a.fallback := by
  simp [roomChanged, or_assoc]

theorem changeRoom_noticed {r : Fin 48} {x : Room} {s : State} (h : roomChanged (s.room r) x = true) :
    changeRoom r x s =
      handPair .room r.val (some (roomView (s.room r))) (some (roomView x))
        (offer .room r.val (roomNotice r x) (putRoom r x s)) := if_pos h

theorem changeRoom_silent {r : Fin 48} {x : Room} {s : State} (h : ¬ roomChanged (s.room r) x = true) :
    changeRoom r x s = putRoom r x s := if_neg h

/-- Settles O22: the reply and the notice field by field. -/
theorem getRoomAnswersTheRecord : Obligations.GetRoomAnswersTheRecord := by
  unfold Obligations.GetRoomAnswersTheRecord
  intro key
  have hkey (k : Option ServiceKey) : optKeyBytes k = key k := optKeyBytes_eq k
  refine ⟨fun s r hr hs => ⟨fun habove => ?_, fun h => ?_⟩, fun s r x => ⟨fun hn => ?_, fun hn => ?_⟩⟩
  · rw [exec_getRoom hs hr, doGetRoom_above habove]
    rfl
  · have hrooms : (readView s).rooms[r] = ((s.link.frozen.map (·.rooms)).getD s.router.rooms)[r] := by
      rw [readView_rooms]
    rw [exec_getRoom hs hr, doGetRoom_record h, hrooms, roomBytes, hkey, hkey, le_feedingCode, le_routeCode,
      optLe_feedSlot, pendingFeedBytes_eq, optLe_eq]
    rfl
  · rw [changeRoom_silent (mt roomChanged_iff.mp hn)]
    rfl
  · rw [changeRoom_noticed (roomChanged_iff.mpr hn), roomNotice, hkey, hkey, le_feedingCode, le_routeCode,
      optLe_feedSlot, pendingFeedBytes_eq]
    rfl

/-! ## Feeding and routes (R127 to R130) -/

theorem serviceOfKey_eq (s : State) (k : ServiceKey) :
    s.serviceOfKey k = (serviceIndex s.services k).bind s.service := by
  unfold State.serviceOfKey
  cases serviceIndex s.services k <;> rfl

theorem feedingService_eq (s : State) (x : Room) : s.feedingService x = x.feedingKey.bind s.serviceOfKey := by
  unfold State.feedingService
  cases x.feedingKey <;> rfl

theorem lastingFeed_eq (s : State) (x : Room) :
    lastingFeed s x =
      x.feedSlot.bind fun j => if (s.slot j).role = .carry ∧ (s.slot j).state = .locked then some j else none := by
  unfold lastingFeed
  cases x.feedSlot <;> rfl

theorem decideFeeding_primaryOnly {s : State} {x : Room} (hp : x.primary ≠ none) (hf : x.fallback = none) :
    decideFeeding s x = .primary := by
  obtain ⟨p, hp⟩ := Option.ne_none_iff_exists'.mp hp
  simp only [decideFeeding, hp, hf]

theorem decideFeeding_fallbackOnly {s : State} {x : Room} (hp : x.primary = none) (hf : x.fallback ≠ none) :
    decideFeeding s x = .fallback := by
  obtain ⟨f, hf⟩ := Option.ne_none_iff_exists'.mp hf
  simp only [decideFeeding, hp, hf]

section
variable {s : State} {x : Room} {p f : ServiceKey} (hp : x.primary = some p) (hf : x.fallback = some f)
include hp hf

theorem decideFeeding_fallback_iff (h : x.feeding = .primary) :
    decideFeeding s x = .fallback ↔
      (s.stateOfKey p = none ∨ s.stateOfKey p = some .unavailable) ∧ s.stateOfKey f = some .served := by
  simp only [decideFeeding, hp, hf, h]
  split
  · next hc => exact iff_of_true rfl hc
  · next hc => exact iff_of_false Feeding.noConfusion hc

theorem decideFeeding_primary_iff (h : x.feeding = .fallback) :
    decideFeeding s x = .primary ↔ s.stateOfKey p = some .served := by
  simp only [decideFeeding, hp, hf, h]
  split
  · next hc => exact iff_of_true rfl hc
  · next hc => exact iff_of_false Feeding.noConfusion hc

end

/-- R129: a channel without bindings. -/
theorem routeRoom_unbound {s : State} {x : Room} (h : x.primary = none ∧ x.fallback = none) :
    routeRoom s x =
      { x with route := .unbound, feedSlot := none, pendingFeed := none, requestTime := none, timer := none } :=
  if_pos h

section
variable {s : State} {x : Room} (hbound : ¬ (x.primary = none ∧ x.fallback = none))
include hbound

/-- R129: a bound channel without a wanted carrier or without its stream. -/
theorem routeRoom_slate (h : ∀ v c, s.feedingService x = some v → v.selection = some c → s.streamSlot c = none) :
    routeRoom s x = slateRoom x := by
  rw [routeRoom, if_neg hbound]
  split
  · rfl
  · next v hv =>
    split
    · rfl
    · next c hc => rw [h v c hv hc]

/-- R129, R130: a bound channel whose wanted carrier streams. -/
theorem routeRoom_streamed {v : Service} {c : Nat} {i : Fin 8} (hv : s.feedingService x = some v)
    (hc : v.selection = some c) (hi : s.streamSlot c = some i) :
    routeRoom s x =
      if x.feedSlot = some i then { x with route := shownAs v, pendingFeed := none, timer := none }
      else switchingRoom s x i c := by
  rw [routeRoom, if_neg hbound]
  simp only [hv, hc, hi]

end

theorem switchingRoom_runs {s : State} {x : Room} {i : Fin 8} {c : Nat}
    (h : x.route = .switching ∧ x.pendingFeed = some (i, c)) :
    switchingRoom s x i c = { x with feedSlot := lastingFeed s x } := if_pos h

theorem switchingRoom_starts {s : State} {x : Room} {i : Fin 8} {c : Nat}
    (h : ¬ (x.route = .switching ∧ x.pendingFeed = some (i, c))) :
    switchingRoom s x i c =
      { x with
        route := .switching, feedSlot := lastingFeed s x, pendingFeed := some (i, c), requestTime := some s.now,
        timer := some 1500 } := if_neg h

/-! ## The binding of a channel at a commit (R127, R128, R153) -/

theorem reboundRoom_sameKeys {b : Binding} {x : Room} (h : x.primary = b.primary ∧ x.fallback = b.fallback) :
    reboundRoom b x = { x with primary := b.primary, fallback := b.fallback, priority := b.priority } := by
  rw [reboundRoom, if_pos h, ← h.1, ← h.2]

theorem reboundRoom_otherKeys {b : Binding} {x : Room} (h : ¬ (x.primary = b.primary ∧ x.fallback = b.fallback)) :
    reboundRoom b x =
      { x with
        primary := b.primary, fallback := b.fallback, priority := b.priority,
        feeding := if b.primary ≠ none then .primary else .fallback } := by
  rw [reboundRoom, if_neg h]
  cases b.primary <;> rfl

theorem rebindRoom_same {p : Plan} {s : State} {r : Fin 48} (h : reboundRoom p.bindings[r] (s.room r) = s.room r) :
    rebindRoom p s r = s := if_pos h

theorem rebindRoom_changed {p : Plan} {s : State} {r : Fin 48} (h : reboundRoom p.bindings[r] (s.room r) ≠ s.room r) :
    rebindRoom p s r = changeRoom r (recomputed s (reboundRoom p.bindings[r] (s.room r))) s := if_neg h

/-- Settles O56: a commit's binding by `rebindRoom_changed`; feeding by the bindings the channel has, and the route by its
bindings, its wanted carrier and that carrier's stream. -/
theorem routesAreRecomputed : Obligations.RoutesAreRecomputed := by
  unfold Obligations.RoutesAreRecomputed
  refine ⟨fun s p r => ?binding, fun s x => ?recompute⟩
  case binding =>
    intro b x bound y
    have hy : reboundRoom p.bindings[r] (s.room r) = y := by
      by_cases hkeys : x.primary = b.primary ∧ x.fallback = b.fallback
      · exact (reboundRoom_sameKeys hkeys).trans (if_pos hkeys).symm
      · exact (reboundRoom_otherKeys hkeys).trans (if_neg hkeys).symm
    refine ⟨fun hsame => rebindRoom_same (hy.trans hsame), fun hnew => ?_⟩
    rw [rebindRoom_changed (by rwa [hy]), hy]
    exact ⟨(room_changeRoom ..).trans (if_pos rfl), fun n hn => (room_changeRoom ..).trans (if_neg (Ne.symm hn))⟩
  case recompute =>
    intro stateOf wanted after kept
    have hstate (k : ServiceKey) : s.stateOfKey k = stateOf k := congrArg (Option.map _) (serviceOfKey_eq s k)
    have hkept : lastingFeed s x = kept := lastingFeed_eq s x
    refine ⟨fun hf hp => decideFeeding_primaryOnly hp hf, decideFeeding_fallbackOnly, fun p f hp hf => ?both,
      fun hp hf => routeRoom_unbound ⟨hp, hf⟩, fun hany => ⟨fun hnone => ?slate, fun v c i hv hc hi => ?streamed⟩⟩
    case both =>
      rw [← hstate, ← hstate]
      exact ⟨decideFeeding_fallback_iff hp hf, decideFeeding_primary_iff hp hf⟩
    all_goals have hbound : ¬ (x.primary = none ∧ x.fallback = none) := by rwa [not_and_or]
    case slate =>
      refine routeRoom_slate hbound fun v c hv hc => ?_
      have hwanted : wanted = some c := by simp only [wanted, hv, Option.bind_some, hc]
      obtain hnone | ⟨d, hd, hstream⟩ := hnone
      · cases hwanted.symm.trans hnone
      · obtain rfl := Option.some.inj (hwanted.symm.trans hd)
        exact hstream
    case streamed =>
      have hroute : after = _ := routeRoom_streamed hbound hv hc hi
      refine ⟨fun hfed => ?_, fun hother hsw hpending => ?_, fun hother hnew => ?_⟩
      · rw [hroute, if_pos hfed]
        rfl
      · rw [hroute, if_neg hother, switchingRoom_runs ⟨hsw, hpending⟩, hkept]
      · rw [hroute, if_neg hother, switchingRoom_starts hnew, hkept]
        rfl

/-! ## The completion of switches (R131) -/

theorem slotStreams_iff {r : Slot} {x : Nat} :
    slotStreams r x = true ↔ r.role = .carry ∧ r.state = .locked ∧ r.carrier = some x := by
  simp [slotStreams, and_assoc]

/-- R26, R127: the slot that carries a stream is the one that is found. -/
theorem streamSlot_of_streams {s : State} {x : Nat} {j : Fin 8} (hlaw : SlotLaw s.slots)
    (h : slotStreams (s.slot j) x = true) : s.streamSlot x = some j := by
  obtain ⟨k, hk⟩ : ∃ k, s.streamSlot x = some k := by
    refine Option.ne_none_iff_exists'.mp fun hnone => ?_
    exact List.find?_eq_none.mp hnone j (List.mem_finRange j) h
  obtain ⟨-, -, hj⟩ := slotStreams_iff.mp h
  have hfound : slotStreams (s.slot k) x = true := List.find?_some (p := fun i => slotStreams (s.slot i) x) hk
  obtain ⟨-, -, hcarrier⟩ := slotStreams_iff.mp hfound
  rw [hk, hlaw.2 k j (hcarrier.trans hj.symm) fun hnone => nomatch hcarrier.symm.trans hnone]

theorem serviceOfKey_congr {s t : State} (h : t.services = s.services) (k : ServiceKey) :
    t.serviceOfKey k = s.serviceOfKey k := by
  simp only [State.serviceOfKey, State.service, h]

theorem feedingService_congr_services {s t : State} (h : t.services = s.services) (x : Room) :
    t.feedingService x = s.feedingService x := by
  simp only [State.feedingService, serviceOfKey_congr h]

theorem decideFeeding_congr {s t : State} {x y : Room} (h : t.services = s.services) (hfeeding : y.feeding = x.feeding)
    (hprimary : y.primary = x.primary) (hfallback : y.fallback = x.fallback) :
    decideFeeding t y = decideFeeding s x := by
  have hstate : t.stateOfKey = s.stateOfKey := funext fun k => congrArg (Option.map _) (serviceOfKey_congr h k)
  unfold decideFeeding
  rw [hfeeding, hprimary, hfallback, hstate]

theorem bound_of_feedingService {s : State} {x : Room} {v : Service} (h : s.feedingService x = some v) :
    ¬ (x.primary = none ∧ x.fallback = none) := by
  rintro ⟨hp, hf⟩
  rw [feedingService_eq, Room.feedingKey] at h
  cases hx : x.feeding <;> simp [hx, hp, hf] at h

theorem changeRoom_slots (r : Fin 48) (x : Room) (s : State) : (changeRoom r x s).slots = s.slots := by
  obtain ⟨l, u, h⟩ := changeRoom_shape r x s
  rw [h]
  rfl

theorem changeRoom_services (r : Fin 48) (x : Room) (s : State) : (changeRoom r x s).services = s.services := by
  obtain ⟨l, u, h⟩ := changeRoom_shape r x s
  rw [h]
  rfl

theorem completeSwitching_services (s : State) (r : Fin 48) : (completeSwitching s r).services = s.services := by
  unfold completeSwitching recomputeRoom
  split
  · rw [changeRoom_services, changeRoom_services]
  · rfl

theorem completeSwitching_others {s : State} {r n : Fin 48} (h : n ≠ r) : (completeSwitching s r).room n = s.room n := by
  unfold completeSwitching recomputeRoom
  split
  · rw [room_changeRoom, if_neg (Ne.symm h), room_changeRoom, if_neg (Ne.symm h)]
  · rfl

/-- R131: the switch of channel `r` to its pending feed on slot `j` completes as it was meant: its feeding service `v`,
which a recompute would keep, still selects the pending carrier, which streams on that slot. -/
def SwitchReady (s : State) (r : Fin 48) (j : Fin 8) (v : Service) : Prop :=
  ∃ x, (s.room r).pendingFeed = some (j, x) ∧ s.feedingService (s.room r) = some v ∧ v.selection = some x ∧
    (s.slot j).role = .carry ∧ (s.slot j).state = .locked ∧ (s.slot j).carrier = some x ∧
      decideFeeding s (s.room r) = (s.room r).feeding

/-- R131, R129: the record of a channel whose switch to slot `j` has completed for service `v`. -/
def switchedRoom (x : Room) (j : Fin 8) (v : Service) : Room :=
  { x with feedSlot := some j, pendingFeed := none, timer := none, route := shownAs v }

theorem SwitchReady.congr {s t : State} {r : Fin 48} {j : Fin 8} {v : Service} (h : SwitchReady s r j v)
    (hservices : t.services = s.services) (hslots : t.slots = s.slots) (hroom : t.room r = s.room r) :
    SwitchReady t r j v := by
  have hslot : t.slot j = s.slot j := congrArg (·[j]) hslots
  unfold SwitchReady
  rw [hroom, hslot, feedingService_congr_services hservices, decideFeeding_congr hservices rfl rfl rfl]
  exact h

/-- R131: the recompute after the completion keeps the channel as the completion made it. -/
theorem room_completeSwitching {s : State} {r : Fin 48} {j : Fin 8} {v : Service} (hlaw : SlotLaw s.slots)
    (hswitching : (s.room r).route = .switching) (hready : SwitchReady s r j v) :
    (completeSwitching s r).room r = switchedRoom (s.room r) j v := by
  obtain ⟨x, hpending, hv, hsel, hrole, hlocked, hcarrier, hfeeding⟩ := hready
  have hcompleted : completedRoom s (s.room r) = switchedRoom (s.room r) j v := by
    simp only [completedRoom, hpending, hv, switchedRoom]
  let y := switchedRoom (s.room r) j v
  let t := changeRoom r y s
  have hservices : t.services = s.services := changeRoom_services ..
  have hslots : t.slots = s.slots := changeRoom_slots ..
  have hy : t.room r = y := (room_changeRoom ..).trans (if_pos rfl)
  have hkept : decideFeeding t y = y.feeding :=
    (decideFeeding_congr (x := s.room r) hservices rfl rfl rfl).trans hfeeding
  have hfed : t.feedingService y = some v :=
    (feedingService_congr_services hservices y).trans ((feedingService_congr rfl rfl rfl).trans hv)
  have hstream : t.streamSlot x = some j := by
    refine streamSlot_of_streams (hslots ▸ hlaw) (slotStreams_iff.mpr ?_)
    rw [show t.slot j = s.slot j from congrArg (·[j]) hslots]
    exact ⟨hrole, hlocked, hcarrier⟩
  have hroute : recomputed t y = y := by
    rw [recomputed, hkept]
    exact (routeRoom_streamed (bound_of_feedingService hfed) hfed hsel hstream).trans (if_pos rfl)
  rw [completeSwitching, if_pos hswitching, hcompleted, recomputeRoom, room_changeRoom, if_pos rfl]
  exact (congrArg (recomputed t) hy).trans hroute

/-- R131: completions leave the slots, the carriers, the services and the channels beside them alone. -/
theorem completeSwitching_all_frame (l : List (Fin 48)) (s : State) :
    (l.foldl completeSwitching s).services = s.services ∧ (l.foldl completeSwitching s).slots = s.slots ∧
      (l.foldl completeSwitching s).carriers = s.carriers ∧
        ∀ r, r ∉ l → (l.foldl completeSwitching s).room r = s.room r := by
  have hranks : Ranks s (l.foldl completeSwitching s) := ranks_foldl ranks_completeSwitching l s
  refine ⟨?_, hranks.sameSlots, hranks.sameCarriers, ?_⟩
  · clear hranks
    induction l generalizing s with
    | nil => rfl
    | cons n l ih => exact (ih _).trans (completeSwitching_services s n)
  · clear hranks
    induction l generalizing s with
    | nil => exact fun r _ => rfl
    | cons n l ih =>
      intro r hr
      exact (ih _ r (List.not_mem_of_not_mem_cons hr)).trans
        (completeSwitching_others (List.ne_of_not_mem_cons hr))

/-- R131: of several switches that complete together each completes as it would alone. -/
theorem room_completeSwitching_all {l : List (Fin 48)} {s : State} {r : Fin 48} {j : Fin 8} {v : Service}
    (hnodup : l.Nodup) (hr : r ∈ l) (hlaw : SlotLaw s.slots) (hswitching : (s.room r).route = .switching)
    (hready : SwitchReady s r j v) : (l.foldl completeSwitching s).room r = switchedRoom (s.room r) j v := by
  obtain ⟨before, after, rfl⟩ := List.append_of_mem hr
  rw [List.nodup_middle, List.nodup_cons, List.mem_append, not_or] at hnodup
  obtain ⟨⟨hbefore, hafter⟩, -⟩ := hnodup
  obtain ⟨hservices, hslots, -, hrooms⟩ := completeSwitching_all_frame before s
  obtain ⟨-, -, -, hrest⟩ := completeSwitching_all_frame after (completeSwitching (before.foldl completeSwitching s) r)
  have hroom := hrooms r hbefore
  rw [List.foldl_append, List.foldl_cons, hrest r hafter,
    room_completeSwitching (hslots ▸ hlaw) (by rwa [hroom]) (hready.congr hservices hslots hroom), hroom]

theorem awaitsPoint_iff {p : Fin 4} {j : Fin 8} {s : State} {r : Fin 48} :
    awaitsPoint p j s r = true ↔
      r.val / 12 = p.val ∧ (s.room r).route = .switching ∧ ∃ x, (s.room r).pendingFeed = some (j, x) := by
  unfold awaitsPoint portOf
  rcases (s.room r).pendingFeed with _ | ⟨k, x⟩
  · simp
  · simp [and_assoc]

/-- Settles O55: one completion by `room_completeSwitching`, those of a switch point by `room_completeSwitching_all`. -/
theorem switchesComplete : Obligations.SwitchesComplete := by
  unfold Obligations.SwitchesComplete
  intro s hr hlaw ready completed done awaits
  have hawaits (port : Fin 4) (j : Fin 8) (r : Fin 48) : awaitsPoint port j s r = true ↔ awaits port j r :=
    awaitsPoint_iff
  refine ⟨fun r j v hswitching htimer hready => ?timeout, fun r hidle => ?early, fun port j hany => ?point,
    fun port j hnone => ?unawaited⟩
  case timeout =>
    obtain ⟨hservices, hslots, hcarriers, -⟩ := completeSwitching_all_frame [r] s
    exact ⟨completeSwitching s r,
      (exec_switchTimeout r s).trans (blockEvent_done hr (and_timerOut_iff.mpr ⟨hswitching, htimer⟩)), hslots, hcarriers,
      hservices, room_completeSwitching hlaw hswitching hready, fun n hn => completeSwitching_others hn⟩
  case early =>
    exact (exec_switchTimeout r s).trans (blockEvent_idle (by rwa [← Bool.not_eq_true, and_timerOut_iff]))
  case point =>
    obtain ⟨r, hwaits⟩ := hany
    obtain ⟨hservices, hslots, hcarriers, hothers⟩ :=
      completeSwitching_all_frame (allRooms.filter (awaitsPoint port j s)) s
    have hmem (n : Fin 48) : n ∈ allRooms.filter (awaitsPoint port j s) ↔ awaits port j n := by
      rw [List.mem_filter, hawaits]
      exact and_iff_right (List.mem_finRange n)
    have hdue : allRooms.any (awaitsPoint port j s) = true :=
      List.any_eq_true.mpr ⟨r, List.mem_finRange r, (hawaits ..).mpr hwaits⟩
    refine ⟨_, (exec_switchPoint port j s).trans (blockEvent_done hr hdue), hslots, hcarriers,
      hservices, fun n v hn hready => ?_, fun n hn => hothers n (mt (hmem n).mp hn)⟩
    exact room_completeSwitching_all ((List.nodup_finRange 48).filter _) ((hmem n).mpr hn) hlaw hn.2.1 hready
  case unawaited =>
    refine (exec_switchPoint port j s).trans (blockEvent_idle (Bool.eq_false_iff.mpr fun hany => ?_))
    obtain ⟨r, -, hwaits⟩ := List.any_eq_true.mp hany
    exact hnone r ((hawaits ..).mp hwaits)

/-! ## Demand and slot counts (R127, R134) -/

theorem rooms_toList (s : State) : s.router.rooms.toList = allRooms.map s.room :=
  List.ext_getElem (by simp [allRooms]) fun _ _ _ => by simp [allRooms, State.room]

theorem sum_map_if {α : Type} (p : α → Bool) (f : α → Nat) (l : List α) :
    (l.map fun a => if p a then f a else 0).sum = ((l.filter p).map f).sum := by
  induction l with
  | nil => rfl
  | cons a l ih =>
    rw [List.map_cons, List.sum_cons, ih, List.filter_cons]
    split
    · rfl
    · exact Nat.zero_add _

/-- R134: a demand is the sum of the shares of the channels named. -/
theorem shares_eq_sum (p : Room → Bool) (s : State) :
    shares p s = ((allRooms.filter fun r => p (s.room r)).map fun r => share (s.room r).priority).sum := by
  rw [shares, rooms_toList, List.map_map]
  exact sum_map_if (fun r => p (s.room r)) (fun r => share (s.room r).priority) allRooms

theorem share_eq (n : Nat) : share n = if n = 0 then 8 else if n = 1 then 4 else if n = 2 then 2 else 1 := by
  rcases n with _ | _ | _ | n <;> rfl

theorem feedsOn_iff {s : State} {x : Nat} {r : Room} :
    feedsOn s x r = true ↔
      ∃ k v, r.feedingKey = some k ∧ s.serviceOfKey k = some v ∧ (v.selection = some x ∨ v.target = some x) := by
  rw [feedsOn, feedingService_eq]
  cases hk : r.feedingKey with
  | none => simp
  | some k => cases hv : s.serviceOfKey k <;> simp [hv]

theorem wouldFeed_iff {s : State} {k : ServiceKey} {r : Room} :
    wouldFeed s k r = true ↔
      r.feedingKey = some k ∨
        (r.fallback = some k ∧ ∀ p, r.primary = some p → ∃ v, s.serviceOfKey p = some v ∧ v.state = .unavailable) := by
  rw [wouldFeed]
  cases r.primary <;> simp [State.stateOfKey]

theorem slotOnline_iff {r : Slot} : slotOnline r = true ↔ r.state ≠ .offline ∧ r.offlinePending = false := by
  simp [slotOnline]

/-- R127, R134: demands and counts are taken over the channels and the slots that a test names. -/
theorem demandAndCounts (s : State) :
    (∀ p, ∃ rooms : List (Fin 48), rooms.Nodup ∧ (∀ r, r ∈ rooms ↔ p (s.room r) = true) ∧
      shares p s = (rooms.map fun r => share (s.room r).priority).sum) ∧
      ∀ p : Fin 8 → Bool, ∃ slots : List (Fin 8), slots.Nodup ∧ (allSlots.filter p).length = slots.length ∧
        ∀ i, i ∈ slots ↔ p i = true :=
  ⟨fun p => ⟨_, (List.nodup_finRange 48).filter _,
      fun r => List.mem_filter.trans (and_iff_right (List.mem_finRange r)), shares_eq_sum p s⟩,
    fun _ => ⟨_, (List.nodup_finRange 8).filter _, rfl,
      fun i => List.mem_filter.trans (and_iff_right (List.mem_finRange i))⟩⟩

/-! ## The marks of a service key (R109 to R111) -/

theorem seenKey_iff {s : State} {k : ServiceKey} :
    s.seenKey k = true ↔ ∃ e ∈ s.carriers, e.2.listStatus ≠ .absent ∧ k ∈ e.2.services := by
  simp [State.seenKey]

theorem carriedAt_iff {s : State} {x : Nat} :
    s.carriedAt x = true ↔ ∃ c h, s.carrier x = some c ∧ c.hold = some h ∧ h.carry = true := by
  unfold State.carriedAt
  cases hc : s.carrier x with
  | none => simp
  | some c => simp [carried_iff]

/-- R108: keys are unique, so that an entry's key finds its place. -/
theorem serviceIndex_of_service {s : State} {i : Nat} {v : Service} (hlaw : ServiceLaw s.services)
    (hv : s.service i = some v) : serviceIndex s.services v.key = some i := by
  have hfind : (s.services.find? fun e => decide (e.2.key = v.key)) = some (i, v) := by
    refine List.head?_filter.symm.trans (head?_eq_of_first (r := fun a b => a.2.key ≠ b.2.key)
      (hlaw.2.filter _) ?_ fun e he hne => ?_)
    · exact List.mem_filter.mpr ⟨mem_of_tabGet hv, decide_eq_true rfl⟩
    · exact hne (of_decide_eq_true (List.mem_filter.mp he).2)
  rw [serviceIndex, hfind]

theorem serviceIndex_absent {s : State} {k : ServiceKey} (hlaw : ServiceLaw s.services)
    (h : ∀ i v, s.service i = some v → v.key ≠ k) : serviceIndex s.services k = none := by
  have hfind : (s.services.find? fun e => decide (e.2.key = k)) = none := by
    refine List.find?_eq_none.mpr fun e he hk => ?_
    exact h e.1 e.2 (tabGet_of_mem (tabWf_iff.mp hlaw.1).1 he) (of_decide_eq_true hk)
  rw [serviceIndex, hfind]

theorem pruneService_carried {i x : Nat} {s : State} {v : Service} (hv : s.service i = some v)
    (hsel : v.selection = some x) (hx : s.carriedAt x = true) : pruneService i s = s := by
  simp only [pruneService, hv, hsel, hx, if_true, ite_self]

/-- R111: an entry with neither mark, whose selection's carrier is not carried, leaves the table. -/
theorem service_pruneService_gone {i : Nat} {s : State} {v : Service} (hlaw : ServiceLaw s.services)
    (hv : s.service i = some v) (hmarks : ¬ (v.bound || v.seen) = true)
    (hsel : ∀ x, v.selection = some x → ¬ s.carriedAt x = true) : (pruneService i s).service i = none := by
  cases hx : v.selection with
  | none => rw [pruneService_unselected hv hmarks hx, service_deleteService hlaw, if_pos rfl]
  | some x =>
    have hcleared : ServiceLaw (reportService i v false (clearSelection i s)).services := by
      rw [reportService_services]
      exact (serves_clearSelection i s).services hlaw
    simp only [pruneService, hv, if_neg hmarks, hx, if_neg (hsel x hx)]
    rw [service_deleteService hcleared, if_pos rfl]

theorem evaluateSeen_listed {s : State} {i : Nat} {k : ServiceKey} (h : serviceIndex s.services k = some i) :
    evaluateSeen s k = pruneService i (modService i (fun v => { v with seen := s.seenKey k }) s) := by
  simp only [evaluateSeen, h]

theorem evaluateSeen_unlisted {s : State} {k : ServiceKey} (h : serviceIndex s.services k = none) :
    evaluateSeen s k =
      if s.seenKey k then
        if s.services.length < servicePlaces then addService (newService k false true) s
        else modLink (fun l => { l with flags := { l.flags with serviceTableFull := true } }) s
      else s := by
  simp only [evaluateSeen, h]

/-- R109, R111: the mark of an entry evaluated afresh. -/
theorem evaluateSeen_marks {s : State} {i : Nat} {v : Service} (hlaw : ServiceLaw s.services)
    (hv : s.service i = some v) :
    (v.bound = true ∨ s.seenKey v.key = true ∨ (∃ x, v.selection = some x ∧ s.carriedAt x = true) →
      (evaluateSeen s v.key).service i = some { v with seen := s.seenKey v.key }) ∧
      (v.bound = false → ¬ s.seenKey v.key = true → (∀ x, v.selection = some x → ¬ s.carriedAt x = true) →
        (evaluateSeen s v.key).service i = none) := by
  have hput : (putService i { v with seen := s.seenKey v.key } s).service i = some { v with seen := s.seenKey v.key } :=
    (service_putService ..).trans (if_pos rfl)
  rw [evaluateSeen_listed (serviceIndex_of_service hlaw hv), modService_eq hv]
  refine ⟨fun hstays => ?_, fun hbound hseen hsel => ?_⟩
  · by_cases hmarks : (v.bound || s.seenKey v.key) = true
    · rw [pruneService_marked hput hmarks, hput]
    · rw [Bool.or_eq_true, not_or] at hmarks
      obtain ⟨x, hx, hcarried⟩ := (hstays.resolve_left hmarks.1).resolve_left hmarks.2
      rw [pruneService_carried hput hx hcarried, hput]
  · exact service_pruneService_gone (serviceLaw_put hv rfl hlaw) hput (by simp [hbound, hseen]) hsel

/-! ## What the routes are read from (R127 to R130) -/

/-- All that a recompute of the room channels reads stands alike. -/
structure RoutesAlike (s t : State) : Prop where
  services : t.services = s.services
  slots : t.slots = s.slots
  clock : t.clock = s.clock
  rooms : t.router.rooms = s.router.rooms

theorem RoutesAlike.refl (s : State) : RoutesAlike s s := ⟨rfl, rfl, rfl, rfl⟩

theorem RoutesAlike.trans {s t u : State} (h : RoutesAlike s t) (k : RoutesAlike t u) : RoutesAlike s u :=
  ⟨k.services.trans h.services, k.slots.trans h.slots, k.clock.trans h.clock, k.rooms.trans h.rooms⟩

theorem routesAlike_handPair (k : SubjectKind) (i : Nat) (b a : Option View) (s : State) :
    RoutesAlike s (handPair k i b a s) := by
  obtain ⟨l, u, h⟩ := handPair_shape k i b a s
  rw [h]
  exact ⟨rfl, rfl, rfl, rfl⟩

theorem RoutesAlike.recomputed {s t : State} (h : RoutesAlike s t) (x : Room) : recomputed t x = recomputed s x := by
  obtain ⟨hservices, hslots, hclock, -⟩ := h
  cases s
  cases t
  dsimp only at hservices hslots hclock
  subst hservices hslots hclock
  rfl

theorem RoutesAlike.recomputeRoom {s t : State} (h : RoutesAlike s t) (r : Fin 48) :
    RoutesAlike (recomputeRoom s r) (recomputeRoom t r) := by
  have hroom : t.room r = s.room r := congrArg (·[r]) h.rooms
  unfold Machine.recomputeRoom
  rw [hroom, h.recomputed]
  obtain ⟨l, u, hs⟩ := changeRoom_shape r (Machine.recomputed s (s.room r)) s
  obtain ⟨l', u', ht⟩ := changeRoom_shape r (Machine.recomputed s (s.room r)) t
  rw [hs, ht]
  exact ⟨h.services, h.slots, h.clock, congrArg (·.set r (Machine.recomputed s (s.room r))) h.rooms⟩

theorem RoutesAlike.recomputeRooms {s t : State} (h : RoutesAlike s t) :
    RoutesAlike (recomputeRooms s) (recomputeRooms t) := by
  unfold Machine.recomputeRooms
  generalize allRooms = l
  induction l generalizing s t with
  | nil => exact h
  | cons r l ih => exact ih (h.recomputeRoom r)

/-- R116: a report recomputes the room channels when the router is told, and touches none of them otherwise. -/
theorem reportService_routes {i : Nat} {b a : Service} {completed : Bool} {s : State} (ha : s.service i = some a) :
    ∃ m, RoutesAlike s m ∧
      reportService i b completed s = if routerTold b a = true then recomputeRooms m else m := by
  obtain ⟨u, m, hu, hu', hm, hm', hr, hr'⟩ := reportService_stages (b := b) (completed := completed) ha
  have hnotice : RoutesAlike s u := by
    by_cases h : (completed || selectionChanged b a) = true
    · rw [hu h]
      exact ⟨rfl, rfl, rfl, rfl⟩
    · rw [hu' h]
      exact .refl s
  have hwatch : RoutesAlike u m := by
    by_cases h : serviceWatched b a = true
    · rw [hm h]
      exact routesAlike_handPair ..
    · rw [hm' h]
      exact .refl u
  refine ⟨m, hnotice.trans hwatch, ?_⟩
  split
  · next h => exact hr h
  · next h => exact hr' h

/-! ## The places of the service table (R108, R110) -/

theorem services_length_lt {t : Table Service} {n : Nat} (hlaw : ServiceLaw t) (hn : n < 256) (hfree : tabGet t n = none) :
    t.length < 256 := by
  obtain ⟨hrising, hplaces⟩ := tabWf_iff.mp hlaw.1
  have hnodup : (n :: tabKeys t).Nodup :=
    List.nodup_cons.mpr ⟨tabGet_eq_none_iff.mp hfree, hrising.imp fun h => Nat.ne_of_lt h⟩
  have hle := hnodup.length_le_of_subset (l₂ := List.range 256) fun j hj => List.mem_range.mpr <|
    (List.mem_cons.mp hj).elim (fun e => e ▸ hn) (hplaces j)
  rwa [List.length_cons, List.length_range, tabKeys, List.length_map] at hle

theorem services_taken {t : Table Service} (hlaw : ServiceLaw t) (hfull : t.length = 256) {n : Nat} (hn : n < 256) :
    tabGet t n ≠ none := fun hfree => Nat.lt_irrefl 256 (hfull ▸ services_length_lt hlaw hn hfree)

/-! ## A new entry (R110) -/

/-- An entry without selection or target. -/
def Unserved (v : Service) : Prop := v.state = .unavailable ∧ v.selection = none ∧ v.target = none

/-- What a service without selection has become when all it can do is ask for a grant. -/
structure StaysUnserved (v w : Service) : Prop where
  key : w.key = v.key
  bound : w.bound = v.bound
  seen : w.seen = v.seen
  unserved : Unserved w

theorem StaysUnserved.trans {u v w : Service} (h : StaysUnserved u v) (k : StaysUnserved v w) : StaysUnserved u w :=
  ⟨k.key.trans h.key, k.bound.trans h.bound, k.seen.trans h.seen, k.unserved⟩

theorem staysUnserved_rebuilt {v : Service} (h : Unserved v) (s : State) :
    StaysUnserved v (settleConstrained (rebuilt s v)) := by
  rw [settleConstrained_eq]
  exact ⟨rfl, rfl, rfl, h⟩

theorem staysUnserved_unavailable (v : Service) : StaysUnserved v (unavailableService v) :=
  ⟨rfl, rfl, rfl, rfl, rfl, rfl⟩

section
variable {s : State} {i : Nat} {v : Service} (hv : s.service i = some v) (h : Unserved v)
include hv h

theorem failover_unserved : ∃ w, (failover i false s).service i = some w ∧ StaysUnserved v w := by
  obtain ⟨-, hsel, -⟩ := id h
  cases hranked : s.eligibleRanked v.key with
  | nil =>
    rw [failover_none hv hranked, failoverStep3_gives_up hv (.inr (.inl hsel))]
    exact ⟨_, (service_putService ..).trans (if_pos rfl), staysUnserved_unavailable v⟩
  | cons b rest =>
    rw [failover_asks hv hranked]
    exact ⟨v, (congrArg (tabGet · i) (postRequest_services ..)).trans hv, rfl, rfl, rfl, h⟩

/-- R119: what an entry without selection does after a rebuild. -/
theorem act_unserved : ∃ w, (act i s).1.service i = some w ∧ StaysUnserved v w := by
  obtain ⟨hstate, hsel, -⟩ := id h
  have hrests : ∃ w, s.service i = some w ∧ StaysUnserved v w := ⟨v, hv, rfl, rfl, rfl, h⟩
  by_cases hbound : v.bound = true
  · by_cases hasked : inFlight s i = true
    · have hwaiting : act i s = (modService i (fun v => { v with deferred := { v.deferred with rebuilt := true } }) s,
          false) := by
        simp [act, hv, hbound, hasked, actWaiting, hstate, hsel]
      rw [hwaiting, modService_eq hv]
      exact ⟨_, (service_putService ..).trans (if_pos rfl), rfl, rfl, rfl, h⟩
    · rw [Bool.not_eq_true] at hasked
      cases htop : topOf v.cands with
      | none =>
        rw [act_without_top hv hbound hasked (.inl hstate) htop]
        exact hrests
      | some t =>
        rw [act_with_top hv hbound hasked (.inl hstate) htop]
        exact failover_unserved hv h
  · have hunbound : act i s = (s, false) := by simp [act, hv, hbound, hsel]
    rw [hunbound]
    exact hrests

/-- R110, R113: the rebuild of an entry that holds a mark but no selection touches that entry alone, and no room channel. -/
theorem rebuildEvent_unserved (hmarks : (v.bound || v.seen) = true) :
    (∃ w, (rebuildEvent i s).service i = some w ∧ StaysUnserved v w) ∧
      (∀ j, j ≠ i → (rebuildEvent i s).service j = s.service j) ∧
        (rebuildEvent i s).router.rooms = s.router.rooms := by
  have hrebuilt := staysUnserved_rebuilt h s
  obtain ⟨w, hw, hstays⟩ := act_unserved (service_rebuildList hv) hrebuilt.unserved
  have hstays := hrebuilt.trans hstays
  have hserves : Serves i s (act i (rebuildList i s)).1 := (serves_rebuildList i s).trans (serves_act ..)
  have hquiet : ¬ routerTold v w = true := by
    obtain ⟨hstate, hsel, htarget⟩ := h
    obtain ⟨hstate', hsel', htarget'⟩ := hstays.unserved
    simp [routerTold, hstate, hsel, htarget, hstate', hsel', htarget']
  rw [rebuildEvent, serviceEvent_eq hv]
  generalize hu : (act i (rebuildList i s)).1 = u at hw hserves
  generalize (act i (rebuildList i s)).2 = completed
  have hreported := service_reportService (b := v) (c := completed) hw
  rw [pruneService_marked hreported (by rw [hstays.bound, hstays.seen, hmarks])]
  refine ⟨⟨w, hreported, hstays⟩, fun j hj => ?_, ?_⟩
  · exact (congrArg (tabGet · j) (reportService_services ..)).trans (hserves.others j hj)
  · obtain ⟨m, hm, hreport⟩ := reportService_routes (b := v) (completed := completed) hw
    rw [hreport, if_neg hquiet, hm.rooms, hserves.sameRooms]

end

/-- What the arrival of entry `v` at the free place `n` leaves. -/
structure ServiceAdded (n : Nat) (v : Service) (s t : State) : Prop where
  entry : ∃ w, t.service n = some w ∧ StaysUnserved v w
  others : ∀ j, j ≠ n → t.service j = s.service j
  rooms : t.router.rooms = s.router.rooms

/-- R110: a new entry takes the lowest free place. -/
theorem addService_adds {n : Nat} {v : Service} {s : State} (hlaw : ServiceLaw s.services) (hn : n < 256)
    (hfree : s.service n = none) (hlow : ∀ j, j < n → s.service j ≠ none) (hv : Unserved v)
    (hmarks : (v.bound || v.seen) = true) : ServiceAdded n v s (addService v s) := by
  have hplace : tabFree s.services = n := tabFree_eq (tabWf_iff.mp hlaw.1).1 hfree hlow
  have hadd : addService v s = rebuildEvent n (handPair .service n none (some (serviceView v)) (putService n v s)) := by
    simp only [addService, hplace]
    exact if_pos hn
  have halike := routesAlike_handPair .service n none (some (serviceView v)) (putService n v s)
  have hservice (j : Nat) : (handPair .service n none (some (serviceView v)) (putService n v s)).service j =
      if j = n then some v else s.service j :=
    (congrArg (tabGet · j) halike.services).trans (service_putService ..)
  obtain ⟨hentry, hothers, hrooms⟩ := rebuildEvent_unserved ((hservice n).trans (if_pos rfl)) hv hmarks
  rw [hadd]
  exact ⟨hentry, fun j hj => (hothers j hj).trans ((hservice j).trans (if_neg hj)), hrooms.trans halike.rooms⟩

theorem newService_unserved (k : ServiceKey) (bound seen : Bool) : Unserved (newService k bound seen) :=
  ⟨rfl, rfl, rfl⟩

/-! ## The entry a BOUND key evicts (R110) -/

/-- Entry `i` is the lowest that meets a test. -/
def LowestService (s : State) (p : Service → Prop) (i : Nat) : Prop :=
  (∃ v, s.service i = some v ∧ p v) ∧ ∀ j v, j < i → s.service j = some v → ¬ p v

/-- The lowest entry that meets a test is the one a search of the table finds. -/
theorem LowestService.found {s : State} (hlaw : ServiceLaw s.services) {p : Service → Prop} {i : Nat}
    (h : LowestService s p i) {f : Nat × Service → Bool} (hf : ∀ e, f e = true ↔ p e.2) :
    ∃ v, s.services.find? f = some (i, v) := by
  obtain ⟨⟨v, hv, hp⟩, hlow⟩ := h
  have hrising : s.services.Pairwise fun a b => a.1 < b.1 := List.pairwise_map.mp (tabWf_iff.mp hlaw.1).1
  refine ⟨v, List.head?_filter.symm.trans (head?_eq_of_first (hrising.filter _) ?_ fun e he hlt => ?_)⟩
  · exact List.mem_filter.mpr ⟨mem_of_tabGet hv, (hf _).mpr hp⟩
  · obtain ⟨hmem, hpe⟩ := List.mem_filter.mp he
    exact hlow e.1 e.2 hlt (tabGet_of_mem (tabWf_iff.mp hlaw.1).1 hmem) ((hf e).mp hpe)

theorem findService_none {s : State} (hlaw : ServiceLaw s.services) {p : Service → Prop}
    (h : ∀ j v, s.service j = some v → ¬ p v) {f : Nat × Service → Bool} (hf : ∀ e, f e = true ↔ p e.2) :
    s.services.find? f = none :=
  List.find?_eq_none.mpr fun e he hfe => h e.1 e.2 (tabGet_of_mem (tabWf_iff.mp hlaw.1).1 he) ((hf e).mp hfe)

/-- R110: the entry to evict: one without BOUND, of these one without selection, of these one without candidates; of
several the lowest. -/
def Evictee (s : State) (i : Nat) : Prop :=
  LowestService s (fun v => v.bound = false ∧ v.selection = none ∧ v.cands = []) i ∨
    ((∀ j v, s.service j = some v → ¬ (v.bound = false ∧ v.selection = none ∧ v.cands = [])) ∧
      LowestService s (fun v => v.bound = false ∧ v.selection = none) i) ∨
      ((∀ j v, s.service j = some v → ¬ (v.bound = false ∧ v.selection = none)) ∧
        LowestService s (fun v => v.bound = false) i)

theorem Evictee.evictable {s : State} {i : Nat} (hlaw : ServiceLaw s.services) (h : Evictee s i) :
    evictable s.services = some i := by
  have hcandidateless (e : Nat × Service) : (!e.2.bound && decide (e.2.selection = none) && e.2.cands.isEmpty) = true ↔
      e.2.bound = false ∧ e.2.selection = none ∧ e.2.cands = [] := by simp [and_assoc]
  have hunselected (e : Nat × Service) : (!e.2.bound && decide (e.2.selection = none)) = true ↔
      e.2.bound = false ∧ e.2.selection = none := by simp
  have hunbound (e : Nat × Service) : (!e.2.bound) = true ↔ e.2.bound = false := by simp
  obtain h | ⟨hnone, h⟩ | ⟨hnone, h⟩ := h
  · obtain ⟨v, hfound⟩ := h.found hlaw hcandidateless
    simp only [Machine.evictable, hfound]
  · obtain ⟨v, hfound⟩ := h.found hlaw hunselected
    simp only [Machine.evictable, findService_none hlaw hnone hcandidateless, hfound]
  · obtain ⟨v, hfound⟩ := h.found hlaw hunbound
    have hnone' := findService_none hlaw (p := fun v => v.bound = false ∧ v.selection = none ∧ v.cands = [])
      (fun j w hw h => hnone j w hw ⟨h.1, h.2.1⟩) hcandidateless
    simp only [Machine.evictable, hnone', findService_none hlaw hnone hunselected, hfound]

theorem Evictee.entry {s : State} {i : Nat} (h : Evictee s i) : ∃ v, s.service i = some v := by
  obtain ⟨⟨v, hv, -⟩, -⟩ | ⟨-, ⟨v, hv, -⟩, -⟩ | ⟨-, ⟨v, hv, -⟩, -⟩ := h
  all_goals exact ⟨v, hv⟩

theorem deleteService_rooms (i : Nat) (s : State) : (deleteService i s).router.rooms = s.router.rooms := by
  unfold deleteService
  split
  · rfl
  · rw [handPair_router]
    rfl

/-- R110: an evicted entry leaves its place alone; a selection it held is cleared and reported first. -/
theorem evictService_evicts {s : State} {i : Nat} {v : Service} (hlaw : ServiceLaw s.services)
    (hv : s.service i = some v) :
    (∀ j, (evictService i s).service j = if j = i then none else s.service j) ∧
      (v.selection ≠ none → (evictService i s).router.rooms =
        (recomputeRooms (putService i (unavailableService v) s)).router.rooms) := by
  have hcleared : clearSelection i s = putService i (unavailableService v) s := modService_eq hv
  have hput : (putService i (unavailableService v) s).service i = some (unavailableService v) :=
    (service_putService ..).trans (if_pos rfl)
  have hlaw' : ServiceLaw (reportService i v false (putService i (unavailableService v) s)).services := by
    rw [reportService_services]
    exact serviceLaw_put hv rfl hlaw
  simp only [evictService, hv, hcleared]
  refine ⟨fun j => ?_, fun hsel => ?_⟩
  · rw [service_deleteService hlaw']
    split
    · rfl
    · next hj =>
      exact (congrArg (tabGet · j) (reportService_services ..)).trans ((service_putService ..).trans (if_neg hj))
  · obtain ⟨m, halike, hreport⟩ := reportService_routes (b := v) (completed := false) hput
    have htold : routerTold v (unavailableService v) = true := routerTold_iff.mpr (.inr (.inl hsel))
    rw [deleteService_rooms, hreport, if_pos htold]
    exact halike.recomputeRooms.rooms

/-! ## A key that gains BOUND (R109, R110) -/

section
variable {s : State} {k : ServiceKey} (hlaw : ServiceLaw s.services) (hnew : ∀ i v, s.service i = some v → v.key ≠ k)
include hlaw hnew

theorem gainBound_new : gainBound s k = addService (newService k true (s.seenKey k)) (makeServiceRoom s) := by
  simp only [gainBound, serviceIndex_absent hlaw hnew]

theorem gainBound_free {n : Nat} (hn : n < 256) (hfree : s.service n = none) (hlow : ∀ j, j < n → s.service j ≠ none) :
    ServiceAdded n (newService k true (s.seenKey k)) s (gainBound s k) := by
  have hroom : makeServiceRoom s = s := if_pos (services_length_lt hlaw hn hfree)
  rw [gainBound_new hlaw hnew, hroom]
  exact addService_adds hlaw hn hfree hlow (newService_unserved ..) rfl

theorem gainBound_full {i : Nat} {v : Service} (hfull : s.services.length = 256)
    (hevict : evictable s.services = some i) (hv : s.service i = some v) :
    ServiceAdded i (newService k true (s.seenKey k)) (evictService i s) (gainBound s k) := by
  have hroom : makeServiceRoom s = evictService i s := by
    rw [makeServiceRoom, if_neg (by rw [hfull]; decide), hevict]
  obtain ⟨hplaces, -⟩ := evictService_evicts hlaw hv
  have hi : i < 256 := lt_of_tabGet hlaw.1 hv
  rw [gainBound_new hlaw hnew, hroom]
  refine addService_adds ((ranks_evictService i s).services hlaw) hi ((hplaces i).trans (if_pos rfl)) (fun j hj => ?_)
    (newService_unserved ..) rfl
  rw [hplaces, if_neg (Nat.ne_of_lt hj)]
  exact services_taken hlaw hfull (hj.trans hi)

end

/-! ## A key that loses BOUND (R111, R116) -/

theorem modService_router (i : Nat) (f : Service → Service) (s : State) : (modService i f s).router = s.router := by
  unfold modService
  split <;> rfl

/-- R116: the removal of an entry without a waiting request withdraws none. -/
theorem pruneService_requests {i : Nat} {s : State} (h : ¬ ∃ q ∈ s.router.requests, q.service = i) :
    (pruneService i s).router.requests = s.router.requests := by
  unfold pruneService
  split
  · rfl
  · next v hv =>
    split
    · rfl
    · split
      · exact deleteService_requests h
      · split
        · rfl
        · have hcleared : (reportService i v false (clearSelection i s)).router.requests = s.router.requests := by
            rw [reportService_requests, clearSelection, modService_router]
          rw [deleteService_requests (by rwa [hcleared]), hcleared]

/-- R111: what the loss of BOUND makes of an entry. -/
def unboundEntry (s : State) (v : Service) : Service :=
  { unboundService s v with deferred := { rebuilt := false, carryLost := none } }

theorem loseBound_eq {s : State} {i : Nat} {v : Service} (hv : s.service i = some v) :
    loseBound s i =
      pruneService i (reportService i v false (putService i (unboundEntry s v) (withdrawRequest i s))) := by
  rw [loseBound, serviceEvent_eq hv]
  dsimp only
  rw [modService_modService, modService_eq (s := withdrawRequest i s) hv]
  rfl

theorem loseBound_requests {s : State} {i : Nat} {v : Service} (hv : s.service i = some v) :
    (loseBound s i).router.requests = s.router.requests.filter fun q => decide (q.service ≠ i) := by
  have hreported := reportService_requests i v false (putService i (unboundEntry s v) (withdrawRequest i s))
  rw [loseBound_eq hv, pruneService_requests]
  · exact hreported
  · rw [hreported]
    rintro ⟨q, hq, hqi⟩
    exact of_decide_eq_true (List.mem_filter.mp hq).2 hqi

theorem selectionCarried_iff {s : State} {v : Service} :
    selectionCarried s v = true ↔ ∃ x, v.selection = some x ∧ s.carriedAt x = true := by
  unfold selectionCarried
  cases v.selection <;> simp

/-- R111: a selection whose carrier is carried is kept, by a PENDING service as SERVED (log entry 41). -/
theorem unboundService_keeps {s : State} {v : Service} (h : selectionCarried s v = true) :
    unboundService s v =
      if v.state = .pending then
        { v with
          bound := false, state := .served, target := none, pendingKind := none, constrained := v.constrainedBefore }
      else { v with bound := false } := by
  obtain ⟨x, hx, -⟩ := selectionCarried_iff.mp h
  simp [unboundService, h, hx]

theorem unboundService_clears {s : State} {v : Service} (h : ¬ selectionCarried s v = true) :
    unboundService s v = unavailableService { v with bound := false } := by
  simp [unboundService, h]

theorem reportService_ranks {i : Nat} {b a : Service} {c : Bool} {s : State} (ha : s.service i = some a) :
    Ranks s (reportService i b c s) := by
  obtain ⟨m, hm, -, hreport⟩ := reportService_shape (b := b) c ha
  rw [hreport]
  split
  · exact hm.trans (ranks_recomputeRooms m)
  · exact hm

theorem carriedAt_congr {s t : State} (h : t.carriers = s.carriers) (x : Nat) : t.carriedAt x = s.carriedAt x := by
  simp only [State.carriedAt, State.carrier, h]

/-- R111: an entry that loses BOUND stays while it is SEEN or the carrier of its selection is carried. -/
theorem service_loseBound {s : State} {i : Nat} {v : Service} (hlaw : ServiceLaw s.services) (hv : s.service i = some v) :
    (selectionCarried s v = true ∨ v.seen = true → (loseBound s i).service i = some (unboundEntry s v)) ∧
      (¬ selectionCarried s v = true → v.seen = false → (loseBound s i).service i = none) := by
  have hput : (putService i (unboundEntry s v) (withdrawRequest i s)).service i = some (unboundEntry s v) :=
    (service_putService ..).trans (if_pos rfl)
  have hreported := service_reportService (b := v) (c := false) hput
  have hcarried (x : Nat) := carriedAt_congr (reportService_ranks (b := v) (c := false) hput).sameCarriers x
  have hlaw' : ServiceLaw (reportService i v false (putService i (unboundEntry s v) (withdrawRequest i s))).services := by
    rw [reportService_services]
    exact serviceLaw_put hv (unboundService_key s v) hlaw
  rw [loseBound_eq hv]
  by_cases h : selectionCarried s v = true
  · obtain ⟨x, hx, hxcarried⟩ := selectionCarried_iff.mp h
    have hsel : (unboundEntry s v).selection = some x := by
      rw [unboundEntry, unboundService_keeps h]
      split <;> exact hx
    rw [pruneService_carried hreported hsel ((hcarried x).trans hxcarried)]
    exact ⟨fun _ => hreported, fun hn => absurd h hn⟩
  · have hcleared : unboundEntry s v =
        { unavailableService { v with bound := false } with deferred := { rebuilt := false, carryLost := none } } := by
      rw [unboundEntry, unboundService_clears h]
    refine ⟨fun hstays => ?_, fun _ hseen => ?_⟩
    · have hseen := hstays.resolve_left h
      rw [pruneService_marked hreported (by rw [hcleared]; exact hseen)]
      exact hreported
    · refine service_pruneService_gone hlaw' hreported (by rw [hcleared]; simp [unavailableService, hseen]) fun x hx => ?_
      rw [hcleared] at hx
      exact nomatch hx

/-- Settles O54: a mark evaluated afresh by `evaluateSeen_marks`, a new key by `addService_adds`, a BOUND key by
`gainBound_free` and `gainBound_full`, the loss of BOUND by `service_loseBound`; demands and counts by `demandAndCounts`. -/
theorem demandAndSlotCounts : Obligations.DemandAndSlotCounts := by
  unfold Obligations.DemandAndSlotCounts
  refine ⟨fun s k hlaw => ?marks, fun s => ?counts⟩
  case marks =>
    intro seen carried unavailable u
    have hseen : s.seenKey k = true ↔ seen := seenKey_iff
    have hcarried (x : Nat) : s.carriedAt x = true ↔ carried x := carriedAt_iff
    refine ⟨?listed, fun hnew => ?unlisted, fun hnew => ?gains, fun i v hv hbound => ?loses⟩
    case listed =>
      rintro i v hv rfl
      obtain ⟨hstays, hleaves⟩ := evaluateSeen_marks hlaw hv
      simp only [← hseen, ← hcarried]
      exact ⟨fun h => ⟨_, hstays h, Iff.rfl⟩, hleaves⟩
    case unlisted =>
      have hu : u = _ := evaluateSeen_unlisted (serviceIndex_absent hlaw hnew)
      simp only [← hseen]
      refine ⟨fun hno => hu.trans (if_neg hno), fun hyes hfull => ?_, fun n hyes hfree hlow hn => ?_⟩
      · rw [hu, if_pos hyes, if_neg (by rw [hfull]; decide)]
        rfl
      · have hroom : s.services.length < servicePlaces := services_length_lt hlaw hn hfree
        rw [hu, if_pos hyes, if_pos hroom]
        obtain ⟨w, hw, hstays⟩ :=
          (addService_adds hlaw hn hfree hlow (newService_unserved k false true) rfl).entry
        obtain ⟨hstate, hsel, -⟩ := hstays.unserved
        exact ⟨w, hw, hstays.key, hstays.bound, hstays.seen, hstate, hsel⟩
    case gains =>
      intro t added unbound unselected candidateless lowest noneOf
      have hadded {n : Nat} {r : State} (h : ServiceAdded n (newService k true (s.seenKey k)) r t)
          (hr : ∀ j, j ≠ n → r.service j = s.service j) : added n := by
        obtain ⟨w, hw, hstays⟩ := h.entry
        obtain ⟨hstate, hsel, -⟩ := hstays.unserved
        exact ⟨⟨w, hw, hstays.key, hstays.bound, (Bool.eq_iff_iff.mp hstays.seen).trans hseen, hstate, hsel⟩,
          fun j hj => (h.others j hj).trans (hr j hj)⟩
      refine ⟨fun n hn hfree hlow => hadded (gainBound_free hlaw hnew hn hfree hlow) fun _ _ => rfl,
        fun hfull i hevict => ?_⟩
      have hevictee : Evictee s i := hevict
      obtain ⟨v, hv⟩ := hevictee.entry
      obtain ⟨hplaces, hrooms⟩ := evictService_evicts hlaw hv
      have h := gainBound_full hlaw hnew hfull (hevictee.evictable hlaw) hv
      refine ⟨hadded h fun j hj => (hplaces j).trans (if_neg hj), fun w hw hsel => ?_⟩
      obtain rfl := Option.some.inj (hv.symm.trans hw)
      have hput : putService i (unavailableService v) s = s.setServices (tabPut s.services i (unavailable v)) := rfl
      rw [h.rooms, hrooms hsel, hput]
    case loses =>
      intro t kept idle
      have hkept : selectionCarried s v = true ↔ kept := by simp only [selectionCarried_iff, hcarried, kept]
      obtain ⟨hstays, hleaves⟩ := service_loseBound hlaw hv
      refine ⟨loseBound_requests hv, fun h => ?_, fun h => ⟨hleaves (mt hkept.mp h), fun hmark => ?_⟩⟩
      · rw [hstays (.inl (hkept.mpr h)), unboundEntry, unboundService_keeps (hkept.mpr h)]
        split <;> rfl
      · rw [hstays (.inr hmark), unboundEntry, unboundService_clears (mt hkept.mp h)]
        rfl
  case counts =>
    intro share' feeding service on would sum
    obtain ⟨hdemand, hcount⟩ := demandAndCounts s
    have hservice (k : ServiceKey) : s.serviceOfKey k = service k := serviceOfKey_eq s k
    have hfeeding (r : Room) : r.feedingKey = feeding r := by
      unfold Room.feedingKey
      rfl
    have hon (x : Nat) (r : Room) : feedsOn s x r = true ↔ on x r := by
      rw [feedsOn_iff]
      simp only [hservice, hfeeding]
      rfl
    have hwould (k : ServiceKey) (r : Room) : wouldFeed s k r = true ↔ would k r := by
      rw [wouldFeed_iff]
      simp only [hservice, hfeeding]
      rfl
    have hshare (rooms : List (Fin 48)) : (rooms.map fun r => share (s.room r).priority).sum = sum rooms := by
      simp only [share_eq]
      rfl
    simp only [hshare] at hdemand
    refine ⟨fun x => ?_, fun k x => ?_, ?_, ?_⟩
    · obtain ⟨rooms, hnodup, hmem, hsum⟩ := hdemand (feedsOn s x)
      exact ⟨rooms, hnodup, fun r => (hmem r).trans (hon x _), hsum⟩
    · obtain ⟨rooms, hnodup, hmem, hsum⟩ := hdemand fun r => feedsOn s x r || wouldFeed s k r
      refine ⟨rooms, hnodup, fun r => (hmem r).trans ?_, hsum⟩
      rw [Bool.or_eq_true, hon, hwould]
    · obtain ⟨slots, hnodup, hlength, hmem⟩ := hcount fun i => slotOnline (s.slot i)
      exact ⟨slots, hnodup, hlength, fun i => (hmem i).trans slotOnline_iff⟩
    · obtain ⟨slots, hnodup, hlength, hmem⟩ := hcount fun i =>
        decide ((s.slot i).role = .carry) || (s.slot i).heldForRouter
          || (decide ((s.slot i).role = .survey) && (s.slot i).adoptionPending)
      refine ⟨slots, hnodup, hlength, fun i => (hmem i).trans ?_⟩
      simp only [Bool.or_eq_true, Bool.and_eq_true, decide_eq_true_eq, or_assoc]

/-! ## BOUND entries through the doings of the services (R109, R111) -/

/-- Service `i` stands, with BOUND as it was. -/
structure MarkStands (i : Nat) (s t : State) : Prop where
  bound : ∀ v, s.service i = some v → ∃ w, t.service i = some w ∧ w.bound = v.bound

theorem MarkStands.of_services {i : Nat} {s t : State} (h : t.services = s.services) : MarkStands i s t :=
  ⟨fun v hv => ⟨v, (congrArg (tabGet · i) h).trans hv, rfl⟩⟩

theorem MarkStands.refl (i : Nat) (s : State) : MarkStands i s s := .of_services rfl

theorem MarkStands.trans {i : Nat} {s t u : State} (h : MarkStands i s t) (k : MarkStands i t u) : MarkStands i s u := by
  refine ⟨fun v hv => ?_⟩
  obtain ⟨w, hw, hbound⟩ := h.bound v hv
  obtain ⟨x, hx, hbound'⟩ := k.bound w hw
  exact ⟨x, hx, hbound'.trans hbound⟩

theorem markStands_modService {i : Nat} {f : Service → Service} {s : State} (h : ∀ v, (f v).bound = v.bound) :
    MarkStands i s (modService i f s) :=
  ⟨fun v hv => ⟨f v, by rw [service_modService, if_pos rfl, hv]; rfl, h v⟩⟩

theorem markStands_postRequest (i : Nat) (q : GrantReq) (s : State) : MarkStands i s (postRequest q s) :=
  .of_services (postRequest_services q s)

theorem markStands_clearSelection (i : Nat) (s : State) : MarkStands i s (clearSelection i s) :=
  markStands_modService fun _ => rfl

theorem markStands_rebuildList (i : Nat) (s : State) : MarkStands i s (rebuildList i s) :=
  markStands_modService fun v => by rw [settleConstrained_eq]; rfl

theorem markStands_failoverStep3 (i : Nat) (first : Bool) (s : State) : MarkStands i s (failoverStep3 i first s) := by
  refine markStands_modService fun v => ?_
  dsimp only
  split
  · rfl
  · split <;> rfl

theorem markStands_failoverCarried (i : Nat) (except : Option Nat) (p : Purpose) (first : Bool) (s : State) :
    MarkStands i s (failoverCarried i except p first s) := by
  unfold failoverCarried
  split
  · exact .refl i s
  · split
    · exact markStands_failoverStep3 ..
    · exact markStands_postRequest ..

theorem markStands_failover (i : Nat) (first : Bool) (s : State) : MarkStands i s (failover i first s) := by
  unfold failover
  split
  · exact .refl i s
  · split
    · exact markStands_failoverCarried ..
    · exact markStands_postRequest ..

theorem markStands_actServed (i : Nat) (s : State) : MarkStands i s (actServed i s) := by
  unfold actServed
  split
  · exact .refl i s
  · split
    · exact .of_services (voluntarySwitch_services ..)
    · split
      · exact markStands_modService fun _ => rfl
      · exact markStands_failover ..

theorem switchedService_bound (now settle x : Nat) (prev : Option Nat) (v : Service) :
    (switchedService now settle x prev v).bound = v.bound := by
  unfold switchedService
  dsimp only
  split <;> rfl

theorem markStands_switchedAndRebuilt (i now settle x : Nat) (prev : Option Nat) (s : State) :
    MarkStands i s (rebuildList i (modService i (switchedService now settle x prev) s)) :=
  (markStands_modService fun v => switchedService_bound now settle x prev v).trans (markStands_rebuildList ..)

theorem markStands_completeSwitch (i x : Nat) (prev : Option Nat) (s : State) :
    MarkStands i s (completeSwitch i x prev s) :=
  (markStands_switchedAndRebuilt ..).trans (markStands_actServed ..)

theorem markStands_actWaiting (i : Nat) (v : Service) (s : State) : MarkStands i s (actWaiting i v s).1 := by
  have hdeferred : MarkStands i s (modService i (fun v => { v with deferred := { v.deferred with rebuilt := true } }) s) :=
    markStands_modService fun _ => rfl
  unfold actWaiting
  dsimp only
  split
  · exact hdeferred.trans (markStands_modService fun _ => rfl)
  · split
    · exact hdeferred
    · split
      · exact hdeferred.trans (markStands_switchedAndRebuilt ..)
      · exact hdeferred

theorem markStands_act (i : Nat) (s : State) : MarkStands i s (act i s).1 := by
  unfold act
  split
  · exact .refl i s
  · split
    case isTrue =>
      dsimp only
      split
      · exact markStands_clearSelection ..
      · exact .refl i s
    case isFalse =>
      split
      · exact markStands_actWaiting ..
      · split
        case h_1 =>
          dsimp only
          split
          · exact .refl i s
          · exact markStands_failover ..
        case h_2 => exact markStands_actServed ..
        case h_3 => exact .refl i s
        case h_4 =>
          split
          · dsimp only
            split
            · exact .refl i s
            · exact markStands_failover ..
          · split
            · exact .refl i s
            · split
              · split
                · exact .refl i s
                · exact markStands_completeSwitch ..
              · exact markStands_failover ..

/-! ## BOUND entries through the reports to the ranking unit (R85, R88, R116) -/

/-- The sixth law is kept, and every entry with BOUND stays in the table with BOUND. -/
structure BoundStand (s t : State) : Prop where
  law : ServiceLaw s.services → ServiceLaw t.services
  stands : ServiceLaw s.services →
    ∀ i v, s.service i = some v → v.bound = true → ∃ w, t.service i = some w ∧ w.bound = true

theorem BoundStand.of_services {s t : State} (h : t.services = s.services) : BoundStand s t :=
  ⟨fun hs => h ▸ hs, fun _ i v hv hbound => ⟨v, (congrArg (tabGet · i) h).trans hv, hbound⟩⟩

theorem BoundStand.refl (s : State) : BoundStand s s := .of_services rfl

theorem BoundStand.trans {s t u : State} (h : BoundStand s t) (k : BoundStand t u) : BoundStand s u := by
  refine ⟨fun hs => k.law (h.law hs), fun hs i v hv hbound => ?_⟩
  obtain ⟨w, hw, hbound'⟩ := h.stands hs i v hv hbound
  exact k.stands (h.law hs) i w hw hbound'

theorem boundStand_foldl {β : Type} {f : State → β → State} (h : ∀ s b, BoundStand s (f s b)) (l : List β) (s : State) :
    BoundStand s (l.foldl f s) := by
  induction l generalizing s with
  | nil => exact .refl s
  | cons b l ih => exact (h s b).trans (ih (f s b))

theorem Serves.boundStand {i : Nat} {s t : State} (h : Serves i s t) (hi : MarkStands i s t) : BoundStand s t := by
  refine ⟨h.services, fun _ j v hv hbound => ?_⟩
  by_cases hj : j = i
  · subst hj
    obtain ⟨w, hw, hmark⟩ := hi.bound v hv
    exact ⟨w, hw, hmark.trans hbound⟩
  · exact ⟨v, (h.others j hj).trans hv, hbound⟩

theorem service_pruneService_others {i j : Nat} {s : State} (hlaw : ServiceLaw s.services) (hj : j ≠ i) :
    (pruneService i s).service j = s.service j := by
  unfold pruneService
  split
  · rfl
  · next v hv =>
    split
    · rfl
    · split
      · rw [service_deleteService hlaw, if_neg hj]
      · split
        · rfl
        · have hcleared := (ranks_reported false (serves_clearSelection i s) hv).services hlaw
          rw [service_deleteService hcleared, if_neg hj]
          exact (congrArg (tabGet · j) (reportService_services ..)).trans ((serves_clearSelection i s).others j hj)

/-- R111: what is removed holds no mark. -/
theorem boundStand_pruneService (i : Nat) (s : State) : BoundStand s (pruneService i s) := by
  refine ⟨(ranks_pruneService i s).services, fun hs j v hv hbound => ?_⟩
  by_cases hj : j = i
  · subst hj
    rw [pruneService_marked hv (by rw [hbound]; rfl)]
    exact ⟨v, hv, hbound⟩
  · exact ⟨v, (service_pruneService_others hs hj).trans hv, hbound⟩

theorem boundStand_serviceEvent {i : Nat} {f : State → State × Bool} {s : State} (h : BoundStand s (f s).1) :
    BoundStand s (serviceEvent i f s) := by
  cases hb : s.service i with
  | none =>
    have hsame : serviceEvent i f s = s := by simp only [serviceEvent, hb]
    rw [hsame]
    exact .refl s
  | some b =>
    rw [serviceEvent_eq hb]
    exact (h.trans (.of_services (reportService_services ..))).trans (boundStand_pruneService ..)

theorem boundStand_actRebuilt (i : Nat) (s : State) : BoundStand s (act i (rebuildList i s)).1 :=
  ((serves_rebuildList i s).boundStand (markStands_rebuildList i s)).trans ((serves_act ..).boundStand (markStands_act ..))

theorem boundStand_rebuildEvent (i : Nat) (s : State) : BoundStand s (rebuildEvent i s) :=
  boundStand_serviceEvent (boundStand_actRebuilt i s)

theorem boundStand_modService {i : Nat} {f : Service → Service} {s : State}
    (h : ∀ v, (f v).key = v.key ∧ (f v).bound = v.bound) : BoundStand s (modService i f s) := by
  refine ⟨fun hs => ?_, fun _ j v hv hbound => ?_⟩
  · cases hv : s.service i with
    | none => simpa only [modService, hv] using hs
    | some v =>
      rw [modService_eq hv]
      exact serviceLaw_put hv (h v).1 hs
  · rw [service_modService]
    split
    · next hj => exact ⟨f v, by rw [← hj, hv]; rfl, (h v).2.trans hbound⟩
    · exact ⟨v, hv, hbound⟩

/-- R110: a new entry takes a place that is free. -/
theorem boundStand_addService {v : Service} {s : State} (hv : ServiceOk v) (hc : CandidatesOk v)
    (hk : ∀ e ∈ s.services, v.key ≠ e.2.key) : BoundStand s (addService v s) := by
  unfold addService
  dsimp only
  split
  · next hplace =>
    have hput : BoundStand s (putService (tabFree s.services) v s) := by
      refine ⟨(ranks_newService hplace hv hc hk).services, fun hs j w hw hbound => ⟨w, ?_, hbound⟩⟩
      have hne : j ≠ tabFree s.services := fun hj =>
        (tabFree_spec (tabWf_iff.mp hs.1).1).2.1 (hj ▸ List.mem_map_of_mem (f := Prod.fst) (mem_of_tabGet hw))
      rw [service_putService, if_neg hne, hw]
    exact (hput.trans (.of_services (handPair_services ..))).trans (boundStand_rebuildEvent ..)
  · exact .refl s

theorem boundStand_evaluateSeen (s : State) (k : ServiceKey) : BoundStand s (evaluateSeen s k) := by
  cases hk : serviceIndex s.services k with
  | some i =>
    rw [evaluateSeen_listed hk]
    exact (boundStand_modService (f := fun v => { v with seen := s.seenKey k }) fun _ => ⟨rfl, rfl⟩).trans
      (boundStand_pruneService ..)
  | none =>
    rw [evaluateSeen_unlisted hk]
    split
    · split
      · exact boundStand_addService (newService_ok ..) (newService_cands ..) (key_ne_of_serviceIndex hk)
      · exact .of_services rfl
    · exact .refl s

theorem boundStand_rankCarrier (after before : List ServiceKey) (s : State) :
    BoundStand s (rankCarrier after before s) :=
  (boundStand_foldl boundStand_evaluateSeen ..).trans (boundStand_foldl (fun s i => boundStand_rebuildEvent i s) ..)

theorem boundStand_clearSelection (i : Nat) (s : State) : BoundStand s (clearSelection i s) :=
  (serves_clearSelection i s).boundStand (markStands_clearSelection i s)

theorem boundStand_dropRemoved (x : Nat) (s : State) (i : Nat) : BoundStand s (dropRemoved x s i) := by
  refine boundStand_serviceEvent ?_
  split
  · exact .refl s
  · split
    · exact (boundStand_clearSelection i s).trans (boundStand_actRebuilt ..)
    · exact .refl s

theorem boundStand_rankRemoval (x : Nat) (keys : List ServiceKey) (s : State) :
    BoundStand s (rankRemoval x keys s) := by
  have hdrop (v : Service) : (dropCandidate x v).key = v.key ∧ (dropCandidate x v).bound = v.bound := by
    unfold dropCandidate
    split <;> exact ⟨rfl, rfl⟩
  exact (((boundStand_foldl (boundStand_dropRemoved x) ..).trans (boundStand_foldl boundStand_evaluateSeen ..)).trans
    (boundStand_foldl (fun s i => boundStand_rebuildEvent i s) ..)).trans
      (boundStand_foldl (fun _ _ => boundStand_modService hdrop) ..)

/-- R119, R120: carry lost lets every BOUND service look elsewhere. -/
theorem boundStand_carryLost (restricted : Bool) (x : Nat) (s : State) : BoundStand s (carryLost restricted x s) := by
  refine boundStand_foldl (fun s i => boundStand_serviceEvent ?_) ..
  split
  · exact .refl s
  · split
    · exact .refl s
    · split
      · exact boundStand_clearSelection i s
      · split
        · exact boundStand_modService fun _ => ⟨rfl, rfl⟩
        · split
          · dsimp only
            split
            · exact (serves_failoverCarried ..).boundStand (markStands_failoverCarried ..)
            · exact (serves_failover ..).boundStand (markStands_failover ..)
          · exact .refl s

/-! ## BOUND entries through the reports of the carrier table (R73, R85, R88) -/

theorem boundStand_reportCarrier (forced : Bool) (counts : Option DiscoveryCounts) (stale : Bool) (x : Nat) (b : Carrier)
    (s : State) : BoundStand s (reportCarrier forced counts stale x b s) := by
  unfold reportCarrier
  split
  · exact .refl s
  · next a _ =>
    split
    · exact .refl s
    · dsimp only
      generalize hnoticed : (if (forced || counts.isSome || noticeWorthy b a stale (s.stale a)) = true then
        offer .carrier x (carrierNotice s.now s.params.maxAge x a false counts) s else s) = noticed
      have hs1 : noticed.services = s.services := by
        rw [← hnoticed]
        split <;> rfl
      generalize hwatched : (if b = a ∧ forced = false then noticed else
        handPair .carrier x (some (carrierView b)) (some (carrierView a)) noticed) = watched
      have hs2 : watched.services = s.services := by
        rw [← hwatched]
        split
        · exact hs1
        · exact (handPair_services ..).trans hs1
      split
      · exact (BoundStand.of_services hs2).trans (boundStand_rankCarrier ..)
      · exact .of_services hs2

theorem boundStand_setCarriers (t : Table Carrier) (s : State) : BoundStand s (s.setCarriers t) := .of_services rfl

theorem boundStand_changeCarrier (x : Nat) (f : Carrier → Carrier) (s : State) : BoundStand s (changeCarrier x f s) := by
  unfold changeCarrier
  split
  · exact .refl s
  · exact (boundStand_setCarriers ..).trans (boundStand_reportCarrier ..)

theorem leaveSet_services (x : Nat) (s : State) : (leaveSet x s).services = s.services := by
  unfold leaveSet
  split <;> rfl

theorem boundStand_reportRemoval (s : State) (e : Nat × Carrier) : BoundStand s (reportRemoval s e) := by
  unfold reportRemoval
  refine BoundStand.trans (.of_services ?_) (boundStand_rankRemoval ..)
  exact (handPair_services ..).trans (leaveSet_services e.1 (dropUrgent e.1 s))

theorem boundStand_searchDue (s : State) : BoundStand s (searchDue s) := .of_services rfl

theorem boundStand_reportAddition (s : State) (x : Nat) : BoundStand s (reportAddition s x) := by
  unfold reportAddition
  split
  · exact .refl s
  · refine BoundStand.trans (.of_services ?_) (boundStand_searchDue _)
    exact handPair_services ..

theorem boundStand_removeCarrier (x : Nat) (s : State) : BoundStand s (removeCarrier x s) := by
  unfold removeCarrier reportChanges
  exact (((boundStand_setCarriers ..).trans (boundStand_foldl boundStand_reportRemoval ..)).trans
    (boundStand_foldl (fun _ _ => boundStand_reportCarrier ..) ..)).trans (boundStand_foldl boundStand_reportAddition ..)

theorem boundStand_endHold (x : Nat) (j : Fin 8) (g : Carrier → Carrier) (s : State) :
    BoundStand s (endHold x j g s) := by
  have hsearch {t : State} (h : BoundStand s t) : BoundStand s (searchDue t) := h.trans (boundStand_searchDue t)
  unfold endHold
  split
  · exact .refl s
  · split
    · exact .refl s
    · split
      · exact .refl s
      · split
        · split
          · exact hsearch ((boundStand_setCarriers ..).trans (boundStand_removeCarrier ..))
          · exact hsearch (boundStand_changeCarrier ..)
        · exact hsearch (boundStand_changeCarrier ..)

theorem boundStand_tableTuned (x : Nat) (j : Fin 8) (carry : Bool) (s : State) :
    BoundStand s (tableTuned x j carry s) := by
  unfold tableTuned
  dsimp only
  split
  · exact (boundStand_changeCarrier ..).trans (.of_services rfl)
  · exact boundStand_changeCarrier ..

/-! ## What the slots and the level reference leave of the services and the requests -/

theorem changeSlot_services (i : Fin 8) (f : Slot → Slot) (s : State) : (changeSlot i f s).services = s.services := by
  unfold changeSlot
  dsimp only
  split
  · exact handPair_services ..
  · rfl

theorem grantReference_services (s : State) : (grantReference s).services = s.services := by
  unfold grantReference
  split
  · exact changeSlot_services ..
  · rfl

theorem joinReference_services (s : State) (i : Fin 8) : (joinReference s i).services = s.services := by
  unfold joinReference
  split
  · exact (grantReference_services _).trans (changeSlot_services ..)
  · rfl

theorem evaluateNeeds_services (s : State) : (evaluateNeeds s).services = s.services := by
  have hjoins (l : List (Fin 8)) (t : State) : (l.foldl joinReference t).services = t.services := by
    induction l generalizing t with
    | nil => rfl
    | cons i l ih => exact (ih _).trans (joinReference_services t i)
  refine (hjoins ..).trans ?_
  unfold drawOrder
  dsimp only
  split <;> rfl

theorem enterReleasing_services (i : Fin 8) (hold offline : Bool) (s : State) :
    (enterReleasing i hold offline s).services = s.services := by
  have hslot := changeSlot_services i (freedSlot hold offline) (s.setReference (quitReference i s.reference))
  unfold enterReleasing leaveLocked
  dsimp only
  split
  · exact ((evaluateNeeds_services _).trans (grantReference_services _)).trans hslot
  · exact hslot

/-! ## The answer to a request, and what was deferred (R116 to R120) -/

theorem withdrawRequest_free (i : Nat) (s : State) : inFlight (withdrawRequest i s) i = false := by
  refine inFlight_eq_false ?_
  rintro ⟨q, hq, hqi⟩
  exact of_decide_eq_true (List.mem_filter.mp hq).2 hqi

/-- R116: with nothing deferred a service rests after its answer. -/
theorem judgeDeferred_quiet {i : Nat} {s : State} {v : Service} (hv : s.service i = some v)
    (hd : v.deferred = { rebuilt := false, carryLost := none }) :
    (judgeDeferred i s).1.service i = some v ∧ (judgeDeferred i s).1.router = s.router := by
  simp only [judgeDeferred, hv, hd]
  split
  · exact ⟨hv, rfl⟩
  · have hcleared : modService i (fun v => { v with deferred := { rebuilt := false, carryLost := none } }) s =
        putService i v s := by rw [modService_eq hv, ← hd]
    simp only [Bool.false_eq_true, if_false, hcleared]
    exact ⟨(service_putService ..).trans (if_pos rfl), rfl⟩

/-- R116: a PENDING service takes no notice of what was deferred. -/
theorem judgeDeferred_pending {i : Nat} {s : State} {v : Service} (hv : s.service i = some v) (hbound : v.bound = true)
    (hst : v.state = .pending) (hfree : inFlight s i = false) :
    (judgeDeferred i s).1.service i = some { v with deferred := { rebuilt := false, carryLost := none } } := by
  have hput : (putService i { v with deferred := { rebuilt := false, carryLost := none } } s).service i =
      some { v with deferred := { rebuilt := false, carryLost := none } } := (service_putService ..).trans (if_pos rfl)
  have hact := act_pending hput hbound hfree hst
  have hstands : (v.bound && (decide (v.state = .served) || (decide (v.state = .holding) && v.holdUntil.isNone)) &&
      !selectionCarried s v) = false := by simp [hst]
  have hresume (rebuilt : Bool) : ((if rebuilt then act i (putService i
      { v with deferred := { rebuilt := false, carryLost := none } } s) else
        (putService i { v with deferred := { rebuilt := false, carryLost := none } } s, false)).1).service i =
          some { v with deferred := { rebuilt := false, carryLost := none } } := by
    split
    · rw [hact]
      exact hput
    · exact hput
  simp only [judgeDeferred, hv, hfree, modService_eq hv, hstands, Bool.false_eq_true, if_false]
  rcases v.deferred.carryLost with _ | _ | _ <;> exact hresume _

section
variable {q : GrantReq} {ans : GrantAnswer} {s : State} {v : Service} (hv : s.service q.service = some v)
include hv

/-- The reports after an answer leave a BOUND service and the requests as the answer made them. -/
theorem answerService_marked {a : Service}
    (ha : (judgeDeferred q.service (actOnAnswer q ans s).1).1.service q.service = some a) (hbound : a.bound = true) :
    (answerService q ans s).service q.service = some a ∧
      (answerService q ans s).router.requests =
        (judgeDeferred q.service (actOnAnswer q ans s).1).1.router.requests := by
  rw [answerService, serviceEvent_eq hv]
  exact reported_marked ha (by rw [hbound]; rfl)

theorem answerService_quiet {a : Service} (ha : (actOnAnswer q ans s).1.service q.service = some a)
    (hbound : a.bound = true) (hd : a.deferred = { rebuilt := false, carryLost := none }) :
    (answerService q ans s).service q.service = some a ∧
      (answerService q ans s).router.requests = (actOnAnswer q ans s).1.router.requests := by
  obtain ⟨hservice, hrouter⟩ := judgeDeferred_quiet ha hd
  rw [← hrouter]
  exact answerService_marked hv hservice hbound

end

/-- R118, R119: the service of request `q` waits for the carrier it asked for. -/
def WaitsFor (q : GrantReq) (w : Service) : Prop :=
  w.bound = true ∧ w.state = .pending ∧ w.target = some q.carrier ∧
    (q.first = true → w.pendingKind = some .first ∧ w.selection = some q.carrier)

theorem waitsFor_pendingService (q : GrantReq) {v : Service} (h : v.bound = true) (s : State) :
    WaitsFor q (listed s (pendingService q v)) := by
  rw [listed_eq]
  refine ⟨h, rfl, rfl, fun hfirst => ?_⟩
  have hkind := pendingKindOf_first (v := v) (.inl hfirst)
  exact ⟨congrArg some hkind, if_pos hkind⟩

/-- R116, R118, R119: a BOUND service answered PENDING waits, whatever it deferred. -/
theorem answered_pending {q : GrantReq} {s : State} {v : Service} (hv : s.service q.service = some v)
    (hbound : v.bound = true) (hfree : inFlight s q.service = false) :
    ∃ w, (answerService q .pending s).service q.service = some w ∧ WaitsFor q w := by
  have hwaits := waitsFor_pendingService q hbound s
  obtain ⟨hbound', hstate, -⟩ := id hwaits
  have hrouter : (actOnAnswer q .pending s).1.router = s.router := by
    simp only [actOnAnswer, hv, ensureListed, modService_router]
  have hfree' : inFlight (actOnAnswer q .pending s).1 q.service = false := by
    rw [inFlight, hrouter]
    exact hfree
  have hjudged := judgeDeferred_pending (service_answeredPending hv) hbound' hstate hfree'
  exact ⟨_, (answerService_marked hv hjudged hbound').1, hwaits⟩

theorem switchedAndRebuilt_marks (s : State) (x : Nat) (prev : Option Nat) (v : Service) :
    (switchedAndRebuilt s x prev v).bound = v.bound ∧ (switchedAndRebuilt s x prev v).deferred = v.deferred := by
  rw [switchedAndRebuilt, settleConstrained_eq, rebuilt, switchedService]
  dsimp only
  split <;> exact ⟨rfl, rfl⟩

/-- R117: a BOUND service answered GRANTED on an eligible reception has switched. -/
theorem answered_granted {q : GrantReq} {s : State} {v : Service} {c : Carrier} (hv : s.service q.service = some v)
    (hbound : v.bound = true) (hd : v.deferred = { rebuilt := false, carryLost := none })
    (hc : s.carrier q.carrier = some c) (he : eligibleFor s.params v.key c = true) :
    ∃ w, (answerService q .granted s).service q.service = some w ∧
      Switched s q.carrier (if q.first then none else v.selection) v w := by
  obtain ⟨hmark, hdeferred⟩ := switchedAndRebuilt_marks s q.carrier (if q.first then none else v.selection) v
  have hservice := (service_answeredGranted hv hc he).trans (congrArg some (constrainAfterStep2_eq ..))
  exact ⟨_, (answerService_quiet hv hservice (hmark.trans hbound) (hdeferred.trans hd)).1,
    (switched_rebuilt ..).relisted (switchedAndRebuilt s q.carrier _ v).cands _⟩

section
variable {q : GrantReq} {s : State} {v : Service} (hv : s.service q.service = some v) (hbound : v.bound = true)
  (hd : v.deferred = { rebuilt := false, carryLost := none })
include hv hbound hd

/-- R118: a voluntary request that is refused leaves its service alone. -/
theorem answered_refused_voluntary (hp : q.purpose = .voluntary) :
    (answerService q .refused s).service q.service = some v ∧
      (answerService q .refused s).router.requests = s.router.requests := by
  have hact := answeredRefused_voluntary hv hp
  obtain ⟨hservice, hrequests⟩ := answerService_quiet (ans := .refused) hv (by rw [hact]; exact hv) hbound hd
  exact ⟨hservice, hrequests.trans (by rw [hact])⟩

/-- R119: step 1 refused, step 2 asks for the best carried reception but the one refused. -/
theorem answered_refused_asks {b : Candidate} (hp : q.purpose = .best) (hfree : inFlight s q.service = false)
    (hb : ((s.eligibleRanked v.key).find? fun k => s.carriedAt k.carrier && decide (k.carrier ≠ q.carrier)) = some b) :
    (answerService q .refused s).service q.service = some v ∧
      (answerService q .refused s).router.requests = s.router.requests ++
        [{ service := q.service, carrier := b.carrier, failover := false, purpose := .carried, first := q.first }] := by
  have hact : actOnAnswer q .refused s = (s.setRouter { s.router with requests := s.router.requests ++
      [{ service := q.service, carrier := b.carrier, failover := false, purpose := .carried, first := q.first }] },
        false) := by
    rw [answeredRefused_best hv hp, failoverCarried_some hv (by simpa only [ne_eq, Option.some.injEq] using hb),
      postRequest_eq (mt inFlight_iff.mpr (by rw [hfree]; exact Bool.false_ne_true))]
  obtain ⟨hservice, hrequests⟩ := answerService_quiet (ans := .refused) hv (by rw [hact]; exact hv) hbound hd
  exact ⟨hservice, hrequests.trans (by rw [hact]; rfl)⟩

/-- R119: step 1 refused and no other reception carried, step 3 follows. -/
theorem answered_refused_step3 (hp : q.purpose = .best)
    (hnone : ((s.eligibleRanked v.key).find? fun k => s.carriedAt k.carrier && decide (k.carrier ≠ q.carrier)) = none) :
    (answerService q .refused s).router.requests = s.router.requests ∧
      ((q.first = true ∨ v.selection = none ∨ holdLimitOf s v ≤ s.now) →
        (answerService q .refused s).service q.service = some (unavailableService v)) ∧
        (¬ (q.first = true ∨ v.selection = none ∨ holdLimitOf s v ≤ s.now) →
          (answerService q .refused s).service q.service = some
            { v with state := .holding, target := none, pendingKind := none, holdUntil := some (holdLimitOf s v) }) := by
  have hact : actOnAnswer q .refused s = (failoverStep3 q.service q.first s, false) := by
    rw [answeredRefused_best hv hp, failoverCarried_none hv (by simpa only [ne_eq, Option.some.injEq] using hnone)]
  have hleaves {w : Service} (hstep : failoverStep3 q.service q.first s = putService q.service w s)
      (hw : w.bound = true) (hdw : w.deferred = { rebuilt := false, carryLost := none }) :
      (answerService q .refused s).service q.service = some w ∧
        (answerService q .refused s).router.requests = s.router.requests := by
    rw [hstep] at hact
    obtain ⟨hservice, hrequests⟩ := answerService_quiet (ans := .refused) (a := w) hv
      (by rw [hact]; exact (service_putService ..).trans (if_pos rfl)) hw hdw
    exact ⟨hservice, hrequests.trans (by rw [hact]; rfl)⟩
  by_cases hlost : q.first = true ∨ v.selection = none ∨ holdLimitOf s v ≤ s.now
  · obtain ⟨hservice, hrequests⟩ := hleaves (failoverStep3_gives_up hv hlost) hbound hd
    exact ⟨hrequests, fun _ => hservice, fun h => absurd hlost h⟩
  · obtain ⟨hfirst, hlimit⟩ : ¬ (q.first = true ∨ v.selection = none) ∧ ¬ holdLimitOf s v ≤ s.now := by
      rwa [← or_assoc, not_or] at hlost
    obtain ⟨hservice, hrequests⟩ := hleaves (failoverStep3_holds hv hfirst (Nat.lt_of_not_le hlimit)) hbound hd
    exact ⟨hrequests, fun h => absurd h hlost, fun _ => hservice⟩

end

/-! ## The record of a carrier (R133) -/

/-- R133: `x` has one record, on slot `j` in phase `ph`. -/
def RecordedAs (x : Nat) (j : Fin 8) (ph : CarryPhase) (s : State) : Prop :=
  ∀ r : CarryRecord, r ∈ s.router.records ∧ r.carrier = x ↔ r = { carrier := x, slot := j, phase := ph }

theorem recordedAs_openRecord (x : Nat) (j : Fin 8) (ph : CarryPhase) (s : State) :
    RecordedAs x j ph (openRecord x j ph s) := by
  intro r
  simp only [openRecord, modRouter_router, List.mem_append, List.mem_filter, List.mem_singleton, decide_eq_true_eq]
  constructor
  · rintro ⟨⟨-, hne⟩ | rfl, hx⟩
    · exact absurd hx hne
    · rfl
  · rintro rfl
    exact ⟨.inr rfl, rfl⟩

theorem RecordedAs.congr {x : Nat} {j : Fin 8} {ph : CarryPhase} {s t : State} (h : RecordedAs x j ph s)
    (hrecords : t.router.records = s.router.records) : RecordedAs x j ph t := by
  unfold RecordedAs
  rwa [hrecords]

theorem recordOf_none {x : Nat} {s : State} (h : ∀ r ∈ s.router.records, r.carrier ≠ x) : recordOf s x = none :=
  List.find?_eq_none.mpr fun r hr => by simpa using h r hr

/-- A member is found by a mark that no two members share. -/
theorem find?_of_nodup_map {α : Type} {f : α → Nat} {l : List α} {a : α} (hl : (l.map f).Nodup) (ha : a ∈ l) :
    l.find? (fun b => decide (f b = f a)) = some a := by
  obtain ⟨b, hb⟩ : ∃ b, l.find? (fun b => decide (f b = f a)) = some b := Option.ne_none_iff_exists'.mp fun hnone =>
    List.find?_eq_none.mp hnone a ha (decide_eq_true rfl)
  have hsame : f b = f a := of_decide_eq_true (List.find?_some (p := fun b => decide (f b = f a)) hb)
  rw [hb, List.inj_on_of_nodup_map hl (List.mem_of_find?_eq_some hb) ha hsame]

/-- R133: a carrier has one record. -/
theorem recordOf_mem {r : CarryRecord} {s : State} (hlaw : RecordLaw s.router) (hr : r ∈ s.router.records) :
    recordOf s r.carrier = some r := find?_of_nodup_map hlaw hr

/-- A service waits for one request. -/
theorem requestOf_mem {q : GrantReq} {s : State} (hlaw : RequestLaw s.router) (hq : q ∈ s.router.requests) :
    requestOf q.service s = some q := find?_of_nodup_map hlaw hq

/-! ## The order of the steps (R134) -/

theorem orElseStep_done (s : State) (a : GrantAnswer) (f : State → StepResult) :
    orElseStep (s, some a) f = (s, some a) := rfl

theorem orElseStep_next (s : State) (f : State → StepResult) : orElseStep (s, none) f = f s := rfl

theorem grantSharing_none {x : Nat} {s : State} (h : ∀ r ∈ s.router.records, r.carrier ≠ x) :
    grantSharing x s = (s, none) := by
  rw [grantSharing, recordOf_none h]

section
variable {f : Bool} {k : ServiceKey} {x : Nat} {s : State}

/-- R135 step 1: a carrier with a record is shared. -/
theorem grantSteps_shared {r : CarryRecord} (h : recordOf s x = some r) :
    grantSteps f k x s = (s, if r.phase = .live then .granted else .pending) := by
  have hshared : grantSharing x s = (s, some (if r.phase = .live then .granted else .pending)) := by
    rw [grantSharing, h]
  simp only [grantSteps, hshared, orElseStep_done, ite_self, Option.getD_some]

variable (hunshared : ∀ r ∈ s.router.records, r.carrier ≠ x)
include hunshared

theorem grantSteps_adoption {t : State} {a : GrantAnswer} (h : grantAdoption x s = (t, some a)) :
    grantSteps f k x s = (t, a) := by
  simp only [grantSteps, grantSharing_none hunshared, orElseStep_next, h, orElseStep_done, ite_self, Option.getD_some]

variable (hunadopted : grantAdoption x s = (s, none))
include hunadopted

/-- R136, R137: a free slot within the reserve, and for a failover any free slot, is tuned. -/
theorem grantSteps_tune {t : State} {a : GrantAnswer} (h : grantTune x s.freeSlots s = (t, some a))
    (hmay : committedSlots s + s.params.reserve < onlineSlots s ∨ f = true) : grantSteps f k x s = (t, a) := by
  simp only [grantSteps, grantSharing_none hunshared, orElseStep_next, hunadopted]
  by_cases hspare : committedSlots s + s.params.reserve < onlineSlots s
  · have hfree : grantFree x s = (t, some a) := by rw [grantFree, if_pos hspare, h]
    simp only [hfree, orElseStep_done, ite_self, Option.getD_some]
  · have hfree : grantFree x s = (s, none) := by rw [grantFree, if_neg hspare]
    have hreserve : grantReserve x s = (t, some a) := by rw [grantReserve, h]
    simp only [hfree, hmay.resolve_left hspare, orElseStep_next, hreserve, orElseStep_done, if_true, Option.getD_some]

theorem grantSteps_plain_refused
    (h : ¬ committedSlots s + s.params.reserve < onlineSlots s ∨ s.freeSlots = []) :
    grantSteps false k x s = (s, .refused) := by
  have hfree : grantFree x s = (s, none) := by
    unfold grantFree
    split
    · next hspare => rw [h.resolve_left (not_not.mpr hspare), grantTune]
    · rfl
  simp only [grantSteps, grantSharing_none hunshared, orElseStep_next, hunadopted, hfree, Bool.false_eq_true, if_false,
    Option.getD_none]

/-- R137, R138: without a free slot a failover goes on to preemption, and then to displacement. -/
theorem grantSteps_unfree (h : s.freeSlots = []) :
    grantSteps true k x s =
      ((orElseStep (grantPreempt x (preemptable s) s) (grantDisplace k x)).1,
        (orElseStep (grantPreempt x (preemptable s) s) (grantDisplace k x)).2.getD .refused) := by
  have hfree : grantFree x s = (s, none) := by
    unfold grantFree
    split
    · rw [h, grantTune]
    · rfl
  have hreserve : grantReserve x s = grantPreempt x (preemptable s) s := by rw [grantReserve, h, grantTune]
  simp only [grantSteps, grantSharing_none hunshared, orElseStep_next, hunadopted, hfree, if_true, hreserve]

end

/-! ## Adoption (R38, R73, R135) -/

theorem grantAdoption_none {x : Nat} {s : State}
    (h : ∀ j, ¬ ((s.slot j).role = .survey ∧ (s.slot j).carrier = some x)) : grantAdoption x s = (s, none) := by
  have hnone : (allSlots.find? fun i => decide ((s.slot i).role = .survey) && decide ((s.slot i).carrier = some x)) =
      none := List.find?_eq_none.mpr fun j _ => by simpa using h j
  rw [grantAdoption, hnone]

/-- R26: a carrier is surveyed on one slot. -/
theorem grantAdoption_some {x : Nat} {s : State} {j : Fin 8} (hlaw : SlotLaw s.slots) (hrole : (s.slot j).role = .survey)
    (hx : (s.slot j).carrier = some x) : grantAdoption x s = grantAdoptionOf x j s := by
  let surveys (i : Fin 8) : Bool := decide ((s.slot i).role = .survey) && decide ((s.slot i).carrier = some x)
  obtain ⟨k, hk⟩ : ∃ k, allSlots.find? surveys = some k := Option.ne_none_iff_exists'.mp fun hnone =>
    List.find?_eq_none.mp hnone j (List.mem_finRange j) (by simp [surveys, hrole, hx])
  obtain ⟨-, hkx⟩ : (s.slot k).role = .survey ∧ (s.slot k).carrier = some x := by
    simpa [surveys] using List.find?_some hk
  have hkj : k = j := hlaw.2 k j (hkx.trans hx.symm) fun hnone => nomatch hkx.symm.trans hnone
  rw [grantAdoption, hk, hkj]

/-- R38: the adoption of a survey that still acquires waits for it. -/
theorem grantAdoptionOf_acquiring {x : Nat} {s : State} {j : Fin 8} (hrole : (s.slot j).role = .survey)
    (hx : (s.slot j).carrier = some x) (hs : (s.slot j).state = .tuning ∨ (s.slot j).state = .acquiring) :
    grantAdoptionOf x j s =
      (openRecord x j .adopting (putSlot j { s.slot j with adoptionPending := true } s), some .pending) := by
  have hnot : ¬ ((s.slot j).role ≠ .survey ∨ (s.slot j).carrier ≠ some x) := by simp [hrole, hx]
  have hadopt : adoptSlot x j s = (putSlot j { s.slot j with adoptionPending := true } s, .pending) := by
    obtain hs | hs := hs
    · simp only [adoptSlot, if_neg hnot, hs, modSlot]
    · simp only [adoptSlot, if_neg hnot, hs, modSlot]
  rw [grantAdoptionOf, hadopt]

/-! ## A free slot tuned (R27, R136, R137) -/

/-- R26: a slot in IDLE or PARKED has no role. -/
theorem slotFree_of_law {s : State} (hlaw : SlotLaw s.slots) (j : Fin 8) :
    slotFree (s.slot j) = true ↔
      ((s.slot j).state = .idle ∨ (s.slot j).state = .parked) ∧ (s.slot j).heldForRouter = false := by
  obtain ⟨hrole, hworks, -⟩ : SlotOk (s.slot j) := hlaw.1 j
  refine slotFree_iff.trans ⟨fun ⟨hst, _, hheld⟩ => ⟨hst, hheld⟩, fun ⟨hst, hheld⟩ => ⟨hst, hrole.mp ?_, hheld⟩⟩
  by_contra hassigned
  obtain hs | hs | hs := hworks.mp hassigned <;> simp [hs] at hst

/-- R26: a slot with a role works. -/
theorem works_of_law {s : State} (hlaw : SlotLaw s.slots) {j : Fin 8} (hrole : (s.slot j).role ≠ .none) :
    ∃ y, (s.slot j).carrier = some y ∧
      ((s.slot j).state = .tuning ∨ (s.slot j).state = .acquiring ∨ (s.slot j).state = .locked) := by
  obtain ⟨hassigned, hworks, -⟩ : SlotOk (s.slot j) := hlaw.1 j
  have hcarrier : (s.slot j).carrier ≠ none := mt hassigned.mp hrole
  obtain ⟨y, hy⟩ := Option.ne_none_iff_exists'.mp hcarrier
  exact ⟨y, hy, hworks.mp hcarrier⟩

/-- The state in which slot `j` is tuned to carry `x`, whose entry is `c`. -/
def carryTuned (x : Nat) (j : Fin 8) (c : Carrier) (s : State) : State :=
  tableTuned x j true (changeSlot j (tunedSlot s.now x true c (s.committed.profile c.profile)) s)

section
variable {x : Nat} {j : Fin 8} {s : State} {c : Carrier} (hc : s.carrier x = some c)
include hc

/-- R27, R29, R136: the first free slot takes the TUNE of the router for a carrier that no slot is assigned. -/
theorem grantTune_head (hhead : s.freeSlots.head? = some j) (hfree : slotFree (s.slot j) = true)
    (hapart : ∀ k, (s.slot k).carrier ≠ some x) :
    grantTune x s.freeSlots s = (openRecord x j .acquiring (carryTuned x j c s), some .pending) := by
  have hrefuse : tuneRefusal true x j s = none := by
    obtain ⟨hst | hst, -⟩ := slotFree_iff.mp hfree
    · simp [tuneRefusal, hst, slotOn_eq_none hapart, hc]
    · simp [tuneRefusal, hst, slotOn_eq_none hapart, hc]
  have htune : tuneSlot true x j s = (carryTuned x j c s, .accepted) := by
    simp only [tuneSlot, hrefuse, hc, carryTuned]
  obtain ⟨rest, hrest⟩ := List.head?_eq_some_iff.mp hhead
  rw [hrest, grantTune, htune]

theorem carryTuned_slot (k : Fin 8) :
    (carryTuned x j c s).slot k =
      if k = j then tunedSlot s.now x true c (s.committed.profile c.profile) (s.slot j) else s.slot k := by
  have hc' : (changeSlot j (tunedSlot s.now x true c (s.committed.profile c.profile)) s).carrier x = some c :=
    (congrArg (tabGet · x) (changeSlot_carriers ..)).trans hc
  exact ((tableTuned_reports j true hc').slot k).trans (changeSlot_slot ..)

end

theorem boundStand_carryTuned (x : Nat) (j : Fin 8) (c : Carrier) (s : State) : BoundStand s (carryTuned x j c s) :=
  (BoundStand.of_services (changeSlot_services ..)).trans (boundStand_tableTuned ..)

/-! ## A slot released for the router (R30, R31, R33) -/

/-- R31, R33: the slot that the router releases and holds is RELEASING for it. -/
theorem releaseWork_held (j : Fin 8) (reason : EndReason) (s : State) :
    ((releaseWork j true false reason true s).slot j).state = .releasing ∧
      ((releaseWork j true false reason true s).slot j).role = .none ∧
        ((releaseWork j true false reason true s).slot j).carrier = none ∧
          ((releaseWork j true false reason true s).slot j).heldForRouter = true := by
  obtain ⟨_, _, hslot, -⟩ := releaseWork_slot j true false reason true s
  rw [hslot]
  exact ⟨rfl, rfl, rfl, rfl⟩

theorem endSurvey_services (j : Fin 8) (reason : EndReason) (s : State) :
    (endSurvey j reason s).services = s.services := by
  unfold endSurvey
  split
  · rfl
  · dsimp only
    split
    · unfold returnUrgent
      repeat' split
      all_goals rfl
    · rfl

section
variable {j : Fin 8} {y : Nat} {s : State} (hy : (s.slot j).carrier = some y)
include hy

/-- R31, R100: the router's release of a survey without adoption pending. -/
theorem releaseWork_surveyed (hrole : (s.slot j).role = .survey) (hpending : (s.slot j).adoptionPending = false)
    (reason : EndReason) :
    (releaseWork j true false reason true s).sched.surveys[j] = none ∧
      BoundStand s (releaseWork j true false reason true s) := by
  obtain ⟨g, hwork⟩ := releaseWork_eq hy true false reason true
  have hended : releaseWork j true false reason true s =
      endSurvey j reason (endHold y j g (enterReleasing j true false s)) := by
    rw [hwork, reportEnd, hrole]
    simp only [hpending, Bool.false_eq_true, if_false]
  rw [hended]
  exact ⟨endSurvey_survey .., ((BoundStand.of_services (enterReleasing_services ..)).trans
    (boundStand_endHold ..)).trans (.of_services (endSurvey_services ..))⟩

/-- R138: the router's release of a slot in role CARRY whose record is closed. -/
theorem releaseWork_displaced (hrole : (s.slot j).role = .carry) (hclosed : ∀ r ∈ s.router.records, r.carrier ≠ y)
    (reason : EndReason) :
    (releaseWork j true false reason true s).router.records = s.router.records ∧
      BoundStand s (releaseWork j true false reason true s) := by
  obtain ⟨g, hwork⟩ := releaseWork_eq hy true false reason true
  have hrecords : (endHold y j g (enterReleasing j true false s)).router.records = s.router.records :=
    (endHold_records ..).trans (refers_leaveLocked j (freedSlot true false) s).records
  have hended : releaseWork j true false reason true s =
      recomputeRooms (endHold y j g (enterReleasing j true false s)) := by
    rw [hwork, reportEnd, hrole]
    simp only [endCarry, recordOf_none (hrecords ▸ hclosed), Option.isSome_none, Bool.false_eq_true, if_true, if_false]
  rw [hended]
  exact ⟨(ranks_recomputeRooms _).sameRecords.trans hrecords, ((BoundStand.of_services (enterReleasing_services ..)).trans
    (boundStand_endHold ..)).trans (.of_services (recomputeRooms_services _))⟩

end

/-! ## Preemption (R137) -/

/-- The role time by which surveys are preempted. -/
def tookAt (s : State) (j : Fin 8) : Nat := (s.slot j).roleTime.getD 0

theorem laterSurvey_iff {s : State} {i j : Fin 8} :
    laterSurvey s i j = true ↔ tookAt s j < tookAt s i ∨ (tookAt s i = tookAt s j ∧ j < i) := by
  simp [laterSurvey, tookAt]

theorem mem_preemptable {s : State} {j : Fin 8} :
    j ∈ preemptable s ↔ (s.slot j).role = .survey ∧ (s.slot j).adoptionPending = false := by
  simp [preemptable, (sortBy_perm _ _).mem_iff, allSlots]

/-- R137: the survey taken latest, the highest slot among equals, comes first. -/
theorem preemptable_head {s : State} {j : Fin 8} (hj : j ∈ preemptable s)
    (hlatest : ∀ k ∈ preemptable s, tookAt s k < tookAt s j ∨ (tookAt s k = tookAt s j ∧ k ≤ j)) :
    ∃ rest, preemptable s = j :: rest := by
  have hsorted : (preemptable s).Pairwise fun a b => laterSurvey s a b = true := by
    refine sortBy_pairwise (fun a b c hab hbc => ?_) (((List.pairwise_lt_finRange 8).filter _).imp fun {a b} hab => ?_)
    · rw [laterSurvey_iff] at hab hbc ⊢
      omega
    · rw [laterSurvey_iff, laterSurvey_iff]
      omega
  refine List.head?_eq_some_iff.mp (head?_eq_of_first hsorted hj fun k hk hlater => ?_)
  have hle := hlatest k hk
  rw [laterSurvey_iff] at hlater
  omega

theorem grantPreempt_head {x : Nat} {j : Fin 8} {rest : List (Fin 8)} {s : State}
    (hworks : (s.slot j).state = .tuning ∨ (s.slot j).state = .acquiring ∨ (s.slot j).state = .locked) :
    ∃ reason, grantPreempt x (j :: rest) s =
      (openRecord x j .waitingSlot (releaseWork j true false reason true s), some .pending) := by
  obtain ⟨reason, hrelease⟩ := releaseSlot_router_works true hworks
  obtain ⟨-, -, -, hheld⟩ := releaseWork_held j reason s
  refine ⟨reason, ?_⟩
  rw [grantPreempt, hrelease]
  exact if_pos hheld

/-! ## Displacement (R138) -/

theorem lesserVictim_iff {s : State} {a b : Fin 8 × Nat} :
    lesserVictim s a b = true ↔
      carriedDemand s a.2 < carriedDemand s b.2 ∨ (carriedDemand s a.2 = carriedDemand s b.2 ∧ b.1 < a.1) := by
  simp [lesserVictim]

theorem mem_victims {s : State} {j : Fin 8} {y : Nat} :
    (j, y) ∈ victims s ↔ (s.slot j).role = .carry ∧ (s.slot j).state = .locked ∧ (s.slot j).carrier = some y := by
  simp only [victims, List.mem_filterMap, allSlots, List.mem_finRange, true_and]
  constructor
  · rintro ⟨k, hk⟩
    split at hk
    · next hcarries =>
      obtain ⟨z, hz, he⟩ := Option.map_eq_some_iff.mp hk
      obtain ⟨rfl, rfl⟩ := Prod.mk.inj he
      exact ⟨hcarries.1, hcarries.2, hz⟩
    · cases hk
  · rintro ⟨hrole, hst, hy⟩
    exact ⟨j, by rw [if_pos ⟨hrole, hst⟩, hy]; rfl⟩

/-- R138: the victims in the order of displacement. -/
def victimsOrdered (s : State) : List (Fin 8 × Nat) := sortBy (lesserVictim s) (victims s)

theorem victimsOrdered_pairwise (s : State) : (victimsOrdered s).Pairwise fun a b => lesserVictim s a b = true := by
  have hslots : (victims s).Pairwise fun a b => a.1 < b.1 := by
    refine List.Pairwise.filterMap _ (fun k n hkn a ha b hb => ?_) (List.pairwise_lt_finRange 8)
    have hfirst {k : Fin 8} {a : Fin 8 × Nat} (ha : (if (s.slot k).role = .carry ∧ (s.slot k).state = .locked then
        (s.slot k).carrier.map fun c => (k, c) else none) = some a) : a.1 = k := by
      split at ha
      · obtain ⟨z, -, rfl⟩ := Option.map_eq_some_iff.mp ha
        rfl
      · cases ha
    rwa [hfirst ha, hfirst hb]
  refine sortBy_pairwise (fun a b c hab hbc => ?_) (hslots.imp fun {a b} hab => ?_)
  · rw [lesserVictim_iff] at hab hbc ⊢
    omega
  · rw [lesserVictim_iff, lesserVictim_iff]
    omega

/-- R138: the carrier of least demand, the highest slot among equals, is displaced. -/
theorem victimsOrdered_head {s : State} {j : Fin 8} {y : Nat} (hj : (j, y) ∈ victims s)
    (hleast : ∀ k z, (k, z) ∈ victims s →
      carriedDemand s y < carriedDemand s z ∨ (carriedDemand s y = carriedDemand s z ∧ k ≤ j)) :
    (victimsOrdered s).head? = some (j, y) := by
  have hmem {e : Fin 8 × Nat} : e ∈ victimsOrdered s ↔ e ∈ victims s := (sortBy_perm ..).mem_iff
  refine head?_eq_of_first (victimsOrdered_pairwise s) (hmem.mpr hj) fun ⟨k, z⟩ hk hlesser => ?_
  have hle := hleast k z (hmem.mp hk)
  rw [lesserVictim_iff] at hlesser
  dsimp only at hlesser
  omega

theorem grantDisplace_head {k : ServiceKey} {x : Nat} {s : State} {j : Fin 8} {y : Nat}
    (hhead : (victimsOrdered s).head? = some (j, y)) (hless : carriedDemand s y < requestedDemand s k x) :
    grantDisplace k x s = (displace x j y s, some .pending) := by
  unfold victimsOrdered at hhead
  simp only [grantDisplace, hhead, if_pos hless]

/-- R138: no carried carrier of lower demand. -/
theorem grantDisplace_none {k : ServiceKey} {x : Nat} {s : State}
    (h : ∀ j y, (j, y) ∈ victims s → requestedDemand s k x ≤ carriedDemand s y) : grantDisplace k x s = (s, none) := by
  unfold grantDisplace
  split
  · rfl
  · next v hv =>
    have hle := h v.1 v.2 ((sortBy_perm ..).mem_iff.mp (List.mem_of_head? hv))
    exact if_neg (Nat.not_lt.mpr hle)

/-- R138: what displacement leaves: the slot released for the router, the record of `y` closed and one of `x` opened. -/
structure Displaced (x : Nat) (j : Fin 8) (y : Nat) (s t : State) : Prop where
  state : (t.slot j).state = .releasing
  role : (t.slot j).role = .none
  carrier : (t.slot j).carrier = none
  held : (t.slot j).heldForRouter = true
  recorded : RecordedAs x j .waitingSlot t
  closed : x ≠ y → ∀ r ∈ t.router.records, r.carrier ≠ y
  bound : BoundStand s t

theorem displaced_displace {x : Nat} {j : Fin 8} {y : Nat} {s : State} (hrole : (s.slot j).role = .carry)
    (hst : (s.slot j).state = .locked) (hy : (s.slot j).carrier = some y) : Displaced x j y s (displace x j y s) := by
  let s1 := closeRecord y (carryLost true y s)
  have hslot : s1.slot j = s.slot j := congrArg (·[j]) (ranks_carryLost true y s).sameSlots
  have hbound : BoundStand s s1 := (boundStand_carryLost true y s).trans (.of_services rfl)
  obtain ⟨reason, hrelease⟩ := releaseSlot_router_works (i := j) (s := s1) true (by rw [hslot]; exact .inr (.inr hst))
  obtain ⟨hrecords, hbound'⟩ := releaseWork_displaced (j := j) (y := y) (s := s1) (by rw [hslot]; exact hy)
    (by rw [hslot]; exact hrole) (closeRecord_records y _) reason
  obtain ⟨hstate, hfreed, hcarrier, hheld⟩ := releaseWork_held j reason s1
  have he : displace x j y s = openRecord x j .waitingSlot (releaseWork j true false reason true s1) := by
    rw [displace, ← hrelease]
  rw [he]
  refine ⟨hstate, hfreed, hcarrier, hheld, recordedAs_openRecord x j _ _, fun hxy r hr => ?_,
    (hbound.trans hbound').trans (.of_services rfl)⟩
  simp only [openRecord, modRouter_router, List.mem_append, List.mem_filter, List.mem_singleton] at hr
  obtain ⟨hr, -⟩ | rfl := hr
  · rw [hrecords] at hr
    exact closeRecord_records y _ r hr
  · exact hxy

/-! ## A LOCKED survey adopted (R38, R73, R135) -/

theorem adoptedEntry_eq (c : Carrier) : ∃ h, adoptedEntry c = { c with hold := h } := by
  unfold adoptedEntry
  split
  · exact ⟨c.hold, rfl⟩
  · exact ⟨_, rfl⟩

theorem resumeAcquiring_surveyed {c : Carrier} (h : c.state ≠ .unsurveyed) (s : State) : resumeAcquiring s c = c := by
  unfold resumeAcquiring
  split
  · rfl
  · exact if_neg fun hboth => h hboth.1

/-- R88: a change of its hold alone is not told to the ranking unit. -/
theorem changeCarrier_services_of_hold {x : Nat} {f : Carrier → Carrier} {s : State} {c : Carrier} {h : Option Hold}
    (hc : s.carrier x = some c) (hf : f c = { c with hold := h }) : (changeCarrier x f s).services = s.services := by
  by_cases hsame : c = f c
  · rw [changeCarrier_same hc hsame]
    rfl
  · have hstale : s.stale (f c) = s.stale c := by rw [hf]; rfl
    have hscore : (f c).score = c.score := by rw [hf]; rfl
    have hworth : ¬ rankWorthy c (f c) (s.stale c) (s.stale (f c)) = true := by
      rw [rankWorthy, hstale, hscore, hf]
      simp
    rw [changeCarrier_changed hc hsame]
    dsimp only
    rw [if_neg hworth, handPair_services]
    split <;> rfl

/-- Slot `j` adopted by the router (R38). -/
def adoptedSlot (now : Nat) (r : Slot) : Slot := { r with role := .carry, roleTime := some now }

/-- The state in which slot `j`, LOCKED on a survey of `x`, has reported its adoption. -/
def surveyAdopted (x : Nat) (j : Fin 8) (s : State) : State :=
  endSurvey j .adopted (tableAdopted x (changeSlot j (adoptedSlot s.now) s))

/-- The state in which it is adopted for its request. -/
def carryAdopted (x : Nat) (j : Fin 8) (s : State) : State :=
  recomputeRooms (openRecord x j .live (surveyAdopted x j s))

theorem ranks_carryAdopted (x : Nat) (j : Fin 8) (s : State) :
    Ranks (openRecord x j .live (surveyAdopted x j s)) (carryAdopted x j s) := ranks_recomputeRooms _

theorem tells_openRecord (x : Nat) (j : Fin 8) (ph : CarryPhase) (s : State) : Tells s (openRecord x j ph s) :=
  ⟨rfl, rfl, rfl, rfl, rfl⟩

theorem tells_carryAdopted (x : Nat) (j : Fin 8) (s : State) :
    Tells (tableAdopted x (changeSlot j (adoptedSlot s.now) s)) (carryAdopted x j s) :=
  (tells_endSurvey ..).trans ((tells_openRecord ..).trans (ranks_carryAdopted x j s).tells)

theorem carryAdopted_slot (x : Nat) (j : Fin 8) (s : State) (k : Fin 8) :
    (carryAdopted x j s).slot k = if k = j then adoptedSlot s.now (s.slot j) else s.slot k := by
  have htable : (tableAdopted x (changeSlot j (adoptedSlot s.now) s)).slots = (changeSlot j (adoptedSlot s.now) s).slots :=
    (changeCarrier_slots ..).1
  exact (congrArg (·[k]) ((tells_carryAdopted x j s).slots.trans htable)).trans (changeSlot_slot ..)

theorem carryAdopted_survey (x : Nat) (j : Fin 8) (s : State) : (carryAdopted x j s).sched.surveys[j] = none := by
  rw [(ranks_carryAdopted x j s).sameSched]
  exact endSurvey_survey j .adopted (tableAdopted x (changeSlot j (adoptedSlot s.now) s))

theorem recordedAs_carryAdopted (x : Nat) (j : Fin 8) (s : State) : RecordedAs x j .live (carryAdopted x j s) :=
  (recordedAs_openRecord x j .live _).congr (ranks_carryAdopted x j s).sameRecords

theorem carryAdopted_services (x : Nat) (j : Fin 8) (s : State) :
    (carryAdopted x j s).services = (tableAdopted x (changeSlot j (adoptedSlot s.now) s)).services := by
  have hopened : (openRecord x j .live (surveyAdopted x j s)).services = (surveyAdopted x j s).services := rfl
  exact (recomputeRooms_services _).trans (hopened.trans (endSurvey_services ..))

/-- R73: the entry of a verified carrier changes its hold alone, which is not told to the ranking unit. -/
theorem carryAdopted_verified {x : Nat} {s : State} {c : Carrier} (j : Fin 8) (hc : s.carrier x = some c)
    (hst : c.state = .verified) :
    (∃ h, (carryAdopted x j s).carrier x = some { c with hold := h }) ∧ (carryAdopted x j s).services = s.services ∧
      (carryAdopted x j s).clock = s.clock ∧ (carryAdopted x j s).plan = s.plan := by
  let t := changeSlot j (adoptedSlot s.now) s
  let f (c : Carrier) := resumeAcquiring t (adoptedEntry c)
  obtain ⟨h, hadopted⟩ := adoptedEntry_eq c
  have hf : f c = { c with hold := h } := by
    have hsurveyed : (adoptedEntry c).state ≠ .unsurveyed := by
      rw [hadopted]
      simp [hst]
    rw [← hadopted]
    exact resumeAcquiring_surveyed hsurveyed t
  have hct : t.carrier x = some c := (congrArg (tabGet · x) (changeSlot_carriers ..)).trans hc
  have hslot := changeSlot_tells j (adoptedSlot s.now) s
  have htable : Tells (putCarrier x (f c) t) (carryAdopted x j s) :=
    ((changeCarrier_tells (f := f) hct).trans (reports_dropUrgent x _).toTells).trans (tells_carryAdopted x j s)
  refine ⟨⟨h, ?_⟩, ?_, htable.clock.trans hslot.clock, htable.plan.trans hslot.plan⟩
  · rw [htable.carrier, carrier_putCarrier, if_pos rfl, hf]
  · have hrest : (tableAdopted x t).services = (changeCarrier x f t).services := rfl
    exact (carryAdopted_services x j s).trans (hrest.trans
      ((changeCarrier_services_of_hold (f := f) hct hf).trans (changeSlot_services ..)))

/-- R38: a LOCKED survey is adopted at once. -/
theorem grantAdoptionOf_locked {x : Nat} {s : State} {j : Fin 8} (hrole : (s.slot j).role = .survey)
    (hx : (s.slot j).carrier = some x) (hs : (s.slot j).state = .locked) :
    grantAdoptionOf x j s = (carryAdopted x j s, some .granted) := by
  have hnot : ¬ ((s.slot j).role ≠ .survey ∨ (s.slot j).carrier ≠ some x) := by simp [hrole, hx]
  have hadopt : adoptSlot x j s = (surveyAdopted x j s, .adopted) := by
    simp only [adoptSlot, if_neg hnot, hs]
    rfl
  rw [grantAdoptionOf, hadopt]
  rfl

/-! ## A request taken (R134) -/

/-- A BOUND service `v` with nothing deferred waits, in a state out of reset, for its request `q`. -/
structure Asks (s : State) (q : GrantReq) (v : Service) : Prop where
  running : s.clock.inReset = false
  request : requestOf q.service s = some q
  service : s.service q.service = some v
  bound : v.bound = true
  deferred : v.deferred = { rebuilt := false, carryLost := none }
  law : ServiceLaw s.services

/-- The answer `a` handed to the service of `q` after the steps have made the state `t`. -/
def requestAnswered (q : GrantReq) (a : GrantAnswer) (t : State) : State :=
  answerService q a (withdrawRequest q.service t)

theorem ranks_requestAnswered (q : GrantReq) (a : GrantAnswer) (t : State) : Ranks t (requestAnswered q a t) :=
  (ranks_withdrawRequest ..).trans (ranks_answerService ..)

theorem Ranks.sameSlot {s t : State} (h : Ranks s t) (j : Fin 8) : t.slot j = s.slot j := congrArg (·[j]) h.sameSlots

/-- The service of `q` has switched to the carrier that was asked for. -/
def SwitchedIn (s : State) (q : GrantReq) (v : Service) (u : State) : Prop :=
  ∃ w, u.service q.service = some w ∧ Switched s q.carrier (if q.first then none else v.selection) v w

namespace Asks
variable {s t : State} {q : GrantReq} {v : Service} (h : Asks s q v)
include h

theorem done {a : GrantAnswer} (hn : q.service < 256) (hsteps : Machine.grantSteps q.failover v.key q.carrier s = (t, a)) :
    exec (.grantRequest ⟨q.service, hn⟩) s = .next (settle (requestAnswered q a t)) := by
  have htaken : takeRequestOf q.service s = requestAnswered q a t := by
    simp only [takeRequestOf, h.request, takeRequest, h.service, hsteps]
    rfl
  rw [exec_grantRequest, ← htaken]
  exact blockEvent_done h.running (by rw [h.request]; rfl)

/-- R118, R119: after steps that keep BOUND services the service waits, as the answer PENDING bids it. -/
theorem waits (hbound : BoundStand s t) :
    ∃ w, (requestAnswered q .pending t).service q.service = some w ∧ WaitsFor q w := by
  obtain ⟨w, hw, hmark⟩ := hbound.stands h.law q.service v h.service h.bound
  exact answered_pending (s := withdrawRequest q.service t) hw hmark (withdrawRequest_free ..)

/-- R117: after steps that leave the services alone and an eligible reception of the carrier the switch completes. -/
theorem switches {c : Carrier} (hservices : t.services = s.services) (hclock : t.clock = s.clock) (hplan : t.plan = s.plan)
    (hc : t.carrier q.carrier = some c) (he : eligibleFor s.params v.key c = true) :
    SwitchedIn s q v (requestAnswered q .granted t) := by
  have hv : (withdrawRequest q.service t).service q.service = some v :=
    (congrArg (tabGet · q.service) hservices).trans h.service
  have hparams : (withdrawRequest q.service t).params = s.params := congrArg (·.committed.params) hplan
  have hnow : (withdrawRequest q.service t).now = s.now := congrArg Clock.now hclock
  obtain ⟨w, hw, hswitched⟩ := answered_granted hv h.bound h.deferred hc (by rw [hparams]; exact he)
  refine ⟨w, hw, { hswitched with counted := fun hne => ?_ }⟩
  have hcounted := hswitched.counted hne
  rwa [hnow, hparams] at hcounted

end Asks

/-- Settles O53: the step that answers by `grantSteps_shared` to `grantSteps_unfree`, what it does to slots, entries and
records by the lemmas of its step, and what the answer does to the service by `Asks.waits`, `Asks.switches` and the
`answered_refused` lemmas. -/
theorem grantStepsHold : Obligations.GrantSteps := by
  unfold Obligations.GrantSteps
  intro s ⟨n, hn⟩ hr
  refine ⟨fun hnone => ?idle, fun q v hrequest hrecord hslots hservices hq hqn hv hbound hdeferred => ?_⟩
  case idle =>
    have hidle : requestOf n s = none := List.find?_eq_none.mpr fun q hq => by simpa using hnone q hq
    exact (exec_grantRequest ..).trans (blockEvent_idle (by rw [hidle]; rfl))
  obtain rfl : q.service = n := hqn
  have asks : Asks s q v := ⟨hr, requestOf_mem hrequest hq, hv, hbound, hdeferred, hservices⟩
  intro x params done unshared unassigned free recorded spare eligible others best limit lost previous switched waits
  have hfree (j : Fin 8) : slotFree (s.slot j) = true ↔ free j := slotFree_of_law hslots j
  have hnofree (h : ∀ j, ¬ free j) : s.freeSlots = [] := freeSlots_nil fun j => mt (hfree j).mp (h j)
  have hunadopted (h : ∀ j, ¬ ((s.slot j).role = .survey ∧ (s.slot j).carrier = some x)) :
      grantAdoption x s = (s, none) := grantAdoption_none h
  have hswitched {u : State} (h : SwitchedIn s q v u) : switched u := by
    obtain ⟨w, hw, hsw⟩ := h
    exact ⟨w, hw, hsw.selection, hsw.state, hsw.target, hsw.pendingKind, hsw.holdUntil, hsw.restored, hsw.counted⟩
  have hpending {t : State} {p : State → Prop} (hsteps : Machine.grantSteps q.failover v.key x s = (t, .pending))
      (hstands : BoundStand s t) (hp : ∀ u, Ranks t u → p u) : done fun u => waits u ∧ p u :=
    ⟨_, asks.done hn hsteps, asks.waits hstands, hp _ (ranks_requestAnswered ..)⟩
  refine ⟨fun r hr hrx => ?shared, fun j hun hrole hx => ?adopted,
    fun j c hun hapart hmay hc hj hidle hparked => ?tuned, fun hun hnone hwhy => ?refused,
    fun j hun hapart hfail hbusy hrole hpend hlatest _ => ?preempted,
    fun j y hun hapart hfail hbusy hnosurvey hrole hst hy hless hleast _ => ?displaced⟩
  case shared =>
    have hshared : recordOf s x = some r := hrx ▸ recordOf_mem hrecord hr
    refine ⟨fun hlive ⟨c, hc, he⟩ => ?_, fun hother => ?_⟩
    · have hranks := ranks_requestAnswered q .granted s
      exact ⟨_, asks.done hn ((grantSteps_shared hshared).trans (by rw [if_pos hlive])),
        hswitched (asks.switches rfl rfl rfl hc he), hranks.sameSlots, hranks.sameCarriers, hranks.sameRecords⟩
    · exact hpending ((grantSteps_shared hshared).trans (by rw [if_neg hother])) (.refl s)
        fun u hu => ⟨hu.sameSlots, hu.sameCarriers, hu.sameRecords⟩
  case adopted =>
    have hadopts := grantAdoption_some hslots hrole hx
    refine ⟨fun hst => ?_, fun hst => ?_⟩
    · have hranks := ranks_requestAnswered q .granted (carryAdopted x j s)
      refine ⟨_, asks.done hn (grantSteps_adoption hun (hadopts.trans (grantAdoptionOf_locked hrole hx hst))),
        fun ⟨c, hc, he⟩ => hswitched ?_, ?_, fun k hk => ?_, ?_,
        (recordedAs_carryAdopted x j s).congr hranks.sameRecords⟩
      · obtain ⟨⟨g, hg⟩, hserv, hclock, hplan⟩ := carryAdopted_verified j hc (eligibleFor_iff.mp he).1
        exact asks.switches hserv hclock hplan hg he
      · rw [hranks.sameSlot, carryAdopted_slot, if_pos rfl]
        rfl
      · rw [hranks.sameSlot, carryAdopted_slot, if_neg hk]
      · rw [hranks.sameSched]
        exact carryAdopted_survey x j s
    · refine hpending (grantSteps_adoption hun (hadopts.trans (grantAdoptionOf_acquiring hrole hx hst)))
        (.of_services rfl) fun u hu => ⟨?_, fun k hk => ?_, (recordedAs_openRecord x j .adopting _).congr hu.sameRecords⟩
      · exact (hu.sameSlot j).trans ((slot_putSlot ..).trans (if_pos rfl))
      · exact (hu.sameSlot k).trans ((slot_putSlot ..).trans (if_neg (Ne.symm hk)))
  case tuned =>
    have hhead : s.freeSlots.head? = some j := freeSlots_head ((hfree j).mpr hj)
      (fun hst k hk hkfree => hidle hst k hk ((hfree k).mp hkfree))
      (fun hst k hkfree => hparked hst k ((hfree k).mp hkfree))
    have htune := grantTune_head hc hhead ((hfree j).mpr hj) hapart
    refine hpending (grantSteps_tune hun (hunadopted fun k hk => hapart k hk.2) htune hmay)
      ((boundStand_carryTuned x j c s).trans (.of_services rfl)) fun u hu => ?_
    have hslot (k : Fin 8) : u.slot k = _ := (hu.sameSlot k).trans (carryTuned_slot hc k)
    rw [hslot j, if_pos rfl]
    exact ⟨rfl, rfl, rfl, rfl, by simp [tunedSlot], fun k hk => (hslot k).trans (if_neg hk),
      (recordedAs_openRecord x j .acquiring _).congr hu.sameRecords⟩
  case refused =>
    have hsteps : Machine.grantSteps q.failover v.key x s = (s, .refused) := by
      obtain ⟨hplain, hwhy⟩ | ⟨hfail, hbusy, hnosurvey, hdemand⟩ := hwhy
      · rw [hplain]
        exact grantSteps_plain_refused hun (hunadopted hnone) (hwhy.imp_right hnofree)
      · have hpreempt : preemptable s = [] :=
          List.eq_nil_iff_forall_not_mem.mpr fun k hk => hnosurvey k (mem_preemptable.mp hk)
        have hdisplace : grantDisplace v.key x s = (s, none) := grantDisplace_none fun k z hk => by
          obtain ⟨hrole, hst, hz⟩ := mem_victims.mp hk
          exact hdemand k z hrole hst hz
        rw [hfail, grantSteps_unfree hun (hunadopted hnone) (hnofree hbusy), hpreempt, grantPreempt, orElseStep_next,
          hdisplace]
        rfl
    have hranks := ranks_requestAnswered q .refused s
    have hfree : inFlight (withdrawRequest q.service s) q.service = false := withdrawRequest_free ..
    refine ⟨_, asks.done hn hsteps, hranks.sameSlots, hranks.sameCarriers, hranks.sameRecords, fun hp => ?_,
      fun hp => ⟨fun b hb => ?_, fun hb => ?_⟩⟩
    · exact answered_refused_voluntary (s := withdrawRequest q.service s) hv hbound hdeferred hp
    · exact answered_refused_asks (s := withdrawRequest q.service s) hv hbound hdeferred hp hfree hb
    · exact answered_refused_step3 (s := withdrawRequest q.service s) hv hbound hdeferred hp hb
  case preempted =>
    have hj : j ∈ preemptable s := mem_preemptable.mpr ⟨hrole, hpend⟩
    obtain ⟨rest, hhead⟩ := preemptable_head hj fun k hk => by
      obtain ⟨hkrole, hkpend⟩ := mem_preemptable.mp hk
      exact hlatest k hkrole hkpend
    obtain ⟨y, hy, hworks⟩ := works_of_law hslots (j := j) (by rw [hrole]; simp)
    obtain ⟨reason, hpreempt⟩ := grantPreempt_head (x := x) (rest := rest) hworks
    obtain ⟨hstate, hfreed, -, hheld⟩ := releaseWork_held j reason s
    obtain ⟨hsurvey, hstands⟩ := releaseWork_surveyed hy hrole hpend reason
    refine hpending (t := openRecord x j .waitingSlot (releaseWork j true false reason true s))
      (by rw [hfail, grantSteps_unfree hun (hunadopted fun k hk => hapart k hk.2) (hnofree hbusy), hhead, hpreempt,
        orElseStep_done, Option.getD_some]) (hstands.trans (.of_services rfl)) fun u hu => ?_
    have hslot : u.slot j = (releaseWork j true false reason true s).slot j := hu.sameSlot j
    rw [hslot, hu.sameSched]
    exact ⟨hstate, hfreed, hheld, hsurvey, (recordedAs_openRecord x j .waitingSlot _).congr hu.sameRecords⟩
  case displaced =>
    have hpreempt : preemptable s = [] :=
      List.eq_nil_iff_forall_not_mem.mpr fun k hk => hnosurvey k (mem_preemptable.mp hk)
    have hhead := victimsOrdered_head (mem_victims.mpr ⟨hrole, hst, hy⟩) fun k z hk => by
      obtain ⟨hkrole, hkst, hz⟩ := mem_victims.mp hk
      exact hleast k z hkrole hkst hz
    have hleft : Displaced x j y s (displace x j y s) := displaced_displace hrole hst hy
    refine hpending (by rw [hfail, grantSteps_unfree hun (hunadopted fun k hk => hapart k hk.2) (hnofree hbusy), hpreempt,
      grantPreempt, orElseStep_next, grantDisplace_head hhead hless, Option.getD_some]) hleft.bound fun u hu => ?_
    rw [hu.sameSlot, hu.sameRecords]
    refine ⟨hleft.state, hleft.role, hleft.carrier, hleft.held, hleft.recorded.congr hu.sameRecords, hleft.closed ?_⟩
    rintro rfl
    exact hapart j hy

end Sys2Proof.Machine

/-! The family "Staging and committing the plan": the edits of the staged plan (R144 to R151), what the events of the blocks
and the host's commands leave alone (R145, R157, R167, R171), and what a commit makes of the other blocks (R101, R105, R106,
R109, R127, R152 to R154). -/

namespace Sys2Proof.Machine

/-! ## The edits of the staged plan (R145) -/

/-- R145: the edit an edit command makes; none for the other commands. -/
def editOf (t : Table Carrier) : HostCommand → Option (Plan → EditResult)
  | .setInput e => some (editInput e)
  | .setProfile e => some (editProfile e)
  | .addCarrier i freq f => some (editAdd i freq f)
  | .dropCarrier n => some (editDrop t n)
  | .setCarrier n f => some (editSet t n f)
  | .bindRoom e => some (editBind e)
  | .unbindRoom r => some (editUnbind r)
  | .setParams n v => some (editParams n v)
  | _ => none

/-- R165: the edit commands are those with codes 0x40 to 0x47. -/
theorem editOf_isSome_iff {t : Table Carrier} {c : HostCommand} :
    (editOf t c).isSome = true ↔ 0x40 ≤ (fieldsOf c).1 ∧ (fieldsOf c).1 ≤ 0x47 := by
  cases c <;> simp [editOf, fieldsOf]

theorem answerCommand_edit {c : HostCommand} {s : State} {f : Plan → EditResult} (hf : editOf s.carriers c = some f) :
    answerCommand c s =
      formReply (fieldsOf c).1 (applyEdit f s.plan).2 [] (s.setPlan (applyEdit f s.plan).1) := by
  cases c
  all_goals cases hf
  all_goals rfl

section
variable {c : HostCommand} {s : State} {f : Plan → EditResult} (hs : Ready s) (hc : c.wf = true)
  (hf : editOf s.carriers c = some f)
include hs hc hf

/-- R145: an edit that is refused or changes nothing. -/
theorem exec_edit_stays {code : ReplyCode} (h : f (editBase s.plan) = .stays code) :
    exec (rowOf c) s = .next (formReply (fieldsOf c).1 code [] s) := by
  rw [exec_rowOf_ready hs hc, answerCommand_edit hf, applyEdit, h]
  rfl

/-- R145: an edit that the staged plan takes. -/
theorem exec_edit_taken {p : Plan} {clamped : Bool} (h : f (editBase s.plan) = .edited p clamped) :
    exec (rowOf c) s = .next (formReply (fieldsOf c).1 (if clamped then .adjusted else .ok) []
      (s.setPlan { s.plan with staged := some p })) := by
  rw [exec_rowOf_ready hs hc, answerCommand_edit hf, applyEdit, h]

theorem exec_edit_exact {p : Plan} {exact : Bool} (h : f (editBase s.plan) = .edited p (!exact)) :
    exec (rowOf c) s = .next (formReply (fieldsOf c).1 (if exact then .ok else .adjusted) []
      (s.setPlan { s.plan with staged := some p })) := by
  rw [exec_edit_taken hs hc hf h]
  cases exact <;> rfl

end

/-! ## SET_INPUT and SET_PROFILE (R144, R146, R147) -/

theorem inputOf_eq_none_iff {n : Nat} : inputOf n = none ↔ 3 < n := by
  match n with
  | 0 | 1 | 2 | 3 => simp [inputOf]
  | n + 4 => simp [inputOf]

theorem classOf_eq_none_iff {n : Nat} : classOf n = none ↔ 3 < n := by
  match n with
  | 0 | 1 | 2 | 3 => simp [classOf]
  | n + 4 => simp [classOf]

theorem modulationOf_eq_none_iff {n : Nat} : modulationOf n = none ↔ 6 < n := by
  match n with
  | 0 | 1 | 2 | 3 | 4 | 5 | 6 => simp [modulationOf]
  | n + 7 => simp [modulationOf]

theorem codeRateOf_eq_none_iff {n : Nat} : codeRateOf n = none ↔ 9 < n := by
  match n with
  | 0 | 1 | 2 | 3 | 4 | 5 | 6 | 7 | 8 | 9 => simp [codeRateOf]
  | n + 10 => simp [codeRateOf]

theorem inputOf_of_le {n : Nat} (h : n ≤ 3) : ∃ x, inputOf n = some x :=
  Option.ne_none_iff_exists'.mp fun hnone => absurd (inputOf_eq_none_iff.mp hnone) (by omega)

theorem moved_eq_true_iff {a b : Nat} : moved a b = true ↔ a ≠ b := by simp [moved]

theorem moved_eq_false_iff {a b : Nat} : moved a b = false ↔ a = b := by simp [moved]

/-- R146: a planned carrier stands outside the band of its input's new class. -/
theorem strandsCarrier_iff {p : Plan} {x : RfInput} {cls : InputClass} :
    strandsCarrier p x cls = true ↔ ∃ q ∈ p.carriers, q.input = x ∧ ¬ inBand cls q.freq = true := by
  simp [strandsCarrier]

section
variable {e : InputEdit} {p : Plan}

theorem editInput_badIndex (h : 3 < e.input) : editInput e p = .stays .badIndex := by
  simp only [editInput, inputOf_eq_none_iff.mpr h]

variable {x : RfInput} (hx : inputOf e.input = some x)
include hx

theorem editInput_badValue (h : 3 < e.cls) : editInput e p = .stays .badValue := by
  simp only [editInput, hx, classOf_eq_none_iff.mpr h]

variable {cls : InputClass} (hcls : classOf e.cls = some cls)
include hcls

theorem editInput_outOfBand (h : strandsCarrier p x cls = true) : editInput e p = .stays .outOfBand := by
  simp only [editInput, hx, hcls, h, if_true]

/-- R146: the input record of a SET_INPUT that is taken. -/
theorem editInput_taken (h : strandsCarrier p x cls = false) :
    editInput e p = .edited
      { p with
        inputs := p.inputs.set (inputCode x)
          { cls := cls, bias := max (-50) (min 50 e.bias),
            winMin := if flagOf e.windowPresent then min e.winMin 1200 else (defaultWindow cls).1,
            winMax := if flagOf e.windowPresent then min e.winMax 1200 else (defaultWindow cls).2,
            discovery := flagOf e.discovery } }
      (decide (max (-50) (min 50 e.bias) ≠ e.bias) ||
        (flagOf e.windowPresent && decide (1200 < e.winMin ∨ 1200 < e.winMax))) := by
  have hwindow : (flagOf e.windowPresent &&
      (moved (if flagOf e.windowPresent then min e.winMin 1200 else (defaultWindow cls).1) e.winMin ||
        moved (if flagOf e.windowPresent then min e.winMax 1200 else (defaultWindow cls).2) e.winMax)) =
          (flagOf e.windowPresent && decide (1200 < e.winMin ∨ 1200 < e.winMax)) := by
    cases flagOf e.windowPresent with
    | false => rfl
    | true =>
      rw [Bool.eq_iff_iff]
      simp only [if_true, Bool.true_and, Bool.or_eq_true, moved_eq_true_iff, decide_eq_true_eq]
      omega
  simp only [editInput, hx, hcls, h, Bool.false_eq_true, if_false, clampInt_eq_max_min (show (-50 : Int) ≤ 50 by decide),
    hwindow]

end

section
variable {e : ProfileEdit} {p : Plan}

theorem editProfile_badIndex (h : 7 < e.profile) : editProfile e p = .stays .badIndex :=
  dif_neg (by omega)

variable (hp : e.profile < 8)
include hp

theorem editProfile_badValue (h : 6 < e.modulation ∨ 9 < e.codeRate) : editProfile e p = .stays .badValue := by
  rw [editProfile, dif_pos hp]
  split
  · next m r hm hr =>
    rcases h with h | h
    · rw [modulationOf_eq_none_iff.mpr h] at hm
      cases hm
    · rw [codeRateOf_eq_none_iff.mpr h] at hr
      cases hr
  · rfl

/-- R147: the profile of a SET_PROFILE that is taken. -/
theorem editProfile_taken {m : Modulation} {r : CodeRate} (hm : modulationOf e.modulation = some m)
    (hr : codeRateOf e.codeRate = some r) :
    let profile : Profile :=
      { modulation := m, codeRate := r, reqMer := min 350 e.reqMer, lockTimeout := max 100 (min 5000 e.lockTimeout),
        k := max 10 (min 16 e.k) }
    editProfile e p = .edited { p with profiles := p.profiles.set e.profile profile hp }
      (!decide (profile.reqMer = e.reqMer ∧ profile.lockTimeout = e.lockTimeout ∧ profile.k = e.k)) := by
  have hq : clampNat e.reqMer 0 350 = min 350 e.reqMer := by simp [clampNat]
  simp only [editProfile, dif_pos hp, hm, hr, hq, clampNat_eq_max_min (show 100 ≤ 5000 by decide),
    clampNat_eq_max_min (show 10 ≤ 16 by decide), moved, Bool.decide_and, Bool.not_and, decide_not, Bool.or_assoc]

end

/-- R144: the band of a class. -/
theorem inBand_iff (cls : InputClass) (freq : Nat) :
    inBand cls freq = true ↔
      (match cls with | .terrestrial => 174000 | .satellite => 950000 | .cable => 108000 | .disabled => 1) ≤ freq ∧
        freq ≤ (match cls with | .terrestrial => 862000 | .satellite => 2150000 | .cable => 862000 | .disabled => 0) := by
  cases cls
  case disabled => simp [inBand]; omega
  all_goals simp [inBand]

/-- Settles O28: the refusals and the records by the lemmas on `editInput` and `editProfile`. -/
theorem inputAndProfileEdits : Obligations.InputAndProfileEdits := by
  unfold Obligations.InputAndProfileEdits
  refine ⟨fun s e he hs => ?input, fun s e he hs => ?profile⟩
  case input =>
    intro base refused
    have stays {code : ReplyCode} (h : editInput e base = .stays code) : refused code :=
      exec_edit_stays (c := .setInput e) hs he rfl h
    refine ⟨fun h => stays (editInput_badIndex h), fun hi h => ?_, fun x cls hx hcls => ?_⟩
    · obtain ⟨x, hx⟩ := inputOf_of_le hi
      exact stays (editInput_badValue hx h)
    · intro low high window given bias clamped record
      have hstrands : strandsCarrier base x cls = true ↔
          ∃ q ∈ base.carriers, q.input = x ∧ ¬ (low ≤ q.freq ∧ q.freq ≤ high) := by
        simp only [strandsCarrier_iff, inBand_iff]
        rfl
      refine ⟨fun h => stays (editInput_outOfBand hx hcls (hstrands.mpr h)), fun h => ?_⟩
      have hfits : strandsCarrier base x cls = false := by
        rw [Bool.eq_false_iff, Ne, hstrands]
        rintro ⟨q, hq, hinput, hout⟩
        exact hout (h q hq hinput)
      have hwindow : window = defaultWindow cls := by cases cls <;> rfl
      have hrecord : record =
          { cls := cls, bias := max (-50) (min 50 e.bias),
            winMin := if flagOf e.windowPresent then min e.winMin 1200 else (defaultWindow cls).1,
            winMax := if flagOf e.windowPresent then min e.winMax 1200 else (defaultWindow cls).2,
            discovery := flagOf e.discovery } := by
        simp only [record, hwindow, given, bias]
      rw [hrecord]
      exact exec_edit_taken (c := .setInput e) hs he rfl (editInput_taken hx hcls hfits)
  case profile =>
    intro base refused
    have stays {code : ReplyCode} (h : editProfile e base = .stays code) : refused code :=
      exec_edit_stays (c := .setProfile e) hs he rfl h
    refine ⟨fun h => stays (editProfile_badIndex h), fun hp h => stays (editProfile_badValue (by omega) h),
      fun hp m r hm hr => exec_edit_exact (c := .setProfile e) hs he rfl (editProfile_taken hp hm hr)⟩

/-! ## Planned carriers (R148, R149) -/

theorem names_iff {p : Plan} {x : RfInput} {freq : Nat} :
    p.names x freq = true ↔ ∃ q ∈ p.carriers, q.input = x ∧ q.freq = freq := by
  simp [Plan.names, hasKey_iff]

theorem fieldsClamped_iff {f : CarrierFields} :
    fieldsClamped f = true ↔ f.symRate < 1000 ∨ 45000 < f.symRate ∨ 7 < f.profile := by
  rw [fieldsClamped, Bool.or_eq_true, moved_eq_true_iff, decide_eq_true_eq, clampRate, clampNat]
  omega

/-- R148: the record of a planned carrier, its symbol rate clamped. -/
theorem plannedOf_eq (x : RfInput) (freq : Nat) (f : CarrierFields) :
    plannedOf x freq f =
      { input := x, freq := freq, symRate := max 1000 (min 45000 f.symRate), profile := clampProfile f.profile,
        expected := if flagOf f.idPresent then some { origin := f.origin, transport := f.transport } else none,
        excluded := flagOf f.excluded } := by
  simp only [plannedOf, clampRate, clampNat_eq_max_min (show 1000 ≤ 45000 by decide), givenIdentity]

section
variable {input freq : Nat} {f : CarrierFields} {p : Plan}

theorem editAdd_badIndex (h : 3 < input) : editAdd input freq f p = .stays .badIndex := by
  simp only [editAdd, inputOf_eq_none_iff.mpr h]

variable {x : RfInput} (hx : inputOf input = some x)
include hx

theorem editAdd_outOfBand (h : inBand (p.inputCfg x).cls freq = false) :
    editAdd input freq f p = .stays .outOfBand := by
  simp only [editAdd, hx, h, if_true]

variable (hband : inBand (p.inputCfg x).cls freq = true)
include hband

theorem editAdd_duplicate (h : p.names x freq = true) : editAdd input freq f p = .stays .duplicate := by
  simp only [editAdd, hx, hband, h, Bool.true_eq_false, if_false, if_true]

variable (hnew : p.names x freq = false)
include hnew

theorem editAdd_tableFull (h : 96 ≤ p.carriers.length) : editAdd input freq f p = .stays .tableFull := by
  simp only [editAdd, hx, hband, hnew, maxPlanned, h, Bool.true_eq_false, Bool.false_eq_true, if_false, if_true]

theorem editAdd_taken (h : p.carriers.length < 96) :
    editAdd input freq f p =
      .edited { p with carriers := p.carriers ++ [plannedOf x freq f] } (fieldsClamped f) := by
  simp only [editAdd, hx, hband, hnew, maxPlanned, Nat.not_le.mpr h, Bool.true_eq_false, Bool.false_eq_true, if_false]

end

/-- R149: the key a command names by input and frequency. -/
theorem namedKey_of_key {t : Table Carrier} {n : CarrierName} (h : n.form = 0) :
    namedKey t n = (inputOf n.target).map fun x => (x, n.freq) := by
  simp [namedKey, flagOf, h]

/-- R149: the key of the live entry a command names by index. -/
theorem namedKey_of_index {t : Table Carrier} {n : CarrierName} (h : n.form = 1) :
    namedKey t n =
      if n.target < 96 then (tabGet t n.target).map fun c => (c.input, c.freq) else none := by
  rw [namedKey, h]
  rfl

section
variable {t : Table Carrier} {n : CarrierName} {p : Plan}

theorem editDrop_badIndex (h : namedKey t n = none) : editDrop t n p = .stays .badIndex := by
  simp only [editDrop, h]

theorem editSet_badIndex (f : CarrierFields) (h : namedKey t n = none) : editSet t n f p = .stays .badIndex := by
  simp only [editSet, h]

variable {x : RfInput} {freq : Nat} (hk : namedKey t n = some (x, freq))
include hk

theorem editDrop_noChange (h : p.names x freq = false) : editDrop t n p = .stays .noChange := by
  simp only [editDrop, hk, h, Bool.false_eq_true, if_false]

theorem editDrop_taken (h : p.names x freq = true) :
    editDrop t n p = .edited { p with carriers := p.carriers.filter fun q => !hasKey x freq q } false := by
  simp only [editDrop, hk, h, if_true]

theorem editSet_unnamed (f : CarrierFields) (h : p.names x freq = false) : editSet t n f p = .stays .badIndex := by
  simp only [editSet, hk, h, Bool.false_eq_true, if_false]

theorem editSet_taken (f : CarrierFields) (h : p.names x freq = true) :
    editSet t n f p = .edited
      { p with carriers := p.carriers.map fun q => if q.input = x ∧ q.freq = freq then plannedOf x freq f else q }
      (fieldsClamped f) := by
  simp only [editSet, hk, h, if_true, hasKey_iff]

end

/-- Settles O29: the refusals and the records by the lemmas on `editAdd`, `editDrop` and `editSet`. -/
theorem plannedCarrierEdits : Obligations.PlannedCarrierEdits := by
  unfold Obligations.PlannedCarrierEdits
  intro s f hfields hs base staged code record named
  have hnamed {x : RfInput} {freq : Nat} : base.names x freq = true ↔ named x freq := names_iff
  have hunnamed {x : RfInput} {freq : Nat} (h : ¬ named x freq) : base.names x freq = false :=
    Bool.eq_false_iff.mpr (mt hnamed.mp h)
  have hrecord (x : RfInput) (freq : Nat) : plannedOf x freq f = record x freq := plannedOf_eq x freq f
  have hcode : (if fieldsClamped f then ReplyCode.adjusted else .ok) = code := if_congr fieldsClamped_iff rfl rfl
  refine ⟨fun input freq hinput hfreq => ?add, fun n hn => ?named⟩
  case add =>
    intro answered
    have hwf : (HostCommand.addCarrier input freq f).wf = true := by
      simp [HostCommand.wf, fitsByte, fitsLong, hinput, hfreq, hfields]
    have stays {c : ReplyCode} (h : editAdd input freq f base = .stays c) : answered c s :=
      exec_edit_stays hs hwf rfl h
    refine ⟨fun h => stays (editAdd_badIndex h), fun x hx => ⟨fun h => stays (editAdd_outOfBand hx h), fun hband =>
      ⟨fun h => stays (editAdd_duplicate hx hband (hnamed.mpr h)),
        fun hnew h => stays (editAdd_tableFull hx hband (hunnamed hnew) h), fun hnew h => ?_⟩⟩⟩
    have htaken := exec_edit_taken (c := .addCarrier input freq f) hs hwf rfl
      (editAdd_taken (f := f) hx hband (hunnamed hnew) h)
    rw [hcode, hrecord] at htaken
    exact htaken
  case named =>
    intro drop set
    have hwf : (HostCommand.setCarrier n f).wf = true := by simp [HostCommand.wf, hn, hfields]
    have dropStays {c : ReplyCode} (h : editDrop s.carriers n base = .stays c) : drop c s :=
      exec_edit_stays (c := .dropCarrier n) hs hn rfl h
    have setStays {c : ReplyCode} (h : editSet s.carriers n f base = .stays c) : set c s :=
      exec_edit_stays (c := .setCarrier n f) hs hwf rfl h
    refine ⟨fun h => ?unknown, fun x freq h => ?known⟩
    case unknown =>
      have hkey : namedKey s.carriers n = none := by
        obtain ⟨hform, htarget⟩ | ⟨hform, htarget | hfree⟩ := h
        · rw [namedKey_of_key hform, inputOf_eq_none_iff.mpr htarget]
          rfl
        · rw [namedKey_of_index hform, if_neg (by omega)]
        · rw [namedKey_of_index hform, hfree]
          exact ite_self _
      exact ⟨dropStays (editDrop_badIndex hkey), setStays (editSet_badIndex f hkey)⟩
    case known =>
      have hkey : namedKey s.carriers n = some (x, freq) := by
        obtain ⟨hform, hx, rfl⟩ | ⟨hform, htarget, c, hc, rfl, rfl⟩ := h
        · rw [namedKey_of_key hform, hx]
          rfl
        · rw [namedKey_of_index hform, if_pos (by omega), hc]
          rfl
      refine ⟨fun h => ⟨exec_edit_taken (c := .dropCarrier n) hs hn rfl (editDrop_taken hkey (hnamed.mpr h)), ?_⟩,
        fun h => ⟨dropStays (editDrop_noChange hkey (hunnamed h)), setStays (editSet_unnamed hkey f (hunnamed h))⟩⟩
      have htaken := exec_edit_taken (c := .setCarrier n f) hs hwf rfl (editSet_taken hkey f (hnamed.mpr h))
      rw [hcode, hrecord] at htaken
      exact htaken

/-! ## Bindings and parameters (R150, R151) -/

section
variable {e : BindEdit} {p : Plan}

theorem editBind_badIndex (h : 47 < e.room) : editBind e p = .stays .badIndex :=
  dif_neg (by omega)

variable (hr : e.room < 48)
include hr

theorem editBind_badValue (h : givenKey e.primaryPresent e.primaryOrigin e.primaryNumber =
    givenKey e.fallbackPresent e.fallbackOrigin e.fallbackNumber) : editBind e p = .stays .badValue := by
  simp only [editBind, dif_pos hr, h, if_true]

/-- R150: the binding of a BIND_ROOM that is taken. -/
theorem editBind_taken (h : givenKey e.primaryPresent e.primaryOrigin e.primaryNumber ≠
    givenKey e.fallbackPresent e.fallbackOrigin e.fallbackNumber) :
    editBind e p = .edited
      { p with
        bindings := p.bindings.set e.room
          { primary := givenKey e.primaryPresent e.primaryOrigin e.primaryNumber,
            fallback := givenKey e.fallbackPresent e.fallbackOrigin e.fallbackNumber, priority := min 3 e.priority } hr }
      (decide (3 < e.priority)) := by
  have hclamped : moved (min e.priority 3) e.priority = decide (3 < e.priority) := by
    rw [Bool.eq_iff_iff, moved_eq_true_iff, decide_eq_true_eq]
    omega
  simp only [editBind, dif_pos hr, h, if_false, hclamped, Nat.min_comm 3]

end

section
variable {r : Nat} {p : Plan}

theorem editUnbind_badIndex (h : 47 < r) : editUnbind r p = .stays .badIndex :=
  dif_neg (by omega)

theorem editUnbind_noChange (hr : r < 48) (h : (p.bindings[r]).primary = none ∧ (p.bindings[r]).fallback = none) :
    editUnbind r p = .stays .noChange := by
  simp only [editUnbind, dif_pos hr, h, and_self, if_true]

theorem editUnbind_taken (hr : r < 48) (h : ¬ ((p.bindings[r]).primary = none ∧ (p.bindings[r]).fallback = none)) :
    editUnbind r p = .edited { p with bindings := p.bindings.set r Binding.reset hr } false := by
  simp only [editUnbind, dif_pos hr, h, if_false]

end

theorem paramRange_eq_none {n : Nat} (h : 9 < n) : paramRange n = none := by
  match n with
  | 0 | 1 | 2 | 3 | 4 | 5 | 6 | 7 | 8 | 9 => omega
  | n + 10 => rfl

/-- R151: a parameter with a range takes the value clamped; the reply is OK when nothing was clamped or lowered. -/
theorem editParams_taken {n v lo hi : Nat} {p : Plan} (hr : paramRange n = some (lo, hi)) (hle : lo ≤ hi) {exact : Bool}
    (hexact : exact = true ↔ lo ≤ v ∧ v ≤ hi ∧ crossClamped n (max lo (min hi v)) p.params = false) :
    editParams n v p = .edited { p with params := setParam n (max lo (min hi v)) p.params } (!exact) := by
  have hmoved : exact = !(moved (max lo (min hi v)) v || crossClamped n (max lo (min hi v)) p.params) := by
    rw [Bool.eq_iff_iff, hexact, Bool.not_eq_true', Bool.or_eq_false_iff, moved_eq_false_iff, ← and_assoc]
    refine and_congr_left fun _ => ?_
    omega
  simp only [editParams, hr, clampNat_eq_max_min hle, hmoved, Bool.not_not]

theorem exec_setParams {s : State} {n v lo hi : Nat} (hn : n < 256) (hv : v < 65536) (hs : Ready s)
    (hr : paramRange n = some (lo, hi)) (hle : lo ≤ hi) {exact : Bool}
    (hexact : exact = true ↔ lo ≤ v ∧ v ≤ hi ∧ crossClamped n (max lo (min hi v)) (editBase s.plan).params = false) :
    exec (.setParams n v) s = .next (formReply 0x47 (if exact then .ok else .adjusted) []
      (s.setPlan { s.plan with staged := some { editBase s.plan with
        params := setParam n (max lo (min hi v)) (editBase s.plan).params } })) :=
  exec_edit_exact (c := .setParams n v) hs (by simp [HostCommand.wf, fitsByte, fitsWord, hn, hv]) rfl
    (editParams_taken hr hle hexact)

/-- Settles O30: the bindings by the lemmas on `editBind` and `editUnbind`, the ten parameters by `exec_setParams`. -/
theorem bindingAndParameterEdits : Obligations.BindingAndParameterEdits := by
  unfold Obligations.BindingAndParameterEdits
  refine ⟨fun s hs => ?bindings, fun s n v hn hv hs => ?params⟩
  case bindings =>
    intro base staged key
    refine ⟨fun e he => ?bind, fun r hr => ?unbind⟩
    case bind =>
      intro primary fallback
      refine ⟨fun h => exec_edit_stays (c := .bindRoom e) hs he rfl (editBind_badIndex h),
        fun hr h => exec_edit_stays (c := .bindRoom e) hs he rfl (editBind_badValue (by omega) h), fun hr h => ?_⟩
      have htaken := exec_edit_taken (c := .bindRoom e) hs he rfl (editBind_taken (p := editBase s.plan) hr h)
      simp only [decide_eq_true_eq] at htaken
      exact htaken
    case unbind =>
      have hwf : (HostCommand.unbindRoom r).wf = true := decide_eq_true hr
      exact ⟨fun h => exec_edit_stays hs hwf rfl (editUnbind_badIndex h), fun h =>
        ⟨fun hfree => exec_edit_stays hs hwf rfl (editUnbind_noChange h hfree),
          fun hbound => exec_edit_taken hs hwf rfl (editUnbind_taken h hbound)⟩⟩
  case params =>
    intro base q answered within
    refine ⟨fun h => ?above, ?_, ?_, ?_, ?_, ?_, ?_, ?_, ?_, ?_, ?_⟩
    case above =>
      refine exec_edit_stays (c := .setParams n v) hs (by simp [HostCommand.wf, fitsByte, fitsWord, hn, hv]) rfl ?_
      rw [editParams, paramRange_eq_none h]
    all_goals
      rintro rfl
      refine exec_setParams hn hv hs rfl (by decide) ?_
      simp only [crossClamped, decide_eq_true_eq, decide_eq_false_iff_not, Nat.not_lt, Nat.zero_le, true_and, and_true]
    · exact Iff.rfl
    · exact Iff.rfl

/-! ## An edit touches the staged plan alone (R145) -/

/-- R145, R165: an edit that leaves the plan store as it is answers neither OK nor ADJUSTED. -/
def AnswersEdit (r : EditResult) : Prop := r ≠ .stays .ok ∧ r ≠ .stays .adjusted

theorem answersEdit_edited (p : Plan) (clamped : Bool) : AnswersEdit (.edited p clamped) := ⟨nofun, nofun⟩

theorem answersEdit_editInput (e : InputEdit) (p : Plan) : AnswersEdit (editInput e p) := by
  unfold editInput
  split
  · exact ⟨nofun, nofun⟩
  · split
    · exact ⟨nofun, nofun⟩
    · split
      · exact ⟨nofun, nofun⟩
      · exact answersEdit_edited ..

theorem answersEdit_editProfile (e : ProfileEdit) (p : Plan) : AnswersEdit (editProfile e p) := by
  unfold editProfile
  split
  · split
    · exact answersEdit_edited ..
    · exact ⟨nofun, nofun⟩
  · exact ⟨nofun, nofun⟩

theorem answersEdit_editAdd (input freq : Nat) (f : CarrierFields) (p : Plan) :
    AnswersEdit (editAdd input freq f p) := by
  unfold editAdd
  split
  · exact ⟨nofun, nofun⟩
  · split
    · exact ⟨nofun, nofun⟩
    · split
      · exact ⟨nofun, nofun⟩
      · split
        · exact ⟨nofun, nofun⟩
        · exact answersEdit_edited ..

theorem answersEdit_editDrop (t : Table Carrier) (n : CarrierName) (p : Plan) : AnswersEdit (editDrop t n p) := by
  unfold editDrop
  split
  · exact ⟨nofun, nofun⟩
  · split
    · exact answersEdit_edited ..
    · exact ⟨nofun, nofun⟩

theorem answersEdit_editSet (t : Table Carrier) (n : CarrierName) (f : CarrierFields) (p : Plan) :
    AnswersEdit (editSet t n f p) := by
  unfold editSet
  split
  · exact ⟨nofun, nofun⟩
  · split
    · exact answersEdit_edited ..
    · exact ⟨nofun, nofun⟩

theorem answersEdit_editBind (e : BindEdit) (p : Plan) : AnswersEdit (editBind e p) := by
  unfold editBind
  split
  · dsimp only
    split
    · exact ⟨nofun, nofun⟩
    · exact answersEdit_edited ..
  · exact ⟨nofun, nofun⟩

theorem answersEdit_editUnbind (r : Nat) (p : Plan) : AnswersEdit (editUnbind r p) := by
  unfold editUnbind
  split
  · dsimp only
    split
    · exact ⟨nofun, nofun⟩
    · exact answersEdit_edited ..
  · exact ⟨nofun, nofun⟩

theorem answersEdit_editParams (n v : Nat) (p : Plan) : AnswersEdit (editParams n v p) := by
  unfold editParams
  split
  · exact ⟨nofun, nofun⟩
  · exact answersEdit_edited ..

theorem editOf_answersEdit {t : Table Carrier} {c : HostCommand} {f : Plan → EditResult} (hf : editOf t c = some f)
    (p : Plan) : AnswersEdit (f p) := by
  cases c with
  | setInput e => cases hf; exact answersEdit_editInput e p
  | setProfile e => cases hf; exact answersEdit_editProfile e p
  | addCarrier i freq g => cases hf; exact answersEdit_editAdd i freq g p
  | dropCarrier n => cases hf; exact answersEdit_editDrop t n p
  | setCarrier n g => cases hf; exact answersEdit_editSet t n g p
  | bindRoom e => cases hf; exact answersEdit_editBind e p
  | unbindRoom r => cases hf; exact answersEdit_editUnbind r p
  | setParams n v => cases hf; exact answersEdit_editParams n v p
  | _ => cases hf

/-- Settles O27: the edit stays, with a code by `editOf_answersEdit`, or is taken by the staged plan. -/
theorem editsTouchOnlyTheStagedPlan : Obligations.EditsTouchOnlyTheStagedPlan := by
  unfold Obligations.EditsTouchOnlyTheStagedPlan
  intro c s hc hs hlow hhigh
  obtain ⟨f, hf⟩ := Option.isSome_iff_exists.mp (editOf_isSome_iff (t := s.carriers).mpr ⟨hlow, hhigh⟩)
  cases h : f (editBase s.plan) with
  | stays code =>
    obtain ⟨hok, hadjusted⟩ := editOf_answersEdit hf (editBase s.plan)
    exact .inl ⟨code, fun e => hok (e ▸ h), fun e => hadjusted (e ▸ h), exec_edit_stays hs hc hf h⟩
  | edited p clamped =>
    refine .inr ⟨_, p, ?_, exec_edit_taken hs hc hf h⟩
    cases clamped
    · exact .inl rfl
    · exact .inr rfl

/-! ## What a command leaves alone (R145, R157, R167, R171) -/

/-- What command `c` leaves alone of state `s`: the waiting commands, the clock, the receiver and the transmitter, and what
no command of its kind is made for. -/
structure CommandFrame (c : HostCommand) (s t : State) : Prop where
  pending : t.pending = s.pending
  clock : t.clock = s.clock
  rx : t.link.rx = s.link.rx
  gap : t.link.gap = s.link.gap
  buffer : t.link.buffer = s.link.buffer
  sending : t.link.sending = s.link.sending
  committed : c ≠ .commitPlan → t.plan.committed = s.plan.committed ∧ t.plan.last = s.plan.last
  plan : (fieldsOf c).1 < 0x40 ∨ 0x49 < (fieldsOf c).1 → t.plan = s.plan
  mode : (fieldsOf c).1 ≠ 0x31 → t.sched.mode = s.sched.mode
  alertMode : (fieldsOf c).1 ≠ 0x53 → t.watches.mode = s.watches.mode
  mask : (fieldsOf c).1 ≠ 0x13 → t.link.mask = s.link.mask
  frozen : (fieldsOf c).1 ≠ 0x14 → (fieldsOf c).1 ≠ 0x15 → t.link.frozen = s.link.frozen
  restart : (fieldsOf c).1 ≠ 0x12 → t.link.restart = s.link.restart
  query : (fieldsOf c).1 < 0x30 → t = s.setLink t.link
  edit : 0x40 ≤ (fieldsOf c).1 → (fieldsOf c).1 ≤ 0x47 → t = (s.setPlan t.plan).setLink t.link
  watch : 0x50 ≤ (fieldsOf c).1 → t = (s.setWatches t.watches).setLink t.link

section
variable {c : HostCommand} {s : State}

theorem CommandFrame.refl (c : HostCommand) (s : State) : CommandFrame c s s :=
  ⟨rfl, rfl, rfl, rfl, rfl, rfl, fun _ => ⟨rfl, rfl⟩, fun _ => rfl, fun _ => rfl, fun _ => rfl, fun _ => rfl,
    fun _ _ => rfl, fun _ => rfl, fun _ => rfl, fun _ _ => rfl, fun _ => rfl⟩

/-- R165, R168: the reply and the flags of the link belong to every command. -/
theorem CommandFrame.answered {t : State} (h : CommandFrame c s t) (reply : Option Reply) (flags : LinkFlags) :
    CommandFrame c s (t.setLink { t.link with reply := reply, flags := flags }) := by
  have hset {u : State} (hu : t = u) := congrArg (State.setLink { t.link with reply := reply, flags := flags }) hu
  exact ⟨h.pending, h.clock, h.rx, h.gap, h.buffer, h.sending, h.committed, h.plan, h.mode, h.alertMode, h.mask, h.frozen,
    h.restart, fun hc => (hset (h.query hc) :), fun hc hc' => (hset (h.edit hc hc') :), fun hc => (hset (h.watch hc) :)⟩

/-- What the blocks do in the end of a command of the surveys, the slots or of a commit. -/
theorem CommandFrame.evolves {t u : State} (h : CommandFrame c s t) (k : Evolves t u)
    (hc : 0x30 ≤ (fieldsOf c).1 ∧ (fieldsOf c).1 < 0x40 ∨ (fieldsOf c).1 = 0x48) : CommandFrame c s u where
  pending := k.pending.trans h.pending
  clock := k.clock.trans h.clock
  rx := k.link.rx.trans h.rx
  gap := k.link.gap.trans h.gap
  buffer := k.link.buffer.trans h.buffer
  sending := k.link.sending.trans h.sending
  committed hne := k.plan ▸ h.committed hne
  plan hne := k.plan.trans (h.plan hne)
  mode hne := k.mode.trans (h.mode hne)
  alertMode hne := k.alertMode.trans (h.alertMode hne)
  mask hne := k.link.mask.trans (h.mask hne)
  frozen hne hne' := k.link.frozen.trans (h.frozen hne hne')
  restart hne := k.link.restart.trans (h.restart hne)
  query := by omega
  edit := by omega
  watch := by omega

/-- A command of the link: SET_NOTICES, FREEZE and THAW, RESTART. -/
theorem commandFrame_setLink {mask : BitVec 8} {frozen : Option FrozenView} {restart : RestartPhase}
    (hc : (fieldsOf c).1 < 0x30) (hmask : (fieldsOf c).1 ≠ 0x13 → mask = s.link.mask)
    (hfrozen : (fieldsOf c).1 ≠ 0x14 → (fieldsOf c).1 ≠ 0x15 → frozen = s.link.frozen)
    (hrestart : (fieldsOf c).1 ≠ 0x12 → restart = s.link.restart) :
    CommandFrame c s (s.setLink { s.link with mask := mask, frozen := frozen, restart := restart }) :=
  ⟨rfl, rfl, rfl, rfl, rfl, rfl, fun _ => ⟨rfl, rfl⟩, fun _ => rfl, fun _ => rfl, fun _ => rfl, hmask, hfrozen, hrestart,
    fun _ => rfl, by omega, by omega⟩

/-- What a command of the surveys does to the scheduler first. -/
theorem commandFrame_setSched {x : Scheduler} (hc : 0x30 ≤ (fieldsOf c).1 ∧ (fieldsOf c).1 < 0x40)
    (hmode : (fieldsOf c).1 ≠ 0x31 → x.mode = s.sched.mode) : CommandFrame c s (s.setSched x) :=
  ⟨rfl, rfl, rfl, rfl, rfl, rfl, fun _ => ⟨rfl, rfl⟩, fun _ => rfl, hmode, fun _ => rfl, fun _ => rfl, fun _ _ => rfl,
    fun _ => rfl, by omega, by omega, by omega⟩

/-- An edit of the plan, and DISCARD_PLAN. -/
theorem commandFrame_setPlan {x : PlanStore} (hc : 0x40 ≤ (fieldsOf c).1 ∧ (fieldsOf c).1 ≤ 0x49)
    (hx : c ≠ .commitPlan → x.committed = s.plan.committed ∧ x.last = s.plan.last) : CommandFrame c s (s.setPlan x) :=
  ⟨rfl, rfl, rfl, rfl, rfl, rfl, hx, by omega, fun _ => rfl, fun _ => rfl, fun _ => rfl, fun _ _ => rfl, fun _ => rfl,
    by omega, fun _ _ => rfl, by omega⟩

/-- A command of the watch unit. -/
theorem commandFrame_setWatches {u : WatchUnit} (hc : 0x50 ≤ (fieldsOf c).1)
    (hmode : (fieldsOf c).1 ≠ 0x53 → u.mode = s.watches.mode) : CommandFrame c s (s.setWatches u) :=
  ⟨rfl, rfl, rfl, rfl, rfl, rfl, fun _ => ⟨rfl, rfl⟩, fun _ => rfl, fun _ => rfl, hmode, fun _ => rfl, fun _ _ => rfl,
    fun _ => rfl, by omega, by omega, fun _ => rfl⟩

end

/-! ### Commands without an effect of their own -/

theorem doGetCarrier_state (i : Nat) (s : State) : (doGetCarrier i s).state = s := by
  unfold doGetCarrier
  split
  · split <;> rfl
  · rfl

theorem doListCarriers_state (i : Nat) (s : State) : (doListCarriers i s).state = s := by
  unfold doListCarriers
  split <;> rfl

theorem doGetService_state (i : Nat) (s : State) : (doGetService i s).state = s := by
  unfold doGetService
  split <;> rfl

theorem doGetRoom_state (r : Nat) (s : State) : (doGetRoom r s).state = s := by
  unfold doGetRoom
  split <;> rfl

theorem doGetSlot_state (i : Nat) (s : State) : (doGetSlot i s).state = s := by
  unfold doGetSlot
  split <;> rfl

/-! ### Commands of the surveys and the slots -/

theorem commandFrame_surveyNow (i : Nat) (s : State) : CommandFrame (.surveyNow i) s (doSurveyNow i s).state := by
  have hasks (l : List Nat) :
      CommandFrame (.surveyNow i) s (settle (searchDue (modSched (fun c => { c with urgent := l }) s))) :=
    (commandFrame_setSched (x := { s.sched with urgent := l }) (by simp [fieldsOf]) fun _ => rfl).evolves
      ((evolves_searchDue _).trans (evolves_settle _)) (by simp [fieldsOf])
  unfold doSurveyNow
  split
  · split
    · exact .refl _ s
    · split
      · exact .refl _ s
      · split
        · exact .refl _ s
        · split
          · exact .refl _ s
          · split
            · exact .refl _ s
            · exact hasks _
  · exact .refl _ s

theorem commandFrame_setSurveyMode (m : Nat) (s : State) :
    CommandFrame (.setSurveyMode m) s (doSetSurveyMode m s).state := by
  have hmode (mode : SurveyMode) : CommandFrame (.setSurveyMode m) s (modSched (fun c => { c with mode := mode }) s) :=
    commandFrame_setSched (by simp [fieldsOf]) fun h => absurd rfl h
  unfold doSetSurveyMode
  split
  · exact .refl _ s
  · exact (hmode .run).evolves ((evolves_searchDue _).trans (evolves_settle _)) (by simp [fieldsOf])
  · exact hmode .hold
  · exact .refl _ s
  · exact .refl _ s

theorem commandFrame_slotOffline (i : Nat) (s : State) :
    CommandFrame (.slotOffline i) s (doSlotOffline i s).state := by
  unfold doSlotOffline
  split
  · next hi =>
    have hgoes := evolves_slotGoOffline ⟨i, hi⟩ s
    split
    · next s1 he =>
      rw [he] at hgoes
      exact (CommandFrame.refl _ s).evolves (hgoes.trans (evolves_settle s1)) (by simp [fieldsOf])
    · next s1 he =>
      rw [he] at hgoes
      exact (CommandFrame.refl _ s).evolves hgoes (by simp [fieldsOf])
  · exact .refl _ s

theorem commandFrame_slotOnline (i : Nat) (s : State) : CommandFrame (.slotOnline i) s (doSlotOnline i s).state := by
  unfold doSlotOnline
  split
  · next hi =>
    have hgoes := evolves_slotGoOnline ⟨i, hi⟩ s
    split
    · next s1 he =>
      rw [he] at hgoes
      exact (CommandFrame.refl _ s).evolves (hgoes.trans (evolves_settle s1)) (by simp [fieldsOf])
    · next s1 he =>
      rw [he] at hgoes
      exact (CommandFrame.refl _ s).evolves hgoes (by simp [fieldsOf])
  · exact .refl _ s

/-! ### Commands of the plan and of the watches -/

theorem applyEdit_keeps (f : Plan → EditResult) (x : PlanStore) :
    (applyEdit f x).1.committed = x.committed ∧ (applyEdit f x).1.last = x.last := by
  unfold applyEdit
  split <;> exact ⟨rfl, rfl⟩

theorem commandFrame_edit {c : HostCommand} (hc : 0x40 ≤ (fieldsOf c).1 ∧ (fieldsOf c).1 ≤ 0x49)
    (f : Plan → EditResult) (s : State) : CommandFrame c s (doEdit f s).state :=
  commandFrame_setPlan hc fun _ => applyEdit_keeps f s.plan

theorem commandFrame_plan_table {s : State} (x : PlanStore) (t : Table Carrier) :
    CommandFrame .commitPlan s ((s.setPlan x).setCarriers t) :=
  ⟨rfl, rfl, rfl, rfl, rfl, rfl, fun h => absurd rfl h, by simp [fieldsOf], fun _ => rfl, fun _ => rfl, fun _ => rfl,
    fun _ _ => rfl, fun _ => rfl, by simp [fieldsOf], by simp [fieldsOf], by simp [fieldsOf]⟩

theorem commandFrame_commitPlan (s : State) : CommandFrame .commitPlan s (doCommitPlan s).state := by
  have happlied (p : Plan) (ev : List Nat) : CommandFrame .commitPlan s (settle (applyCommit p ev s)) :=
    (commandFrame_plan_table _ _).evolves ((evolves_applyCommit p ev s).trans (evolves_settle _)) (.inr rfl)
  unfold doCommitPlan
  split
  · exact .refl _ s
  · split
    · exact commandFrame_setPlan (by simp [fieldsOf]) fun h => absurd rfl h
    · split
      · exact .refl _ s
      · exact happlied ..

theorem commandFrame_discardPlan (s : State) : CommandFrame .discardPlan s (doDiscardPlan s).state := by
  unfold doDiscardPlan
  split
  · exact .refl _ s
  · exact commandFrame_setPlan (by simp [fieldsOf]) fun _ => ⟨rfl, rfl⟩

theorem acknowledge_mode (named : Fin 16 → Bool) (u : WatchUnit) : (acknowledge named u).mode = u.mode := by
  unfold acknowledge
  dsimp only
  split
  · rfl
  · split <;> rfl

theorem commandFrame_setWatch (e : WatchEdit) (s : State) : CommandFrame (.setWatch e) s (doSetWatch e s).state := by
  unfold doSetWatch
  split
  · split
    · split
      · exact .refl _ s
      · split
        · exact commandFrame_setWatches (by simp [fieldsOf]) fun _ => acknowledge_mode ..
        · exact .refl _ s
    · exact .refl _ s
  · exact .refl _ s

theorem commandFrame_clearWatch (n : Nat) (s : State) : CommandFrame (.clearWatch n) s (doClearWatch n s).state := by
  unfold doClearWatch
  split
  · exact commandFrame_setWatches (by simp [fieldsOf]) fun _ => acknowledge_mode ..
  · exact .refl _ s

theorem commandFrame_ackWatch (n : Nat) (s : State) : CommandFrame (.ackWatch n) s (doAckWatch n s).state := by
  unfold doAckWatch
  split
  · exact commandFrame_setWatches (by simp [fieldsOf]) fun _ => acknowledge_mode ..
  · exact .refl _ s

theorem commandFrame_setAlertMode (m : Nat) (s : State) :
    CommandFrame (.setAlertMode m) s (doSetAlertMode m s).state := by
  have hchanged (u : WatchUnit) : CommandFrame (.setAlertMode m) s (s.setWatches u) :=
    commandFrame_setWatches (by simp [fieldsOf]) fun h => absurd rfl h
  unfold doSetAlertMode
  split
  · exact .refl _ s
  · exact hchanged _
  · exact hchanged _
  · exact .refl _ s
  · exact .refl _ s

/-! ### Every command -/

/-- What a command does, before its reply is formed. -/
theorem commandFrame_carryOut (c : HostCommand) (s : State) : CommandFrame c s (carryOut c s).state := by
  cases c with
  | identify | readStatus | listServices => exact .refl _ s
  | restart => exact commandFrame_setLink (by simp [fieldsOf]) (fun _ => rfl) (fun _ _ => rfl) fun h => absurd rfl h
  | setNotices m => exact commandFrame_setLink (by simp [fieldsOf]) (fun h => absurd rfl h) (fun _ _ => rfl) fun _ => rfl
  | freeze => exact commandFrame_setLink (by simp [fieldsOf]) (fun _ => rfl) (fun h _ => absurd rfl h) fun _ => rfl
  | thaw =>
    simp only [carryOut, doThaw]
    split
    · exact .refl _ s
    · exact commandFrame_setLink (by simp [fieldsOf]) (fun _ => rfl) (fun _ h => absurd rfl h) fun _ => rfl
  | getCarrier i => exact (doGetCarrier_state i s).symm ▸ .refl _ s
  | listCarriers i => exact (doListCarriers_state i s).symm ▸ .refl _ s
  | getService i => exact (doGetService_state i s).symm ▸ .refl _ s
  | getRoom r => exact (doGetRoom_state r s).symm ▸ .refl _ s
  | getSlot i => exact (doGetSlot_state i s).symm ▸ .refl _ s
  | surveyNow i => exact commandFrame_surveyNow i s
  | setSurveyMode m => exact commandFrame_setSurveyMode m s
  | clearSurvey =>
    exact (CommandFrame.refl _ s).evolves ((evolves_clearSurvey s).trans (evolves_settle _)) (by simp [fieldsOf])
  | slotOffline i => exact commandFrame_slotOffline i s
  | slotOnline i => exact commandFrame_slotOnline i s
  | setInput | setProfile | addCarrier | dropCarrier | setCarrier | bindRoom | unbindRoom | setParams =>
    exact commandFrame_edit (by simp [fieldsOf]) ..
  | commitPlan => exact commandFrame_commitPlan s
  | discardPlan => exact commandFrame_discardPlan s
  | setWatch e => exact commandFrame_setWatch e s
  | clearWatch n => exact commandFrame_clearWatch n s
  | ackWatch n => exact commandFrame_ackWatch n s
  | setAlertMode m => exact commandFrame_setAlertMode m s

theorem commandFrame_answerCommand (c : HostCommand) (s : State) : CommandFrame c s (answerCommand c s) := by
  have hreplied : CommandFrame c s
      (formReply (fieldsOf c).1 (carryOut c s).code (carryOut c s).content (carryOut c s).state) :=
    (commandFrame_carryOut c s).answered _ _
  unfold answerCommand clearAfter
  dsimp only
  split
  · exact hreplied.answered _ _
  · exact hreplied

theorem Evolves.blocksOnly {s t : State} (h : Evolves s t) : BlocksOnly s t :=
  ⟨h.pending, h.clock, h.plan, h.mode, h.alertMode, h.link.rx, h.link.gap, h.link.buffer, h.link.reply, h.link.sending,
    h.link.mask, h.link.restart, h.link.frozen, h.link.checkFailed, h.link.overrun⟩

/-- Settles O58: the blocks' events by `exec_evolves`, the host's commands by `commandFrame_answerCommand`. -/
theorem nothingElseChanges : Obligations.NothingElseChanges := by
  unfold Obligations.NothingElseChanges
  refine ⟨fun c s t hc h => (exec_evolves hc h).blocksOnly, fun c s t hc hs h => ?_⟩
  rw [exec_rowOf_ready hs hc] at h
  cases h
  obtain ⟨hpending, hclock, hrx, hgap, hbuffer, hsending, hcommitted, hplan, hmode, halert, hmask, hfrozen, hrestart,
    hquery, hedit, hwatch⟩ := commandFrame_answerCommand c s
  exact ⟨⟨hpending, hclock, hrx, hgap, hbuffer, hsending⟩, hcommitted, hplan, hmode, halert, hmask, hfrozen, hrestart,
    hquery, hedit, hwatch⟩

/-! ## The outstanding set through the reports and the ends of surveys (R106) -/

/-- The outstanding set has gained nothing. -/
structure OutstandingWithin (s t : State) : Prop where
  within : ∀ i, i ∈ t.sched.outstanding → i ∈ s.sched.outstanding

theorem OutstandingWithin.of_eq {s t : State} (h : t.sched.outstanding = s.sched.outstanding) : OutstandingWithin s t :=
  ⟨fun _ hi => h ▸ hi⟩

theorem OutstandingWithin.trans {s t u : State} (h : OutstandingWithin s t) (k : OutstandingWithin t u) :
    OutstandingWithin s u := ⟨fun i hi => h.within i (k.within i hi)⟩

theorem OutstandingWithin.since {s t u : State} (h : OutstandingWithin t u)
    (k : t.sched.outstanding = s.sched.outstanding) : OutstandingWithin s u := ⟨fun i hi => k ▸ h.within i hi⟩

theorem Ranks.outstandingWithin {s t : State} (h : Ranks s t) : OutstandingWithin s t :=
  .of_eq (congrArg Scheduler.outstanding h.sameSched)

theorem outstandingWithin_foldl {β : Type} {f : State → β → State} (h : ∀ s b, OutstandingWithin s (f s b)) (l : List β)
    (s : State) : OutstandingWithin s (l.foldl f s) := by
  induction l generalizing s with
  | nil => exact .of_eq rfl
  | cons b l ih => exact (h s b).trans (ih (f s b))

theorem outstandingWithin_leaveSet (i : Nat) (s : State) : OutstandingWithin s (leaveSet i s) := by
  unfold leaveSet
  split
  · exact ⟨fun _ hj => List.mem_of_mem_filter hj⟩
  · exact .of_eq rfl

theorem outstandingWithin_reportRemoval (s : State) (e : Nat × Carrier) : OutstandingWithin s (reportRemoval s e) :=
  ((outstandingWithin_leaveSet e.1 (dropUrgent e.1 s)).trans
    ((ranks_offer ..).trans ((ranks_handPair ..).trans (ranks_rankRemoval ..))).outstandingWithin).since rfl

theorem outstandingWithin_searchDue {s t : State} (h : OutstandingWithin s t) : OutstandingWithin s (searchDue t) :=
  h.trans (.of_eq rfl)

theorem outstandingWithin_reportAddition (s : State) (x : Nat) : OutstandingWithin s (reportAddition s x) := by
  unfold reportAddition
  split
  · exact .of_eq rfl
  · exact outstandingWithin_searchDue ((ranks_offer ..).trans (ranks_handPair ..)).outstandingWithin

theorem outstandingWithin_reportChanges (old : Table Carrier) (removed added : List Nat) (forced : Nat → Bool)
    (counts : Nat → Option DiscoveryCounts) (wasStale : Carrier → Bool) (s : State) :
    OutstandingWithin s (reportChanges old removed added forced counts wasStale s) :=
  ((outstandingWithin_foldl outstandingWithin_reportRemoval ..).trans
    (ranks_foldl (fun _ _ => ranks_reportCarrier ..) _ _).outstandingWithin).trans
      (outstandingWithin_foldl outstandingWithin_reportAddition ..)

theorem outstandingWithin_removeCarrier (i : Nat) (s : State) : OutstandingWithin s (removeCarrier i s) :=
  (outstandingWithin_reportChanges ..).since (t := s.setCarriers (removeEntry i s.carriers)) rfl

theorem outstandingWithin_endHold (x : Nat) (j : Fin 8) (g : Carrier → Carrier) (s : State) :
    OutstandingWithin s (endHold x j g s) := by
  have hchange (f : Carrier → Carrier) : OutstandingWithin s (changeCarrier x f s) :=
    .of_eq (congrArg Scheduler.outstanding (changeCarrier_sched x f s))
  unfold endHold
  split
  · exact .of_eq rfl
  · split
    · exact .of_eq rfl
    · split
      · exact .of_eq rfl
      · split
        · split
          · exact outstandingWithin_searchDue ((outstandingWithin_removeCarrier x (putCarrier x _ s)).since rfl)
          · exact outstandingWithin_searchDue (hchange _)
        · exact outstandingWithin_searchDue (hchange _)

theorem changeSlot_sched (i : Fin 8) (f : Slot → Slot) (s : State) : (changeSlot i f s).sched = s.sched :=
  (changeSlot_ranks i f s).sameSched

theorem grantReference_sched (s : State) : (grantReference s).sched = s.sched := by
  unfold grantReference
  split
  · exact changeSlot_sched ..
  · rfl

theorem joinReference_sched (s : State) (i : Fin 8) : (joinReference s i).sched = s.sched := by
  unfold joinReference
  split
  · exact (grantReference_sched _).trans (changeSlot_sched ..)
  · rfl

theorem passReference_sched (s : State) : (passReference s).sched = s.sched := by
  have hjoins (l : List (Fin 8)) (t : State) : (l.foldl joinReference t).sched = t.sched := by
    induction l generalizing t with
    | nil => rfl
    | cons i l ih => exact (ih _).trans (joinReference_sched t i)
  refine (hjoins ..).trans (Eq.trans ?_ (grantReference_sched s))
  unfold drawOrder
  dsimp only
  split <;> rfl

theorem enterReleasing_sched (i : Fin 8) (hold offline : Bool) (s : State) :
    (enterReleasing i hold offline s).sched = s.sched := by
  unfold enterReleasing leaveLocked
  dsimp only
  split
  · exact (passReference_sched _).trans (changeSlot_sched ..)
  · exact changeSlot_sched ..

theorem endSurvey_outstanding (i : Fin 8) (reason : EndReason) (s : State) :
    (endSurvey i reason s).sched.outstanding = s.sched.outstanding := by
  unfold endSurvey
  split
  · rfl
  · dsimp only
    split
    · unfold returnUrgent
      split <;> rfl
    · rfl

theorem endCarry_outstanding (x : Nat) (asked : Bool) (s : State) :
    (endCarry x asked s).sched.outstanding = s.sched.outstanding := by
  have hclosed {t : State} (h : Ranks (closeRecord x s) t) : t.sched.outstanding = s.sched.outstanding :=
    congrArg Scheduler.outstanding h.sameSched
  unfold endCarry
  split
  · split
    · exact hclosed ((ranks_recomputeRooms _).trans (ranks_endOfCarry ..))
    · exact congrArg Scheduler.outstanding (ranks_recomputeRooms s).sameSched
  · exact hclosed ((ranks_recomputeRooms _).trans ((ranks_carryLost ..).trans (ranks_grantFailed ..)))

theorem reportEnd_outstanding (b : Slot) (i : Fin 8) (x : Nat) (reason : EndReason) (asked : Bool) (s : State) :
    (reportEnd b i x reason asked s).sched.outstanding = s.sched.outstanding := by
  unfold reportEnd
  split
  · rfl
  · dsimp only
    split
    · exact (endCarry_outstanding ..).trans (endSurvey_outstanding ..)
    · exact endSurvey_outstanding ..
  · exact endCarry_outstanding ..

theorem outstandingWithin_releaseWork (i : Fin 8) (hold offline : Bool) (reason : EndReason) (asked : Bool) (s : State) :
    OutstandingWithin s (releaseWork i hold offline reason asked s) := by
  have hfreed : OutstandingWithin s (enterReleasing i hold offline s) :=
    .of_eq (congrArg Scheduler.outstanding (enterReleasing_sched i hold offline s))
  cases hx : (s.slot i).carrier with
  | none =>
    have hwork : releaseWork i hold offline reason asked s = enterReleasing i hold offline s := by
      simp only [releaseWork, hx]
    rwa [hwork]
  | some x =>
    obtain ⟨g, hwork⟩ := releaseWork_eq hx hold offline reason asked
    rw [hwork]
    exact (hfreed.trans (outstandingWithin_endHold ..)).trans (.of_eq (reportEnd_outstanding ..))

theorem outstandingWithin_endSurveyByTable (i : Fin 8) (s : State) : OutstandingWithin s (endSurveyByTable i s) := by
  obtain he | ⟨r, q, -, he | ⟨reason, he⟩⟩ := endSurveyByTable_cases i s
  · rw [he]
    exact .of_eq rfl
  · rw [he]
    exact .of_eq rfl
  · rw [he]
    exact (outstandingWithin_releaseWork i false false reason false (putSurvey i (some q) s)).since rfl

/-! ## Entries that leave and join the set of an OPEN pass (R106) -/

theorem mem_leaveSet {s : State} (ho : s.sched.pass.outcome = .open) (i j : Nat) :
    j ∈ (leaveSet i s).sched.outstanding ↔ j ∈ s.sched.outstanding ∧ j ≠ i := by
  unfold leaveSet
  split
  · exact List.mem_filter.trans (and_congr_right fun _ => decide_eq_true_iff)
  · next h =>
    refine ⟨fun hj => ⟨hj, ?_⟩, And.left⟩
    rintro rfl
    exact h ⟨ho, hj⟩

theorem mem_joinSet {s : State} (ho : s.sched.pass.outcome = .open) (i j : Nat) :
    j ∈ (joinSet i s).sched.outstanding ↔ j ∈ s.sched.outstanding ∨ j = i := by
  unfold joinSet
  split
  · exact List.mem_append.trans (or_congr_right List.mem_singleton)
  · next h =>
    refine ⟨.inl, fun hj => hj.elim id ?_⟩
    rintro rfl
    by_contra hn
    exact h ⟨ho, hn⟩

theorem samePass_joinSet (i : Nat) (s : State) : SamePass s (joinSet i s) := by
  unfold joinSet
  split <;> rfl

theorem mem_leaveAll (l : List Nat) {s : State} (ho : s.sched.pass.outcome = .open) (j : Nat) :
    j ∈ (l.foldl (fun s i => leaveSet i s) s).sched.outstanding ↔ j ∈ s.sched.outstanding ∧ j ∉ l := by
  induction l generalizing s with
  | nil => simp
  | cons i l ih =>
    rw [List.foldl_cons, ih ((congrArg PassRecord.outcome (samePass_leaveSet i s)).trans ho), mem_leaveSet ho,
      List.mem_cons, not_or, and_assoc]

theorem mem_joinAll (l : List Nat) {s : State} (ho : s.sched.pass.outcome = .open) (j : Nat) :
    j ∈ (l.foldl (fun s i => joinSet i s) s).sched.outstanding ↔ j ∈ s.sched.outstanding ∨ j ∈ l := by
  induction l generalizing s with
  | nil => simp
  | cons i l ih =>
    rw [List.foldl_cons, ih ((congrArg PassRecord.outcome (samePass_joinSet i s)).trans ho), mem_joinSet ho, List.mem_cons,
      or_assoc]

/-- The entries that a change of the table turns as `f` says. -/
theorem mem_changedBy {old new : Table Carrier} (hs : (tabKeys old).Pairwise (· < ·)) {f : Carrier → Carrier → Bool}
    {i : Nat} :
    i ∈ changedBy old new f ↔ ∃ b a, tabGet old i = some b ∧ tabGet new i = some a ∧ f b a = true := by
  rw [changedBy, mem_places_iff hs]
  refine exists_congr fun b => ?_
  rw [exists_and_left]
  refine and_congr_right fun _ => ?_
  cases tabGet new i <;> simp

/-! ## The course of a commit (R101, R105, R106, R153) -/

/-- The plan store and the table of a commit, before anything is told of them. -/
def commitStored (s : State) (p : Plan) (ev : List Nat) : State :=
  (s.setPlan { committed := p, staged := none, last := commitRecord s (commitTable s p ev) ev }).setCarriers
    (commitTable s p ev).table

/-- The entries newly EXCLUDED. -/
def commitExcluded (s : State) (p : Plan) (ev : List Nat) : List Nat :=
  changedBy s.carriers (commitTable s p ev).table fun b a => decide (b.state ≠ .excluded) && decide (a.state = .excluded)

/-- The entries newly pending. -/
def commitPending (s : State) (p : Plan) (ev : List Nat) : List Nat :=
  changedBy s.carriers (commitTable s p ev).table fun b a => !b.removalPending && a.removalPending

/-- The entries whose input is made DISABLED. -/
def commitDisabled (s : State) (p : Plan) (ev : List Nat) : List Nat :=
  changedBy s.carriers (commitTable s p ev).table fun _ a => disabledNow s.committed p a

/-- The entries newly un-excluded. -/
def commitFreed (s : State) (p : Plan) (ev : List Nat) : List Nat :=
  changedBy s.carriers (commitTable s p ev).table fun b a => decide (b.state = .excluded) && decide (a.state ≠ .excluded)

/-- The table's change reported, and the excluded entries gone from the urgent list. -/
def commitReported (s : State) (p : Plan) (ev : List Nat) : State :=
  let r := commitTable s p ev
  (commitExcluded s p ev).foldl (fun s i => dropUrgent i s)
    (reportChanges s.carriers r.removed r.added r.rescored.contains (fun _ => none)
      (staleAt s.now s.committed.params.maxAge) (commitStored s p ev))

/-- The entries taken out gone from the outstanding set. -/
def commitLeft (s : State) (p : Plan) (ev : List Nat) : State :=
  (commitExcluded s p ev ++ commitPending s p ev ++ commitDisabled s p ev).foldl (fun s i => leaveSet i s)
    (commitReported s p ev)

/-- R101: the slots whose surveys the commit ends. -/
def commitSurveys (s : State) (p : Plan) (ev : List Nat) : List (Fin 8) :=
  allSlots.filter fun i => (endingSurveys (commitTable s p ev).table).contains i

/-- R101: the surveys ended. -/
def commitEnded (s : State) (p : Plan) (ev : List Nat) : State :=
  (commitSurveys s p ev).foldl (fun s i => endSurveyByTable i s) (commitLeft s p ev)

/-- R105, R106: the new pass started, or the un-excluded entries in the set of the pass that goes on. -/
def commitScheduled (s : State) (p : Plan) (ev : List Nat) : State :=
  if (commitTable s p ev).added.isEmpty then (commitFreed s p ev).foldl (fun s i => joinSet i s) (commitEnded s p ev)
  else startPass (commitEnded s p ev)

/-- R109, R113: the service entries marked. -/
def commitRanked (s : State) (p : Plan) (ev : List Nat) : State := rankCommit s.committed p (commitScheduled s p ev)

/-- R127: the room channels bound. -/
def commitBound (s : State) (p : Plan) (ev : List Nat) : State := allRooms.foldl (rebindRoom p) (commitRanked s p ev)

theorem applyCommit_eq (s : State) (p : Plan) (ev : List Nat) :
    applyCommit p ev s =
      searchDue (offer .plan 0 (planNotice (commitRecord s (commitTable s p ev) ev)) (commitBound s p ev)) := rfl

section
variable (s : State) (p : Plan) (ev : List Nat)

theorem commitLeft_reports : Reports (commitStored s p ev) (commitLeft s p ev) :=
  ((reports_reportChanges ..).trans (reports_foldl (fun s i => reports_dropUrgent i s) ..)).trans
    (reports_foldl (fun s i => reports_leaveSet i s) ..)

theorem commitReported_samePass : SamePass s (commitReported s p ev) :=
  SamePass.trans (t := commitStored s p ev) rfl
    ((samePass_reportChanges ..).trans (samePass_foldl (f := fun s i => dropUrgent i s) (fun _ _ => rfl) ..))

theorem commitEnded_samePass : SamePass s (commitEnded s p ev) :=
  (commitReported_samePass s p ev).trans
    ((samePass_foldl (f := fun s i => leaveSet i s) (fun s i => samePass_leaveSet i s) ..).trans
      (samePass_foldl (f := fun s i => endSurveyByTable i s) (fun s i => samePass_endSurveyByTable i s) ..))

theorem evolves_commitEnded : Evolves (commitStored s p ev) (commitEnded s p ev) :=
  (((evolves_reportChanges ..).trans (evolves_foldl (fun s i => evolves_dropUrgent i s) ..)).trans
    (evolves_foldl (fun s i => evolves_leaveSet i s) ..)).trans (evolves_foldl (fun s i => evolves_endSurveyByTable i s) ..)

theorem commitScheduled_reports : Reports (commitEnded s p ev) (commitScheduled s p ev) := by
  unfold commitScheduled
  split
  · exact reports_foldl (fun s i => reports_joinSet i s) _ _
  · exact reports_startPass _

theorem evolves_commitScheduled : Evolves (commitEnded s p ev) (commitScheduled s p ev) := by
  unfold commitScheduled
  split
  · exact evolves_foldl (fun s i => evolves_joinSet i s) _ _
  · exact evolves_startPass _

theorem ranks_commitRanked : Ranks (commitScheduled s p ev) (commitRanked s p ev) := by
  unfold commitRanked rankCommit
  dsimp only
  split
  · exact ranks_applyBindings ..
  · exact (ranks_applyBindings ..).trans (ranks_foldl (fun s i => ranks_rebuildEvent i s) _ _)

theorem ranks_rebindRoom (s : State) (r : Fin 48) : Ranks s (rebindRoom p s r) := by
  unfold rebindRoom
  dsimp only
  split
  · exact .refl s
  · exact ranks_changeRoom (fed_routeRoom s _)

theorem ranks_commitBound : Ranks (commitScheduled s p ev) (commitBound s p ev) :=
  (ranks_commitRanked s p ev).trans (ranks_foldl (ranks_rebindRoom p) _ _)

/-- R109, R127: the marks, the bindings and the PLAN notice leave the slots, the table and the surveys alone. -/
theorem applyCommit_reports : Reports (commitEnded s p ev) (applyCommit p ev s) :=
  (commitScheduled_reports s p ev).trans
    (((ranks_commitBound s p ev).trans (ranks_offer ..)).reports.trans (reports_searchDue _))

theorem applyCommit_plan :
    (applyCommit p ev s).plan =
      { committed := p, staged := none, last := commitRecord s (commitTable s p ev) ev } :=
  (evolves_applyCommit p ev s).plan

end

/-! ## The pass through a commit (R105, R106) -/

section
variable {s : State} {p : Plan} {ev : List Nat}

/-- What the scheduler holds after a commit is what its own part of it leaves, but for the search that is due. -/
theorem applyCommit_sched : (applyCommit p ev s).sched = { (commitScheduled s p ev).sched with searchDue := true } := by
  rw [applyCommit_eq]
  exact congrArg (fun c : Scheduler => { c with searchDue := true })
    ((ranks_commitBound s p ev).trans (ranks_offer ..)).sameSched

/-- R105: an addition starts a pass. -/
theorem commitScheduled_starts (h : (commitTable s p ev).added ≠ []) :
    commitScheduled s p ev = startPass (commitEnded s p ev) :=
  if_neg (by simpa using h)

theorem applyCommit_starts (h : (commitTable s p ev).added ≠ []) :
    (applyCommit p ev s).sched.pass =
      { number := (s.sched.pass.number + 1) % 65536, start := s.clock.now, ended := none, outcome := .open,
        verified := 0, failed := 0, lost := 0 } := by
  have hclock : (commitEnded s p ev).clock = s.clock := (evolves_commitEnded s p ev).clock
  have hpass : (commitEnded s p ev).sched.pass = s.sched.pass := commitEnded_samePass s p ev
  rw [applyCommit_sched, commitScheduled_starts h]
  exact (startPass_pass _).trans (by rw [hpass, hclock])

variable (ht : CarrierLaw s.carriers) (hev : evictions p s.carriers = some ev)
include ht hev

/-- R105: the outstanding set of the pass that an addition starts. -/
theorem mem_applyCommit_outstanding (h : (commitTable s p ev).added ≠ []) (i : Nat) :
    i ∈ (applyCommit p ev s).sched.outstanding ↔ ∃ c, tabGet (applyCommit p ev s).carriers i = some c ∧
      c.state ≠ .excluded ∧ c.removalPending = false ∧ (p.inputs[inputCode c.input]).cls ≠ .disabled := by
  have hended := evolves_commitEnded s p ev
  have law : CarrierLaw (commitEnded s p ev).carriers := hended.carriers (carrierLaw_commitTable hev ht)
  have hplan : (commitEnded s p ev).plan.committed = p := congrArg PlanStore.committed hended.plan
  have hset := mem_startPass_outstanding law i
  rw [hplan] at hset
  rw [applyCommit_sched, commitScheduled_starts h, (applyCommit_reports s p ev).carriers]
  exact hset

end

/-- R106: without an addition the pass goes on. -/
theorem commitScheduled_goes_on {s : State} {p : Plan} {ev : List Nat} (h : (commitTable s p ev).added = []) :
    commitScheduled s p ev = (commitFreed s p ev).foldl (fun s i => joinSet i s) (commitEnded s p ev) :=
  if_pos (by simp [h])

section
variable {s : State} {p : Plan} {ev : List Nat} (h : (commitTable s p ev).added = [])
include h

theorem applyCommit_goes_on : (applyCommit p ev s).sched.pass = s.sched.pass := by
  rw [applyCommit_sched, commitScheduled_goes_on h]
  exact (commitEnded_samePass s p ev).trans (samePass_foldl (fun s i => samePass_joinSet i s) _ _)

variable (ht : CarrierLaw s.carriers)
include ht

/-- R85: an entry that the commit turns removal pending keeps its state. -/
theorem state_of_turned_pending {i : Nat} {b a : Carrier} (hb : tabGet s.carriers i = some b)
    (ha : tabGet (commitTable s p ev).table i = some a) (hbp : b.removalPending = false) (hap : a.removalPending = true) :
    a.state = b.state := by
  have hstays : i ∉ goneAt p ev s.carriers := fun hgone => by
    have hadded := commitTable_leaves ht hgone ha
    rw [h] at hadded
    cases hadded
  obtain ⟨hkept, -⟩ := commitTable_stays ht hb hstays
  obtain rfl := Option.some.inj (ha.symm.trans hkept)
  cases hr : planRecord p (withoutListers (goneAt p ev s.carriers) b) with
  | some q =>
    obtain ⟨⟨-, -, -, -, hpending⟩, -⟩ := keptEntry_named s hr
    cases hap.symm.trans hpending
  | none =>
    obtain ⟨-, -, -, hdiscovered, hlost⟩ := keptEntry_unnamed s hr
    cases hd : b.discovered with
    | true =>
      obtain ⟨hpending, -⟩ := hdiscovered hbp hd
      cases hap.symm.trans hpending
    | false =>
      obtain ⟨-, -, hstate, -⟩ := hlost hbp hd
      exact hstate

variable (ho : s.sched.pass.outcome = .open)
include ho

/-- R106: what becomes of the outstanding set of an OPEN pass that goes on. -/
theorem applyCommit_outstanding (i : Nat) :
    ((∃ b a, tabGet s.carriers i = some b ∧ tabGet (commitTable s p ev).table i = some a ∧
        ((b.removalPending = false ∧ a.removalPending = true) ∨ (b.state ≠ .excluded ∧ a.state = .excluded))) →
      i ∉ (applyCommit p ev s).sched.outstanding) ∧
    ((∃ b a, tabGet s.carriers i = some b ∧ tabGet (commitTable s p ev).table i = some a ∧
        b.state = .excluded ∧ a.state ≠ .excluded) → i ∈ (applyCommit p ev s).sched.outstanding) := by
  have hrising := (tabWf_iff.mp ht.1).1
  have hjoined (j : Nat) : j ∈ (applyCommit p ev s).sched.outstanding ↔
      j ∈ (commitEnded s p ev).sched.outstanding ∨ j ∈ commitFreed s p ev := by
    rw [applyCommit_sched, commitScheduled_goes_on h]
    exact mem_joinAll _ ((congrArg PassRecord.outcome (commitEnded_samePass s p ev)).trans ho) j
  refine ⟨?leaves, ?joins⟩
  case joins =>
    rintro ⟨b, a, hb, ha, hwas, his⟩
    exact (hjoined i).mpr (.inr ((mem_changedBy hrising).mpr ⟨b, a, hb, ha, by simp [hwas, his]⟩))
  case leaves =>
    rintro ⟨b, a, hb, ha, hturned⟩ hin
    obtain hset | hfreed := (hjoined i).mp hin
    · have hended : OutstandingWithin (commitLeft s p ev) (commitEnded s p ev) :=
        outstandingWithin_foldl (fun s i => outstandingWithin_endSurveyByTable i s) ..
      have hopen := (congrArg PassRecord.outcome (commitReported_samePass s p ev)).trans ho
      obtain ⟨-, hnot⟩ := (mem_leaveAll _ hopen i).mp (hended.within i hset)
      refine hnot (List.mem_append_left _ (List.mem_append.mpr ?_))
      obtain ⟨hbp, hap⟩ | ⟨hwas, his⟩ := hturned
      · exact .inr ((mem_changedBy hrising).mpr ⟨b, a, hb, ha, by simp [hbp, hap]⟩)
      · exact .inl ((mem_changedBy hrising).mpr ⟨b, a, hb, ha, by simp [hwas, his]⟩)
    · obtain ⟨b', a', hb', ha', hfreed⟩ := (mem_changedBy hrising).mp hfreed
      obtain rfl := Option.some.inj (hb.symm.trans hb')
      obtain rfl := Option.some.inj (ha.symm.trans ha')
      obtain ⟨hwas, his⟩ : b.state = .excluded ∧ a.state ≠ .excluded := by simpa using hfreed
      obtain ⟨hbp, hap⟩ | ⟨hnot, -⟩ := hturned
      · exact his ((state_of_turned_pending h ht hb ha hbp hap).trans hwas)
      · exact hnot hwas

end

/-! ## The entries through a commit (R65, R73, R85, R101) -/

theorem mem_endingSurveys_iff {t : Table Carrier} (hs : (tabKeys t).Pairwise (· < ·)) {j : Fin 8} :
    j ∈ endingSurveys t ↔
      ∃ y b h, tabGet t y = some b ∧ b.hold = some h ∧ h.slot = j ∧ h.ending = true ∧ h.carry = false := by
  refine ⟨fun hj => ?listed, ?ending⟩
  case ending =>
    rintro ⟨y, b, h, hb, hh, rfl, hending, hcarry⟩
    exact mem_endingSurveys hb hh hending hcarry
  case listed =>
    obtain ⟨⟨y, b⟩, he, hj⟩ := List.mem_filterMap.mp hj
    dsimp only at hj
    split at hj
    · cases hj
    · next h hh =>
      split at hj
      · next hends =>
        obtain ⟨hending, hcarry⟩ : h.ending = true ∧ h.carry = false := by simpa using hends
        exact ⟨y, b, h, tabGet_of_mem hs he, hh, Option.some.inj hj, hending, hcarry⟩
      · cases hj

/-- A slot that holds one entry, and that one not for a survey to end, is none of those whose survey the table ends. -/
theorem not_mem_endingSurveys {t : Table Carrier} (hs : (tabKeys t).Pairwise (· < ·)) {i : Nat} {a : Carrier} {h : Hold}
    (ha : tabGet t i = some a) (hh : a.hold = some h)
    (halone : ∀ y b g, tabGet t y = some b → b.hold = some g → g.slot = h.slot → y = i)
    (hgoes : h.carry = true ∨ h.ending = false) : h.slot ∉ endingSurveys t := fun hin => by
  obtain ⟨y, b, g, hb, hg, hslot, hending, hcarry⟩ := (mem_endingSurveys_iff hs).mp hin
  obtain rfl := halone y b g hb hg hslot
  obtain rfl := Option.some.inj (ha.symm.trans hb)
  obtain rfl := Option.some.inj (hh.symm.trans hg)
  obtain hcarried | hactive := hgoes
  · cases hcarry.symm.trans hcarried
  · cases hending.symm.trans hactive

theorem commitSurveys_nodup (s : State) (p : Plan) (ev : List Nat) : (commitSurveys s p ev).Nodup :=
  (List.nodup_finRange 8).filter _

theorem mem_commitSurveys_iff {s : State} {p : Plan} {ev : List Nat} {i : Fin 8} :
    i ∈ commitSurveys s p ev ↔ i ∈ endingSurveys (commitTable s p ev).table := by
  simp [commitSurveys, allSlots]

section
variable {s : State} {p : Plan} {ev : List Nat}

theorem commitLeft_carriers : (commitLeft s p ev).carriers = (commitTable s p ev).table :=
  (commitLeft_reports s p ev).carriers

theorem commitLeft_surveys : (commitLeft s p ev).sched.surveys = s.sched.surveys := (commitLeft_reports s p ev).surveys

theorem commitLeft_slot (i : Fin 8) : (commitLeft s p ev).slot i = s.slot i := (commitLeft_reports s p ev).slot i

theorem commitEnded_endsSurveys : EndsSurveys (commitSurveys s p ev) (commitLeft s p ev) (commitEnded s p ev) :=
  endsSurveys_foldl ..

variable (ht : CarrierLaw s.carriers) (hev : evictions p s.carriers = some ev)
include ht hev

theorem carrierLaw_commitLeft : CarrierLaw (commitLeft s p ev).carriers :=
  commitLeft_carriers ▸ carrierLaw_commitTable hev ht

/-- No entry comes into the changed table. -/
theorem applyCommit_shrinks : Shrinks (commitTable s p ev).table (applyCommit p ev s).carriers := by
  rw [(applyCommit_reports s p ev).carriers, ← commitLeft_carriers]
  exact commitEnded_endsSurveys.shrinks (carrierLaw_commitLeft ht hev)

variable {i : Nat} {a : Carrier} (ha : tabGet (commitTable s p ev).table i = some a)
include ha

/-- An entry that no slot holds for a survey to end is as the table's change leaves it. -/
theorem applyCommit_stays (hheld : ∀ h, a.hold = some h → h.slot ∉ endingSurveys (commitTable s p ev).table) :
    StaysAt (commitTable s p ev).table (applyCommit p ev s).carriers i a := by
  have hstays := commitEnded_endsSurveys.stays (carrierLaw_commitLeft ht hev) i a
    ((congrArg (tabGet · i) commitLeft_carriers).trans ha)
    fun h hh hin => absurd (mem_commitSurveys_iff.mp hin) (hheld h hh)
  rw [commitLeft_carriers] at hstays
  rwa [(applyCommit_reports s p ev).carriers]

/-- R73, R85, R101: an entry under a SURVEY hold to end. -/
theorem applyCommit_ends {h : Hold} (hh : a.hold = some h) (hcarry : h.carry = false) (hending : h.ending = true)
    (hs : Surveying s h.slot i) :
    ((applyCommit p ev s).slot h.slot).state = .releasing ∧ (applyCommit p ev s).sched.surveys[h.slot] = none ∧
      (a.removalPending = true → tabGet (applyCommit p ev s).carriers i = none) ∧
        (a.removalPending = false →
          StaysAt (commitTable s p ev).table (applyCommit p ev s).carriers i { a with hold := none }) := by
  have hreports := applyCommit_reports s p ev
  have hin : h.slot ∈ commitSurveys s p ev := mem_commitSurveys_iff.mpr (mem_endingSurveys ha hh hending hcarry)
  have hsurveying : Surveying (commitLeft s p ev) h.slot i := by
    obtain ⟨hsurvey, hrole, hcarrier, hworks⟩ := hs
    exact ⟨by rwa [commitLeft_surveys], by rwa [commitLeft_slot], by rwa [commitLeft_slot], by rwa [commitLeft_slot]⟩
  have hended := foldl_endSurveyByTable_ends (commitSurveys_nodup s p ev) (carrierLaw_commitLeft ht hev) hin hsurveying
    ((congrArg (tabGet · i) commitLeft_carriers).trans ha) hh rfl hending
  rw [commitLeft_carriers] at hended
  obtain ⟨hslot, hsurvey, hgone, hstays⟩ := hended
  refine ⟨(congrArg Slot.state (hreports.slot _)).trans hslot, (congrArg (·[h.slot]) hreports.surveys).trans hsurvey, ?_⟩
  rw [hreports.carriers]
  exact ⟨hgone, hstays⟩

end

/-! ## The BOUND keys (R109) -/

/-- An entry with BOUND has key `k`. -/
def BoundKey (s : State) (k : ServiceKey) : Prop := ∃ i v, s.service i = some v ∧ v.key = k ∧ v.bound = true

theorem service_unique {s : State} (hlaw : ServiceLaw s.services) {i j : Nat} {v w : Service} (hv : s.service i = some v)
    (hw : s.service j = some w) (hk : w.key = v.key) : w = v := by
  have hfound := (serviceOfKey_iff hlaw).mpr ⟨i, hv, rfl⟩
  exact Option.some.inj (((serviceOfKey_iff hlaw).mpr ⟨j, hw, hk⟩).symm.trans hfound)

/-- Under the sixth law the BOUND keys say which entries have BOUND. -/
theorem boundKey_iff_bound {s : State} (hlaw : ServiceLaw s.services) {i : Nat} {v : Service} (hv : s.service i = some v) :
    BoundKey s v.key ↔ v.bound = true := by
  refine ⟨?_, fun hbound => ⟨i, v, hv, rfl, hbound⟩⟩
  rintro ⟨j, w, hw, hk, hbound⟩
  exact service_unique hlaw hv hw hk ▸ hbound

/-- The BOUND keys are the same, and the sixth law is kept. -/
structure SameBound (s t : State) : Prop where
  law : ServiceLaw s.services → ServiceLaw t.services
  keys : ServiceLaw s.services → ∀ k, BoundKey t k ↔ BoundKey s k

theorem SameBound.of_services {s t : State} (h : t.services = s.services) : SameBound s t := by
  have hservice (i : Nat) : t.service i = s.service i := congrArg (tabGet · i) h
  refine ⟨fun hs => h ▸ hs, fun _ k => ?_⟩
  simp only [BoundKey, hservice]

theorem SameBound.trans {s t u : State} (h : SameBound s t) (k : SameBound t u) : SameBound s u :=
  ⟨fun hs => k.law (h.law hs), fun hs x => (k.keys (h.law hs) x).trans (h.keys hs x)⟩

theorem sameBound_foldl {β : Type} {f : State → β → State} (h : ∀ s b, SameBound s (f s b)) (l : List β) (s : State) :
    SameBound s (l.foldl f s) := by
  induction l generalizing s with
  | nil => exact .of_services rfl
  | cons b l ih => exact (h s b).trans (ih (f s b))

/-- A doing of service `i` that leaves its mark as it was makes no entry and no mark. -/
theorem Serves.service_before {i : Nat} {s t : State} (h : Serves i s t) (hi : MarkStands i s t) {j : Nat} {w : Service}
    (hw : t.service j = some w) : ∃ v, s.service j = some v ∧ w.key = v.key ∧ w.bound = v.bound := by
  by_cases hj : j = i
  · subst hj
    obtain ⟨v, hv, hkey⟩ : ∃ v, s.service j = some v ∧ v.key = w.key :=
      Option.map_eq_some_iff.mp (h.sameKey.symm.trans (congrArg (Option.map (·.key)) hw))
    obtain ⟨x, hx, hbound⟩ := hi.bound v hv
    obtain rfl := Option.some.inj (hw.symm.trans hx)
    exact ⟨v, hv, hkey.symm, hbound⟩
  · exact ⟨w, (h.others j hj).symm.trans hw, rfl, rfl⟩

theorem serves_rebuilt (i : Nat) (s : State) :
    Serves i s (act i (rebuildList i s)).1 ∧ MarkStands i s (act i (rebuildList i s)).1 :=
  ⟨(serves_rebuildList i s).trans (serves_act ..), (markStands_rebuildList i s).trans (markStands_act ..)⟩

/-- R111: a rebuild and what follows it remove no entry with BOUND and add none. -/
theorem sameBound_rebuildEvent (i : Nat) (s : State) : SameBound s (rebuildEvent i s) := by
  have hstand := boundStand_rebuildEvent i s
  obtain ⟨hserves, hmark⟩ := serves_rebuilt i s
  cases hb : s.service i with
  | none =>
    have hsame : rebuildEvent i s = s := by simp only [rebuildEvent, serviceEvent, hb]
    rw [hsame]
    exact .of_services rfl
  | some b =>
    have hbefore (hs : ServiceLaw s.services) {j : Nat} {w : Service} (hw : (rebuildEvent i s).service j = some w) :
        ∃ v, s.service j = some v ∧ w.key = v.key ∧ w.bound = v.bound := by
      rw [rebuildEvent, serviceEvent_eq hb] at hw
      have hreported := service_of_pruneService (by rw [reportService_services]; exact hserves.services hs) hw
      exact hserves.service_before hmark ((congrArg (tabGet · j) (reportService_services ..)).symm.trans hreported)
    refine ⟨hstand.law, fun hs k => ⟨?fresh, ?stands⟩⟩
    case fresh =>
      rintro ⟨j, w, hw, hk, hbound⟩
      obtain ⟨v, hv, hkey, hsame⟩ := hbefore hs hw
      exact ⟨j, v, hv, hkey.symm.trans hk, hsame.symm.trans hbound⟩
    case stands =>
      rintro ⟨j, v, hv, hk, hbound⟩
      obtain ⟨w, hw, hbound'⟩ := hstand.stands hs j v hv hbound
      obtain ⟨v', hv', hkey, -⟩ := hbefore hs hw
      obtain rfl := Option.some.inj (hv.symm.trans hv')
      exact ⟨j, w, hw, hkey.trans hk, hbound'⟩

/-! ## The keys that lose BOUND (R109, R111) -/

theorem unboundService_bound (s : State) (v : Service) : (unboundService s v).bound = false := by
  by_cases h : selectionCarried s v = true
  · rw [unboundService_keeps h]
    split <;> rfl
  · rw [unboundService_clears h]
    rfl

/-- What has BOUND after an entry lost it is another entry, as it was. -/
theorem bound_of_loseBound {s : State} (hlaw : ServiceLaw s.services) {i j : Nat} {w : Service}
    (hw : (loseBound s i).service j = some w) (hbound : w.bound = true) : j ≠ i ∧ s.service j = some w := by
  cases hv : s.service i with
  | none =>
    have hsame : loseBound s i = s := by simp only [loseBound, serviceEvent, hv]
    rw [hsame] at hw
    refine ⟨?_, hw⟩
    rintro rfl
    cases hv.symm.trans hw
  | some v =>
    have hput : ServiceLaw (putService i (unboundEntry s v) (withdrawRequest i s)).services :=
      serviceLaw_put hv (unboundService_key s v) hlaw
    rw [loseBound_eq hv] at hw
    have hunpruned := service_of_pruneService (by rw [reportService_services]; exact hput) hw
    have hwritten : (putService i (unboundEntry s v) (withdrawRequest i s)).service j = some w :=
      (congrArg (tabGet · j) (reportService_services ..)).symm.trans hunpruned
    rw [service_putService] at hwritten
    split at hwritten
    · obtain rfl := Option.some.inj hwritten
      cases hbound.symm.trans (unboundService_bound s v)
    · next hj => exact ⟨hj, hwritten⟩

theorem bound_of_loseAll (l : List Nat) {s : State} (hlaw : ServiceLaw s.services) {j : Nat} {w : Service}
    (hw : (l.foldl loseBound s).service j = some w) (hbound : w.bound = true) : j ∉ l ∧ s.service j = some w := by
  induction l generalizing s with
  | nil => exact ⟨List.not_mem_nil, hw⟩
  | cons i l ih =>
    obtain ⟨hl, hw⟩ := ih ((ranks_loseBound s i).services hlaw) hw
    obtain ⟨hi, hw⟩ := bound_of_loseBound hlaw hw hbound
    exact ⟨List.not_mem_cons_of_ne_of_not_mem hi hl, hw⟩

/-! ## The keys that gain BOUND (R109, R110) -/

theorem boundKey_markService {s : State} {i : Nat} {v : Service} (hv : s.service i = some v) (hfree : v.bound = false)
    (k : ServiceKey) :
    BoundKey (modService i (fun v => { v with bound := true }) s) k ↔ BoundKey s k ∨ v.key = k := by
  have hservice (j : Nat) : (modService i (fun v => { v with bound := true }) s).service j =
      if j = i then some { v with bound := true } else s.service j := by
    rw [service_modService, hv]
    rfl
  refine ⟨?marked, ?before⟩
  case marked =>
    rintro ⟨j, w, hw, hk, hbound⟩
    rw [hservice] at hw
    split at hw
    · obtain rfl := Option.some.inj hw
      exact .inr hk
    · exact .inl ⟨j, w, hw, hk, hbound⟩
  case before =>
    rintro (⟨j, w, hw, hk, hbound⟩ | hk)
    · have hj : j ≠ i := by
        rintro rfl
        obtain rfl := Option.some.inj (hv.symm.trans hw)
        cases hfree.symm.trans hbound
      exact ⟨j, w, (hservice j).trans ((if_neg hj).trans hw), hk, hbound⟩
    · exact ⟨i, { v with bound := true }, (hservice i).trans (if_pos rfl), hk, rfl⟩

theorem ServiceAdded.boundKey {n : Nat} {v : Service} {s t : State} (h : ServiceAdded n v s t) (hfree : s.service n = none)
    (hv : v.bound = true) (k : ServiceKey) : BoundKey t k ↔ BoundKey s k ∨ v.key = k := by
  obtain ⟨x, hx, hstays⟩ := h.entry
  refine ⟨?present, ?before⟩
  case present =>
    rintro ⟨j, w, hw, hk, hbound⟩
    by_cases hj : j = n
    · subst hj
      obtain rfl := Option.some.inj (hx.symm.trans hw)
      exact .inr (hstays.key.symm.trans hk)
    · exact .inl ⟨j, w, (h.others j hj).symm.trans hw, hk, hbound⟩
  case before =>
    rintro (⟨j, w, hw, hk, hbound⟩ | hk)
    · have hj : j ≠ n := by
        rintro rfl
        cases hfree.symm.trans hw
      exact ⟨j, w, (h.others j hj).trans hw, hk, hbound⟩
    · exact ⟨n, x, hx, hstays.key.trans hk, hstays.bound.trans hv⟩

/-- R110: what is evicted holds no BOUND; only where every entry does there is nothing to evict. -/
theorem evictable_unbound (t : Table Service) :
    (∀ i, evictable t = some i → ∃ v, (i, v) ∈ t ∧ v.bound = false) ∧
      (evictable t = none → ∀ e ∈ t, e.2.bound = true) := by
  have hfound {f : Nat × Service → Bool} (hf : ∀ e, f e = true → e.2.bound = false) {e : Nat × Service} {i : Nat}
      (he : t.find? f = some e) (hi : some e.1 = some i) : ∃ v, (i, v) ∈ t ∧ v.bound = false := by
    obtain rfl := Option.some.inj hi
    exact ⟨e.2, List.mem_of_find?_eq_some he, hf e (List.find?_some he)⟩
  unfold evictable
  split
  · next e he => exact ⟨fun i => hfound (fun e h => by simp_all) he, nofun⟩
  · split
    · next e he => exact ⟨fun i => hfound (fun e h => by simp_all) he, nofun⟩
    · split
      · next e he => exact ⟨fun i => hfound (fun e h => by simp_all) he, nofun⟩
      · next hnone => exact ⟨nofun, fun _ e he => by simpa using List.find?_eq_none.mp hnone e he⟩

theorem boundKey_evictService {s : State} (hlaw : ServiceLaw s.services) {i : Nat} {v : Service}
    (hv : s.service i = some v) (hfree : v.bound = false) (k : ServiceKey) :
    BoundKey (evictService i s) k ↔ BoundKey s k := by
  obtain ⟨hplaces, -⟩ := evictService_evicts hlaw hv
  refine exists_congr fun j => exists_congr fun w => ?_
  rw [hplaces]
  by_cases hj : j = i
  · subst hj
    rw [if_pos rfl, hv]
    refine ⟨fun ⟨hw, _⟩ => (nomatch hw), fun ⟨hw, _, hbound⟩ => ?_⟩
    obtain rfl := Option.some.inj hw
    cases hfree.symm.trans hbound
  · rw [if_neg hj]

/-- A full table in which every entry holds BOUND has 256 BOUND keys. -/
theorem length_le_of_boundKeys {s : State} (hlaw : ServiceLaw s.services) (hall : ∀ e ∈ s.services, e.2.bound = true)
    {l : List ServiceKey} (hl : ∀ k, BoundKey s k → k ∈ l) : s.services.length ≤ l.length := by
  have hnodup : (s.services.map fun e => e.2.key).Nodup := List.pairwise_map.mpr hlaw.2
  have hle := hnodup.length_le_of_subset (l₂ := l) fun k hk => by
    obtain ⟨e, he, rfl⟩ := List.mem_map.mp hk
    exact hl _ ⟨e.1, e.2, tabGet_of_mem (tabWf_iff.mp hlaw.1).1 he, rfl, hall e he⟩
  rwa [List.length_map] at hle

theorem services_length_le {t : Table Service} (hlaw : ServiceLaw t) : t.length ≤ 256 := by
  obtain ⟨hrising, hplaces⟩ := tabWf_iff.mp hlaw.1
  have hnodup : (tabKeys t).Nodup := hrising.imp fun h => Nat.ne_of_lt h
  have hle := hnodup.length_le_of_subset (l₂ := List.range 256) fun j hj => List.mem_range.mpr (hplaces j hj)
  rwa [List.length_range, tabKeys, List.length_map] at hle

/-- R109, R110: while the BOUND keys are fewer than the places, a key gains BOUND and the others keep it. -/
theorem boundKey_gainBound {s : State} (hlaw : ServiceLaw s.services) {l : List ServiceKey} (hroom : l.length < 256)
    (hl : ∀ k, BoundKey s k → k ∈ l) (k k' : ServiceKey) : BoundKey (gainBound s k) k' ↔ BoundKey s k' ∨ k = k' := by
  by_cases hlisted : ∃ i v, s.service i = some v ∧ v.key = k
  · obtain ⟨i, v, hv, rfl⟩ := hlisted
    cases hbound : v.bound with
    | true =>
      have hsame : gainBound s v.key = s := by
        simp only [gainBound, serviceIndex_of_service hlaw hv, hv, hbound, if_true]
      rw [hsame]
      refine ⟨.inl, fun h => h.elim id ?_⟩
      rintro rfl
      exact ⟨i, v, hv, rfl, hbound⟩
    | false =>
      have hmarked : gainBound s v.key = rebuildEvent i (modService i (fun v => { v with bound := true }) s) := by
        simp only [gainBound, serviceIndex_of_service hlaw hv, hv, hbound]
        rfl
      have hmarkedLaw : ServiceLaw (modService i (fun v => { v with bound := true }) s).services := by
        rw [modService_eq hv]
        exact serviceLaw_put hv rfl hlaw
      rw [hmarked, (sameBound_rebuildEvent ..).keys hmarkedLaw, boundKey_markService hv hbound]
  · have hnew (i : Nat) (v : Service) (hv : s.service i = some v) : v.key ≠ k := fun hk => hlisted ⟨i, v, hv, hk⟩
    by_cases hfull : s.services.length < 256
    · obtain ⟨hplace, hout, hlow⟩ := tabFree_spec (tabWf_iff.mp hlaw.1).1
      have hfree : s.service (tabFree s.services) = none := tabGet_eq_none_iff.mpr hout
      have hadded := gainBound_free hlaw hnew (hplace.trans_lt hfull) hfree fun j hj =>
        mt tabGet_eq_none_iff.mp (not_not.mpr (hlow j hj))
      exact hadded.boundKey hfree rfl k'
    · have hlength : s.services.length = 256 :=
        Nat.le_antisymm (services_length_le hlaw) (Nat.le_of_not_lt hfull)
      obtain ⟨hevicts, hall⟩ := evictable_unbound s.services
      cases hevict : evictable s.services with
      | none =>
        have hle := length_le_of_boundKeys hlaw (hall hevict) hl
        omega
      | some i =>
        obtain ⟨v, hmem, hunbound⟩ := hevicts i hevict
        have hv : s.service i = some v := tabGet_of_mem (tabWf_iff.mp hlaw.1).1 hmem
        obtain ⟨hplaces, -⟩ := evictService_evicts hlaw hv
        rw [(gainBound_full hlaw hnew hlength hevict hv).boundKey ((hplaces i).trans (if_pos rfl)) rfl,
          boundKey_evictService hlaw hv hunbound]
        rfl

theorem boundKey_gainAll {l : List ServiceKey} (hroom : l.length < 256) (keys : List ServiceKey) (hkeys : ∀ k ∈ keys, k ∈ l)
    {s : State} (hlaw : ServiceLaw s.services) (hl : ∀ k, BoundKey s k → k ∈ l) (k : ServiceKey) :
    BoundKey (keys.foldl gainBound s) k ↔ BoundKey s k ∨ k ∈ keys := by
  induction keys generalizing s with
  | nil => simp
  | cons x keys ih =>
    have hgain := boundKey_gainBound hlaw hroom hl x
    have hwithin (k : ServiceKey) (hk : BoundKey (gainBound s x) k) : k ∈ l := by
      obtain hbefore | rfl := (hgain k).mp hk
      · exact hl k hbefore
      · exact hkeys x List.mem_cons_self
    rw [List.foldl_cons, ih (fun k hk => hkeys k (List.mem_cons_of_mem _ hk)) ((ranks_gainBound s x).services hlaw) hwithin,
      hgain, List.mem_cons, or_assoc, eq_comm (a := x)]

/-! ## The marks of a commit (R109) -/

/-- The keys a plan's bindings name, each as often as it is named. -/
def namedKeys (p : Plan) : List ServiceKey :=
  p.bindings.toList.flatMap fun b => b.primary.toList ++ b.fallback.toList

theorem mem_boundKeys (p : Plan) (k : ServiceKey) : k ∈ boundKeys p ↔ k ∈ namedKeys p := by
  rw [boundKeys, distinct_eq_eraseDups]
  exact List.mem_eraseDups

theorem mem_namedKeys (p : Plan) (k : ServiceKey) :
    k ∈ namedKeys p ↔ ∃ n : Fin 48, (p.bindings[n]).primary = some k ∨ (p.bindings[n]).fallback = some k := by
  simp only [namedKeys, List.mem_flatMap, List.mem_append, Option.mem_toList]
  refine ⟨?_, fun ⟨n, h⟩ => ⟨p.bindings[n], Vector.mem_toList_iff.mpr (Vector.getElem_mem n.isLt), h⟩⟩
  rintro ⟨b, hb, h⟩
  obtain ⟨n, hn, rfl⟩ := Vector.mem_iff_getElem.mp (Vector.mem_toList_iff.mp hb)
  exact ⟨⟨n, hn⟩, h⟩

theorem namedKeys_length (p : Plan) : (namedKeys p).length < 256 := by
  have hsum : (p.bindings.toList.map fun b => (b.primary.toList ++ b.fallback.toList).length).sum ≤ 48 * 2 := by
    refine (List.sum_le_card_nsmul _ 2 fun n hn => ?_).trans (by simp)
    obtain ⟨b, -, rfl⟩ := List.mem_map.mp hn
    cases b.primary <;> cases b.fallback <;> simp
  rw [namedKeys, List.length_flatMap]
  omega

/-- R109: after a commit the BOUND keys are those the plan's bindings name. -/
theorem boundKey_applyBindings (p : Plan) {s : State} (hlaw : ServiceLaw s.services) (k : ServiceKey) :
    BoundKey (applyBindings p s) k ↔ k ∈ namedKeys p := by
  let losing := (s.services.filter fun e => e.2.bound && !(boundKeys p).contains e.2.key).map Prod.fst
  have hlost (k : ServiceKey) (hk : BoundKey (losing.foldl loseBound s) k) : k ∈ namedKeys p := by
    obtain ⟨i, v, hv, rfl, hbound⟩ := hk
    obtain ⟨hstays, hv⟩ := bound_of_loseAll losing hlaw hv hbound
    rw [← mem_boundKeys]
    by_contra hunnamed
    exact hstays (List.mem_map_of_mem (f := Prod.fst)
      (List.mem_filter.mpr ⟨mem_of_tabGet hv, by simp [hbound, hunnamed]⟩))
  have hgained := boundKey_gainAll (namedKeys_length p) (boundKeys p) (fun k => (mem_boundKeys p k).mp)
    ((ranks_foldl ranks_loseBound losing s).services hlaw) hlost k
  have hcourse : BoundKey (applyBindings p s) k ↔ BoundKey (losing.foldl loseBound s) k ∨ k ∈ boundKeys p := hgained
  rw [hcourse, mem_boundKeys]
  exact ⟨fun h => h.elim (hlost k) id, .inr⟩

theorem sameBound_rebindRoom (p : Plan) (s : State) (r : Fin 48) : SameBound s (rebindRoom p s r) := by
  unfold rebindRoom
  dsimp only
  split
  · exact .of_services rfl
  · exact .of_services (changeRoom_services ..)

theorem searchDue_offer_services (k : NoticeKind) (i : Nat) (c : List Byte) (s : State) :
    (searchDue (offer k i c s)).services = s.services := rfl

theorem applyCommit_services (s : State) (p : Plan) (ev : List Nat) :
    (applyCommit p ev s).services = (commitBound s p ev).services := by
  rw [applyCommit_eq, searchDue_offer_services]

section
variable {s : State} {p : Plan} {ev : List Nat} (hs : ServiceLaw s.services)
include hs

theorem serviceLaw_commitScheduled : ServiceLaw (commitScheduled s p ev).services :=
  ((evolves_commitEnded s p ev).trans (evolves_commitScheduled s p ev)).services hs

theorem serviceLaw_applyCommit : ServiceLaw (applyCommit p ev s).services := by
  rw [applyCommit_services]
  exact (ranks_commitBound s p ev).services (serviceLaw_commitScheduled hs)

theorem boundKey_applyCommit (k : ServiceKey) : BoundKey (applyCommit p ev s) k ↔ k ∈ namedKeys p := by
  have law := serviceLaw_commitScheduled (p := p) (ev := ev) hs
  have hranked : BoundKey (commitRanked s p ev) k ↔ k ∈ namedKeys p := by
    rw [← boundKey_applyBindings p law]
    unfold commitRanked rankCommit
    dsimp only
    split
    · exact Iff.rfl
    · exact (sameBound_foldl (fun s i => sameBound_rebuildEvent i s) ..).keys ((ranks_applyBindings p _).services law) k
  rw [← hranked]
  have hbound : SameBound (commitRanked s p ev) (commitBound s p ev) := sameBound_foldl (sameBound_rebindRoom p) ..
  exact (hbound.trans (.of_services (applyCommit_services s p ev))).keys ((ranks_commitRanked s p ev).services law) k

end

/-! ## The bindings of the room channels (R127) -/

/-- A channel has binding `b`. -/
structure HasBinding (b : Binding) (x : Room) : Prop where
  primary : x.primary = b.primary
  fallback : x.fallback = b.fallback
  priority : x.priority = b.priority

theorem hasBinding_reboundRoom (b : Binding) (x : Room) : HasBinding b (reboundRoom b x) := by
  by_cases h : x.primary = b.primary ∧ x.fallback = b.fallback
  · rw [reboundRoom_sameKeys h]
    exact ⟨rfl, rfl, rfl⟩
  · rw [reboundRoom_otherKeys h]
    exact ⟨rfl, rfl, rfl⟩

theorem HasBinding.routeRoom {b : Binding} {x : Room} (h : HasBinding b x) (s : State) :
    HasBinding b (routeRoom s x) := by
  obtain ⟨hprimary, hfallback, hpriority⟩ := h
  have hswitching (i : Fin 8) (c : Nat) : HasBinding b (switchingRoom s x i c) := by
    unfold switchingRoom
    split <;> exact ⟨hprimary, hfallback, hpriority⟩
  unfold Machine.routeRoom
  split
  · exact ⟨hprimary, hfallback, hpriority⟩
  · split
    · exact ⟨hprimary, hfallback, hpriority⟩
    · split
      · exact ⟨hprimary, hfallback, hpriority⟩
      · split
        · exact ⟨hprimary, hfallback, hpriority⟩
        · split
          · exact ⟨hprimary, hfallback, hpriority⟩
          · exact hswitching ..

theorem HasBinding.recomputed {b : Binding} {x : Room} (h : HasBinding b x) (s : State) :
    HasBinding b (recomputed s x) :=
  HasBinding.routeRoom (x := { x with feeding := decideFeeding s x }) ⟨h.primary, h.fallback, h.priority⟩ s

theorem hasBinding_rebindRoom (p : Plan) (s : State) (r : Fin 48) :
    HasBinding p.bindings[r] ((rebindRoom p s r).room r) := by
  have hbinding := hasBinding_reboundRoom p.bindings[r] (s.room r)
  by_cases h : reboundRoom p.bindings[r] (s.room r) = s.room r
  · rw [rebindRoom_same h]
    rwa [h] at hbinding
  · rw [rebindRoom_changed h, room_changeRoom, if_pos rfl]
    exact hbinding.recomputed s

theorem rebindRoom_others (p : Plan) (s : State) {r n : Fin 48} (hn : r ≠ n) : (rebindRoom p s r).room n = s.room n := by
  by_cases h : reboundRoom p.bindings[r] (s.room r) = s.room r
  · rw [rebindRoom_same h]
  · rw [rebindRoom_changed h, room_changeRoom, if_neg hn]

/-- A channel that was bound, or is among those bound anew, is bound. -/
theorem hasBinding_rebindRooms (p : Plan) (n : Fin 48) (l : List (Fin 48)) (s : State)
    (h : n ∈ l ∨ HasBinding p.bindings[n] (s.room n)) : HasBinding p.bindings[n] ((l.foldl (rebindRoom p) s).room n) := by
  induction l generalizing s with
  | nil => exact h.resolve_left List.not_mem_nil
  | cons r l ih =>
    refine ih (rebindRoom p s r) ?_
    by_cases hr : r = n
    · exact .inr (hr ▸ hasBinding_rebindRoom p s r)
    · rw [rebindRoom_others p s hr]
      exact h.imp_left fun hmem => (List.mem_cons.mp hmem).resolve_left (Ne.symm hr)

theorem searchDue_offer_room (k : NoticeKind) (i : Nat) (c : List Byte) (s : State) (n : Fin 48) :
    (searchDue (offer k i c s)).room n = s.room n := rfl

theorem hasBinding_applyCommit (s : State) (p : Plan) (ev : List Nat) (n : Fin 48) :
    HasBinding p.bindings[n] ((applyCommit p ev s).room n) := by
  rw [applyCommit_eq, searchDue_offer_room]
  exact hasBinding_rebindRooms p n allRooms _ (.inl (List.mem_finRange n))

/-! ## The answers of COMMIT_PLAN and DISCARD_PLAN (R152, R154) -/

section
variable {s : State} (hs : Ready s)
include hs

theorem exec_commitPlan {x : State} {code : ReplyCode} {content : List Byte}
    (h : doCommitPlan s = { state := x, code := code, content := content }) :
    exec .commitPlan s = .next (formReply 0x48 code content x) := by
  have hanswer : answerCommand .commitPlan s = formReply 0x48 code content x :=
    congrArg (fun a : Answer => formReply 0x48 a.code a.content a.state) h
  exact hanswer ▸ exec_rowOf_ready (c := .commitPlan) hs rfl

theorem exec_discardPlan {x : State} {code : ReplyCode} {content : List Byte}
    (h : doDiscardPlan s = { state := x, code := code, content := content }) :
    exec .discardPlan s = .next (formReply 0x49 code content x) := by
  have hanswer : answerCommand .discardPlan s = formReply 0x49 code content x :=
    congrArg (fun a : Answer => formReply 0x49 a.code a.content a.state) h
  exact hanswer ▸ exec_rowOf_ready (c := .discardPlan) hs rfl

end

theorem doCommitPlan_closed {s : State} (hp : s.plan.staged = none) : doCommitPlan s = answered .noStaging s := by
  simp only [doCommitPlan, hp]

theorem doDiscardPlan_closed {s : State} (hp : s.plan.staged = none) : doDiscardPlan s = answered .noChange s := by
  simp only [doDiscardPlan, hp]

section
variable {s : State} {p : Plan} (hp : s.plan.staged = some p)
include hp

theorem doDiscardPlan_opened : doDiscardPlan s = answered .ok (s.setPlan { s.plan with staged := none }) := by
  simp only [doDiscardPlan, hp]
  rfl

theorem doCommitPlan_noChange (h : p = s.plan.committed) :
    doCommitPlan s = answered .noChange (s.setPlan { s.plan with staged := none }) := by
  have hsame : p = s.committed := h
  simp only [doCommitPlan, hp, if_pos hsame]
  rfl

theorem doCommitPlan_capacity (h : p ≠ s.plan.committed) (hev : evictions p s.carriers = none) :
    doCommitPlan s = answered .capacity s := by
  have hother : ¬ p = s.committed := h
  simp only [doCommitPlan, hp, if_neg hother, hev]

/-- R154: the reply of an applied commit holds the record of the commit. -/
theorem doCommitPlan_applied {ev : List Nat} (h : p ≠ s.plan.committed) (hev : evictions p s.carriers = some ev) :
    doCommitPlan s =
      { state := settle (applyCommit p ev s), code := .ok,
        content := commitBytes (commitRecord s (commitTable s p ev) ev) } := by
  have hother : ¬ p = s.committed := h
  have hplan : (settle (applyCommit p ev s)).plan = (applyCommit p ev s).plan := (evolves_settle _).plan
  simp only [doCommitPlan, hp, if_neg hother, hev, hplan, applyCommit_plan]

end

theorem searchDue_link (s : State) : (searchDue s).link = s.link := rfl

theorem applyCommit_link (s : State) (p : Plan) (ev : List Nat) :
    (applyCommit p ev s).link =
      (offer .plan 0 (planNotice (commitRecord s (commitTable s p ev) ev)) (commitBound s p ev)).link := by
  rw [applyCommit_eq, searchDue_link]

/-- R154: the record of a commit in the terms of the table's change. -/
theorem commitRecord_eq (s : State) (r : TableCommit) (ev : List Nat) :
    commitRecord s r ev =
      { number := (s.plan.last.number + 1) % 65536, time := s.clock.now, added := r.added.length,
        removed := r.removed.length, evicted := ev.length,
        removalPending := (s.carriers.filter fun e =>
          match tabGet r.table e.1 with | none => false | some a => !e.2.removalPending && a.removalPending).length,
        passStarted := !r.added.isEmpty } := by
  rw [commitRecord, changedBy, List.length_map]
  rfl

theorem planNotice_eq (r : CommitRecord) :
    planNotice r = le 2 r.number ++ le 4 r.time ++
      (le 1 r.added ++ le 1 r.removed ++ le 1 r.evicted ++ le 1 r.removalPending) ++
        [if r.passStarted then 1#8 else 0#8] := by
  simp only [planNotice, boolByte_eq, List.append_assoc]

theorem commitBytes_eq (r : CommitRecord) :
    commitBytes r = le 2 r.number ++ (le 1 r.added ++ le 1 r.removed ++ le 1 r.evicted ++ le 1 r.removalPending) := by
  simp only [commitBytes, List.append_assoc]

/-- Settles O31: the plan store by `doCommitPlan_applied`, the pass by `applyCommit_starts` and `applyCommit_goes_on`, the
entries by `applyCommit_stays` and `applyCommit_ends`, the marks by `boundKey_applyCommit`, the channels by
`hasBinding_applyCommit`. -/
theorem commitAndDiscard : Obligations.CommitAndDiscard := by
  unfold Obligations.CommitAndDiscard
  refine ⟨fun s hs => ⟨fun hp => ?closed, fun p hp => ?opened⟩, fun s p ev hs hp hother hev ht hservices => ?applied⟩
  case closed =>
    exact ⟨exec_commitPlan hs (doCommitPlan_closed hp), exec_discardPlan hs (doDiscardPlan_closed hp)⟩
  case opened =>
    exact ⟨exec_discardPlan hs (doDiscardPlan_opened hp), fun h => exec_commitPlan hs (doCommitPlan_noChange hp h),
      fun h hev => exec_commitPlan hs (doCommitPlan_capacity hp h hev)⟩
  case applied =>
    intro r newly pending record counts named
    have hrecord : commitRecord s r ev = record := commitRecord_eq s r ev
    have hnamed (k : ServiceKey) : BoundKey (applyCommit p ev s) k ↔ named k :=
      (boundKey_applyCommit hservices k).trans (mem_namedKeys p k)
    have hlaw : ServiceLaw (applyCommit p ev s).services := serviceLaw_applyCommit hservices
    refine ⟨applyCommit p ev s, commitBound s p ev, ⟨?answer, ?plan, (evolves_settle _).plan, ?notice, ?search⟩,
      ⟨fun hadded => ⟨applyCommit_starts hadded, mem_applyCommit_outstanding ht hev hadded⟩, ?goesOn⟩,
      applyCommit_shrinks ht hev, fun i a ha => ?entry, fun i w hw => ?marked, fun k hk => ?listed, fun n => ?room⟩
    case answer =>
      have hanswer := exec_commitPlan hs (doCommitPlan_applied hp hother hev)
      rwa [show commitRecord s (commitTable s p ev) ev = record from hrecord, commitBytes_eq] at hanswer
    case plan => exact hrecord ▸ applyCommit_plan s p ev
    case notice =>
      have hpass : (if record.passStarted then 1#8 else 0#8) = (if r.added = [] then 0#8 else 1#8 : Byte) := by
        show (if (!r.added.isEmpty) = true then 1#8 else 0#8) = _
        cases r.added <;> rfl
      rw [applyCommit_link, show commitRecord s (commitTable s p ev) ev = record from hrecord, planNotice_eq, hpass]
    case search => rw [applyCommit_sched]
    case goesOn =>
      refine fun hadded => ⟨applyCommit_goes_on hadded, fun hopen i => ?_⟩
      obtain ⟨hleaves, hjoins⟩ := applyCommit_outstanding hadded ht hopen i
      refine ⟨?_, ?_⟩
      · rintro (⟨b, a, hb, ha, hturned⟩ | ⟨b, a, hb, ha, hturned⟩)
        · exact hleaves ⟨b, a, hb, ha, .inl (by simpa [pending] using hturned)⟩
        · exact hleaves ⟨b, a, hb, ha, .inr (of_decide_eq_true hturned)⟩
      · rintro ⟨b, a, hb, ha, hturned⟩
        exact hjoins ⟨b, a, hb, ha, of_decide_eq_true hturned⟩
    case entry =>
      intro listerOf alone ended
      have hrising := (tabWf_iff.mp (carrierLaw_commitTable hev ht).1).1
      refine ⟨fun hfree => applyCommit_stays ht hev ha fun h hh => (nomatch hfree.symm.trans hh), fun h hh halone =>
        ⟨fun hgoes => applyCommit_stays ht hev ha fun g hg => ?_, ?_⟩⟩
      · obtain rfl := Option.some.inj (hh.symm.trans hg)
        exact not_mem_endingSurveys hrising ha hh halone hgoes
      · rintro ⟨hcarry, hending, hsurvey, hrole, hcarrier, hworks⟩
        exact applyCommit_ends ht hev ha hh hcarry hending ⟨hsurvey, hrole, hcarrier, hworks⟩
    case marked => exact (boundKey_iff_bound hlaw hw).symm.trans (hnamed w.key)
    case listed =>
      obtain ⟨i, w, hw, hkey, -⟩ := (hnamed k).mpr hk
      exact ⟨i, w, hw, hkey⟩
    case room =>
      obtain ⟨hprimary, hfallback, hpriority⟩ := hasBinding_applyCommit s p ev n
      exact ⟨hprimary, hfallback, hpriority⟩

end Sys2Proof.Machine

/-! The family "Watches and the ALERT line": the alert modes and the end of a pulse (R160), the latches and the entries that
the host's commands clear or replace (R155, R156, R161), and the firing of the watches on a pair of records (R157 to R160). -/

namespace Sys2Proof.Machine

/-! ## SET_ALERT_MODE and PULSE_TIMER_END (R160) -/

theorem exec_setAlertMode {s t : State} {m : Nat} {code : ReplyCode} (hs : Ready s) (hm : m < 256)
    (h : doSetAlertMode m s = answered code t) : exec (.setAlertMode m) s = .next (formReply 0x53 code [] t) := by
  have hanswer : answerCommand (.setAlertMode m) s = formReply 0x53 code [] t :=
    congrArg (fun a : Answer => formReply 0x53 a.code a.content a.state) h
  exact hanswer ▸ exec_rowOf_ready (c := .setAlertMode m) hs (decide_eq_true hm)

theorem doSetAlertMode_level_level {s : State} (h : s.watches.mode = .level) :
    doSetAlertMode 0 s = answered .noChange s := by simp [doSetAlertMode, h]

theorem doSetAlertMode_level_pulse {s : State} (h : s.watches.mode = .level) :
    doSetAlertMode 1 s = answered .ok (modWatches (changeMode .pulse) s) := by simp [doSetAlertMode, h]

theorem doSetAlertMode_pulse_level {s : State} (h : s.watches.mode = .pulse) :
    doSetAlertMode 0 s = answered .ok (modWatches (changeMode .level) s) := by simp [doSetAlertMode, h]

theorem doSetAlertMode_pulse_pulse {s : State} (h : s.watches.mode = .pulse) :
    doSetAlertMode 1 s = answered .noChange s := by simp [doSetAlertMode, h]

theorem doSetAlertMode_badValue {s : State} {m : Nat} (h : 2 ≤ m) : doSetAlertMode m s = answered .badValue s := by
  match m with
  | m + 2 => rfl

theorem endPulse_out {u : WatchUnit} (h : u.pulseTimer = some 0) :
    endPulse u = { u with alert := false, pulseTimer := none } := by simp [endPulse, timerOut, h]

theorem endPulse_running {u : WatchUnit} (h : u.pulseTimer ≠ some 0) : endPulse u = u := by
  simp [endPulse, timerOut, h]

theorem exec_pulseTimerEnd {s : State} (hr : s.clock.inReset = false) :
    exec .pulseTimerEnd s = .next (s.setWatches (endPulse s.watches)) :=
  whileRunning_running (f := modWatches endPulse) hr

/-- Settles O35: the command by the mode it names and the mode in force, the event by what is left on the pulse timer. -/
theorem alertModes : Obligations.AlertModes := by
  unfold Obligations.AlertModes
  refine ⟨fun s hs => ⟨fun hmode => ?level, fun hmode => ?pulse, fun m h2 hm => ?other⟩,
    fun s hr => ⟨fun hout => ?out, fun hleft => ?left⟩⟩
  case level =>
    exact ⟨exec_setAlertMode hs (by omega) (doSetAlertMode_level_level hmode),
      exec_setAlertMode hs (by omega) (doSetAlertMode_level_pulse hmode)⟩
  case pulse =>
    exact ⟨exec_setAlertMode hs (by omega) (doSetAlertMode_pulse_pulse hmode),
      exec_setAlertMode hs (by omega) (doSetAlertMode_pulse_level hmode)⟩
  case other => exact exec_setAlertMode hs hm (doSetAlertMode_badValue h2)
  case out => rw [exec_pulseTimerEnd hr, endPulse_out hout]
  case left =>
    rw [exec_pulseTimerEnd hr, endPulse_running hleft]
    rfl

/-! ## The watches by their numbers -/

theorem any_allWatches_iff {p : Fin 16 → Bool} : allWatches.any p = true ↔ ∃ j, p j = true := by
  simp [allWatches]

theorem alertLatched_iff {ws : Vector Watch 16} :
    alertLatched ws = true ↔ ∃ j : Fin 16, ws[j].alert = true ∧ ws[j].latched = true := by
  simp only [alertLatched, List.any_eq_true, Bool.and_eq_true, Vector.mem_toList_iff, Vector.mem_iff_getElem]
  constructor
  · rintro ⟨w, ⟨j, hj, rfl⟩, hw⟩
    exact ⟨⟨j, hj⟩, hw⟩
  · rintro ⟨j, hj⟩
    exact ⟨ws[j], ⟨j, j.isLt, rfl⟩, hj⟩

theorem alertLatched_congr {ws vs : Vector Watch 16}
    (h : ∀ j : Fin 16, ws[j].alert = true ∧ ws[j].latched = true ↔ vs[j].alert = true ∧ vs[j].latched = true) :
    alertLatched ws = alertLatched vs := by
  rw [Bool.eq_iff_iff, alertLatched_iff, alertLatched_iff]
  exact exists_congr h

theorem vecMap_eq_ofFn {α : Type} {n : Nat} (f : Fin n → α → α) (v : Vector α n) :
    vecMap f v = .ofFn fun j => f j v[j] := by
  ext j hj
  rw [Vector.getElem_ofFn]
  exact vecMap_get f v ⟨j, hj⟩

theorem set_entry (ws : Vector Watch 16) (n j : Fin 16) (w : Watch) :
    (ws.set n w)[j] = if j = n then w else ws[j] := by
  simp only [Fin.getElem_fin, Vector.getElem_set, Fin.val_inj, eq_comm]

@[simp] theorem clearLatches_entry (named : Fin 16 → Bool) (ws : Vector Watch 16) (j : Fin 16) :
    (clearLatches named ws)[j] = if named j then { ws[j] with latched := false } else ws[j] :=
  vecMap_get ..

theorem namedLatched_iff {named : Fin 16 → Bool} {p : Watch → Bool} {ws : Vector Watch 16} :
    namedLatched named p ws = true ↔ ∃ j, named j = true ∧ ws[j].latched = true ∧ p ws[j] = true := by
  simp only [namedLatched, any_allWatches_iff, Bool.and_eq_true, and_assoc]

/-! ## Latches cleared (R161) -/

/-- R161: the unit after the latches that `named` names were cleared, with `ws` its entries then. -/
structure Acknowledged (named : Fin 16 → Bool) (ws : Vector Watch 16) (u v : WatchUnit) : Prop where
  level : u.mode = .level → v = { u with entries := ws, alert := alertLatched ws }
  ends : u.mode = .pulse → (∃ j, named j = true ∧ u.entries[j].latched = true ∧ u.entries[j].alert = true) →
    v = { u with entries := ws, alert := false, pulseTimer := none }
  runs : u.mode = .pulse → (¬∃ j, named j = true ∧ u.entries[j].latched = true ∧ u.entries[j].alert = true) →
    v = { u with entries := ws }

/-- Entries that a command then replaces change nothing more when the same alert latches stand in them. -/
theorem acknowledged_of_alertLatched {named : Fin 16 → Bool} {ws : Vector Watch 16} {u : WatchUnit}
    (h : alertLatched ws = alertLatched (clearLatches named u.entries)) :
    Acknowledged named ws u { acknowledge named u with entries := ws } where
  level hmode := by simp only [acknowledge, hmode, h]
  ends hmode hcleared := by simp only [acknowledge, hmode, if_pos (namedLatched_iff.mpr hcleared)]
  runs hmode hcleared := by simp only [acknowledge, hmode, if_neg (mt namedLatched_iff.mp hcleared)]

theorem acknowledge_entries (named : Fin 16 → Bool) (u : WatchUnit) :
    (acknowledge named u).entries = clearLatches named u.entries := by
  unfold acknowledge
  dsimp only
  split
  · rfl
  · split <;> rfl

theorem acknowledged_acknowledge (named : Fin 16 → Bool) (u : WatchUnit) :
    Acknowledged named (clearLatches named u.entries) u (acknowledge named u) := by
  have h := acknowledged_of_alertLatched (named := named) (u := u) rfl
  rwa [← acknowledge_entries] at h ⊢

/-- R156: the entries with those that `named` names cleared. -/
def clearedEntries (named : Fin 16 → Bool) (ws : Vector Watch 16) : Vector Watch 16 :=
  .ofFn fun j => if named j then clearedWatch ws[j] else ws[j]

theorem clearedEntries_entry (named : Fin 16 → Bool) (ws : Vector Watch 16) (j : Fin 16) :
    (clearedEntries named ws)[j] = if named j then clearedWatch ws[j] else ws[j] :=
  Vector.getElem_ofFn ..

theorem clearEntries_eq (named : Fin 16 → Bool) (u : WatchUnit) :
    clearEntries named u = { acknowledge named u with entries := clearedEntries named u.entries } := by
  have hentries : vecMap (fun j w => if named j then clearedWatch w else w) (acknowledge named u).entries =
      clearedEntries named u.entries := by
    rw [acknowledge_entries, vecMap_eq_ofFn]
    refine congrArg Vector.ofFn (funext fun j => ?_)
    rw [clearLatches_entry]
    cases named j <;> rfl
  exact congrArg (fun ws => { acknowledge named u with entries := ws }) hentries

theorem acknowledged_clearEntries (named : Fin 16 → Bool) (u : WatchUnit) :
    Acknowledged named (clearedEntries named u.entries) u (clearEntries named u) := by
  rw [clearEntries_eq]
  refine acknowledged_of_alertLatched (alertLatched_congr fun j => ?_)
  rw [clearedEntries_entry, clearLatches_entry]
  cases named j <;> simp [clearedWatch]

theorem set_clearLatches (n : Fin 16) (w : Watch) (ws : Vector Watch 16) :
    (clearLatches (fun j => decide (j = n)) ws).set n w = ws.set n w := by
  have hentry (j : Fin 16) : ((clearLatches (fun j => decide (j = n)) ws).set n w)[j] = (ws.set n w)[j] := by
    rw [set_entry, set_entry, clearLatches_entry]
    by_cases hj : j = n <;> simp [hj]
  ext j hj
  exact hentry ⟨j, hj⟩

/-- R155: an entry replaced by one that is not latched, after its latch was cleared. -/
theorem acknowledged_setEntry (n : Fin 16) {w : Watch} (hw : w.latched = false) (u : WatchUnit) :
    Acknowledged (fun j => decide (j = n)) (u.entries.set n w) u (setEntry n w u) := by
  have hentries : (acknowledge (fun j => decide (j = n)) u).entries.set n w = u.entries.set n w := by
    rw [acknowledge_entries, set_clearLatches]
  have hset : setEntry n w u = { acknowledge (fun j => decide (j = n)) u with entries := u.entries.set n w } :=
    congrArg (fun ws => { acknowledge (fun j => decide (j = n)) u with entries := ws }) hentries
  rw [hset]
  refine acknowledged_of_alertLatched (alertLatched_congr fun j => ?_)
  rw [set_entry, clearLatches_entry]
  by_cases hj : j = n <;> simp [hj, hw]

/-! ## ACK_WATCH and CLEAR_WATCH (R156, R161) -/

theorem exec_ackWatch {s t : State} {n : Nat} {code : ReplyCode} {content : List Byte} (hs : Ready s) (hn : n < 256)
    (h : doAckWatch n s = { state := t, code := code, content := content }) :
    exec (.ackWatch n) s = .next (formReply 0x52 code content t) := by
  have hanswer : answerCommand (.ackWatch n) s = formReply 0x52 code content t :=
    congrArg (fun a : Answer => formReply 0x52 a.code a.content a.state) h
  exact hanswer ▸ exec_rowOf_ready (c := .ackWatch n) hs (decide_eq_true hn)

theorem exec_clearWatch {s t : State} {n : Nat} {code : ReplyCode} (hs : Ready s) (hn : n < 256)
    (h : doClearWatch n s = answered code t) : exec (.clearWatch n) s = .next (formReply 0x51 code [] t) := by
  have hanswer : answerCommand (.clearWatch n) s = formReply 0x51 code [] t :=
    congrArg (fun a : Answer => formReply 0x51 a.code a.content a.state) h
  exact hanswer ▸ exec_rowOf_ready (c := .clearWatch n) hs (decide_eq_true hn)

theorem namesWatch_iff {n : Nat} : namesWatch n = true ↔ n ≤ 15 ∨ n = 255 := by
  rw [namesWatch, Bool.or_eq_true, decide_eq_true_iff, decide_eq_true_iff, allWatchesNumber]
  omega

theorem watchNamed_eq (n : Nat) : watchNamed n = fun j => decide (n = 255 ∨ j.val = n) :=
  funext fun _ => (Bool.decide_or ..).symm

section
variable {s : State} {n : Nat}

theorem doAckWatch_badIndex (h : ¬namesWatch n = true) : doAckWatch n s = answered .badIndex s := if_neg h

theorem doClearWatch_badIndex (h : ¬namesWatch n = true) : doClearWatch n s = answered .badIndex s := if_neg h

theorem doAckWatch_named (h : namesWatch n = true) :
    doAckWatch n s =
      { state := s.setWatches (acknowledge (watchNamed n) s.watches)
        code := if namedLatched (watchNamed n) (fun _ => true) s.watches.entries then .ok else .noChange
        content := ackBytes (clearLatches (watchNamed n) s.watches.entries) } := by
  rw [doAckWatch, if_pos h, ← acknowledge_entries]
  rfl

theorem doClearWatch_named (h : namesWatch n = true) :
    doClearWatch n s =
      answered (if allWatches.any fun j => watchNamed n j && s.watches.entries[j].active then .ok else .noChange)
        (s.setWatches (clearEntries (watchNamed n) s.watches)) := if_pos h

end

theorem ackBytes_eq (ws : Vector Watch 16) :
    ackBytes ws = (ws.toList.map fun w =>
      [if w.active then 1#8 else 0#8, if w.latched then 1#8 else 0#8] ++ le 2 w.fireCount).flatten := by
  simp only [ackBytes, boolByte_eq, List.flatMap_def, List.cons_append, List.nil_append]

/-- Settles O34: both commands leave an `Acknowledged` unit, ACK_WATCH with the latches cleared and CLEAR_WATCH with the
entries cleared. -/
theorem clearAndAckWatch : Obligations.ClearAndAckWatch := by
  unfold Obligations.ClearAndAckWatch
  intro s n hn hs named yes active acked cleared unlatched after
  have hnamed : watchNamed n = named := watchNamed_eq n
  have hafter {ws : Vector Watch 16} {u : WatchUnit} (h : Acknowledged named ws s.watches u) : after ws u :=
    ⟨h.level, h.ends, h.runs⟩
  have hacked : clearLatches named s.watches.entries = acked := vecMap_eq_ofFn ..
  refine ⟨fun habove hall => ?other, fun hnames => ⟨?acknowledged, ?cleared⟩⟩
  case other =>
    have hnot : ¬namesWatch n = true := fun h => by have := namesWatch_iff.mp h; omega
    exact ⟨exec_ackWatch hs hn (doAckWatch_badIndex hnot), exec_clearWatch hs hn (doClearWatch_badIndex hnot)⟩
  case acknowledged =>
    have hreply := exec_ackWatch hs hn (doAckWatch_named (namesWatch_iff.mpr hnames))
    rw [hnamed, ackBytes_eq, hacked] at hreply
    have hlatched : namedLatched named (fun _ => true) s.watches.entries = true ↔ unlatched (fun _ => True) := by
      simp only [namedLatched_iff, unlatched]
    exact ⟨_, _, hreply, hafter (hacked ▸ acknowledged_acknowledge named s.watches),
      fun h => if_pos (hlatched.mpr h), fun h => if_neg (mt hlatched.mp h)⟩
  case cleared =>
    have hreply := exec_clearWatch hs hn (doClearWatch_named (namesWatch_iff.mpr hnames))
    rw [hnamed] at hreply
    have hactive : (allWatches.any fun j => named j && s.watches.entries[j].active) = true ↔
        ∃ j, named j = true ∧ active s.watches.entries[j] = true := by
      simp only [any_allWatches_iff, Bool.and_eq_true]
      rfl
    refine ⟨_, _, hreply, hafter (acknowledged_clearEntries named s.watches), fun h => if_pos (hactive.mpr h),
      fun h => if_neg fun hany => ?_⟩
    obtain ⟨j, hj, hactive⟩ := hactive.mp hany
    exact absurd (h j hj) (hactive ▸ Bool.noConfusion)

/-! ## SET_WATCH (R155) -/

theorem exec_setWatch {s t : State} {e : WatchEdit} {code : ReplyCode} (hs : Ready s) (he : e.wf = true)
    (h : doSetWatch e s = answered code t) : exec (.setWatch e) s = .next (formReply 0x50 code [] t) := by
  have hanswer : answerCommand (.setWatch e) s = formReply 0x50 code [] t :=
    congrArg (fun a : Answer => formReply 0x50 a.code a.content a.state) h
  exact hanswer ▸ exec_rowOf_ready (c := .setWatch e) hs he

theorem subjectKindOf_eq_some_iff {n : Nat} {k : SubjectKind} : subjectKindOf n = some k ↔ n = subjectKindCode k := by
  match n with
  | 0 | 1 | 2 | 3 => cases k <;> simp [subjectKindOf, subjectKindCode]
  | n + 4 => cases k <;> simp [subjectKindOf, subjectKindCode]

theorem subjectKindOf_eq_none_iff {n : Nat} : subjectKindOf n = none ↔ 3 < n := by
  match n with
  | 0 | 1 | 2 | 3 => simp [subjectKindOf]
  | n + 4 => simp [subjectKindOf]

theorem subjectInRange_iff {kind subject : Nat} :
    subjectInRange kind subject = true ↔
      subject = 0xFFFF ∨ (kind = 0 → subject ≤ 95) ∧ (kind = 1 → subject ≤ 255) ∧ (kind = 2 → subject ≤ 47) ∧
        (kind = 3 → subject ≤ 7) := by
  rw [subjectInRange, Bool.or_eq_true, decide_eq_true_iff, anySubject]
  refine or_congr_right ?_
  cases hk : subjectKindOf kind with
  | none =>
    have habove := subjectKindOf_eq_none_iff.mp hk
    exact iff_of_true rfl (by omega)
  | some k =>
    obtain rfl := subjectKindOf_eq_some_iff.mp hk
    show decide (subject < subjectCount k) = true ↔ _
    rw [decide_eq_true_iff]
    cases k <;> simp [subjectCount, subjectKindCode] <;> omega

theorem conditionsAllowed_iff {k : SubjectKind} {e : WatchEdit} (hk : subjectKindOf e.kind = some k) :
    conditionsAllowed k e = true ↔
      (flagOf e.statePresent = true → e.kind ≠ 2) ∧ (flagOf e.marginPresent = true → e.kind = 0) ∧
        (flagOf e.scorePresent = true → e.kind = 0 ∨ e.kind = 1) ∧ (flagOf e.selectionChanged = true → e.kind = 1) ∧
          (flagOf e.routePresent = true → e.kind = 2) := by
  rw [subjectKindOf_eq_some_iff.mp hk]
  cases k <;> simp [conditionsAllowed, subjectKindCode, and_assoc]

theorem carrierStateOf_isSome_iff {n : Nat} : (carrierStateOf n).isSome = true ↔ n ≤ 5 := by
  match n with
  | 0 | 1 | 2 | 3 | 4 | 5 => simp [carrierStateOf]
  | n + 6 => simp [carrierStateOf]

theorem serviceStateOf_isSome_iff {n : Nat} : (serviceStateOf n).isSome = true ↔ n ≤ 3 := by
  match n with
  | 0 | 1 | 2 | 3 => simp [serviceStateOf]
  | n + 4 => simp [serviceStateOf]

theorem slotStateOf_isSome_iff {n : Nat} : (slotStateOf n).isSome = true ↔ n ≤ 6 := by
  match n with
  | 0 | 1 | 2 | 3 | 4 | 5 | 6 => simp [slotStateOf]
  | n + 7 => simp [slotStateOf]

theorem routeOf_isSome_iff {n : Nat} : (routeOf n).isSome = true ↔ n ≤ 4 := by
  match n with
  | 0 | 1 | 2 | 3 | 4 => simp [routeOf]
  | n + 5 => simp [routeOf]

theorem subjectStateOf_isSome_iff {k : SubjectKind} {kind n : Nat} (hk : subjectKindOf kind = some k) (hroom : kind ≠ 2) :
    (subjectStateOf k n).isSome = true ↔ (kind = 0 → n ≤ 5) ∧ (kind = 1 → n ≤ 3) ∧ (kind = 3 → n ≤ 6) := by
  obtain rfl := subjectKindOf_eq_some_iff.mp hk
  cases k with
  | room => exact absurd rfl hroom
  | carrier => simp [subjectStateOf, subjectKindCode, carrierStateOf_isSome_iff]
  | service => simp [subjectStateOf, subjectKindCode, serviceStateOf_isSome_iff]
  | slot => simp [subjectStateOf, subjectKindCode, slotStateOf_isSome_iff]

theorem not_or_eq_true_iff {a b : Bool} : (!a || b) = true ↔ (a = true → b = true) := by
  cases a <;> simp

/-- R155: a ROOM watch has no state condition to know the value of, so the values are judged once it has none. -/
theorem valuesKnown_iff {k : SubjectKind} {e : WatchEdit} (hk : subjectKindOf e.kind = some k)
    (hroom : flagOf e.statePresent = true → e.kind ≠ 2) :
    valuesKnown k e = true ↔
      (flagOf e.statePresent = true →
        (e.kind = 0 → e.state ≤ 5) ∧ (e.kind = 1 → e.state ≤ 3) ∧ (e.kind = 3 → e.state ≤ 6)) ∧
        (flagOf e.routePresent = true → e.route ≤ 4) := by
  simp only [valuesKnown, Bool.and_eq_true, not_or_eq_true_iff, routeOf_isSome_iff]
  exact and_congr_left fun _ => forall_congr' fun hp => subjectStateOf_isSome_iff hk (hroom hp)

theorem clampInt_ne_self_iff {lo hi x : Int} (h : lo ≤ hi) : clampInt x lo hi ≠ x ↔ x < lo ∨ hi < x := by
  unfold clampInt
  omega

theorem thresholdClamped_iff {e : WatchEdit} :
    thresholdClamped e = true ↔
      (flagOf e.marginPresent = true ∧ (e.margin < -350 ∨ 359 < e.margin)) ∨
        (flagOf e.scorePresent = true ∧ 1000 < e.score) := by
  simp only [thresholdClamped, Bool.or_eq_true, Bool.and_eq_true, decide_eq_true_iff,
    clampInt_ne_self_iff (show (-350 : Int) ≤ 359 by decide)]

section
variable {s : State} {e : WatchEdit}

theorem doSetWatch_badIndex (h : 15 < e.watch ∨ ¬subjectInRange e.kind e.subject = true) :
    doSetWatch e s = answered .badIndex s := by
  unfold doSetWatch
  split
  · next hw => exact if_neg (h.resolve_left (by omega))
  · rfl

variable (hw : e.watch ≤ 15) (hr : subjectInRange e.kind e.subject = true)
include hw hr

theorem doSetWatch_noKind (hk : subjectKindOf e.kind = none) : doSetWatch e s = answered .badValue s := by
  rw [doSetWatch, dif_pos (by omega), if_pos hr, hk]

theorem doSetWatch_badValue {k : SubjectKind} (hk : subjectKindOf e.kind = some k)
    (h : ¬(e.action ≤ 1 ∧ conditionsAllowed k e = true ∧ valuesKnown k e = true)) :
    doSetWatch e s = answered .badValue s := by
  rw [doSetWatch, dif_pos (by omega), if_pos hr, hk]
  exact if_neg h

end

theorem doSetWatch_taken {s : State} {e : WatchEdit} {n : Fin 16} {k : SubjectKind} (hn : e.watch = n.val)
    (hr : subjectInRange e.kind e.subject = true) (hk : subjectKindOf e.kind = some k)
    (h : e.action ≤ 1 ∧ conditionsAllowed k e = true ∧ valuesKnown k e = true) :
    doSetWatch e s = answered (if thresholdClamped e then .adjusted else .ok)
      (s.setWatches (setEntry n (watchOf k e) s.watches)) := by
  have hindex (hw : e.watch < 16) : (⟨e.watch, hw⟩ : Fin 16) = n := Fin.ext hn
  rw [doSetWatch, dif_pos (hn ▸ n.isLt), if_pos hr, hk]
  exact (if_pos h).trans (by rw [hindex]; rfl)

/-- Settles O33: the checks in their order by what `doSetWatch` answers, the entry by `watchOf`, and the ALERT line by
`acknowledged_setEntry`. -/
theorem setWatchReplacesTheEntry : Obligations.SetWatchReplacesTheEntry := by
  unfold Obligations.SetWatchReplacesTheEntry
  intro s e he hs answered inRange allowed known
  have hrange : subjectInRange e.kind e.subject = true ↔ inRange := subjectInRange_iff
  refine ⟨fun h => ?badIndex, fun hw hr h => ?badValue, fun n kind hn hr hk haction hallowed hknown => ?taken⟩
  case badIndex => exact exec_setWatch hs he (doSetWatch_badIndex (h.imp_right (mt hrange.mp)))
  case badValue =>
    cases hk : subjectKindOf e.kind with
    | none => exact exec_setWatch hs he (doSetWatch_noKind hw (hrange.mpr hr) hk)
    | some k =>
      have hkind : ¬3 < e.kind := fun habove => nomatch hk.symm.trans (subjectKindOf_eq_none_iff.mpr habove)
      refine exec_setWatch hs he (doSetWatch_badValue hw (hrange.mpr hr) hk ?_)
      rintro ⟨haction, hallows, hknows⟩
      have hallowed : allowed := (conditionsAllowed_iff hk).mp hallows
      have hknown : known := (valuesKnown_iff hk hallowed.1).mp hknows
      exact h.elim hkind fun h => h.elim (by omega) fun h => h.elim (· hallowed) (· hknown)
  case taken =>
    intro clamped entry old entries code
    have hcode : (if thresholdClamped e then .adjusted else .ok) = code := if_congr thresholdClamped_iff rfl rfl
    have hentry : watchOf kind e = entry := by
      rw [watchOf, clampInt_eq_max_min (show (-350 : Int) ≤ 359 by decide), min_comm e.score]
      rfl
    have hreply := exec_setWatch hs he (doSetWatch_taken (s := s) hn (hrange.mpr hr) hk
      ⟨haction, (conditionsAllowed_iff hk).mpr hallowed, (valuesKnown_iff hk hallowed.1).mpr hknown⟩)
    rw [hcode, hentry] at hreply
    obtain ⟨hlevel, hends, hruns⟩ := acknowledged_setEntry n (w := entry) rfl s.watches
    refine ⟨fun hmode => hlevel hmode ▸ hreply, fun hmode halert hlatched => ?_, fun hmode hnone => ?_⟩
    · exact hends hmode ⟨n, decide_eq_true rfl, hlatched, halert⟩ ▸ hreply
    · refine hruns hmode ?_ ▸ hreply
      rintro ⟨j, hj, hlatched, halert⟩
      obtain rfl := of_decide_eq_true hj
      exact hnone ⟨halert, hlatched⟩

/-! ## Offers to the notice queue (R170) -/

/-- What an offer may do to the link: only the notices and NOTICES_DROPPED change. -/
def NoticesOnly (l m : Link) : Prop :=
  m = { l with notices := m.notices, flags := { l.flags with noticesDropped := m.flags.noticesDropped } }

theorem NoticesOnly.refl (l : Link) : NoticesOnly l l := rfl

theorem NoticesOnly.trans {l m k : Link} (h : NoticesOnly l m) (h' : NoticesOnly m k) : NoticesOnly l k := by
  unfold NoticesOnly at h h'
  rw [h] at h'
  exact h'

theorem noticesOnly_offerLink (n : Notice) (l : Link) : NoticesOnly l (offerLink n l) := by
  unfold offerLink
  split
  · exact .refl l
  · split
    · rfl
    · split <;> rfl

theorem offerLink_length_le (n : Notice) (l : Link) : (offerLink n l).notices.length ≤ l.notices.length + 1 := by
  unfold offerLink
  split
  · exact Nat.le_succ _
  · split
    · simp
    · split <;> simp

theorem mem_offerLink {n : Notice} {l : Link} (henabled : kindEnabled l.mask n.kind = true)
    (hroom : l.notices.length < 32) : n ∈ (offerLink n l).notices := by
  unfold offerLink
  rw [henabled]
  split
  · next h => exact nomatch h
  · split
    · next hwaits =>
      obtain ⟨m, hm, hsame⟩ := List.any_eq_true.mp hwaits
      exact List.mem_map.mpr ⟨m, hm, if_pos hsame⟩
    · rw [if_neg (show ¬noticePlaces ≤ l.notices.length from Nat.not_le.mpr hroom)]
      exact List.mem_append_right _ (List.mem_singleton_self n)

/-- R170: an offer leaves a waiting notice of another kind or subject. -/
theorem mem_offerLink_of_mem {m n : Notice} {l : Link} (hm : m ∈ l.notices)
    (hother : m.kind ≠ n.kind ∨ m.subject ≠ n.subject) : m ∈ (offerLink n l).notices := by
  have hnot : ¬sameNotice n.kind n.subject m = true := by
    simp only [sameNotice, Bool.and_eq_true, decide_eq_true_iff]
    exact fun h => hother.elim (· h.1) (· h.2)
  unfold offerLink
  split
  · exact hm
  · split
    · exact List.mem_map.mpr ⟨m, hm, if_neg hnot⟩
    · split
      · exact hm
      · exact List.mem_append_left _ hm

/-! ## When a watch fires (R157) -/

theorem plainConditions_all_iff {w : Watch} {v : View} :
    (plainConditions w v).all id = true ↔
      (∀ x, w.stateEq = some x → v.state = some x) ∧
        (∀ x, w.marginBelow = some x → ∃ m, v.margin = some m ∧ m < x) ∧
          (∀ x, w.scoreBelow = some x → ∃ m, v.score = some m ∧ m < x) ∧ ∀ x, w.routeEq = some x → v.route = some x := by
  simp only [plainConditions, List.all_append, Bool.and_eq_true, and_assoc]
  refine and_congr ?_ (and_congr ?_ (and_congr ?_ ?_))
  · cases w.stateEq <;> simp
  · cases w.marginBelow <;> cases v.margin <;> simp
  · cases w.scoreBelow <;> cases v.score <;> simp
  · cases w.routeEq <;> simp

theorem holdsAfter_iff {w : Watch} {before : Option View} {a : View} :
    holdsAfter w before a = true ↔
      (plainConditions w a).all id = true ∧
        (w.selectionChanged = true → a.selection ≠ before.bind (·.selection)) := by
  rw [holdsAfter, Bool.and_eq_true, not_or_eq_true_iff, decide_eq_true_iff]

theorem failsBefore_iff {w : Watch} {before : Option View} :
    failsBefore w before = true ↔
      ∀ b, before = some b → w.selectionChanged = true ∨ ¬(plainConditions w b).all id = true := by
  cases before with
  | none => simp [failsBefore]
  | some b => simp [failsBefore]

theorem fires_iff {w : Watch} {kind : SubjectKind} {idx : Nat} {before after : Option View} :
    fires w kind idx before after = true ↔
      w.active = true ∧ w.kind = kind ∧ (w.subject = none ∨ w.subject = some idx) ∧
        (∃ a, after = some a ∧ holdsAfter w before a = true) ∧ failsBefore w before = true := by
  cases after <;> simp [fires, and_assoc]

/-! ## One firing (R158 to R160) -/

theorem alertOnFire_pulseTimer (u : WatchUnit) :
    (alertOnFire u).pulseTimer = match u.mode with | .level => u.pulseTimer | .pulse => some 250 := by
  cases hmode : u.mode <;> simp [alertOnFire, hmode, pulseMs]

theorem alertOnFire_entries (u : WatchUnit) : (alertOnFire u).entries = u.entries := by
  unfold alertOnFire
  split <;> rfl

theorem alertOnFire_alert (u : WatchUnit) : (alertOnFire u).alert = true := by
  unfold alertOnFire
  split <;> rfl

/-- R158: the notice of a firing of watch `n` on subject `idx`, whose record after is `a`. -/
def firedNotice (n : Fin 16) (idx : Nat) (a : View) (s : State) : Notice :=
  { kind := .watch, subject := n.val,
    content := watchNotice n.val (firedEntry idx s.watches.entries[n]) idx s.clock.now a }

section
variable {n m : Fin 16} {idx : Nat} {a : View} {s : State}

theorem fireWatch_link : (fireWatch n idx a s).link = offerLink (firedNotice n idx a s) s.link := by
  unfold fireWatch
  dsimp only
  split <;> rfl

theorem fireWatch_watches :
    (fireWatch n idx a s).watches =
      if s.watches.entries[n].alert then
        alertOnFire { s.watches with entries := s.watches.entries.set n (firedEntry idx s.watches.entries[n]) }
      else { s.watches with entries := s.watches.entries.set n (firedEntry idx s.watches.entries[n]) } :=
  apply_ite State.watches ..

theorem fireWatch_entries :
    (fireWatch n idx a s).watches.entries = s.watches.entries.set n (firedEntry idx s.watches.entries[n]) := by
  rw [fireWatch_watches]
  split
  · exact alertOnFire_entries _
  · rfl

theorem fireWatch_entry_self : (fireWatch n idx a s).watches.entries[n] = firedEntry idx s.watches.entries[n] := by
  rw [fireWatch_entries, set_entry, if_pos rfl]

theorem fireWatch_entry_of_ne (h : m ≠ n) : (fireWatch n idx a s).watches.entries[m] = s.watches.entries[m] := by
  rw [fireWatch_entries, set_entry, if_neg h]

theorem fireWatch_entry_alert : (fireWatch n idx a s).watches.entries[m].alert = s.watches.entries[m].alert := by
  by_cases h : m = n
  · subst h
    rw [fireWatch_entry_self]
    rfl
  · rw [fireWatch_entry_of_ne h]

theorem fireWatch_alert (h : s.watches.entries[n].alert = true) :
    (fireWatch n idx a s).watches.alert = true ∧
      (fireWatch n idx a s).watches.pulseTimer = (alertOnFire s.watches).pulseTimer := by
  rw [fireWatch_watches, if_pos h]
  exact ⟨alertOnFire_alert _, by simp only [alertOnFire_pulseTimer]⟩

theorem fireWatch_noAlert (h : ¬s.watches.entries[n].alert = true) :
    (fireWatch n idx a s).watches.alert = s.watches.alert ∧
      (fireWatch n idx a s).watches.pulseTimer = s.watches.pulseTimer := by
  rw [fireWatch_watches, if_neg h]
  exact ⟨rfl, rfl⟩

/-- R160: however often the pulse is started anew within an event, it then runs for 250 ms. -/
theorem alertOnFire_fireWatch :
    (alertOnFire (fireWatch n idx a s).watches).pulseTimer = (alertOnFire s.watches).pulseTimer := by
  have hmode : (fireWatch n idx a s).watches.mode = s.watches.mode := (ranks_fireWatch ..).alertMode
  rw [alertOnFire_pulseTimer, hmode]
  by_cases h : s.watches.entries[n].alert = true
  · rw [(fireWatch_alert h).2, alertOnFire_pulseTimer]
    cases s.watches.mode <;> rfl
  · rw [(fireWatch_noAlert h).2, alertOnFire_pulseTimer]

end

/-! ## The firings on a pair of records (R157) -/

/-- The firings of the watches `ns` one after another. -/
def fireAll (ns : List (Fin 16)) (idx : Nat) (a : View) (s : State) : State :=
  ns.foldl (fun t n => fireWatch n idx a t) s

theorem fireAll_cons (n : Fin 16) (ns : List (Fin 16)) (idx : Nat) (a : View) (s : State) :
    fireAll (n :: ns) idx a s = fireAll ns idx a (fireWatch n idx a s) := rfl

/-- R157: the watches that fire on a pair of records. -/
def firing (kind : SubjectKind) (idx : Nat) (before after : Option View) (s : State) (n : Fin 16) : Bool :=
  fires s.watches.entries[n] kind idx before after

/-- A firing changes no other watch, so which watches fire is settled before the first of them does. -/
theorem foldl_judgeWatch {kind : SubjectKind} {idx : Nat} {before : Option View} {a : View} {ns : List (Fin 16)}
    (hns : ns.Nodup) (s : State) :
    ns.foldl (judgeWatch kind idx before (some a)) s =
      fireAll (ns.filter (firing kind idx before (some a) s)) idx a s := by
  induction ns generalizing s with
  | nil => rfl
  | cons n ns ih =>
    obtain ⟨hn, hns⟩ := List.nodup_cons.mp hns
    rw [List.foldl_cons, ih hns]
    by_cases h : firing kind idx before (some a) s n = true
    · have hstep : judgeWatch kind idx before (some a) s n = fireWatch n idx a s := if_pos h
      have hrest : ns.filter (firing kind idx before (some a) (fireWatch n idx a s)) =
          ns.filter (firing kind idx before (some a) s) :=
        List.filter_congr fun m hm => by
          rw [firing, fireWatch_entry_of_ne fun hmn : m = n => hn (hmn ▸ hm), firing]
      rw [hstep, hrest, List.filter_cons_of_pos h, fireAll_cons]
    · have hstep : judgeWatch kind idx before (some a) s n = s := if_neg h
      rw [hstep, List.filter_cons_of_neg h]

theorem handPair_removal (kind : SubjectKind) (idx : Nat) (before : Option View) (s : State) :
    handPair kind idx before none s = s :=
  List.foldl_fixed ..

theorem handPair_fires (kind : SubjectKind) (idx : Nat) (before : Option View) (a : View) (s : State) :
    handPair kind idx before (some a) s =
      fireAll (allWatches.filter (firing kind idx before (some a) s)) idx a s :=
  foldl_judgeWatch (List.nodup_finRange 16) s

section
variable {ns : List (Fin 16)} {m : Fin 16} {idx : Nat} {a : View} {s : State}

theorem fireAll_entry_of_notMem (h : m ∉ ns) : (fireAll ns idx a s).watches.entries[m] = s.watches.entries[m] := by
  induction ns generalizing s with
  | nil => rfl
  | cons n ns ih =>
    obtain ⟨hmn, hm⟩ := List.ne_and_not_mem_of_not_mem_cons h
    rw [fireAll_cons, ih hm, fireWatch_entry_of_ne hmn]

theorem fireAll_entry_of_mem (hns : ns.Nodup) (h : m ∈ ns) :
    (fireAll ns idx a s).watches.entries[m] = firedEntry idx s.watches.entries[m] := by
  induction ns generalizing s with
  | nil => exact nomatch h
  | cons n ns ih =>
    obtain ⟨hn, hns⟩ := List.nodup_cons.mp hns
    rw [fireAll_cons]
    by_cases hmn : m = n
    · subst hmn
      rw [fireAll_entry_of_notMem hn, fireWatch_entry_self]
    · rw [ih hns (List.mem_of_ne_of_mem hmn h), fireWatch_entry_of_ne hmn]

theorem fireAll_noAlert (h : ∀ n ∈ ns, ¬s.watches.entries[n].alert = true) :
    (fireAll ns idx a s).watches.alert = s.watches.alert ∧
      (fireAll ns idx a s).watches.pulseTimer = s.watches.pulseTimer := by
  induction ns generalizing s with
  | nil => exact ⟨rfl, rfl⟩
  | cons n ns ih =>
    obtain ⟨hn, hrest⟩ := List.forall_mem_cons.mp h
    obtain ⟨halert, htimer⟩ := ih (s := fireWatch n idx a s) fun m hm h => hrest m hm (fireWatch_entry_alert.symm.trans h)
    obtain ⟨halert', htimer'⟩ := fireWatch_noAlert (idx := idx) (a := a) hn
    exact ⟨halert.trans halert', htimer.trans htimer'⟩

theorem fireAll_alert (h : ∃ n ∈ ns, s.watches.entries[n].alert = true) :
    (fireAll ns idx a s).watches.alert = true ∧
      (fireAll ns idx a s).watches.pulseTimer = (alertOnFire s.watches).pulseTimer := by
  induction ns generalizing s with
  | nil => exact nomatch h
  | cons n ns ih =>
    have hentry (m : Fin 16) : (fireWatch n idx a s).watches.entries[m].alert = s.watches.entries[m].alert :=
      fireWatch_entry_alert
    by_cases hrest : ∃ m ∈ ns, s.watches.entries[m].alert = true
    · obtain ⟨m, hm, halert⟩ := hrest
      rw [← alertOnFire_fireWatch (n := n) (idx := idx) (a := a)]
      exact ih ⟨m, hm, (hentry m).trans halert⟩
    · have hn : s.watches.entries[n].alert = true := by
        obtain ⟨m, hm, halert⟩ := h
        obtain rfl | hm := List.mem_cons.mp hm
        · exact halert
        · exact absurd ⟨m, hm, halert⟩ hrest
      obtain ⟨halert, htimer⟩ := fireAll_noAlert (ns := ns) (idx := idx) (a := a) (s := fireWatch n idx a s)
        fun m hm halert => hrest ⟨m, hm, (hentry m).symm.trans halert⟩
      obtain ⟨halert', htimer'⟩ := fireWatch_alert (idx := idx) (a := a) hn
      exact ⟨halert.trans halert', htimer.trans htimer'⟩

theorem fireAll_noticesOnly : NoticesOnly s.link (fireAll ns idx a s).link := by
  induction ns generalizing s with
  | nil => exact .refl _
  | cons n ns ih =>
    have hstep : NoticesOnly s.link (fireWatch n idx a s).link := fireWatch_link ▸ noticesOnly_offerLink ..
    exact hstep.trans ih

theorem fireAll_keeps_notice {k : Notice} (hk : k ∈ s.link.notices) (h : ∀ n ∈ ns, k.subject ≠ n.val) :
    k ∈ (fireAll ns idx a s).link.notices := by
  induction ns generalizing s with
  | nil => exact hk
  | cons n ns ih =>
    obtain ⟨hn, hrest⟩ := List.forall_mem_cons.mp h
    refine ih ?_ hrest
    rw [fireWatch_link]
    exact mem_offerLink_of_mem hk (.inr hn)

theorem fireAll_notice (hns : ns.Nodup) (h : m ∈ ns) (henabled : kindEnabled s.link.mask .watch = true)
    (hroom : s.link.notices.length + ns.length ≤ 32) :
    firedNotice m idx a s ∈ (fireAll ns idx a s).link.notices := by
  induction ns generalizing s with
  | nil => exact nomatch h
  | cons n ns ih =>
    obtain ⟨hn, hns⟩ := List.nodup_cons.mp hns
    rw [List.length_cons] at hroom
    rw [fireAll_cons]
    by_cases hmn : m = n
    · subst hmn
      refine fireAll_keeps_notice ?_ fun k hk hsame => hn (Fin.ext hsame ▸ hk)
      rw [fireWatch_link]
      exact mem_offerLink henabled (by omega)
    · have hsame : firedNotice m idx a (fireWatch n idx a s) = firedNotice m idx a s := by
        rw [firedNotice, fireWatch_entry_of_ne hmn, (ranks_fireWatch n idx a s).clock, firedNotice]
      have hlength : (fireWatch n idx a s).link.notices.length ≤ s.link.notices.length + 1 :=
        fireWatch_link ▸ offerLink_length_le ..
      rw [← hsame]
      exact ih hns (List.mem_of_ne_of_mem hmn h) ((ranks_fireWatch n idx a s).link.mask ▸ henabled) (by omega)

end

/-! ## A pair of records handed to the watch unit (R157 to R160) -/

section
variable {kind : SubjectKind} {idx : Nat} {before after : Option View} {s : State}

theorem fires_removal (w : Watch) : ¬fires w kind idx before none = true := by
  intro h
  obtain ⟨-, -, -, ⟨a, ha, -⟩, -⟩ := fires_iff.mp h
  exact nomatch ha

theorem mem_firing_iff {m : Fin 16} :
    m ∈ allWatches.filter (firing kind idx before after s) ↔
      fires s.watches.entries[m] kind idx before after = true := by
  rw [List.mem_filter, firing]
  exact and_iff_right (List.mem_finRange m)

theorem nodup_firing : (allWatches.filter (firing kind idx before after s)).Nodup :=
  (List.nodup_finRange 16).filter _

theorem handPair_noticesOnly : NoticesOnly s.link (handPair kind idx before after s).link := by
  cases after with
  | none => exact handPair_removal kind idx before s ▸ .refl _
  | some a =>
    rw [handPair_fires]
    exact fireAll_noticesOnly

theorem handPair_entry_quiet {m : Fin 16} (h : ¬fires s.watches.entries[m] kind idx before after = true) :
    (handPair kind idx before after s).watches.entries[m] = s.watches.entries[m] := by
  cases after with
  | none => rw [handPair_removal]
  | some a =>
    rw [handPair_fires]
    exact fireAll_entry_of_notMem (mt mem_firing_iff.mp h)

theorem handPair_entry_fires {m : Fin 16} (h : fires s.watches.entries[m] kind idx before after = true) :
    (handPair kind idx before after s).watches.entries[m] = firedEntry idx s.watches.entries[m] := by
  cases after with
  | none => exact absurd h (fires_removal _)
  | some a =>
    rw [handPair_fires]
    exact fireAll_entry_of_mem nodup_firing (mem_firing_iff.mpr h)

theorem handPair_notice {m : Fin 16} (h : fires s.watches.entries[m] kind idx before after = true)
    (henabled : kindEnabled s.link.mask .watch = true) (hroom : s.link.notices.length ≤ 16) :
    ∃ a, after = some a ∧ firedNotice m idx a s ∈ (handPair kind idx before after s).link.notices := by
  cases after with
  | none => exact absurd h (fires_removal _)
  | some a =>
    have hlength : (allWatches.filter (firing kind idx before (some a) s)).length ≤ 16 :=
      (List.length_filter_le ..).trans_eq List.length_finRange
    refine ⟨a, rfl, ?_⟩
    rw [handPair_fires]
    exact fireAll_notice nodup_firing (mem_firing_iff.mpr h) henabled (by omega)

theorem handPair_alert
    (h : ∃ m : Fin 16, fires s.watches.entries[m] kind idx before after = true ∧ s.watches.entries[m].alert = true) :
    (handPair kind idx before after s).watches.alert = true ∧
      (handPair kind idx before after s).watches.pulseTimer = (alertOnFire s.watches).pulseTimer := by
  obtain ⟨m, hfires, halert⟩ := h
  cases after with
  | none => exact absurd hfires (fires_removal _)
  | some a =>
    rw [handPair_fires]
    exact fireAll_alert ⟨m, mem_firing_iff.mpr hfires, halert⟩

theorem handPair_noAlert
    (h : ¬∃ m : Fin 16, fires s.watches.entries[m] kind idx before after = true ∧ s.watches.entries[m].alert = true) :
    (handPair kind idx before after s).watches.alert = s.watches.alert ∧
      (handPair kind idx before after s).watches.pulseTimer = s.watches.pulseTimer := by
  cases after with
  | none => exact handPair_removal kind idx before s ▸ ⟨rfl, rfl⟩
  | some a =>
    rw [handPair_fires]
    exact fireAll_noAlert fun m hm halert => h ⟨m, mem_firing_iff.mp hm, halert⟩

end

/-- Settles O36: a watch fires exactly when `fires_iff` says, and what a pair of records does by the lemmas on `handPair`. -/
theorem watchFires : Obligations.WatchFires := by
  unfold Obligations.WatchFires
  intro s kind idx before after t met fired
  have hfired (w : Watch) : fires w kind idx before after = true ↔ fired w := by
    simp only [fires_iff, holdsAfter_iff, failsBefore_iff, plainConditions_all_iff, fired, met]
  refine ⟨?frame, handPair_noticesOnly, (ranks_handPair ..).alertMode,
    fun n => ⟨fun h => handPair_entry_quiet (mt (hfired _).mp h), fun h =>
      ⟨handPair_entry_fires ((hfired _).mpr h), fun henabled hroom => ?notice⟩⟩, fun h => ?alert, fun h => ?noAlert⟩
  case frame =>
    obtain ⟨l, u, ht⟩ := handPair_shape kind idx before after s
    rw [show t = (s.setLink l).setWatches u from ht]
    rfl
  case notice =>
    obtain ⟨a, ha, hnotice⟩ := handPair_notice ((hfired _).mpr h) henabled hroom
    obtain ⟨-, hkind, -⟩ := h
    rw [← hkind]
    exact ⟨a, ha, hnotice⟩
  case alert =>
    obtain ⟨n, hn, halert⟩ := h
    obtain ⟨hline, htimer⟩ := handPair_alert ⟨n, (hfired _).mpr hn, halert⟩
    exact ⟨hline, htimer.trans (alertOnFire_pulseTimer _)⟩
  case noAlert =>
    exact handPair_noAlert fun ⟨n, hn, halert⟩ => h ⟨n, (hfired _).mp hn, halert⟩

end Sys2Proof.Machine

/-! The family "The control link": which commands complete (R165, R173), the queue and the tick (R172), the resets (R173,
R174), the second count (R42, R82, R172), the frames of commands (R163, R165), the receiver and its buffer (R164, R166), the
command unit and the transmitter (R167, R169), the notice queue (R170), and the commands that identify, restart, freeze and
thaw (R168, R171 to R173). -/

namespace Sys2Proof.Machine

/-! ## Every command and event, running or held in reset (R165, R173) -/

/-- The rows that begin or end a reset. -/
def ofReset : Instr → Prop
  | .powerOn | .resetAssert | .resetRelease _ => True
  | _ => False

theorem hostRow_of_wf {c : HostCommand} (h : c.wf = true) (s : State) : hostRow c s = whileRunning (hostCommand c) s :=
  if_pos h

/-- Every row but the resets has an effect while the part runs, and none while it is held in reset. -/
theorem exec_eq_whileRunning {c : Instr} (hwf : c.wf = true) (hc : ¬ofReset c) :
    ∃ f : State → State, ∀ s, exec c s = whileRunning f s := by
  cases c with
  | powerOn | resetAssert | resetRelease => exact absurd trivial hc
  | identify => exact ⟨_, hostRow_of_wf (c := .identify) rfl⟩
  | readStatus => exact ⟨_, hostRow_of_wf (c := .readStatus) rfl⟩
  | restart => exact ⟨_, hostRow_of_wf (c := .restart) rfl⟩
  | freeze => exact ⟨_, hostRow_of_wf (c := .freeze) rfl⟩
  | thaw => exact ⟨_, hostRow_of_wf (c := .thaw) rfl⟩
  | clearSurvey => exact ⟨_, hostRow_of_wf (c := .clearSurvey) rfl⟩
  | commitPlan => exact ⟨_, hostRow_of_wf (c := .commitPlan) rfl⟩
  | discardPlan => exact ⟨_, hostRow_of_wf (c := .discardPlan) rfl⟩
  | setNotices | getCarrier | listCarriers | getService | listServices | getRoom | getSlot | surveyNow | setSurveyMode
  | slotOffline | slotOnline | setInput | setProfile | addCarrier | dropCarrier | setCarrier | bindRoom | unbindRoom
  | setParams | setWatch | clearWatch | ackWatch | setAlertMode =>
    exact ⟨_, hostRow_of_wf hwf⟩
  | sectionReceived i sec => exact ⟨_, fun s => exec_sectionReceived hwf i s⟩
  | symbolDelivered i q => exact ⟨deliverSymbol i q, fun s => if_pos (of_decide_eq_true hwf)⟩
  | byteReceived | byteGapTimeout | commandTaken | transmitStart | frameSent | restartTakesEffect | secondCountAdvance
  | holdUntilReached | unparkTimeEnd | releaseTimeEnd | park | lockGained | lockTimeout | retuneTimeout | lockLoss
  | idTimeout | svcTimeout | listTimeout | recheckStart | recheckIdTimeout | recheckSvcTimeout | blockReport
  | windowComplete | grantRequest | switchPoint | switchTimeout | calibrationEnd | pulseTimerEnd =>
    exact ⟨_, fun _ => rfl⟩

theorem exec_illFormed {c : Instr} (hwf : ¬c.wf = true) (s : State) : exec c s = .refused .illFormed := by
  cases c with
  | sectionReceived i sec => exact exec_sectionReceived_refused hwf i s
  | symbolDelivered i q => exact exec_symbolDelivered_refused (mt decide_eq_true hwf) i s
  | setNotices | getCarrier | listCarriers | getService | listServices | getRoom | getSlot | surveyNow | setSurveyMode
  | slotOffline | slotOnline | setInput | setProfile | addCarrier | dropCarrier | setCarrier | bindRoom | unbindRoom
  | setParams | setWatch | clearWatch | ackWatch | setAlertMode =>
    exact if_neg hwf
  | _ => exact absurd rfl hwf

theorem whileRunning_inReset {f : State → State} {s : State} (hr : s.clock.inReset = true) :
    whileRunning f s = .next s := by
  simp [whileRunning, hr]

/-- Settles O17: the resets answer a state outright, and every other row by `exec_eq_whileRunning`. -/
theorem everyCommandCompletes : Obligations.EveryCommandCompletes := by
  unfold Obligations.EveryCommandCompletes
  refine fun c s => ⟨fun hwf => ?completes, fun hwf => exec_illFormed (by simp [hwf]) s⟩
  by_cases hc : ofReset c
  · cases c with
    | powerOn | resetAssert | resetRelease => exact ⟨_, rfl⟩
    | _ => exact hc.elim
  · obtain ⟨f, hf⟩ := exec_eq_whileRunning hwf hc
    exact ⟨_, hf s⟩

/-- Settles O8, by `exec_eq_whileRunning`. -/
theorem nothingHappensInReset : Obligations.NothingHappensInReset := by
  unfold Obligations.NothingHappensInReset
  intro c s hr hwf hpower hassert hrelease
  have hc : ¬ofReset c := by
    cases c with
    | powerOn => exact absurd rfl hpower
    | resetAssert => exact absurd rfl hassert
    | resetRelease strap => exact absurd rfl (hrelease strap)
    | _ => exact id
  obtain ⟨f, hf⟩ := exec_eq_whileRunning hwf hc
  exact (hf s).trans (whileRunning_inReset hr)

/-! ## The queue of commands and the tick (R172) -/

/-- Settles O1. -/
theorem stepTakesTheFront : Obligations.StepTakesTheFront := by
  unfold Obligations.StepTakesTheFront
  intro c rest s h
  rw [step, h]

theorem orderFree_perm {α : Type} (n : Nat) (l : List α) : (orderFree n l).Perm l := by
  match l with
  | [] | [_] => exact .refl _
  | x :: y :: t =>
    have hzip : ((List.range (x :: y :: t).length).zip (x :: y :: t)).map Prod.snd = x :: y :: t :=
      List.map_snd_zip (Nat.le_of_eq List.length_range.symm)
    exact ((sortBy_perm ..).map Prod.snd).trans (.of_eq hzip)

/-- The tick: the events that are due join the queue, and a draw of their order is counted. -/
theorem tick_running {s : State} (hr : s.clock.inReset = false) :
    ∃ n, tick s = ((tickTimers s).setPending
      ((tickTimers s).pending ++ orderFree (tickTimers s).draws (eventsDue (tickTimers s)))).setDraws n := by
  unfold tick
  rw [if_neg (by simp [hr])]
  generalize tickTimers s = t
  dsimp only [drawOrder]
  split
  · exact ⟨t.draws, rfl⟩
  · exact ⟨t.draws + 1, rfl⟩

theorem tickTimers_slot (s : State) (i : Fin 8) : (tickTimers s).slot i = tickSlot (s.slot i) := vecMap_get ..

theorem tickTimers_room (s : State) (r : Fin 48) :
    (tickTimers s).room r = { s.room r with timer := tickTimer (s.room r).timer } := vecMap_get ..

theorem mem_ite_singleton {α : Type} {p : Prop} [Decidable p] {a x : α} : x ∈ (if p then [a] else []) ↔ x = a ∧ p := by
  rw [List.mem_ite_nil_right, List.mem_singleton, and_comm]

theorem mem_slotEventsDue {s : State} {i : Fin 8} {e : Instr} :
    e ∈ slotEventsDue s i ↔
      (e = .unparkTimeEnd i ∧ (s.slot i).unparkTimer = some 0) ∨
        (e = .releaseTimeEnd i ∧ (s.slot i).releaseTimer = some 0) ∨
        (e = .park i ∧ (s.slot i).parkTimer = some 0) ∨ (e = .retuneTimeout i ∧ (s.slot i).retuneTimer = some 0) ∨
        ((s.slot i).chan.timer = some 0 ∧ e ∈ stageEvent i (s.slot i).chan.stage) ∨
        (e = .recheckStart i ∧ (s.slot i).state = .locked ∧ (s.slot i).chan.recheckDue = true) := by
  simp only [slotEventsDue, List.mem_append, mem_ite_singleton, timerOut_iff, recheckWaits_iff, or_assoc]
  rw [List.mem_ite_nil_right]

theorem mem_map_serviceOperand {f : Fin 256 → Instr} {n : Nat} {e : Instr} :
    e ∈ (serviceOperand n).map f ↔ ∃ i : Fin 256, e = f i ∧ i.val = n := by
  unfold serviceOperand
  split
  · next h =>
    rw [List.map_singleton, List.mem_singleton]
    exact ⟨fun he => ⟨⟨n, h⟩, he, rfl⟩, fun ⟨i, he, hi⟩ => he.trans (congrArg f (Fin.ext hi))⟩
  · next h => exact ⟨(nomatch ·), fun ⟨i, _, hi⟩ => absurd (hi ▸ i.isLt) h⟩

theorem holdEnds_iff_exists {i : Nat} {s : State} :
    holdEnds i s = true ↔
      ∃ v h, s.service i = some v ∧ v.state = .holding ∧ v.holdUntil = some h ∧ h ≤ s.clock.now ∧
        ∀ q ∈ s.router.requests, q.service ≠ i := by
  have hfree : inFlight s i = false ↔ ∀ q ∈ s.router.requests, q.service ≠ i := by
    rw [← Bool.not_eq_true, inFlight_iff]
    simp only [not_exists, not_and, ne_eq]
  constructor
  · intro hends
    by_contra hnone
    refine Bool.false_ne_true ((holdEnds_false fun v limit hv hstate hlimit => ?_).symm.trans hends)
    by_contra hdue
    obtain ⟨hnow, hnot⟩ := not_or.mp hdue
    exact hnone ⟨v, limit, hv, hstate, hlimit, Nat.not_lt.mp hnow, fun q hq hservice => hnot ⟨q, hq, hservice⟩⟩
  · rintro ⟨v, h, hv, hstate, hlimit, hnow, hrequests⟩
    exact (holdEnds_iff hv hlimit).mpr ⟨hstate, hfree.mpr hrequests, hnow⟩

theorem mem_holdsDue {s : State} {e : Instr} :
    e ∈ (s.services.filter fun x => holdEnds x.1 s).flatMap
        (fun x => (serviceOperand x.1).map Instr.holdUntilReached) ↔
      ∃ i v h, e = .holdUntilReached i ∧ s.service i.val = some v ∧ v.state = .holding ∧ v.holdUntil = some h ∧
        h ≤ s.clock.now ∧ ∀ q ∈ s.router.requests, q.service ≠ i.val := by
  simp only [List.mem_flatMap, List.mem_filter, mem_map_serviceOperand]
  constructor
  · rintro ⟨x, ⟨-, hends⟩, i, he, hi⟩
    obtain ⟨v, h, hold⟩ := holdEnds_iff_exists.mp (hi ▸ hends)
    exact ⟨i, v, h, he, hold⟩
  · rintro ⟨i, v, h, he, hv, hold⟩
    exact ⟨(i.val, v), ⟨mem_of_tabGet hv, holdEnds_iff_exists.mpr ⟨v, h, hv, hold⟩⟩, i, he, rfl⟩

theorem mem_requestsDue {s : State} {e : Instr} :
    e ∈ s.router.requests.flatMap (fun q => (serviceOperand q.service).map Instr.grantRequest) ↔
      ∃ i q, e = .grantRequest i ∧ q ∈ s.router.requests ∧ q.service = i.val := by
  simp only [List.mem_flatMap, mem_map_serviceOperand]
  exact ⟨fun ⟨q, hq, i, he, hi⟩ => ⟨i, q, he, hq, hi.symm⟩, fun ⟨i, q, he, hq, hi⟩ => ⟨q, hq, i, he, hi.symm⟩⟩

theorem gapOver_iff {l : Link} : gapOver l = true ↔ ∃ g, l.gap = some g ∧ 50 < g := by
  unfold gapOver
  cases l.gap with
  | none => simp
  | some g => exact decide_eq_true_iff.trans (by simp [gapMs])

theorem mem_linkEventsDue {s : State} {e : Instr} :
    e ∈ linkEventsDue s ↔
      (∃ g, e = .byteGapTimeout ∧ s.link.gap = some g ∧ 50 < g) ∨
        (e = .commandTaken ∧ s.link.reply = none ∧ s.link.buffer ≠ [] ∧ s.link.restart = .none) ∨
        (e = .transmitStart ∧ s.link.sending = none ∧ (s.link.reply ≠ none ∨ s.link.notices ≠ []) ∧
          s.link.restart ≠ .due) := by
  simp only [linkEventsDue, List.mem_append, mem_ite_singleton, gapOver_iff, Bool.and_eq_true, Bool.or_eq_true,
    Bool.not_eq_true', ← Bool.not_eq_true, Option.isNone_iff_eq_none, Option.isSome_iff_ne_none, List.isEmpty_iff,
    decide_eq_true_iff, exists_and_left, and_assoc, or_assoc, ne_eq]

/-- The events that are due, in the order of their sources. -/
theorem mem_eventsDue {s : State} {e : Instr} :
    e ∈ eventsDue s ↔
      (∃ i, e = .unparkTimeEnd i ∧ (s.slot i).unparkTimer = some 0) ∨
        (∃ i, e = .releaseTimeEnd i ∧ (s.slot i).releaseTimer = some 0) ∨
        (∃ i, e = .park i ∧ (s.slot i).parkTimer = some 0) ∨
        (∃ i, e = .retuneTimeout i ∧ (s.slot i).retuneTimer = some 0) ∨
        (∃ i, (s.slot i).chan.timer = some 0 ∧ e ∈ stageEvent i (s.slot i).chan.stage) ∨
        (∃ i, e = .recheckStart i ∧ (s.slot i).state = .locked ∧ (s.slot i).chan.recheckDue = true) ∨
        (∃ r, e = .switchTimeout r ∧ (s.room r).timer = some 0) ∨
        (e = .calibrationEnd ∧ s.reference.timer = some 0) ∨ (e = .pulseTimerEnd ∧ s.watches.pulseTimer = some 0) ∨
        (e = .secondCountAdvance ∧ s.clock.ticks = 0) ∨
        (∃ i v h, e = .holdUntilReached i ∧ s.service i.val = some v ∧ v.state = .holding ∧ v.holdUntil = some h ∧
          h ≤ s.clock.now ∧ ∀ q ∈ s.router.requests, q.service ≠ i.val) ∨
        (∃ i q, e = .grantRequest i ∧ q ∈ s.router.requests ∧ q.service = i.val) ∨ e ∈ linkEventsDue s := by
  have hslots : e ∈ allSlots.flatMap (slotEventsDue s) ↔ ∃ i, e ∈ slotEventsDue s i := by simp [allSlots]
  have hrooms : e ∈ (allRooms.filter fun r => timerOut (s.room r).timer).map Instr.switchTimeout ↔
      ∃ r, e = .switchTimeout r ∧ (s.room r).timer = some 0 := by
    simp only [List.mem_map, List.mem_filter, timerOut_iff]
    exact ⟨fun ⟨r, ⟨_, ht⟩, he⟩ => ⟨r, he.symm, ht⟩, fun ⟨r, he, ht⟩ => ⟨r, ⟨List.mem_finRange r, ht⟩, he.symm⟩⟩
  simp only [eventsDue, List.mem_append, hslots, hrooms, mem_slotEventsDue, mem_ite_singleton, mem_holdsDue,
    mem_requestsDue, timerOut_iff, exists_or, or_assoc]

/-- Settles O2: the tick by `tick_running`, what is due by `mem_eventsDue`. -/
theorem idleStepIsATick : Obligations.IdleStepIsATick := by
  unfold Obligations.IdleStepIsATick
  intro s hpending
  have hstep : step s = .next (tick s) := by rw [step, hpending]
  refine ⟨fun hr => hstep.trans (congrArg _ (if_pos hr)), fun hr => ?_⟩
  obtain ⟨n, htick⟩ := tick_running hr
  have hnone : (tickTimers s).pending = [] := hpending
  rw [hnone, List.nil_append] at htick
  refine ⟨tickTimers s, _, n, hstep.trans (congrArg _ htick), fun e => ?due, ⟨hnone, rfl, rfl, rfl, rfl⟩, rfl, rfl, rfl,
    rfl, tickTimers_room s, ⟨rfl, rfl⟩, tickTimers_slot s⟩
  rw [(orderFree_perm ..).mem_iff, mem_eventsDue, mem_linkEventsDue]
  refine or_congr_right (or_congr_right (or_congr_right (or_congr_right (or_congr_left
    (exists_congr fun i => and_congr_right fun _ => ?stage)))))
  cases ((tickTimers s).slot i).chan.stage <;> simp [stageEvent]

/-! ## Resets (R173, R174) -/

/-- Settles O4. -/
theorem resetsBegin : Obligations.ResetsBegin := by
  unfold Obligations.ResetsBegin
  refine fun s => ⟨_, _, rfl, rfl, rfl, rfl, fun v hv => ?_⟩
  obtain rfl | rfl := hv <;> exact ⟨rfl, rfl, rfl, rfl, rfl, rfl, rfl, rfl, rfl⟩

theorem exec_resetRelease (strap : Bool) (s : State) :
    exec (.resetRelease strap) s =
      .next (if s.clock.inReset then State.afterReset s.clock.cause strap s.draws s.pending else s) := rfl

theorem exec_restartTakesEffect {s : State} (hr : s.clock.inReset = false) (strap : Bool) :
    exec (.restartTakesEffect strap) s =
      .next (if s.link.restart = .due then State.afterReset .restart strap s.draws s.pending else s) :=
  whileRunning_running hr

/-- Settles O5: both rows end a reset in `State.afterReset`. -/
theorem resetsEnd : Obligations.ResetsEnd := by
  unfold Obligations.ResetsEnd
  intro s strap link
  have hlink (cause : ResetCause) (draws : Nat) (pending : List Instr) :
      (State.afterReset cause strap draws pending).link =
        link (match cause with | .power => 0#8 | .pin => 1#8 | .restart => 2#8) := rfl
  refine ⟨fun hr => ⟨_, (exec_resetRelease strap s).trans (congrArg _ (if_pos hr)), rfl, rfl, hlink ..⟩,
    fun hr hdue => ⟨_, (exec_restartTakesEffect hr strap).trans (congrArg _ (if_pos hdue)), rfl, rfl, hlink ..⟩,
    fun hr => (exec_resetRelease strap s).trans (congrArg _ (if_neg (by simp [hr]))),
    fun hr hdue => (exec_restartTakesEffect hr strap).trans (congrArg _ (if_neg hdue))⟩

/-! ## The second count (R82, R172) -/

/-- R82: an entry turns stale with the second in which its measurement reaches the maximum age. -/
theorem staleAt_succ_ne_iff {now maxAge : Nat} {c : Carrier} :
    staleAt now maxAge c ≠ staleAt (now + 1) maxAge c ↔ ∃ m, c.meas = some m ∧ m.time + maxAge = now := by
  unfold staleAt
  cases c.meas with
  | none => simp
  | some m =>
    simp only [Option.some.injEq, exists_eq_left', ne_eq, decide_eq_decide]
    omega

theorem rankWorthy_of_stale {b a : Carrier} {x y : Bool} (h : x ≠ y) : rankWorthy b a x y = true := by
  simp [rankWorthy, h]

theorem noticeWorthy_of_stale {b a : Carrier} {x y : Bool} (h : x ≠ y) : noticeWorthy b a x y = true := by
  simp [noticeWorthy, rankWorthy_of_stale h]

section
variable {i : Nat} {c : Carrier} {u : State} (hc : u.carrier i = some c)
include hc

/-- R88, R89: of an unchanged entry nothing is reported while its staleness stays. -/
theorem reportCarrier_fresh {st : Bool} (h : st = u.stale c) : reportCarrier false none st i c u = u := by
  unfold reportCarrier
  rw [hc]
  exact if_pos ⟨rfl, h, rfl, rfl⟩

/-- R82, R88, R89: an unchanged entry that turns stale has its notice, and its services are rebuilt. -/
theorem reportCarrier_stale {st : Bool} (h : st ≠ u.stale c) :
    reportCarrier false none st i c u =
      rankCarrier c.services c.services (offer .carrier i (carrierNotice u.now u.params.maxAge i c false none) u) := by
  unfold reportCarrier
  rw [hc]
  dsimp only
  rw [if_neg fun hall => h hall.2.1, noticeWorthy_of_stale h, rankWorthy_of_stale h]
  simp

end

/-- R82: the report of one entry as the second count passes `now`. -/
def reportStale (now maxAge : Nat) (u : State) (e : Nat × Carrier) : State :=
  match e.2.meas with
  | none => u
  | some m =>
    if m.time + maxAge = now then
      rankCarrier e.2.services e.2.services
        (offer .carrier e.1 (carrierNotice (now + 1) maxAge e.1 e.2 false none) u)
    else u

theorem reportCarrier_eq_reportStale {now maxAge : Nat} {u : State} {e : Nat × Carrier}
    (hc : u.carrier e.1 = some e.2) (hnow : u.now = now + 1) (hage : u.params.maxAge = maxAge) :
    reportCarrier false none (staleAt now maxAge e.2) e.1 e.2 u = reportStale now maxAge u e := by
  have hstale : u.stale e.2 = staleAt (now + 1) maxAge e.2 := by rw [State.stale, hnow, hage]
  unfold reportStale
  cases hm : e.2.meas with
  | none =>
    refine reportCarrier_fresh hc ?_
    simp only [hstale, staleAt, hm]
  | some m =>
    dsimp only
    by_cases hturns : m.time + maxAge = now
    · have hne := staleAt_succ_ne_iff.mpr ⟨m, hm, hturns⟩
      rw [if_pos hturns, reportCarrier_stale hc (hstale ▸ hne), hnow, hage]
    · have hsame : staleAt now maxAge e.2 = staleAt (now + 1) maxAge e.2 := by
        by_contra hne
        obtain ⟨k, hk, hturns'⟩ := staleAt_succ_ne_iff.mp hne
        obtain rfl := Option.some.inj (hm.symm.trans hk)
        exact hturns hturns'
      rw [if_neg hturns]
      exact reportCarrier_fresh hc (hsame.trans hstale.symm)

/-- R82: the entries are reported one after another; no report touches the table, the clock or the plan. -/
theorem foldl_reportStale {now maxAge : Nat} {l : Table Carrier} {t u : State} (htells : Tells t u)
    (hl : ∀ e ∈ l, t.carrier e.1 = some e.2) (hnow : t.now = now + 1) (hage : t.params.maxAge = maxAge) :
    l.foldl (fun u e => reportCarrier false none (staleAt now maxAge e.2) e.1 e.2 u) u =
      l.foldl (reportStale now maxAge) u := by
  induction l generalizing u with
  | nil => rfl
  | cons e l ih =>
    obtain ⟨he, hl⟩ := List.forall_mem_cons.mp hl
    have hc : u.carrier e.1 = some e.2 := (htells.carrier e.1).trans he
    have hnow' : u.now = now + 1 := (congrArg Clock.now htells.clock).trans hnow
    have hage' : u.params.maxAge = maxAge :=
      (congrArg (fun p : PlanStore => p.committed.params.maxAge) htells.plan).trans hage
    have hstep := (ranks_reportCarrier false none (staleAt now maxAge e.2) e.1 e.2 u).tells
    rw [List.foldl_cons, List.foldl_cons, ← reportCarrier_eq_reportStale hc hnow' hage']
    exact ih (htells.trans hstep) hl

theorem reportChanges_stale {s : State} (hlaw : CarrierLaw s.carriers) :
    reportChanges s.carriers [] [] (fun _ => false) (fun _ => none) (staleAt s.clock.now s.params.maxAge)
        (s.setClock { s.clock with now := s.clock.now + 1 }) =
      s.carriers.foldl (reportStale s.clock.now s.params.maxAge)
        (s.setClock { s.clock with now := s.clock.now + 1 }) := by
  have hnone : s.carriers.filter (fun e => ([] : List Nat).contains e.1) = [] := List.filter_eq_nil_iff.mpr (by simp)
  have hall : s.carriers.filter (fun e => !([] : List Nat).contains e.1) = s.carriers :=
    List.filter_eq_self.mpr (by simp)
  obtain ⟨hrising, -⟩ := tabWf_iff.mp hlaw.1
  unfold reportChanges
  rw [hnone, hall]
  exact foldl_reportStale (.refl _) (fun e he => tabGet_of_mem hrising he) rfl rfl

/-! ## Needs for calibration (R42, R43) -/

theorem needsCalibration_iff {now : Nat} {r : Slot} :
    needsCalibration now r = true ↔
      r.state = .locked ∧
        (r.lastCal = none ∨ ∃ x time, r.lastCal = some (x, time) ∧ (r.input ≠ some x ∨ time + 900 ≤ now)) := by
  unfold needsCalibration
  rw [Bool.and_eq_true, decide_eq_true_iff]
  refine and_congr_right fun _ => ?_
  cases r.lastCal with
  | none => simp
  | some p =>
    simp only [Bool.or_eq_true, decide_eq_true_iff, Option.some.injEq, Prod.ext_iff, reduceCtorEq, false_or]
    exact ⟨fun h => ⟨p.1, p.2, ⟨rfl, rfl⟩, h⟩, fun ⟨_, _, ⟨hx, ht⟩, h⟩ => hx ▸ ht ▸ h⟩

/-- R42: what waiting for the reference makes of a slot. -/
def waiting (r : Slot) : Slot := { r with calStatus := .waiting }

/-- R42: the slots `l` have joined the queue of a reference that another slot holds. -/
structure Joined (l : List (Fin 8)) (s t : State) : Prop where
  reference : t.reference = { s.reference with queue := s.reference.queue ++ l }
  slot : ∀ i, t.slot i = if i ∈ l then waiting (s.slot i) else s.slot i
  clock : t.clock = s.clock

theorem Joined.refl (s : State) : Joined [] s s where
  reference := by rw [List.append_nil]
  slot i := (if_neg List.not_mem_nil).symm
  clock := rfl

theorem grantReference_held {s : State} (h : s.reference.holder ≠ none) : grantReference s = s := by
  unfold grantReference
  split
  · next hfree _ => exact absurd hfree h
  · rfl

/-- R42: slot `i` at the tail of the queue, waiting. -/
def queued (i : Fin 8) (s : State) : State :=
  changeSlot i waiting (s.setReference { s.reference with queue := s.reference.queue ++ [i] })

theorem queued_joined (i : Fin 8) (s : State) : Joined [i] s (queued i s) where
  reference := changeSlot_reference ..
  slot j := by
    refine (changeSlot_slot ..).trans ?_
    by_cases hj : j = i
    · rw [if_pos hj, if_pos (List.mem_singleton.mpr hj), hj]
      rfl
    · rw [if_neg hj, if_neg (mt List.mem_singleton.mp hj)]
      rfl
  clock := (changeSlot_tells ..).clock

/-- R42: a slot that has not joined may join as before. -/
theorem Joined.mayJoin {l : List (Fin 8)} {s t : State} (h : Joined l s t) {j : Fin 8} (hj : j ∉ l)
    (hmay : mayJoin s j = true) : mayJoin t j = true := by
  obtain ⟨hneeds, hwaiting, hactive, hqueue, hholder⟩ := mayJoin_iff.mp hmay
  have hslot : t.slot j = s.slot j := (h.slot j).trans (if_neg hj)
  have hnow : t.now = s.now := congrArg Clock.now h.clock
  rw [mayJoin_iff, hslot, hnow, h.reference]
  exact ⟨hneeds, hwaiting, hactive, fun hmem => (List.mem_append.mp hmem).elim hqueue hj, hholder⟩

theorem Joined.cons {i : Fin 8} {l : List (Fin 8)} {s t u : State} (h : Joined [i] s t) (k : Joined l t u) (hi : i ∉ l) :
    Joined (i :: l) s u where
  reference := by
    rw [k.reference, h.reference, List.append_assoc, List.singleton_append]
  slot j := by
    by_cases hj : j = i
    · subst hj
      rw [k.slot, if_neg hi, h.slot, if_pos (List.mem_singleton_self j), if_pos List.mem_cons_self]
    · have hsame : t.slot j = s.slot j := (h.slot j).trans (if_neg (mt List.mem_singleton.mp hj))
      rw [k.slot, hsame]
      exact if_congr (by simp [hj]) rfl rfl
  clock := k.clock.trans h.clock

theorem joinReference_joins {i : Fin 8} {s : State} (h : mayJoin s i = true) :
    joinReference s i = grantReference (queued i s) := if_pos h

theorem joinReference_held {i : Fin 8} {s : State} (h : mayJoin s i = true) (hheld : s.reference.holder ≠ none) :
    joinReference s i = queued i s := by
  rw [joinReference_joins h, grantReference_held]
  rw [(queued_joined i s).reference]
  exact hheld

/-- R42: slots that need calibration join one after another behind a reference that is held. -/
theorem foldl_joinReference_held {l : List (Fin 8)} {s : State} (hl : l.Nodup) (hmay : ∀ i ∈ l, mayJoin s i = true)
    (hheld : s.reference.holder ≠ none) : Joined l s (l.foldl joinReference s) := by
  induction l generalizing s with
  | nil => exact .refl s
  | cons i l ih =>
    obtain ⟨hi, hl⟩ := List.nodup_cons.mp hl
    obtain ⟨hfirst, hrest⟩ := List.forall_mem_cons.mp hmay
    have hjoined := queued_joined i s
    rw [List.foldl_cons, joinReference_held hfirst hheld]
    refine hjoined.cons (ih hl (fun j hj => hjoined.mayJoin (fun hmem => ?_) (hrest j hj)) ?_) hi
    · exact hi (List.mem_singleton.mp hmem ▸ hj)
    · rw [hjoined.reference]
      exact hheld

/-- R43: slot `h` granted the free reference: its window is abandoned, and the other slots are as they were. -/
structure Granted (h : Fin 8) (s t : State) : Prop where
  reference : t.reference = { holder := some h, queue := [], timer := some calibrationMs }
  self : t.slot h = { s.slot h with calStatus := .active, meas := dropWindow (s.slot h).meas }
  other : ∀ i, i ≠ h → t.slot i = s.slot i
  clock : t.clock = s.clock

theorem joinReference_free {h : Fin 8} {s : State} (hmay : mayJoin s h = true) (hfree : s.reference.holder = none)
    (hqueue : s.reference.queue = []) : Granted h s (joinReference s h) := by
  have hjoined := queued_joined h s
  have hholder : (queued h s).reference.holder = none := (congrArg Reference.holder hjoined.reference).trans hfree
  have htail : (queued h s).reference.queue = [h] := by rw [hjoined.reference, hqueue, List.nil_append]
  obtain ⟨href, hself⟩ := grantReference_head hholder htail
  rw [joinReference_joins hmay]
  refine ⟨href, ?_, fun i hi => ?_, ((refers_grantReference _).clock).trans hjoined.clock⟩
  · rw [hself, hjoined.slot, if_pos (List.mem_singleton_self h)]
    rfl
  · have hother : (grantReference (queued h s)).slot i = (queued h s).slot i := by
      unfold grantReference
      rw [hholder, htail]
      exact (changeSlot_slot ..).trans (if_neg hi)
    rw [hother, hjoined.slot, if_neg (mt List.mem_singleton.mp hi)]

theorem Granted.mayJoin {h j : Fin 8} {s t : State} (hg : Granted h s t) (hj : j ≠ h) (hmay : mayJoin s j = true) :
    mayJoin t j = true := by
  obtain ⟨hneeds, hwaiting, hactive, -, -⟩ := mayJoin_iff.mp hmay
  have hnow : t.now = s.now := congrArg Clock.now hg.clock
  rw [mayJoin_iff, hg.other j hj, hnow, hg.reference]
  exact ⟨hneeds, hwaiting, hactive, List.not_mem_nil, fun he => hj (Option.some.inj he).symm⟩

/-- R42: the needs of all slots: those that may join do, in an order that is drawn. -/
theorem evaluateNeeds_eq (s : State) :
    ∃ order n, List.Perm order (allSlots.filter (mayJoin s)) ∧
      evaluateNeeds s = order.foldl joinReference (s.setDraws n) := by
  refine ⟨_, if (allSlots.filter (mayJoin s)).length < 2 then s.draws else s.draws + 1,
    orderFree_perm s.draws (allSlots.filter (mayJoin s)), ?_⟩
  unfold evaluateNeeds drawOrder
  split <;> rfl

theorem evaluateNeeds_none {s : State} (h : allSlots.filter (mayJoin s) = []) : evaluateNeeds s = s := by
  unfold evaluateNeeds
  rw [h]
  rfl

theorem mem_needy_iff {s : State} {i : Fin 8} :
    i ∈ allSlots.filter (mayJoin s) ↔
      (s.slot i).state = .locked ∧ (s.slot i).calStatus ≠ .waiting ∧ (s.slot i).calStatus ≠ .active ∧
        i ∉ s.reference.queue ∧ s.reference.holder ≠ some i ∧
          ((s.slot i).lastCal = none ∨
            ∃ x time, (s.slot i).lastCal = some (x, time) ∧ ((s.slot i).input ≠ some x ∨ time + 900 ≤ s.clock.now)) := by
  rw [List.mem_filter, mayJoin_iff, needsCalibration_iff]
  refine (and_iff_right (List.mem_finRange i)).trans ⟨fun ⟨⟨hlocked, hlast⟩, hw, ha, hq, hh⟩ =>
    ⟨hlocked, hw, ha, hq, hh, hlast⟩, fun ⟨hlocked, hw, ha, hq, hh, hlast⟩ => ⟨⟨hlocked, hlast⟩, hw, ha, hq, hh⟩⟩

theorem exec_secondCountAdvance_running {s : State} (hr : s.clock.inReset = false) (hnow : s.clock.now < 4294967295) :
    exec .secondCountAdvance s = .next (settle (advanceSecond s)) :=
  (exec_secondCountAdvance s).trans (blockEvent_done hr (decide_eq_true hnow))

theorem exec_secondCountAdvance_held {s : State} (hnow : s.clock.now = 4294967295) :
    exec .secondCountAdvance s = .next s :=
  (exec_secondCountAdvance s).trans (blockEvent_idle (decide_eq_false (by rw [State.now, hnow]; decide)))

theorem advanceSecond_evolves (s : State) :
    Evolves (s.setClock { s.clock with now := s.clock.now + 1 }) (settle (advanceSecond s)) :=
  (((evolves_reportChanges ..).trans (evolves_evaluateNeeds _)).trans (evolves_searchDue _)).trans (evolves_settle _)

/-- Settles O3: what the advance does by `advanceSecond_evolves`, staleness by `reportChanges_stale`, and calibration by
what joins a held reference and a free one. -/
theorem secondCountAdvances : Obligations.SecondCountAdvances := by
  unfold Obligations.SecondCountAdvances
  refine ⟨fun s hr => ⟨fun hnow => ?advance, fun hnow => exec_secondCountAdvance_held hnow⟩, fun s hlaw => ?stale,
    fun u => ?needs⟩
  case advance =>
    exact ⟨_, exec_secondCountAdvance_running hr hnow, (advanceSecond_evolves s).blocksOnly, rfl⟩
  case stale => exact reportChanges_stale hlaw
  case needs =>
    intro v joins waits
    obtain ⟨order, n, hperm, hv⟩ := evaluateNeeds_eq u
    have hnodup : order.Nodup := hperm.nodup_iff.mpr ((List.nodup_finRange 8).filter _)
    have hmay : ∀ i ∈ order, mayJoin (u.setDraws n) i = true := fun i hi => (List.mem_filter.mp (hperm.mem_iff.mp hi)).2
    refine ⟨order, hnodup, fun i => hperm.mem_iff.trans mem_needy_iff, fun hnone => ?none, fun hheld => ?held,
      fun h rest hfree hqueue horder => ?free⟩
    case none => exact evaluateNeeds_none (hnone ▸ hperm).nil_eq.symm
    case held =>
      have hjoined := foldl_joinReference_held hnodup hmay hheld
      rw [← hv] at hjoined
      exact ⟨hjoined.reference, hjoined.slot⟩
    case free =>
      subst horder
      obtain ⟨hnot, hrest⟩ := List.nodup_cons.mp hnodup
      obtain ⟨hfirst, hothers⟩ := List.forall_mem_cons.mp hmay
      have hgranted := joinReference_free hfirst hfree hqueue
      have hne {i : Fin 8} (hi : i ∈ rest) : i ≠ h := fun e => hnot (e ▸ hi)
      have hjoined := foldl_joinReference_held hrest (fun i hi => hgranted.mayJoin (hne hi) (hothers i hi))
        (by rw [hgranted.reference]; exact Option.some_ne_none h)
      rw [← List.foldl_cons, ← hv] at hjoined
      refine ⟨?_, ?_, fun i hi => ?_⟩
      · rw [hjoined.reference, hgranted.reference]
        rfl
      · rw [hjoined.slot, if_neg hnot]
        exact hgranted.self
      · rw [hjoined.slot, hgranted.other i hi]
        rfl

/-! ## The frames of commands (R163, R165) -/

theorem fromLe_le {k n : Nat} (h : n < 256 ^ k) : fromLe (le k n) = n := by
  induction k generalizing n with
  | zero => exact (Nat.lt_one_iff.mp h).symm
  | succ k ih =>
    have hrest : fromLe (le k (n / 256)) = n / 256 := ih (Nat.div_lt_of_lt_mul (by rwa [Nat.pow_succ'] at h))
    rw [le, fromLe, hrest, BitVec.toNat_ofNat]
    exact Nat.mod_add_div n 256

/-- Each field fits the bytes its layout gives it. -/
abbrev FieldsFit : List Nat → List Nat → Prop := List.Forall₂ fun w v => v < 256 ^ w

theorem readFields_writeFields {ws vs : List Nat} (h : FieldsFit ws vs) : readFields ws (writeFields ws vs) = vs := by
  induction h with
  | nil => rfl
  | @cons w v ws vs hv _ ih =>
    rw [writeFields, readFields, List.take_left' (length_le w v), List.drop_left' (length_le w v), fromLe_le hv, ih]

theorem length_writeFields {ws vs : List Nat} (h : FieldsFit ws vs) : (writeFields ws vs).length = ws.sum := by
  induction h with
  | nil => rfl
  | cons _ _ ih => rw [writeFields, List.length_append, length_le, ih, List.sum_cons]

theorem fitsByte_iff {n : Nat} : fitsByte n = true ↔ n < 256 ^ 1 := decide_eq_true_iff

theorem fitsWord_iff {n : Nat} : fitsWord n = true ↔ n < 256 ^ 2 := decide_eq_true_iff

theorem fitsLong_iff {n : Nat} : fitsLong n = true ↔ n < 256 ^ 4 := decide_eq_true_iff

theorem unsignedOf_lt (k : Nat) (z : Int) : unsignedOf k z < 256 ^ k := by
  have hpos : (0 : Int) < (256 ^ k : Nat) := Int.natCast_pos.mpr (Nat.pow_pos (by decide))
  exact (Int.toNat_lt (Int.emod_nonneg _ hpos.ne')).mpr (Int.emod_lt_of_pos _ hpos)

theorem signedOf_unsignedOf {k : Nat} {z : Int} (hlo : -(256 ^ k / 2 : Nat) ≤ z) (hhi : z < (256 ^ k / 2 : Nat)) :
    signedOf k (unsignedOf k z) = z := by
  unfold signedOf unsignedOf
  generalize 256 ^ k = m at hlo hhi ⊢
  obtain hneg | hpos := lt_or_ge z 0
  · have hmod : z % m = z + m := by
      rw [Int.emod_eq_add_self_emod]
      exact Int.emod_eq_of_lt (by omega) (by omega)
    rw [hmod, if_neg (by omega)]
    omega
  · have hmod : z % m = z := Int.emod_eq_of_lt hpos (by omega)
    rw [hmod, if_pos (by omega)]
    omega

theorem signedOf_unsignedOf_byte {z : Int} (h : fitsSignedByte z = true) : signedOf 1 (unsignedOf 1 z) = z := by
  simp only [fitsSignedByte, Bool.and_eq_true, decide_eq_true_iff] at h
  exact signedOf_unsignedOf h.1 (Int.lt_add_one_of_le h.2)

theorem signedOf_unsignedOf_word {z : Int} (h : fitsSignedWord z = true) : signedOf 2 (unsignedOf 2 z) = z := by
  simp only [fitsSignedWord, Bool.and_eq_true, decide_eq_true_iff] at h
  exact signedOf_unsignedOf h.1 (Int.lt_add_one_of_le h.2)

/-- R165: every command stands in the table, and its fields fit the layout it has there. -/
theorem layoutOf_fieldsOf {c : HostCommand} (h : c.wf = true) :
    ∃ ws, layoutOf (fieldsOf c).1 = some ws ∧ FieldsFit ws (fieldsOf c).2 := by
  cases c with
  | identify | readStatus | restart | freeze | thaw | clearSurvey | commitPlan | discardPlan => exact ⟨[], rfl, .nil⟩
  | setNotices | getCarrier | listCarriers | getService | listServices | getRoom | getSlot | surveyNow | setSurveyMode
  | slotOffline | slotOnline | unbindRoom | clearWatch | ackWatch | setAlertMode =>
    exact ⟨[1], rfl, .cons (fitsByte_iff.mp h) .nil⟩
  | _ =>
    refine ⟨_, rfl, ?_⟩
    simp only [HostCommand.wf, InputEdit.wf, ProfileEdit.wf, CarrierFields.wf, CarrierName.wf, BindEdit.wf, WatchEdit.wf,
      Bool.and_eq_true, fitsByte_iff, fitsWord_iff, fitsLong_iff] at h
    simp only [fieldsOf, FieldsFit, List.forall₂_cons, List.forall₂_nil_left_iff, unsignedOf_lt, h, and_self]

theorem commandOf_fieldsOf {c : HostCommand} (h : c.wf = true) : commandOf (fieldsOf c).1 (fieldsOf c).2 = some c := by
  cases c with
  | setInput e =>
    simp only [HostCommand.wf, InputEdit.wf, Bool.and_eq_true] at h
    obtain ⟨⟨⟨⟨⟨-, hbias⟩, -⟩, -⟩, -⟩, -⟩ := h
    show some (HostCommand.setInput { e with bias := signedOf 1 (unsignedOf 1 e.bias) }) = _
    rw [signedOf_unsignedOf_byte hbias]
  | setWatch e =>
    simp only [HostCommand.wf, WatchEdit.wf, Bool.and_eq_true] at h
    obtain ⟨⟨⟨⟨⟨⟨-, hmargin⟩, -⟩, -⟩, -⟩, -⟩, -⟩ := h
    show some (HostCommand.setWatch { e with margin := signedOf 2 (unsignedOf 2 e.margin) }) = _
    rw [signedOf_unsignedOf_word hmargin]
  | _ => rfl

theorem parseCommand_of_layout {f : Frame} {ws : List Nat} (hws : layoutOf f.code = some ws)
    (hlength : f.payload.length = ws.sum) {c : HostCommand} (hc : commandOf f.code (readFields ws f.payload) = some c) :
    parseCommand f = .ok c := by
  unfold parseCommand
  rw [hws]
  dsimp only
  rw [if_pos hlength, hc]

/-- Settles O9: the fields written within their widths are read again, and spell the command. -/
theorem commandFramesRoundTrip : Obligations.CommandFramesRoundTrip := by
  unfold Obligations.CommandFramesRoundTrip
  intro c hwf
  obtain ⟨ws, hws, hfit⟩ := layoutOf_fieldsOf hwf
  have hpayload : (encodeCommand c).payload = writeFields ws (fieldsOf c).2 :=
    congrArg (fun o : Option (List Nat) => writeFields (o.getD []) (fieldsOf c).2) hws
  refine parseCommand_of_layout hws ?_ ?_
  · rw [hpayload, length_writeFields hfit]
  · rw [hpayload, readFields_writeFields hfit]
    exact commandOf_fieldsOf hwf

/-! ## The receiver (R163, R164) -/

section
variable {l : Link} {kind code : Byte} {n : Nat} {got : List Byte}

theorem receive_hunt (h : l.rx = .hunt) (b : Byte) : receive b l = if b = 0xC5#8 then inFrame .headerKind l else l := by
  rw [receive, h]

theorem receive_headerKind (h : l.rx = .headerKind) (b : Byte) : receive b l = inFrame (.headerCode b) l := by
  rw [receive, h]

theorem receive_headerCode (h : l.rx = .headerCode kind) (b : Byte) : receive b l = inFrame (.headerLength kind b) l := by
  rw [receive, h]

theorem receive_headerLength (h : l.rx = .headerLength kind code) (b : Byte) :
    receive b l =
      if 240 < b.toNat then setCheckFailed (toHunt l)
      else if b.toNat = 0 then inFrame (.check kind code 0 []) l
      else inFrame (.payload kind code b.toNat []) l := by
  rw [receive, h]
  simp only [maxPayload, BitVec.toNat_eq, BitVec.toNat_ofNat, Nat.zero_mod]

theorem receive_payload (h : l.rx = .payload kind code n got) (b : Byte) :
    receive b l =
      if got.length + 1 < n then inFrame (.payload kind code n (got ++ [b])) l
      else inFrame (.check kind code n (got ++ [b])) l := by
  rw [receive, h]
  simp only [List.length_append, List.length_singleton]

theorem receive_check (h : l.rx = .check kind code n got) (b : Byte) : receive b l = endFrame kind code b n got l := by
  rw [receive, h]

end

theorem byteSum_header (kind code : Byte) (n : Nat) (got : List Byte) :
    byteSum (kind :: code :: BitVec.ofNat 8 n :: got) = got.foldl (· + ·) (kind + code + BitVec.ofNat 8 n) := by
  simp [byteSum]

theorem dropPartial_of_short {l : Link} (h : ∀ g, l.gap = some g → g ≤ 50) : dropPartial l = l :=
  if_neg fun hover => by
    obtain ⟨g, hg, hlong⟩ := gapOver_iff.mp hover
    exact absurd (h g hg) (Nat.not_le.mpr hlong)

theorem dropPartial_of_long {l : Link} {g : Nat} (hg : l.gap = some g) (hlong : 50 < g) : dropPartial l = toHunt l :=
  if_pos (gapOver_iff.mpr ⟨g, hg, hlong⟩)

theorem exec_byteReceived {s : State} (hr : s.clock.inReset = false) (b : Byte) :
    exec (.byteReceived b) s = .next (s.setLink (receive b (dropPartial s.link))) := whileRunning_running hr

theorem exec_byteGapTimeout {s : State} (hr : s.clock.inReset = false) :
    exec .byteGapTimeout s = .next (s.setLink (dropPartial s.link)) := whileRunning_running hr

/-- Settles O11: the receiver's equation in each phase, after a gap that drops nothing; a longer gap leaves it in HUNT. -/
theorem receiverPhases : Obligations.ReceiverPhases := by
  unfold Obligations.ReceiverPhases
  intro s b hr after failed
  refine ⟨fun hshort => ?phases, fun g hg hlong => ?long, fun ⟨g, hg, hlong⟩ => ?drops, fun hshort => ?stays⟩
  case phases =>
    have hafter {m : Link} (h : receive b s.link = m) : after m := by
      rw [← dropPartial_of_short hshort] at h
      exact (exec_byteReceived hr b).trans (congrArg (fun x => Host.Outcome.next (s.setLink x)) h)
    refine ⟨fun hrx => ⟨fun hb => hafter ?_, fun hb => hafter ?_⟩, fun hrx => hafter (receive_headerKind hrx b),
      fun kind hrx => hafter (receive_headerCode hrx b),
      fun kind code hrx => ⟨fun hb => hafter ?_, fun hb => hafter ?_, fun hpos hb => hafter ?_⟩,
      fun kind code n got hrx => ⟨fun hn => hafter ?_, fun hn => hafter ?_⟩,
      fun kind code n got hrx => ⟨fun hsum hkind => hafter ?_, fun hnot => hafter ?_⟩⟩
    · exact (receive_hunt hrx b).trans (if_pos hb)
    · exact (receive_hunt hrx b).trans (if_neg hb)
    · exact (receive_headerLength hrx b).trans (if_pos hb)
    · exact (receive_headerLength hrx b).trans ((if_neg (by omega)).trans (if_pos hb))
    · exact (receive_headerLength hrx b).trans ((if_neg (by omega)).trans (if_neg (by omega)))
    · exact (receive_payload hrx b).trans (if_pos hn)
    · exact (receive_payload hrx b).trans (if_neg (by omega))
    · rw [receive_check hrx, endFrame, byteSum_header]
      exact if_pos ⟨hsum, hkind⟩
    · rw [receive_check hrx, endFrame, byteSum_header]
      exact if_neg hnot
  case long =>
    rw [exec_byteReceived hr, dropPartial_of_long hg hlong]
    exact (exec_byteReceived (s := s.setLink (toHunt s.link)) hr b).symm
  case drops =>
    rw [exec_byteGapTimeout hr, dropPartial_of_long hg hlong]
    rfl
  case stays =>
    rw [exec_byteGapTimeout hr, dropPartial_of_short hshort]
    rfl

theorem frameBytes_eq (kind code : Byte) (payload : List Byte) :
    frameBytes kind.toNat code.toNat payload =
      0xC5#8 :: kind :: code :: BitVec.ofNat 8 payload.length ::
        (payload ++ [-(byteSum (kind :: code :: BitVec.ofNat 8 payload.length :: payload))]) := by
  simp [frameBytes]

/-- R164: the payload's bytes are stored one after another until LENGTH of them stand there. -/
theorem foldl_receive_payload (kind code : Byte) (l : Link) {rest got : List Byte} {n : Nat} (hrest : rest ≠ [])
    (hn : got.length + rest.length = n) :
    rest.foldl (fun m b => receive b m) (inFrame (.payload kind code n got) l) =
      inFrame (.check kind code n (got ++ rest)) l := by
  induction rest generalizing got with
  | nil => exact absurd rfl hrest
  | cons b rest ih =>
    rw [List.length_cons] at hn
    rw [List.foldl_cons, receive_payload rfl]
    by_cases hlast : rest = []
    · subst hlast
      rw [List.length_nil] at hn
      rw [if_neg (by omega)]
      rfl
    · have hpos : 0 < rest.length := List.length_pos_iff.mpr hlast
      rw [if_pos (by omega)]
      have hnext := ih (got := got ++ [b]) hlast (by rw [List.length_append, List.length_singleton]; omega)
      rw [List.append_assoc, List.singleton_append] at hnext
      exact hnext

/-- R163, R164: the bytes before CHECK bring the receiver to CHECK with the frame stored. -/
theorem foldl_receive_body (kind code : Byte) {payload : List Byte} {l : Link} (hrx : l.rx = .hunt)
    (hlength : payload.length ≤ 240) :
    (0xC5#8 :: kind :: code :: BitVec.ofNat 8 payload.length :: payload).foldl (fun m b => receive b m) l =
      inFrame (.check kind code payload.length payload) l := by
  have hbyte : (BitVec.ofNat 8 payload.length).toNat = payload.length := by
    rw [BitVec.toNat_ofNat]
    omega
  rw [List.foldl_cons, receive_hunt hrx, if_pos rfl, List.foldl_cons, receive_headerKind rfl, List.foldl_cons,
    receive_headerCode rfl, List.foldl_cons, receive_headerLength rfl, hbyte, if_neg (by omega)]
  by_cases hnil : payload = []
  · subst hnil
    rfl
  · rw [if_neg (by simpa using hnil)]
    exact foldl_receive_payload kind code l hnil (Nat.zero_add _)

/-- Settles O10: the body is stored byte by byte, and CHECK makes the sum of the frame zero. -/
theorem frameBytesArriveAsTheFrame : Obligations.FrameBytesArriveAsTheFrame := by
  unfold Obligations.FrameBytesArriveAsTheFrame
  intro l kind code payload hrx hlength
  have hhunt (p : RxPhase) : toHunt (inFrame p l) = { l with gap := none } := by
    simp [toHunt, inFrame, hrx]
  have hsum : byteSum (kind :: code :: BitVec.ofNat 8 payload.length :: payload) +
      -(byteSum (kind :: code :: BitVec.ofNat 8 payload.length :: payload)) = 0#8 := BitVec.add_right_neg _
  have hbody := foldl_receive_body kind code hrx hlength
  simp only [List.foldl_cons] at hbody
  rw [frameBytes_eq]
  simp only [List.foldl_cons, List.foldl_append, List.foldl_nil]
  rw [hbody, receive_check rfl, endFrame, hhunt, hsum]
  simp only [true_and]
  rfl

/-! ## The receive buffer (R166) -/

theorem acceptFrame_room {l : Link} (h : l.buffer.length < 2) (f : Frame) :
    acceptFrame f l = { l with buffer := l.buffer ++ [f] } := if_pos h

theorem acceptFrame_full {l : Link} (h : 2 ≤ l.buffer.length) (f : Frame) :
    acceptFrame f l = { l with flags := { l.flags with overrun := true } } := if_neg (Nat.not_lt.mpr h)

theorem unitFree_iff {s : State} : unitFree s = true ↔ s.link.reply = none ∧ s.link.restart = .none := by
  simp [unitFree]

/-- R167: the command unit, free, takes the oldest frame. -/
theorem exec_commandTaken_frame {s : State} {f : Frame} {rest : List Frame} (hr : s.clock.inReset = false)
    (hreply : s.link.reply = none) (hrestart : s.link.restart = .none) (hbuffer : s.link.buffer = f :: rest) :
    exec .commandTaken s = .next (answerFrame f (s.setLink { s.link with buffer := rest })) := by
  have htake : takeFrame s = answerFrame f (s.setLink { s.link with buffer := rest }) := by
    rw [takeFrame, hbuffer]
    rfl
  rw [← htake]
  exact (whileRunning_running hr).trans (congrArg _ (if_pos (unitFree_iff.mpr ⟨hreply, hrestart⟩)))

theorem exec_commandTaken_idle {s : State} (hr : s.clock.inReset = false)
    (h : s.link.buffer = [] ∨ s.link.reply ≠ none ∨ s.link.restart ≠ .none) : exec .commandTaken s = .next s := by
  refine (whileRunning_running hr).trans (congrArg _ ?_)
  by_cases hfree : unitFree s = true
  · obtain ⟨hreply, hrestart⟩ := unitFree_iff.mp hfree
    have hempty : s.link.buffer = [] := h.resolve_right fun h => h.elim (· hreply) (· hrestart)
    rw [if_pos hfree, takeFrame, hempty]
  · exact if_neg hfree

/-- Settles O12: the step's part is the law of the buffer (`step_lawful`). -/
theorem receiveBufferTakesTwoFrames : Obligations.ReceiveBufferTakesTwoFrames := by
  unfold Obligations.ReceiveBufferTakesTwoFrames
  refine ⟨fun f l => ⟨fun h => acceptFrame_room h f, fun h => acceptFrame_full h f⟩, fun s t hs hstep => ?_,
    fun s f rest hr hreply hrestart hbuffer => ⟨_, exec_commandTaken_frame hr hreply hrestart hbuffer, ?_⟩⟩
  · obtain ⟨hkeeps, -⟩ := step_lawful hstep
    exact hkeeps.buffer hs
  · exact (answerFrame_answers ..).1

/-! ## The command unit (R165, R167) -/

theorem parseCommand_unknown {f : Frame} (h : layoutOf f.code = none) : parseCommand f = .error .unknownCommand := by
  rw [parseCommand, h]

theorem parseCommand_badLength {f : Frame} {ws : List Nat} (h : layoutOf f.code = some ws)
    (hlength : f.payload.length ≠ ws.sum) : parseCommand f = .error .badLength := by
  unfold parseCommand
  rw [h]
  exact if_neg hlength

theorem answerFrame_refused {f : Frame} {e : ReplyCode} (h : parseCommand f = .error e) (s : State) :
    answerFrame f s = formReply f.code e [] s := by
  rw [answerFrame, h]

theorem answerFrame_command {f : Frame} {c : HostCommand} (h : parseCommand f = .ok c) (s : State) :
    answerFrame f s = answerCommand c s := by
  rw [answerFrame, h]

theorem isRefusal_iff {c : ReplyCode} : isRefusal c = true ↔ ¬(c = .ok ∨ c = .adjusted ∨ c = .noChange) := by
  simp [isRefusal, not_or, and_assoc]

theorem replyPayload_eq (c : ReplyCode) (f : LinkFlags) (content : List Byte) :
    replyPayload c f content =
      BitVec.ofNat 8 (replyCodeNumber c) :: BitVec.ofNat 8 (flagsByte f) :: if isRefusal c then [] else content := rfl

/-- R167, R168: the reply of a command answered, with the flags as they stood when it was formed; READ_STATUS clears them
after. -/
theorem answerCommand_reply (c : HostCommand) (s : State) :
    ∃ (r : Reply) (code : ReplyCode) (flags : LinkFlags) (content : List Byte),
      (answerCommand c s).link.reply = some r ∧ r.code = (fieldsOf c).1 ∧
        r.payload = BitVec.ofNat 8 (replyCodeNumber code) :: BitVec.ofNat 8 (flagsByte flags) :: content ∧
          flags = if c = .readStatus then s.link.flags else (answerCommand c s).link.flags := by
  by_cases hc : c = .readStatus
  · subst hc
    exact ⟨_, .ok, s.link.flags, _, rfl, rfl, rfl, (if_pos rfl).symm⟩
  · have hanswer : answerCommand c s =
        formReply (fieldsOf c).1 (carryOut c s).code (carryOut c s).content (carryOut c s).state := if_neg hc
    rw [hanswer]
    exact ⟨_, (carryOut c s).code, (carryOut c s).state.link.flags, _, rfl, rfl, rfl, (if_neg hc).symm⟩

/-- Settles O13: what the command unit takes by `exec_commandTaken_frame`, the reply by `answerCommand_reply`. -/
theorem commandUnitAnswersTheOldestFrame : Obligations.CommandUnitAnswersTheOldestFrame := by
  unfold Obligations.CommandUnitAnswersTheOldestFrame
  refine ⟨fun code c content s => ?reply, fun s hr => ⟨fun f rest hbuffer hreply hrestart => ?taken,
    fun h => exec_commandTaken_idle hr (.inl h), fun h => exec_commandTaken_idle hr (.inr (.inl h)),
    fun h => exec_commandTaken_idle hr (.inr (.inr h))⟩, fun c s hwf hs => exec_rowOf_ready hs hwf⟩
  case reply =>
    intro flags payload
    have hpayload : replyPayload c s.link.flags content = payload := by
      rw [replyPayload_eq, if_congr isRefusal_iff rfl rfl, ite_not]
      rfl
    exact congrArg (fun p => s.setLink { s.link with reply := some { code := code, payload := p } }) hpayload
  case taken =>
    intro s1
    have htaken := exec_commandTaken_frame hr hreply hrestart hbuffer
    refine ⟨fun hcode => ?_, fun ws hws hlength => ?_, fun c hc => ?_⟩
    · rw [htaken, answerFrame_refused (parseCommand_unknown hcode)]
    · rw [htaken, answerFrame_refused (parseCommand_badLength hws hlength)]
    · obtain ⟨r, code, flags, content, hr, hcode, hpayload, hflags⟩ := answerCommand_reply c s1
      exact ⟨_, r, code, flags, content, htaken.trans (congrArg _ (answerFrame_command hc s1)), rfl, hr, hcode, hpayload,
        hflags⟩

theorem hostCommand_waits {c : HostCommand} {s : State}
    (h : s.link.reply ≠ none ∨ s.link.restart ≠ .none ∨ s.link.buffer ≠ []) :
    hostCommand c s = s.setLink (acceptFrame (encodeCommand c) s.link) := by
  refine if_neg fun hfree => ?_
  obtain ⟨hunit, hempty⟩ := Bool.and_eq_true_iff.mp hfree
  obtain ⟨hreply, hrestart⟩ := unitFree_iff.mp hunit
  exact h.elim (· hreply) fun h => h.elim (· hrestart) (· (List.isEmpty_iff.mp hempty))

/-- Settles O16: the frame of a command, taken, is the command answered, since its encoding is read back (O9). -/
theorem hostRowsGoThroughTheLink : Obligations.HostRowsGoThroughTheLink := by
  unfold Obligations.HostRowsGoThroughTheLink
  refine fun c s hwf => ⟨fun hs => ?free, fun hr hwaits => ?waits⟩
  case free =>
    obtain ⟨hr, hreply, hbuffer, hrestart⟩ := id hs
    have hempty : s.setLink { s.link with buffer := [] } = s := by
      rw [← hbuffer]
      rfl
    have htaken := exec_commandTaken_frame (s := s.setLink { s.link with buffer := [encodeCommand c] }) hr hreply hrestart rfl
    rw [exec_rowOf_ready hs hwf, htaken, answerFrame_command (commandFramesRoundTrip c hwf)]
    exact congrArg (fun u => Host.Outcome.next (answerCommand c u)) hempty.symm
  case waits =>
    have hrow : exec (rowOf c) s = .next (s.setLink (acceptFrame (encodeCommand c) s.link)) := by
      rw [exec_rowOf, hostRow_of_wf hwf, whileRunning_running hr, hostCommand_waits hwaits]
    exact ⟨fun hroom => by rw [hrow, acceptFrame_room hroom], fun hfull => by rw [hrow, acceptFrame_full hfull]⟩

/-! ## The transmitter (R163, R169, R173) -/

theorem startFrame_idle {l : Link} (h : l.sending ≠ none ∨ l.restart = .due ∨ (l.reply = none ∧ l.notices = [])) :
    startFrame l = l := by
  unfold startFrame
  split
  · rfl
  · next hstarts =>
    obtain ⟨hidle, hdue⟩ := not_or.mp hstarts
    obtain ⟨hreply, hnotices⟩ := (h.resolve_left fun hs => hidle (Option.isSome_iff_ne_none.mpr hs)).resolve_left hdue
    rw [hreply, hnotices]

section
variable {l : Link} (hidle : l.sending = none) (hdue : l.restart ≠ .due)
include hidle hdue

theorem startFrame_starts :
    startFrame l =
      match l.reply, l.notices with
      | some r, [] => startReply r l
      | some r, n :: rest => if n.kind = .ready then startNotice n rest l else startReply r l
      | none, n :: rest => startNotice n rest l
      | none, [] => l :=
  if_neg (not_or.mpr ⟨by simp [hidle], hdue⟩)

theorem startFrame_reply {r : Reply} (hreply : l.reply = some r)
    (hready : ¬∃ n rest, l.notices = n :: rest ∧ n.kind = .ready) : startFrame l = startReply r l := by
  rw [startFrame_starts hidle hdue, hreply]
  cases hnotices : l.notices with
  | nil => rfl
  | cons n rest => exact if_neg fun hkind => hready ⟨n, rest, hnotices, hkind⟩

theorem startFrame_notice {n : Notice} {rest : List Notice} (hfirst : l.reply = none ∨ n.kind = .ready)
    (hnotices : l.notices = n :: rest) : startFrame l = startNotice n rest l := by
  rw [startFrame_starts hidle hdue, hnotices]
  cases hreply : l.reply with
  | none => rfl
  | some r => exact if_pos (hfirst.resolve_left (by simp [hreply]))

end

theorem endSending_busy {l : Link} (h : l.sending ≠ none) :
    endSending l = { l with sending := none, restart := if l.restart = .replySending then .due else l.restart } := by
  obtain ⟨bytes, hbytes⟩ := Option.ne_none_iff_exists'.mp h
  rw [endSending, hbytes]

theorem endSending_idle {l : Link} (h : l.sending = none) : endSending l = l := by
  rw [endSending, h]

/-- Settles O14, by what the arbiter starts and what the end of a frame leaves. -/
theorem transmitterSendsTheReplyFirst : Obligations.TransmitterSendsTheReplyFirst := by
  unfold Obligations.TransmitterSendsTheReplyFirst
  intro s hr readyFirst
  have hstart {m : Link} (h : startFrame s.link = m) : exec .transmitStart s = .next (s.setLink m) :=
    (whileRunning_running hr).trans (congrArg (fun x => Host.Outcome.next (s.setLink x)) h)
  have hend {m : Link} (h : endSending s.link = m) : exec .frameSent s = .next (s.setLink m) :=
    (whileRunning_running hr).trans (congrArg (fun x => Host.Outcome.next (s.setLink x)) h)
  exact ⟨fun r hidle hdue hreply hready => hstart (startFrame_reply hidle hdue hreply hready),
    fun n rest hidle hdue hfirst hnotices => hstart (startFrame_notice hidle hdue hfirst hnotices),
    fun h => hstart (startFrame_idle h), fun h => hend (endSending_busy h), fun h => hend (endSending_idle h)⟩

/-! ## The notice queue (R170) -/

theorem sameNotice_iff {k : NoticeKind} {subject : Nat} {m : Notice} :
    sameNotice k subject m = true ↔ m.kind = k ∧ m.subject = subject := by
  rw [sameNotice, Bool.and_eq_true, decide_eq_true_iff, decide_eq_true_iff]

section
variable {n : Notice} {l : Link}

theorem offerLink_disabled (h : l.mask.getLsbD (noticeIndex n.kind) = false) : offerLink n l = l :=
  if_pos (by rw [kindEnabled, h]; rfl)

theorem offerLink_enabled (h : l.mask.getLsbD (noticeIndex n.kind) = true) :
    offerLink n l =
      if l.notices.any (sameNotice n.kind n.subject) then
        { l with notices := l.notices.map fun m => if sameNotice n.kind n.subject m then n else m }
      else if noticePlaces ≤ l.notices.length then { l with flags := { l.flags with noticesDropped := true } }
      else { l with notices := l.notices ++ [n] } :=
  if_neg (by rw [kindEnabled, h]; exact Bool.false_ne_true)

/-- A replacement leaves the notices of other kinds or subjects. -/
theorem map_replace_other {ms : List Notice} (h : ∀ m ∈ ms, ¬(m.kind = n.kind ∧ m.subject = n.subject)) :
    ms.map (fun m => if sameNotice n.kind n.subject m then n else m) = ms :=
  (List.map_congr_left fun m hm => if_neg (mt sameNotice_iff.mp (h m hm))).trans (List.map_id ms)

theorem offerLink_replaces {m : Notice} {before after : List Notice}
    (h : l.mask.getLsbD (noticeIndex n.kind) = true) (hl : l.notices = before ++ m :: after)
    (hm : m.kind = n.kind ∧ m.subject = n.subject)
    (hother : ∀ x ∈ before ++ after, ¬(x.kind = n.kind ∧ x.subject = n.subject)) :
    offerLink n l = { l with notices := before ++ n :: after } := by
  have hsame : sameNotice n.kind n.subject m = true := sameNotice_iff.mpr hm
  have hany : l.notices.any (sameNotice n.kind n.subject) = true :=
    List.any_eq_true.mpr ⟨m, hl ▸ List.mem_append_right _ List.mem_cons_self, hsame⟩
  have hmap : l.notices.map (fun x => if sameNotice n.kind n.subject x then n else x) = before ++ n :: after := by
    rw [hl, List.map_append, List.map_cons, if_pos hsame,
      map_replace_other fun x hx => hother x (List.mem_append_left _ hx),
      map_replace_other fun x hx => hother x (List.mem_append_right _ hx)]
  rw [offerLink_enabled h, if_pos hany, hmap]

theorem offerLink_new (h : l.mask.getLsbD (noticeIndex n.kind) = true)
    (hother : ∀ x ∈ l.notices, ¬(x.kind = n.kind ∧ x.subject = n.subject)) :
    offerLink n l =
      if 32 ≤ l.notices.length then { l with flags := { l.flags with noticesDropped := true } }
      else { l with notices := l.notices ++ [n] } := by
  refine (offerLink_enabled h).trans (if_neg fun hany => ?_)
  obtain ⟨x, hx, hsame⟩ := List.any_eq_true.mp hany
  exact hother x hx (sameNotice_iff.mp hsame)

end

/-- Settles O15: the four cases of an offer, its law by `noticeLaw_offerLink`, and the mask. -/
theorem noticeQueue : Obligations.NoticeQueue := by
  unfold Obligations.NoticeQueue
  refine ⟨fun n s => ?offer, rfl, fun m hm s hs => exec_rowOf_ready (c := .setNotices m) hs (decide_eq_true hm),
    fun s t h => ?mask⟩
  case offer =>
    intro same t
    have ht {l : Link} (h : offerLink n s.link = l) : t = s.setLink l := congrArg (fun x => s.setLink x) h
    refine ⟨fun hoff => ht (offerLink_disabled hoff), fun hon => ⟨fun before after m hl hm hother => ?_, fun hother =>
      ⟨fun hfull => ?_, fun hroom => ?_⟩⟩, noticeLaw_offerLink n⟩
    · exact ht (offerLink_replaces hon hl hm hother)
    · exact ht ((offerLink_new hon hother).trans (if_pos hfull))
    · exact ht ((offerLink_new hon hother).trans (if_neg (Nat.not_le.mpr hroom)))
  case mask =>
    obtain ⟨cause, strap, draws, pending, rfl⟩ := h.afterReset
    rfl

/-! ## Identity, status and restart (R168, R172, R173) -/

theorem identifyBytes_eq (s : State) :
    (doIdentify s).content =
      [0x16#8, 0x08#8, 1#8, match s.clock.cause with | .power => 0#8 | .pin => 1#8 | .restart => 2#8]
        ++ le 4 s.clock.now ++ le 3 (if s.clock.speedHigh then 921600 else 115200) := by
  have hcause : le 2 partCode ++ le 1 revision ++ le 1 (causeCode s.clock.cause) =
      [0x16#8, 0x08#8, 1#8, match s.clock.cause with | .power => 0#8 | .pin => 1#8 | .restart => 2#8] := by
    cases s.clock.cause <;> rfl
  exact congrArg (fun x => x ++ le 4 s.clock.now ++ le 3 (baudOf s.clock.speedHigh)) hcause

/-- Settles O18: each command's answer, READ_STATUS with the flags cleared after it. -/
theorem identityStatusAndRestart : Obligations.IdentityStatusAndRestart := by
  unfold Obligations.IdentityStatusAndRestart
  refine fun s hs => ⟨?identify, exec_rowOf_ready (c := .restart) hs rfl, ?status⟩
  case identify =>
    exact (exec_rowOf_ready (c := .identify) hs rfl).trans
      (congrArg (fun x => Host.Outcome.next (formReply 0x10 .ok x s)) (identifyBytes_eq s))
  case status =>
    intro online content answered clear
    have hmode : le 1 (surveyModeCode s.sched.mode) = [match s.sched.mode with | .run => 0#8 | .hold => 1#8] := by
      cases s.sched.mode <;> rfl
    have hview : optLe 4 (s.link.frozen.map (·.now)) =
        match s.link.frozen with | none => 0#8 :: le 4 0 | some v => 1#8 :: le 4 v.now := by
      cases s.link.frozen <;> rfl
    have hmask : le 1 s.link.mask.toNat = [s.link.mask] := congrArg ([·]) (BitVec.ofNat_toNat ..)
    have hcontent : statusBytes s = content := by
      rw [statusBytes, hmode, boolByte_eq, hview, hmask]
      rfl
    have hanswer : answerCommand .readStatus s =
        s.setLink { (formReply 0x11 .ok (statusBytes s) s).link with flags := clear } := rfl
    rw [hcontent] at hanswer
    exact (exec_rowOf_ready (c := .readStatus) hs rfl).trans (congrArg _ hanswer)

/-! ## The frozen view (R171) -/

/-- Settles O19. -/
theorem freezeAndThaw : Obligations.FreezeAndThaw := by
  unfold Obligations.FreezeAndThaw
  intro s hs view
  have hthaw {a : Answer} (h : doThaw s = a) :
      exec .thaw s = .next (formReply 0x15 a.code a.content a.state) :=
    (exec_rowOf_ready (c := .thaw) hs rfl).trans
      (congrArg (fun a : Answer => Host.Outcome.next (formReply 0x15 a.code a.content a.state)) h)
  refine ⟨exec_rowOf_ready (c := .freeze) hs rfl, fun hheld => ?held, fun hnone => ?none⟩
  case held =>
    obtain ⟨v, hv⟩ := Option.ne_none_iff_exists'.mp hheld
    exact hthaw (a := answered .ok (modLink (fun l => { l with frozen := none }) s)) (by rw [doThaw, hv])
  case none => exact hthaw (a := answered .notFrozen s) (by rw [doThaw, hnone])

end Sys2Proof.Machine
